-- ==== Sys2Proof/Word.lean ====
section
/-! DEFINITION. The words of the SP9: bytes, instruction words and cache lines (R1, R11, R35). -/

namespace Sys2Proof

/-- A byte of memory. -/
abbrev Byte := BitVec 8

/-- An instruction word of 128 bits (R35). -/
abbrev Word := BitVec 128

/-- A 64-bit register, address or memory word. -/
abbrev W64 := BitVec 64

/-- A 128-byte cache line (R11). -/
abbrev Line := BitVec 1024

end Sys2Proof
end

