-- ==== Sys2Proof/Syntax.lean ====
section
/-! DEFINITION. The instructions of the SP9 and the steps of its engines, its host and its platform: one
constructor of `Instr` for each row of the opcode table. The first 155 are instructions that a thread
executes, with the fields of their words (R35 to R57); the others are the steps of engines, host and
platform, with the names of what they act on. -/

namespace Sys2Proof

/-- Width code of an operand field (R36). -/
inductive Wd where
  | w4 | w8 | w12 | w16 | w24 | w32 | w64 | w128
deriving DecidableEq, Repr

/-- Operation type code (R39). Code 15 is reserved and has no constructor. -/
inductive Ty where
  | n4 | s4 | n8 | s8 | n16 | s16 | n32 | s32 | n64 | s64 | f16 | b16 | f32 | f64 | slot
deriving DecidableEq, Repr

/-- Rounding mode field (R48). -/
inductive Rm where
  | rne | rtz | rup | rdn
deriving DecidableEq, Repr

/-- Scope field of the memory class (R51, R71). -/
inductive Scope where
  | thread | group | team | cluster | device | domain | system | deviceRemote
deriving DecidableEq, Repr

/-- Order field of the memory class (R51). -/
inductive Order where
  | relaxed | acquire | release | acqRel
deriving DecidableEq, Repr

/-- Special registers (R38). -/
inductive SReg where
  | tid | lane | gid | team | teamdim | griddim | role | core | cluster | lcore | world | domain
  | fmode | fpflags | sp | stklim | retbase | retlim | hdl | clock | gen (f : BitVec 3) | hash
deriving DecidableEq, Repr

/-- A source operand with its kind (R37). -/
inductive Opnd where
  | slice (w : Wd) (start : BitVec 10)   -- kind 00
  | uni (w : Wd) (k : BitVec 6)          -- kind 01
  | imm (v : BitVec 10)                  -- kind 10, width code 0
  | sreg (r : SReg)                      -- kind 10, width code 1
deriving DecidableEq, Repr

/-- The destination operand field D (R35, R36). -/
structure Dst where
  w : Wd
  start : BitVec 10
deriving DecidableEq, Repr

/-- The scheduling fields that every word has (R35). -/
structure Ctl where
  reuse : Bool
  wait : BitVec 8
  setSlot : BitVec 3
  setEn : Bool
  la : BitVec 4
  neg : Bool
  gp : BitVec 3
deriving DecidableEq, Repr

/-- The fields that have the same meaning in every word (R35). -/
structure Common where
  ctl : Ctl
  ty : Ty
  d : Dst
  a : Opnd
  b : Opnd
  c : Opnd
deriving DecidableEq, Repr

/-- The lane class (R48). -/
structure LaneF extends Common where
  slot : BitVec 3
  aux2 : BitVec 6
  aux1 : BitVec 6
  pneg : Bool
  ps : BitVec 3
  pd : BitVec 3
  subop : BitVec 4
  rm : Rm
deriving DecidableEq, Repr

/-- The immediate class of MOVI (R49). -/
structure ImmF extends Common where
  imm32 : BitVec 32
deriving DecidableEq, Repr

/-- The control class (R50). The shed bit is the constructor's: XFER or XFER.shed. -/
structure CtlF extends Common where
  arg24 : BitVec 24
  cr : BitVec 4
  m : BitVec 3
deriving DecidableEq, Repr

/-- The memory class (R51). -/
structure MemF extends Common where
  offset : BitVec 24
  vec : BitVec 2
  evict : BitVec 3
  scope : Scope
  order : Order
deriving DecidableEq, Repr

/-- The tile class (R52). -/
structure TileF extends Common where
  hp : BitVec 8
  peer : BitVec 6
  level : Bool
  h : BitVec 8
deriving DecidableEq, Repr

/-- The copy class (R53). -/
structure CopyF extends Common where
  dir : Bool
  arm : BitVec 3
  parity : Bool
  ben : Bool
  bmem : Bool
  claim : Bool
  hb : BitVec 8
  h : BitVec 8
  ch : BitVec 4
deriving DecidableEq, Repr

/-- The matrix class (R54). -/
structure MatF extends Common where
  hc : BitVec 8
  hb : BitVec 8
  ha : BitVec 8
  cr : BitVec 4
  fb : BitVec 3
  fa : BitVec 3
deriving DecidableEq, Repr

/-- The format class (R55). Sub-functions with a row of their own are constructors. -/
structure FmtF extends Common where
  hb : BitVec 8
  ha : BitVec 8
  subop : BitVec 4
  rm : Rm
  f : BitVec 3
deriving DecidableEq, Repr

/-- The spawn class (R56). -/
structure SpawnF extends Common where
  queue : BitVec 4
  nargs : BitVec 7
deriving DecidableEq, Repr

/-- The system class (R56). -/
structure SysF extends Common where
  mark : BitVec 16
  entry : BitVec 8
  subop : BitVec 4
deriving DecidableEq, Repr

/-- The Causeway class (R57). -/
structure CwF extends Common where
  pod : Bool
  op : BitVec 3
  ten : Bool
  tag : BitVec 8
  h : BitVec 8
  ch : BitVec 4
deriving DecidableEq, Repr

/-- The name of a thread: its team (a name unique on the device), its group and its home lane (R23). -/
structure TRef where
  team : Nat
  gid : Nat
  lane : Nat
deriving DecidableEq, Repr

/-- A flit (R411): header fields and up to 128 bytes of payload. -/
structure Flit where
  gen : BitVec 16
  seq : BitVec 48
  tag : BitVec 8
  ev : Bool
  kind : BitVec 4
  world : BitVec 6
  src : BitVec 9
  dst : BitVec 9
  last : BitVec 7
  first : BitVec 7
  xfer : BitVec 22
  line : BitVec 45
  payload : List Byte
deriving DecidableEq, Repr

/-- A command taken from a command ring: the ring's world, the record's sequence number and the host
address of its completion record (R450). -/
structure Cmd where
  ring : Nat
  seq : W64
  done : W64
deriving DecidableEq, Repr

/-- The instructions and steps of the SP9, one constructor for each row of the opcode table. -/
inductive Instr where
  -- group 0x0 (R106)
  | nop (f : LaneF) | mov (f : LaneF) | movi (f : ImmF) | sel (f : LaneF)
  | add (f : LaneF) | sub (f : LaneF) | mul (f : LaneF) | mulh (f : LaneF) | mad (f : LaneF)
  | addc (f : LaneF) | subb (f : LaneF) | min (f : LaneF) | max (f : LaneF) | abs (f : LaneF)
  | neg (f : LaneF) | sadd (f : LaneF) | ssub (f : LaneF) | and (f : LaneF) | or (f : LaneF)
  | xor (f : LaneF) | not (f : LaneF) | andn (f : LaneF) | shl (f : LaneF) | shr (f : LaneF)
  | sar (f : LaneF) | rot (f : LaneF) | popc (f : LaneF) | clz (f : LaneF) | brev (f : LaneF)
  | bfx (f : LaneF) | bfi (f : LaneF) | cmp (f : LaneF) | plog (f : LaneF) | addr (f : LaneF)
  | pack (f : LaneF) | unpack (f : LaneF)
  -- group 0x1 (R111)
  | fadd (f : LaneF) | fsub (f : LaneF) | fmul (f : LaneF) | fma (f : LaneF) | fmin (f : LaneF)
  | fmax (f : LaneF) | fcmp (f : LaneF) | frcp (f : LaneF) | frsq (f : LaneF) | fsqrt (f : LaneF)
  | fdiv (f : LaneF) | fexp2 (f : LaneF) | flog2 (f : LaneF) | fsin (f : LaneF) | fcos (f : LaneF)
  | ftanh (f : LaneF) | fclass (f : LaneF) | frnd (f : LaneF) | cvt (f : LaneF) | fscale (f : LaneF)
  -- group 0x2 (R120 to R128)
  | shfl (f : LaneF) | vote (f : LaneF) | gred (f : LaneF) | gscan (f : LaneF) | gets (f : LaneF)
  | sets (f : LaneF) | kmov (f : LaneF) | matchLanes (f : LaneF) | rdclk (f : LaneF) | elect (f : LaneF)
  -- group 0x3 (R138)
  | ld (f : MemF) | st (f : MemF) | ldk (f : MemF) | atom (f : MemF) | atomr (f : MemF) | cas (f : MemF)
  | fence (f : MemF) | pref (f : MemF) | spill (f : MemF) | fill (f : MemF) | salloc (f : MemF)
  | cmo (f : MemF)
  -- group 0x4 (R180)
  | prep (f : CtlF) | prepv (f : CtlF) | xfer (f : CtlF) | xferShed (f : CtlF) | xcall (f : CtlF)
  | ret (f : CtlF) | cset (f : CtlF) | sign (f : CtlF) | join (f : CtlF) | exit (f : CtlF)
  | trap (f : CtlF) | brk (f : CtlF) | yield (f : CtlF) | sethdl (f : CtlF) | hret (f : CtlF)
  | icinv (f : CtlF) | wmclr (f : CtlF) | sleep (f : CtlF)
  -- group 0x5 (R204)
  | talloc (f : TileF) | tfree (f : TileF) | tld (f : TileF) | tst (f : TileF) | tfill (f : TileF)
  | tinfo (f : TileF) | tbind (f : TileF)
  -- group 0x6 (R226)
  | cpy (f : CopyF) | cpys (f : CopyF) | cpym (f : CopyF) | cpya (f : CopyF) | cpyx (f : CopyF)
  | mile (f : CopyF) | mileFault (f : CopyF) | binit (f : CopyF) | barr (f : CopyF) | bexp (f : CopyF)
  | bwait (f : CopyF) | btest (f : CopyF)
  -- group 0x7 (R242)
  | mma (f : MatF) | tmma (f : MatF) | tmmac (f : MatF) | mfin (f : MatF)
  -- group 0x8 (R282)
  | fcvti (f : FmtF) | fcvto (f : FmtF) | fqnt (f : FmtF) | fdqnt (f : FmtF) | fload (f : FmtF)
  | floadClr (f : FmtF) | fstat (f : FmtF) | fstatHash (f : FmtF) | fsync (f : FmtF) | fmode (f : FmtF)
  -- group 0x9 (R300)
  | spawn (f : SpawnF) | wput (f : SpawnF) | wtake (f : SpawnF) | qidle (f : SpawnF) | qtest (f : SpawnF)
  | launch (f : SpawnF) | lwait (f : SpawnF)
  -- group 0xA (R331, R342, R376, R399)
  | tlbiVa (f : SysF) | tlbiRange (f : SysF) | tlbiDom (f : SysF) | tlbiWorld (f : SysF)
  | xlate (f : SysF) | gate (f : SysF) | gret (f : SysF) | tktTurn (f : SysF) | tktLap (f : SysF)
  | ordmark (f : SysF) | hashrd (f : SysF) | psaved (f : SysF)
  -- group 0xB (R413)
  | rput (f : CwF) | rget (f : CwF) | cred (f : CwF) | credb (f : CwF) | fbar (f : CwF)
  | fbwait (f : CwF) | fevt (f : CwF)
  -- steps of the engines, in the order of the table
  | trapDelivery (t : TRef) | memoryAccessComplete (op : Nat) | writeBufferDrain (entry : Nat)
  | recallComplete (op : Nat) | stackWindowTransfer (team gid line : Nat)
  | returnStackTransfer (t : TRef) (fill : Bool) | waymarkPrefetchDone (t : TRef) (m : Nat) | sleepExpiry (t : TRef)
  | convergenceDeadlock (team : Nat) | tallocGrant (op : Nat) | tileDeadlock (core : Nat) | tileRelease (tile : Nat)
  | tileOpComplete (op : Nat) | copyDeliveryUnit (copy : Nat) | copyComplete (copy : Nat) | copyFault (copy : Nat)
  | cpymGather (g : Nat) | mmaTeamComplete (g : Nat) | tmmaComplete (op : Nat) | tmmacRendezvous (g : Nat)
  | tmmacComplete (g : Nat) | formatOpComplete (op : Nat) | imageVerifyDone (job : Nat) | slotDrainDone (w f : Nat)
  | slotReconfigDone (w f : Nat) | slotReload (w f : Nat) | laybyTimerExpiry (cluster n : Nat)
  | formedGroupStart (formed core : Nat) | spawnPlacement (cluster : Nat) | quiescenceClose (set : Nat)
  | dispatchLaunch (w q : Nat) | dependenceMet (launch dep : Nat) | teamResidence (launch core : Nat)
  | launchEnd (launch : Nat) | contextSave (team : Nat) | contextRestore (team core : Nat) (intact : Bool)
  | quantumExpiry (part : Nat) | worldSwitch (part : Nat) | timeCapReached (part : Nat) | periodStart (part : Nat)
  | quietPointSave (team : Nat) | g1Expiry (launch : Nat) | g2Expiry (launch : Nat) | ladderLapse (launch : Nat)
  | faultSwap (team : Nat) | faultRecordWrite (w : Nat) | dbmSwapDone (w : Nat) | pullTimeout (w : Nat) (ipa : W64)
  | gateSlotRelease (team gid : Nat) | turnStart (team : Nat) | replayHoldTimeout (op : Nat) | tollgatePass (op : Nat)
  | flitWrite (x : Flit) | flitReadRequest (x : Flit) | flitReadData (x : Flit) | flitRmwRequest (x : Flit)
  | flitRmwResult (x : Flit) | flitAcknowledgement (x : Flit) | flitContribution (x : Flit) | flitRelease (x : Flit)
  | remoteTimeout (req : Nat) | stage2Event (fault : Nat) | firmwareVerifyDone | ethernetFrameSent (port : Nat)
  | instructionFetchDone (t : TRef) | translationOpComplete (op : Nat) | gateCallComplete (team gid : Nat)
  | spawnEngineComplete (op : Nat) | fabricBarrierArrival (op : Nat) | barrierUpdateComplete (op : Nat)
  -- steps that come from outside: registers, command rings, TDISP, SPDM and the platform
  | qtailDoorbell (w q : Nat) (tail : W64) | notify (w : Nat) (v : W64) | priResponse (fault : Nat) (ok : Bool)
  | atsInvalidation (w : Nat) (host : W64) (bytes : Nat) | dbmctlSwap (w : Nat) (v : W64)
  | pullComplete (w : Nat) (ipa : W64) (bytes : List Byte) | flitRetransmit (port : Nat)
  | barrierBroken (w : Nat) (pod : Bool) (n : Nat) | fbcfgBrkClear (w : Nat) (pod : Bool) (n : Nat)
  | fbcfgOvrClear (w : Nat) (pod : Bool) (n : Nat) | pmcntOvfClear (w n : Nat)
  | registerWrite (fn off : Nat) (v : W64) | krtailDoorbell (w : Nat) (tail : W64)
  | krsynctCheck (w : Nat) (tag : W64) | bind (c : Cmd) (part : Nat) | unbind (c : Cmd)
  | s2map (c : Cmd) (ipa : W64) (size : Nat) (pa : W64) (r w x : Bool) (tensor : Nat) (pull : Bool)
  | s2unmap (c : Cmd) (ipa : W64) (size : Nat) | s2refuse (c : Cmd) (w : Nat) (id : Nat)
  | tdef (c : Cmd) (index : Nat) (tensor : BitVec 32) (base : W64) | trekey (c : Cmd) (index : Nat)
  | tretire (c : Cmd) (index : Nat) | keyreg (c : Cmd) (index : Nat) (key : Nat) | keydrop (c : Cmd) (index : Nat)
  | imgput (c : Cmd) (addr : W64) | fkeyLoad (c : Cmd) (gen : BitVec 16) (key : Nat)
  | fkeySend (c : Cmd) (gen : BitVec 16) | preempt (c : Cmd) (queue : Nat) (ticket : Nat)
  | wexport (c : Cmd) (chain buffer : W64) | wimport (c : Cmd) (buffer : W64)
  | pullset (c : Cmd) (ipa : W64) (bytes : Nat) (source : Nat) | partset (c : Cmd) (desc : BitVec 1024)
  | span (c : Cmd) (w : Nat) (dom pod : List Nat) | fenceCoreOrPage (c : Cmd) (page : Bool) (n : Nat)
  | lockInterfaceRequest (w : Nat) | startInterfaceRequest (w : Nat) (ide : Bool) | stopInterfaceRequest (w : Nat)
  | tdispError (w : Nat) | spdmSessionEstablish (w key : Nat) | keyUpdate (w : Nat) | getMeasurements (index : Nat)
  | perstRelease | powerLoss | thermalTrip | fclkAdjust (mhz : Nat)
  | eccError (place : Nat) (index : Nat) (corrected : Bool) | patrolScrub (line : Nat) | mgfwcmdGo | hostLinkDown
  | ettxtDoorbell (port : Nat) (tail : W64) | etrxtDoorbell (port : Nat) (tail : W64)
  | ethernetFrameReceived (port : Nat) (frame : List Byte) (bad : Bool) | hostLinkRetrain | perstAssert
  | keheadWrite (v : W64)
deriving DecidableEq, Repr

end Sys2Proof
end

