-- ==== Sys2Proof/WellFormed.lean ====
section
/-! DEFINITION. The checks that an instruction word must pass before it may issue (R47, checks 2 to 4):
what its operands, its class fields, its type and its alignment may be (R35 to R57 and the entries). -/

namespace Sys2Proof

/-- Width in bits of a width code (R36). -/
def Wd.bits : Wd → Nat
  | .w4 => 4 | .w8 => 8 | .w12 => 12 | .w16 => 16 | .w24 => 24 | .w32 => 32 | .w64 => 64 | .w128 => 128

/-- Width in bits of a type; 0 for the slot type, whose width its sheet states (R39, R59). -/
def Ty.bits : Ty → Nat
  | .n4 | .s4 => 4 | .n8 | .s8 => 8 | .n16 | .s16 | .f16 | .b16 => 16
  | .n32 | .s32 | .f32 => 32 | .n64 | .s64 | .f64 => 64 | .slot => 0

def Ty.isFloat : Ty → Bool
  | .f16 | .b16 | .f32 | .f64 => true
  | _ => false

def Ty.isSigned : Ty → Bool
  | .s4 | .s8 | .s16 | .s32 | .s64 => true
  | _ => false

/-- The integer types, codes 0 to 9. -/
def Ty.isInt (t : Ty) : Bool := !t.isFloat && t != .slot

/-- The number of a type code (R39). -/
def Ty.code : Ty → Nat
  | .n4 => 0 | .s4 => 1 | .n8 => 2 | .s8 => 3 | .n16 => 4 | .s16 => 5 | .n32 => 6 | .s32 => 7
  | .n64 => 8 | .s64 => 9 | .f16 => 10 | .b16 => 11 | .f32 => 12 | .f64 => 13 | .slot => 14

/-- The type of a code; code 15 is reserved (R39). -/
def Ty.ofCode : Nat → Option Ty
  | 0 => some .n4 | 1 => some .s4 | 2 => some .n8 | 3 => some .s8 | 4 => some .n16 | 5 => some .s16
  | 6 => some .n32 | 7 => some .s32 | 8 => some .n64 | 9 => some .s64 | 10 => some .f16
  | 11 => some .b16 | 12 => some .f32 | 13 => some .f64 | 14 => some .slot | _ => none

/-- Width of a special register (R38). -/
def SReg.bits : SReg → Nat
  | .team | .teamdim | .griddim | .sp | .stklim | .retbase | .retlim | .hdl | .clock | .hash => 64
  | _ => 32

/-- The registers that SETS may write (R38, R127). -/
def SReg.writable : SReg → Bool
  | .fmode | .fpflags | .sp => true
  | _ => false

/-- The number of a special register (R38). -/
def SReg.num : SReg → Nat
  | .tid => 0x000 | .lane => 0x001 | .gid => 0x002 | .team => 0x003 | .teamdim => 0x004
  | .griddim => 0x005 | .role => 0x006 | .core => 0x007 | .cluster => 0x008 | .lcore => 0x009
  | .world => 0x00A | .domain => 0x00B | .fmode => 0x00C | .fpflags => 0x00D | .sp => 0x00E
  | .stklim => 0x00F | .retbase => 0x010 | .retlim => 0x011 | .hdl => 0x012 | .clock => 0x013
  | .gen f => 0x018 + f.toNat | .hash => 0x020

/-- The special register of a number; a number not listed names none (R38). -/
def SReg.ofNum (n : Nat) : Option SReg :=
  match n with
  | 0x000 => some .tid | 0x001 => some .lane | 0x002 => some .gid | 0x003 => some .team
  | 0x004 => some .teamdim | 0x005 => some .griddim | 0x006 => some .role | 0x007 => some .core
  | 0x008 => some .cluster | 0x009 => some .lcore | 0x00A => some .world | 0x00B => some .domain
  | 0x00C => some .fmode | 0x00D => some .fpflags | 0x00E => some .sp | 0x00F => some .stklim
  | 0x010 => some .retbase | 0x011 => some .retlim | 0x012 => some .hdl | 0x013 => some .clock
  | 0x018 => some (.gen 0) | 0x019 => some (.gen 1) | 0x01A => some (.gen 2) | 0x01B => some (.gen 3)
  | 0x01C => some (.gen 4) | 0x01D => some (.gen 5) | 0x01E => some (.gen 6) | 0x01F => some (.gen 7)
  | 0x020 => some .hash
  | _ => none

/-- The operand whose field and kind are all zero: an unused operand (R37). -/
def Opnd.zero : Opnd := .slice .w4 0

def Dst.zero : Dst := ⟨.w4, 0⟩

/-- Own width of an operand in bits: a small immediate has its ten bits, a special register its width. -/
def Opnd.bits : Opnd → Nat
  | .slice w _ => w.bits
  | .uni w _ => w.bits
  | .imm _ => 10
  | .sreg r => r.bits

/-- Alignment of wide operands (R36, R37). -/
def Opnd.alignOk : Opnd → Bool
  | .slice .w64 s => s.toNat % 8 = 0
  | .slice .w128 s => s.toNat % 8 = 0
  | .uni .w64 k => k.toNat % 2 = 0
  | .uni .w128 k => k.toNat % 4 = 0
  | _ => true

def Dst.alignOk (d : Dst) : Bool :=
  match d.w with
  | .w64 | .w128 => d.start.toNat % 8 = 0
  | _ => true

/-- What an entry requires of the operand D. -/
inductive DReq where
  | unused
  | any                 -- a slice operand of any width
  | typed               -- a slice operand under R39
  | width (w : Wd)      -- a slice operand of one width
  | uniform             -- LDK: uniform registers (R142)
  | special             -- SETS: a special register (R127)
deriving DecidableEq, Repr

/-- What an entry requires of a source operand. -/
inductive OReq where
  | unused
  | value               -- any kind, under R39
  | plain               -- any kind and width, read by a rule of the entry's own
  | addr                -- a 64-bit slice or a uniform pair (R131)
  | code (max : Nat)    -- kind 10, width code 0: a number up to max
  | regs (w : Wd)       -- a slice or uniform registers of one width
  | frag                -- a slice of 128 bits, kind 00 (R248)
  | name                -- a slice named with width code 0, kind 00
  | ssreg               -- a special register (R127)
  | data                -- a slice or a uniform register of any width
deriving DecidableEq, Repr

/-- R39 on a floating operand: a slice operand has exactly the type's width. -/
def fwOk (t : Ty) (w : Wd) : Bool := !t.isFloat || w.bits = t.bits

def DReq.ok (t : Ty) (d : Dst) : DReq → Bool
  | .unused => d = Dst.zero
  | .any => true
  | .typed => fwOk t d.w
  | .width w => d.w = w
  | .uniform =>
    (d.w = .w32 || d.w = .w64 || d.w = .w128) && d.start.toNat < 64
  | .special => d.w = .w8 && ((SReg.ofNum d.start.toNat).map SReg.writable).getD false

def DReq.alignOk (d : Dst) : DReq → Bool
  | .uniform =>
    match d.w with
    | .w64 => d.start.toNat % 2 = 0
    | .w128 => d.start.toNat % 4 = 0
    | _ => true
  | .special => true
  | _ => d.alignOk

def OReq.ok (t : Ty) (o : Opnd) : OReq → Bool
  | .unused => o = Opnd.zero
  | .value => (match o with | .slice w _ => fwOk t w | _ => true)
  | .plain => true
  | .addr => (match o with | .slice w _ => w = .w64 | .uni w _ => w = .w64 | _ => false)
  | .code m => (match o with | .imm v => v.toNat ≤ m | _ => false)
  | .regs w => (match o with | .slice v _ => v = w | .uni v _ => v = w | _ => false)
  | .frag => (match o with | .slice v _ => v = .w128 | _ => false)
  | .name => (match o with | .slice v _ => v = .w4 | _ => false)
  | .ssreg => (match o with | .sreg _ => true | _ => false)
  | .data => (match o with | .slice _ _ => true | .uni _ _ => true | _ => false)

/-- The latency rule of an instruction (R41). -/
inductive Latency where
  | fixed      -- L and set-enable are 0
  | variable   -- L = 15 needs set-enable
  | stall      -- GATE, GRET, PSAVED: L, set-enable and set-slot are 0
deriving DecidableEq, Repr

def Latency.ok (c : Ctl) : Latency → Bool
  | .fixed => c.la = 0 && !c.setEn
  | .variable => c.la != 15 || c.setEn
  | .stall => c.la = 0 && !c.setEn && c.setSlot = 0

/-- The form of an instruction: the types it accepts, what its operands must be, and its entry's other
conditions on the word, sorted by the trap they raise (R47). -/
structure Form where
  types : List Ty
  d : DReq
  a : OReq
  b : OReq
  c : OReq
  lat : Latency
  enc : Bool            -- further conditions whose breach is ILLEGAL_ENCODING
  ty : Bool := true     -- further conditions whose breach is ILLEGAL_TYPE
  al : Bool := true     -- further conditions whose breach is OPERAND_ALIGN
deriving DecidableEq, Repr

def tyI : List Ty := [.n4, .s4, .n8, .s8, .n16, .s16, .n32, .s32, .n64, .s64]
def tyF : List Ty := [.f16, .b16, .f32, .f64]
def tyH : List Ty := [.f16, .b16, .f32]
/-- Every type, of an entry that judges its type with the word (R127). -/
def tyAll : List Ty := tyI ++ tyF ++ [.slot]
def tyA : List Ty := [.n32, .s32, .n64, .s64]
def tyP : List Ty := [.n4, .s4, .n8, .s8, .n16, .s16, .n32, .s32]
def tyM : List Ty := [.n8, .s8, .n16, .s16, .n32, .s32, .n64, .s64, .f16, .b16, .f32, .f64]

/-- Class fields of the lane class that an entry lists (R48, R105). -/
structure LaneUse where
  slot : Bool := false
  aux2 : Bool := false
  aux1 : Bool := false
  p : Bool := false      -- ps and pneg
  pd : Bool := false
  sub : Nat := 0         -- number of sub-function codes defined; 0 when the field is not listed
  rm : Bool := false

/-- A lane class field that the entry does not list is zero; the slot field is zero unless the type is
14; pd is not 7; rm is 00 for an integer type (R47, R48). -/
def LaneUse.ok (u : LaneUse) (f : LaneF) : Bool :=
  (f.slot = 0 || (u.slot && f.ty = .slot)) && (f.aux2 = 0 || u.aux2) && (f.aux1 = 0 || u.aux1) &&
  ((f.ps = 0 && !f.pneg) || u.p) && (if u.pd then f.pd != 7 else f.pd = 0) &&
  (if u.sub = 0 then f.subop = 0 else f.subop.toNat < u.sub) && (f.rm = .rne || u.rm)

def laneForm (f : LaneF) (types : List Ty) (d : DReq) (a b c : OReq) (u : LaneUse)
    (enc : Bool := true) (ty : Bool := true) (al : Bool := true) : Form :=
  { types, d, a, b, c, lat := .fixed, enc := u.ok f && enc, ty, al }

/-- Codes of a memory instruction's order, scope, eviction and vector fields (R138). -/
def memForm (f : MemF) (types : List Ty) (d : DReq) (a b c : OReq) (orders : List Order)
    (scopes : Option (List Scope)) (evict : Bool) (vec : Bool) (offset : Bool)
    (enc : Bool := true) (ty : Bool := true) : Form :=
  { types, d, a, b, c, lat := .variable, ty,
    enc := orders.contains f.order && (scopes.map (·.contains f.scope)).getD true &&
      (evict || f.evict = 0) && (if vec then f.vec != 3 else f.vec = 0) &&
      (offset || f.offset = 0) && enc }

/-- Number of elements of a vector code (R51, R132). -/
def vecCount (v : BitVec 2) : Nat := if v = 1 then 2 else if v = 2 then 4 else 1

/-- Width of the data operand of LD and ST (R132): exact for a vector, R39 for one element, where a floating operand of
kind 00 has the type's width. -/
def memDataOk (f : MemF) (o : Opnd) : Bool :=
  match o with
  | .slice w _ => if f.vec = 0 then fwOk f.ty w else w.bits = vecCount f.vec * f.ty.bits
  | .uni w _ => f.vec = 0 || w.bits = vecCount f.vec * f.ty.bits
  | _ => f.vec = 0

/-- The types that an atomic operation code accepts (R143). -/
def atomTypes (op : Nat) : List Ty :=
  if op = 3 || op = 4 || op = 5 || op = 9 then tyA
  else if op = 7 || op = 8 then [.n32, .n64]
  else tyA ++ tyF

def Opnd.immVal : Opnd → Nat
  | .imm v => v.toNat
  | _ => 0

def ctlForm (f : CtlF) (a b : OReq) (arg24 cr m : Bool) (enc : Bool := true) : Form :=
  { types := [.n4], d := .unused, a, b, c := .unused, lat := .fixed,
    enc := (f.arg24 = 0 || arg24) && (f.cr = 0 || cr) && (f.m = 0 || m) && enc }

/-- The start slice of an operand that names one slice. -/
def Opnd.start : Opnd → Nat
  | .slice _ s => s.toNat
  | _ => 0

/-- A range sF..sL of at most `most` slices (R155, R183, R399). -/
def rangeOk (a b : Opnd) (most : Nat) : Bool := a.start ≤ b.start && b.start - a.start + 1 ≤ most

def tileForm (f : TileF) (types : List Ty) (d : DReq) (a b c : OReq) (level bindF : Bool) : Form :=
  { types, d, a, b, c, lat := .variable,
    enc := (f.hp = 0 || bindF) && (f.peer = 0 || bindF) && (!f.level || level) }

/-- Class fields of the copy class that an entry lists (R226). -/
structure CopyUse where
  dir : Bool := false
  arm : Bool := false
  parity : Bool := false
  ben : Bool := false
  claim : Bool := false
  h : Bool := false
  ch : Bool := false
  mustBen : Bool := false

/-- The fields of a copy word that its form does not use are zero (R53, R226). Where no barrier is named, operand C is an unused
operand, while hb and bmem are not looked at (DEDUCED, log entry 99). -/
def CopyUse.ok (u : CopyUse) (f : CopyF) : Bool :=
  (!f.dir || u.dir) && (f.arm = 0 || u.arm) && (!f.parity || u.parity) && (!f.ben || u.ben) &&
  (!f.bmem || u.ben) && (!f.claim || (u.claim && f.ben)) &&
  (f.hb = 0 || (u.ben && !(f.ben && f.bmem))) && (f.h = 0 || u.h) && (f.ch = 0 || u.ch) &&
  (f.ben || !u.mustBen)

/-- The barrier operand C (R226): an index of any readable kind with .bt, an address with .bm, and the
immediate 0 when no object is named. -/
def barrierOk (f : CopyF) : Bool :=
  if !f.ben then f.c = .imm 0
  else !f.bmem || OReq.addr.ok .n32 f.c

def copyForm (f : CopyF) (types : List Ty) (d : DReq) (a b c : OReq) (u : CopyUse) (enc : Bool := true) :
    Form :=
  { types, d, a, b, c, lat := .variable, enc := u.ok f && enc }

/-- A matrix instruction of types 10 to 12 names no slots (R240). -/
def matSlotsOk (f : MatF) : Bool := !tyH.contains f.ty || (f.fa = 0 && f.fb = 0)

/-- Two runs of slices have a slice in common. -/
def overlap (s1 n1 s2 n2 : Nat) : Bool := decide (s1 < s2 + n2) && decide (s2 < s1 + n1)

/-- The overlap rule of an MMA whose fragments A and B take na and nb slices (R248). -/
def mmaOverlapOk (f : MatF) (na nb : Nat) : Bool :=
  !overlap f.d.start.toNat 128 f.a.start na && !overlap f.d.start.toNat 128 f.b.start nb &&
  (f.c.start = f.d.start.toNat || !overlap f.d.start.toNat 128 f.c.start 128)

def fmtForm (f : FmtF) (types : List Ty) (d : DReq) (a : OReq) (tiles rm : Bool) (subs : Nat)
    (enc : Bool := true) : Form :=
  { types, d, a, b := .unused, c := .unused, lat := .variable,
    enc := ((f.ha = 0 && f.hb = 0) || tiles) && (f.rm = .rne || rm) && f.subop.toNat < subs && enc }

def spawnForm (f : SpawnF) (types : List Ty) (d : DReq) (a b c : OReq) (queue nargs : Bool)
    (enc : Bool := true) : Form :=
  { types, d, a, b, c, lat := .variable,
    enc := (f.queue = 0 || queue) && (f.nargs = 0 || nargs) && enc }

def sysForm (f : SysF) (types : List Ty) (d : DReq) (a b c : OReq) (lat : Latency) (mark entry : Bool)
    (subs : Nat) (enc : Bool := true) : Form :=
  { types, d, a, b, c, lat,
    enc := (f.mark = 0 || mark) && (f.entry = 0 || entry) && f.subop.toNat < subs && enc }

/-- Operand B of TLBI and XLATE: a slice, a uniform register or an immediate (R330). -/
def Opnd.kept : Opnd → Bool
  | .sreg _ => false
  | _ => true

def cwForm (f : CwF) (types : List Ty) (d : DReq) (a b c : OReq) (pod ten tag h ch : Bool) (ops : Nat)
    (enc : Bool := true) : Form :=
  { types, d, a, b, c, lat := .variable,
    enc := (!f.pod || pod) && (!f.ten || ten) && (f.tag = 0 || tag) && (f.h = 0 || h) &&
      (f.ch = 0 || ch) && f.op.toNat < ops && enc }

/-- A barrier number given as an immediate lies in range (R413). -/
def fbNumOk (f : CwF) : Bool :=
  match f.b with
  | .imm v => v.toNat ≤ (if f.pod then 7 else 31)
  | _ => true

/-- Operand C of FEVT (R419). -/
def fevtOk (f : CwF) : Bool :=
  match f.c with
  | .slice .w64 _ => f.h = 0
  | .uni .w64 _ => f.h = 0
  | .slice .w128 _ => false
  | .uni .w128 _ => false
  | .imm v => v != 0x3FF || f.h = 0
  | _ => true

/-- Width that KMOV writes (R126). -/
def kmovBits (f : LaneF) : Nat :=
  match f.a with
  | .slice w _ => w.bits
  | .uni w _ => w.bits
  | .imm _ => if f.ty.bits = 64 then 64 else 32
  | .sreg r => r.bits

/-- Number of uniform registers that a width touches. -/
def uniCount (bits : Nat) : Nat := if bits = 128 then 4 else if bits = 64 then 2 else 1

/-- The rules of SHFL's B, aux1 and aux2 by mode (R121). -/
def shflOk (f : LaneF) : Bool :=
  match f.subop.toNat with
  | 0 => f.aux1 = 0 && f.aux2 = 0
  | 1 => f.b = Opnd.zero && f.aux2 = 0
  | 2 => f.b = Opnd.zero && f.aux1.toNat < 32 && f.aux2 = 0
  | 3 => f.b = Opnd.zero && f.aux1.toNat < 32 && f.aux2 = 0
  | _ => f.b = Opnd.zero && f.aux1.toNat < 32 && f.aux2.toNat ≤ 5

/-- The type a CVT converts from (R117). -/
def cvtFrom (f : LaneF) : Ty := (Ty.ofCode f.subop.toNat).getD .slot

/-- The forms of groups 0x0 to 0x2 (R106, R111, R121 to R128). -/
def laneInstrForm : Instr → Option Form
  | .nop f => laneForm f [.n4] .unused .unused .unused .unused {}
  | .mov f => laneForm f (tyI ++ tyF ++ [.slot]) .typed .value .unused .unused { slot := true }
  | .movi f => some { types := tyI ++ tyH, d := .typed, a := .unused, b := .unused, c := .unused,
                      lat := .fixed,
                      enc := !(f.ty = .f16 || f.ty = .b16) || f.imm32.toNat < 2 ^ 16 }
  | .sel f => laneForm f (tyI ++ tyF ++ [.slot]) .typed .value .value .unused { p := true, slot := true }
  | .add f | .sub f | .mul f | .mulh f | .min f | .max f | .sadd f | .ssub f | .and f | .or f
  | .xor f | .andn f | .shl f | .shr f | .sar f | .rot f => laneForm f tyI .typed .value .value .unused {}
  | .mad f => laneForm f tyI .typed .value .value .value {}
  | .addc f | .subb f => laneForm f tyI .typed .value .value .unused { pd := true, p := true }
  | .abs f => laneForm f [.s4, .s8, .s16, .s32, .s64] .typed .value .unused .unused {}
  | .neg f | .not f | .popc f | .clz f | .brev f => laneForm f tyI .typed .value .unused .unused {}
  | .bfx f => laneForm f tyI .typed .value .unused .unused { aux1 := true, aux2 := true }
      (f.aux1.toNat + f.aux2.toNat + 1 ≤ f.ty.bits)
  | .bfi f => laneForm f tyI .typed .value .value .unused { aux1 := true, aux2 := true }
      (f.aux1.toNat + f.aux2.toNat + 1 ≤ f.ty.bits)
  | .cmp f => laneForm f tyI .unused .value .value .unused { sub := 6, pd := true, p := true }
  | .plog f => laneForm f [.n4] .unused .unused .unused .unused
      { sub := 4, pd := true, p := true, aux1 := true }
      (f.aux1.toNat < 16 && (f.subop != 3 || f.aux1 = 0))
  | .addr f => laneForm f tyA (.width .w64) .addr .value .unused { aux1 := true } (f.aux1.toNat ≤ 7)
  | .pack f => laneForm f tyP .any .plain .plain .unused { sub := 2 } (f.d.w.bits = 2 * f.ty.bits)
  | .unpack f => laneForm f tyP .any .plain .unused .unused { aux1 := true }
      ((f.aux1.toNat + 1) * f.ty.bits ≤ f.a.bits)
  | .fadd f | .fsub f | .fmul f =>
      laneForm f (tyF ++ [.slot]) .typed .value .value .unused { rm := true, slot := true }
  | .fma f => laneForm f (tyF ++ [.slot]) .typed .value .value .value { rm := true, slot := true }
  | .fmin f | .fmax f => laneForm f (tyF ++ [.slot]) .typed .value .value .unused { slot := true }
  | .fcmp f => laneForm f (tyF ++ [.slot]) .unused .value .value .unused
      { sub := 8, pd := true, p := true, slot := true }
  | .frcp f | .frsq f | .fsqrt f | .fexp2 f | .flog2 f | .fsin f | .fcos f | .ftanh f =>
      laneForm f tyH .typed .value .unused .unused { rm := true }
  | .fdiv f => laneForm f tyH .typed .value .value .unused { rm := true }
  | .fclass f => laneForm f tyF .typed .value .unused .unused {}
  | .frnd f => laneForm f tyF .typed .value .unused .unused { rm := true, sub := 2 }
  | .cvt f => laneForm f (tyI ++ tyF) .typed .plain .unused .unused { rm := true, sub := 14 }
      (f.ty != .slot && (match f.a with | .slice w _ => fwOk (cvtFrom f) w | _ => true))
      (f.ty != cvtFrom f && !(f.ty.isInt && (cvtFrom f).isInt))
  | .fscale f => laneForm f tyF .typed .value .plain .unused { rm := true }
  | .shfl f => laneForm f (tyI ++ tyF) .typed .value .plain .unused
      { sub := 5, pd := true, aux1 := true, aux2 := true } (shflOk f)
  | .vote f => laneForm f [.n4, .n32] .any .unused .unused .unused
      { sub := 6, pd := decide (f.subop.toNat < 4), p := true }
      (if f.subop.toNat < 4 then f.d = Dst.zero else f.d.w = .w32)
      (if f.subop.toNat < 4 then f.ty = .n4 else f.ty = .n32)
  | .gred f => laneForm f (tyI ++ tyF) .typed .value .unused .unused { sub := 6, rm := f.ty.isFloat }
      (!f.ty.isFloat || f.subop.toNat < 3)
  | .gscan f => laneForm f (tyI ++ tyF) .typed .value .unused .unused { sub := 16, rm := f.ty.isFloat }
      (f.subop.toNat % 8 < (if f.ty.isFloat then 3 else 6))
  | .gets f => laneForm f tyAll (if f.ty.bits = 64 then .width .w64 else .width .w32) .ssreg
      .unused .unused {} ((f.ty = .n32 || f.ty = .n64) && f.a.bits = f.ty.bits)
  | .sets f => laneForm f tyAll .special .plain .unused .unused {}
      ((f.ty = .n32 || f.ty = .n64) && ((SReg.ofNum f.d.start.toNat).map SReg.bits).getD 0 = f.ty.bits &&
        (match f.a with | .slice w _ => w.bits = f.ty.bits | _ => true))
  | .kmov f => laneForm f tyI .unused .value .unused .unused { aux1 := true }
      true true (f.aux1.toNat % uniCount (kmovBits f) = 0)
  | .matchLanes f => laneForm f (tyI ++ tyF) (.width .w32) .value .unused .unused { sub := 2, pd := true }
  | .rdclk f => laneForm f [.n64] (.width .w64) .unused .unused .unused { sub := 2 }
  | .elect f => laneForm f [.n32] (.width .w32) .unused .unused .unused { sub := 2, pd := true }
  | _ => none

/-- The forms of groups 0x3 and 0x4 (R138, R180). -/
def memCtlForm : Instr → Option Form
  | .ld f => memForm f tyM .any .addr .unused .unused [.relaxed, .acquire] none true true true
      (memDataOk f (.slice f.d.w f.d.start))
  | .st f => memForm f tyM .unused .addr .plain .unused [.relaxed, .release] none true true true
      (memDataOk f f.b)
  | .ldk f => memForm f [.n32] .uniform .addr .unused .unused [.relaxed, .acquire] none true false true
  | .atom f => memForm f (tyA ++ tyF) .unused .addr .value (.code 9) [.relaxed, .acquire, .release, .acqRel]
      none true false true true ((atomTypes f.c.immVal).contains f.ty)
  | .atomr f => memForm f (tyA ++ tyF) .typed .addr .value (.code 9) [.relaxed, .acquire, .release, .acqRel]
      none true false true true ((atomTypes f.c.immVal).contains f.ty)
  | .cas f => memForm f tyA .typed .addr .value .value [.relaxed, .acquire, .release, .acqRel]
      none true false true
  | .fence f => memForm f [.n4] .unused .unused .unused .unused [.acquire, .release, .acqRel]
      none false false false
  | .pref f => memForm f [.n4] .unused .addr .unused .unused [.relaxed] (some [.device]) true true true
  | .spill f | .fill f => memForm f [.n4] .unused .name .name .unused [.relaxed] none true false true
      (rangeOk f.a f.b 1024)
  | .salloc f => memForm f [.s64] (.width .w64) .plain .unused .unused [.relaxed] (some [.device]) false false
      false (match f.a with | .slice _ _ => true | .uni w _ => w = .w64 | .imm _ => true | .sreg _ => false)
  | .cmo f => memForm f [.n4] .unused .addr .unused (.code 2) [.relaxed] (some [.device, .system]) false true
      true
  | .prep f => ctlForm f .unused .unused true false true
  | .prepv f => ctlForm f .addr .unused false false true
  | .xfer f | .xcall f => ctlForm f .unused .unused false false true
  | .xferShed f => ctlForm f .name .name false false true (rangeOk f.a f.b 128)
  | .ret f | .exit f | .yield f | .hret f | .icinv f => ctlForm f .unused .unused false false false
  | .cset f => ctlForm f .plain .unused false true false
  | .sign f | .join f => ctlForm f .unused .unused false true false
  | .trap f | .brk f | .wmclr f => ctlForm f .unused .unused true false false (f.arg24.toNat < 256)
  | .sethdl f => ctlForm f .addr .unused false false false
  | .sleep f => ctlForm f .unused .unused true false false
  | _ => none

/-- The forms of groups 0x5 to 0x7 (R204, R226, R242). -/
def tileForms : Instr → Option Form
  | .talloc f => tileForm f [.n32] (.width .w32) .plain .unused .unused true false
  | .tfree f => tileForm f [.n32] (.width .w32) .unused .unused .unused false false
  | .tld f => tileForm f [.n4] .any .plain .plain .unused false false
  | .tst f => tileForm f [.n4] .unused .plain .plain .data false false
  | .tfill f => tileForm f [.n32] .unused .plain .unused .unused false false
  | .tinfo f => tileForm f [.n64] (.width .w64) .unused .unused .unused false false
  | .tbind f => tileForm f [.n32] (.width .w32) .unused .unused .unused false true
  | .cpy f => copyForm f [.n32] (.width .w32) .addr (.regs .w128) .plain
      { dir := true, ben := true, claim := true, h := true, ch := true } (barrierOk f)
  | .cpys f => copyForm f [.n32] (.width .w32) .addr .plain .plain
      { dir := true, ben := true, claim := true, h := true, ch := true } (barrierOk f)
  | .cpym f => copyForm f [.n32] (.width .w32) .addr (.regs .w128) .plain { h := true, ch := true }
  | .cpya f => copyForm f [.n32] (.width .w32) .addr (.regs .w128) .plain
      { dir := true, arm := true, parity := true, ben := true, h := true, ch := true, mustBen := true }
      (barrierOk f)
  | .cpyx f => copyForm f [.n32] (.width .w32) .unused .unused .unused { arm := true, ch := true }
  | .mile f => copyForm f [.n64] (.width .w64) (.code 0) .unused .unused { ch := true }
  | .mileFault f => copyForm f [.n64] (.width .w64) (.code 1) .unused .unused { ch := true } (f.a = .imm 1)
  | .binit f => copyForm f [.n32] (.width .w32) .plain .plain .plain { ben := true, mustBen := true }
      (barrierOk f)
  | .barr f => copyForm f [.n32] (.width .w32) .plain .unused .plain
      { dir := true, ben := true, mustBen := true } (barrierOk f)
  | .bexp f | .bwait f | .btest f => copyForm f [.n32] (.width .w32) .plain .unused .plain
      { ben := true, mustBen := true } (barrierOk f)
  | .mma f => some {
      types := tyH ++ [.slot], d := .width .w128, a := .frag, b := .frag, c := .frag,
      lat := .variable,
      enc := f.hc = 0 && f.hb = 0 && f.ha = 0 && matSlotsOk f &&
        (!tyH.contains f.ty || mmaOverlapOk f (8 * f.ty.bits) (4 * f.ty.bits)) }
  | .tmma f => some {
      types := tyH ++ [.slot], d := .width .w32, a := .plain, b := .unused, c := .unused,
      lat := .variable, enc := f.cr = 0 && matSlotsOk f }
  | .tmmac f => some {
      types := tyH ++ [.slot], d := .width .w32, a := .plain, b := .unused, c := .unused,
      lat := .variable, enc := matSlotsOk f }
  | .mfin f => some {
      types := [.n32], d := .width .w32, a := .unused, b := .unused, c := .unused,
      lat := .variable, enc := f.hb = 0 && f.ha = 0 && f.cr = 0 && f.fb = 0 && f.fa = 0 }
  | _ => none

/-- The forms of groups 0x8 to 0xB (R282, R300, R331, R342, R376, R399, R413). -/
def sysForms : Instr → Option Form
  | .fcvti f => fmtForm f (tyI ++ tyF) .any .plain false true 1 (f.ty = .slot || f.d.w.bits = f.ty.bits)
  | .fcvto f => fmtForm f (tyI ++ tyF) .any .value false true 1
  | .fqnt f | .fdqnt f => fmtForm f tyH (.width .w32) .plain true true 3
      (f.subop != 2 || f.a = .imm 0)
  | .fload f => fmtForm f [.n32] (.width .w32) .addr false false 1
  | .floadClr f => fmtForm f [.n32] (.width .w32) .unused false false 1
  | .fstat f | .fstatHash f => fmtForm f [.n64] (.width .w64) .unused false false 1
  | .fsync f => fmtForm f [.n32] (.width .w32) .unused false false 1
  | .fmode f => fmtForm f [.n32] (.width .w32) .plain false false 1
  | .spawn f => spawnForm f [.n32] (.width .w32) .addr .name .unused false true
      (f.nargs.toNat ≤ 64 && (f.nargs != 0 || f.b = Opnd.zero))
  | .wput f => spawnForm f [.n32] (.width .w32) .addr .plain .addr false false
  | .wtake f => spawnForm f [.n64] (.width .w128) .addr .unused .unused false false
  | .qidle f | .qtest f => spawnForm f [.n32] (.width .w32) .addr .unused .unused false false
  | .launch f => spawnForm f [.n32] (.width .w32) .addr .unused .unused true false
  | .lwait f => spawnForm f [.n32] (.width .w32) .plain .unused .unused true false
  | .tlbiVa f => sysForm f [.n4] .unused .addr .plain .unused .variable false false 1 f.b.kept
  | .tlbiRange f => sysForm f [.n4] .unused .addr .plain .plain .variable false false 1 f.b.kept
  | .tlbiDom f => sysForm f [.n4] .unused .unused .plain .unused .variable false false 1 f.b.kept
  | .tlbiWorld f => sysForm f [.n4] .unused .unused .unused .unused .variable false false 1
  | .xlate f => sysForm f [.n64] (.width .w64) .addr .plain .unused .variable false false 3 f.b.kept
  | .gate f => sysForm f [.n32] (.width .w32) .plain .unused .unused .stall false true 1
  | .gret f => sysForm f [.n4] .unused .unused .unused .unused .stall false false 1
  | .tktTurn f | .tktLap f => sysForm f [.n32] (.width .w32) .unused .unused .unused .variable false false 1
  | .ordmark f => sysForm f [.n4] .unused .unused .unused .unused .variable true false 1
  | .hashrd f => sysForm f [.n64] (.width .w64) .unused .unused .unused .variable false false 2
  | .psaved f => sysForm f [.n32] (.width .w32) .name .name .unused .stall false false 1
      (rangeOk f.a f.b 1024)
  | .rput f => cwForm f [.n32] (.width .w32) .addr .plain .plain false true true true true 1
  | .rget f => cwForm f [.n32] (.width .w32) .addr .plain .plain false false false true true 1
  | .cred f => cwForm f tyA (.width .w128) .value .plain .unused false false false false false 5 (fbNumOk f)
  | .credb f => cwForm f [.f32] (.width .w32) .unused .plain .unused false false false true false 1
      (fbNumOk f)
  | .fbar f | .fbwait f => cwForm f [.n32] (.width .w32) .plain .plain .unused true false false false false 1
      (fbNumOk f)
  | .fevt f => cwForm f [.n32] (.width .w32) .unused .unused .plain false false true true false 1 (fevtOk f)
  | _ => none

/-- The form of an instruction; the steps of engines, host and platform have none. -/
def Instr.form (i : Instr) : Option Form :=
  (laneInstrForm i).or ((memCtlForm i).or ((tileForms i).or (sysForms i)))

/-- The fields that the instructions of every class have. -/
def Instr.common : Instr → Option Common
  | .movi f => some f.toCommon
  | .nop f | .mov f | .sel f | .add f | .sub f | .mul f | .mulh f | .mad f | .addc f | .subb f
  | .min f | .max f | .abs f | .neg f | .sadd f | .ssub f | .and f | .or f | .xor f | .not f
  | .andn f | .shl f | .shr f | .sar f | .rot f | .popc f | .clz f | .brev f | .bfx f | .bfi f
  | .cmp f | .plog f | .addr f | .pack f | .unpack f
  | .fadd f | .fsub f | .fmul f | .fma f | .fmin f | .fmax f | .fcmp f | .frcp f | .frsq f | .fsqrt f
  | .fdiv f | .fexp2 f | .flog2 f | .fsin f | .fcos f | .ftanh f | .fclass f | .frnd f | .cvt f
  | .fscale f | .shfl f | .vote f | .gred f | .gscan f | .gets f | .sets f | .kmov f | .matchLanes f
  | .rdclk f | .elect f => some f.toCommon
  | .ld f | .st f | .ldk f | .atom f | .atomr f | .cas f | .fence f | .pref f | .spill f | .fill f
  | .salloc f | .cmo f => some f.toCommon
  | .prep f | .prepv f | .xfer f | .xferShed f | .xcall f | .ret f | .cset f | .sign f | .join f
  | .exit f | .trap f | .brk f | .yield f | .sethdl f | .hret f | .icinv f | .wmclr f | .sleep f =>
      some f.toCommon
  | .talloc f | .tfree f | .tld f | .tst f | .tfill f | .tinfo f | .tbind f => some f.toCommon
  | .cpy f | .cpys f | .cpym f | .cpya f | .cpyx f | .mile f | .mileFault f | .binit f | .barr f
  | .bexp f | .bwait f | .btest f => some f.toCommon
  | .mma f | .tmma f | .tmmac f | .mfin f => some f.toCommon
  | .fcvti f | .fcvto f | .fqnt f | .fdqnt f | .fload f | .floadClr f | .fstat f | .fstatHash f
  | .fsync f | .fmode f => some f.toCommon
  | .spawn f | .wput f | .wtake f | .qidle f | .qtest f | .launch f | .lwait f => some f.toCommon
  | .tlbiVa f | .tlbiRange f | .tlbiDom f | .tlbiWorld f | .xlate f | .gate f | .gret f | .tktTurn f
  | .tktLap f | .ordmark f | .hashrd f | .psaved f => some f.toCommon
  | .rput f | .rget f | .cred f | .credb f | .fbar f | .fbwait f | .fevt f => some f.toCommon
  | _ => none

/-- What a word can be refused for (R47, checks 1 to 4). -/
inductive Illegal where
  | opcode     -- ILLEGAL_OPCODE
  | encoding   -- ILLEGAL_ENCODING
  | type       -- ILLEGAL_TYPE
  | align      -- OPERAND_ALIGN
deriving DecidableEq, Repr

/-- Checks 2 to 4 of R47 on an instruction of a given form: the first that fails. -/
def Form.check (m : Form) (c : Common) : Option Illegal :=
  if !(m.lat.ok c.ctl && m.d.ok c.ty c.d && m.a.ok c.ty c.a && m.b.ok c.ty c.b && m.c.ok c.ty c.c && m.enc) then
    some .encoding
  else if !(m.types.contains c.ty && m.ty) then some .type
  else if !(m.d.alignOk c.d && c.a.alignOk && c.b.alignOk && c.c.alignOk && m.al) then some .align
  else none

/-- The first check of R47 that an instruction fails. -/
def Instr.illegal (i : Instr) : Option Illegal :=
  match i.form, i.common with
  | some m, some c => m.check c
  | _, _ => some .opcode

/-- A well-formed instruction: one whose word passes checks 1 to 4 of R47. -/
abbrev Instr.WellFormed (i : Instr) : Prop := i.illegal = none

end Sys2Proof
end

