-- ==== Sys2Proof/Decode.lean ====
section
/-! DEFINITION. The decoder of instruction words, total on all 128-bit words and rejecting by the name of
the trap (R35 to R58), and after it the encoder, from the same tables. -/

namespace Sys2Proof

/-! ### Codes -/

def Wd.code : Wd → BitVec 3
  | .w4 => 0 | .w8 => 1 | .w12 => 2 | .w16 => 3 | .w24 => 4 | .w32 => 5 | .w64 => 6 | .w128 => 7

/-- Width codes (R36). -/
def Wd.ofCode (c : BitVec 3) : Wd :=
  if c = 0 then .w4 else if c = 1 then .w8 else if c = 2 then .w12 else if c = 3 then .w16
  else if c = 4 then .w24 else if c = 5 then .w32 else if c = 6 then .w64 else .w128

def Rm.code : Rm → BitVec 2
  | .rne => 0 | .rtz => 1 | .rup => 2 | .rdn => 3

/-- Rounding mode codes (R48). -/
def Rm.ofCode (c : BitVec 2) : Rm :=
  if c = 0 then .rne else if c = 1 then .rtz else if c = 2 then .rup else .rdn

def Scope.code : Scope → BitVec 3
  | .thread => 0 | .group => 1 | .team => 2 | .cluster => 3 | .device => 4 | .domain => 5 | .system => 6
  | .deviceRemote => 7

/-- Scope codes (R51). -/
def Scope.ofCode (c : BitVec 3) : Scope :=
  if c = 0 then .thread else if c = 1 then .group else if c = 2 then .team else if c = 3 then .cluster
  else if c = 4 then .device else if c = 5 then .domain else if c = 6 then .system else .deviceRemote

def Order.code : Order → BitVec 2
  | .relaxed => 0 | .acquire => 1 | .release => 2 | .acqRel => 3

/-- Order codes (R51). -/
def Order.ofCode (c : BitVec 2) : Order :=
  if c = 0 then .relaxed else if c = 1 then .acquire else if c = 2 then .release else .acqRel

/-! ### The decoder -/

/-- A source operand from its field and kind (R36 to R38): none for a reserved kind or code, a uniform
register number above 63, or a number that names no special register. -/
def decodeOpnd (field : BitVec 13) (kind : BitVec 2) : Option Opnd :=
  let start := field.extractLsb' 0 10
  let w := field.extractLsb' 10 3
  if kind = 0 then some (.slice (Wd.ofCode w) start)
  else if kind = 1 then
    if start.extractLsb' 6 4 = 0 then some (.uni (Wd.ofCode w) (start.extractLsb' 0 6)) else none
  else if kind = 2 then
    if w = 0 then some (.imm start)
    else if w = 1 then (SReg.ofNum start.toNat).map .sreg
    else none
  else none

def decodeCtl (w : Word) : Ctl where
  reuse := w.getLsbD 30
  wait := w.extractLsb' 22 8
  setSlot := w.extractLsb' 19 3
  setEn := w.getLsbD 18
  la := w.extractLsb' 14 4
  neg := w.getLsbD 13
  gp := w.extractLsb' 10 3

/-- The fields common to all words (R35); none where bit 31, a kind, a code or the type is reserved. -/
def decodeCommon (w : Word) : Option Common :=
  if w.getLsbD 31 then none
  else
    match Ty.ofCode (w.extractLsb' 90 4).toNat, decodeOpnd (w.extractLsb' 45 13) (w.extractLsb' 84 2),
      decodeOpnd (w.extractLsb' 58 13) (w.extractLsb' 86 2),
      decodeOpnd (w.extractLsb' 71 13) (w.extractLsb' 88 2) with
    | some ty, some a, some b, some c =>
      some { ctl := decodeCtl w, ty := ty,
             d := ⟨Wd.ofCode (w.extractLsb' 42 3), w.extractLsb' 32 10⟩, a := a, b := b, c := c }
    | _, _, _, _ => none

/-- The lane class (R48). -/
def decodeLane (w : Word) (c : Common) : Option LaneF :=
  if w.getLsbD 127 || w.extractLsb' 107 5 != 0 then none
  else some { toCommon := c, slot := w.extractLsb' 124 3, aux2 := w.extractLsb' 118 6,
              aux1 := w.extractLsb' 112 6, pneg := w.getLsbD 106, ps := w.extractLsb' 103 3,
              pd := w.extractLsb' 100 3, subop := w.extractLsb' 96 4,
              rm := Rm.ofCode (w.extractLsb' 94 2) }

/-- The immediate class (R49). -/
def decodeImm (w : Word) (c : Common) : Option ImmF :=
  if w.extractLsb' 126 2 != 0 then none else some { toCommon := c, imm32 := w.extractLsb' 94 32 }

/-- The control class (R50). The shed bit has to have the value given. -/
def decodeCtlF (w : Word) (c : Common) (shed : Bool) : Option CtlF :=
  if w.extractLsb' 102 2 != 0 || w.getLsbD 97 != shed then none
  else some { toCommon := c, arg24 := w.extractLsb' 104 24, cr := w.extractLsb' 98 4,
              m := w.extractLsb' 94 3 }

/-- The memory class (R51). -/
def decodeMem (w : Word) (c : Common) : Option MemF :=
  some { toCommon := c, offset := w.extractLsb' 104 24, vec := w.extractLsb' 102 2,
         evict := w.extractLsb' 99 3, scope := Scope.ofCode (w.extractLsb' 96 3),
         order := Order.ofCode (w.extractLsb' 94 2) }

/-- The tile class (R52). -/
def decodeTile (w : Word) (c : Common) : Option TileF :=
  if w.extractLsb' 118 10 != 0 || w.getLsbD 103 then none
  else some { toCommon := c, hp := w.extractLsb' 110 8, peer := w.extractLsb' 104 6,
              level := w.getLsbD 102, h := w.extractLsb' 94 8 }

/-- The copy class (R53). -/
def decodeCopy (w : Word) (c : Common) : Option CopyF :=
  if w.extractLsb' 126 2 != 0 || w.extractLsb' 115 4 != 0 then none
  else some { toCommon := c, dir := w.getLsbD 125, arm := w.extractLsb' 122 3, parity := w.getLsbD 121,
              ben := w.getLsbD 120, bmem := w.getLsbD 119, claim := w.getLsbD 114,
              hb := w.extractLsb' 106 8, h := w.extractLsb' 98 8, ch := w.extractLsb' 94 4 }

/-- The matrix class (R54). -/
def decodeMat (w : Word) (c : Common) : Option MatF :=
  some { toCommon := c, hc := w.extractLsb' 120 8, hb := w.extractLsb' 112 8, ha := w.extractLsb' 104 8,
         cr := w.extractLsb' 100 4, fb := w.extractLsb' 97 3, fa := w.extractLsb' 94 3 }

/-- The format class (R55); `sub` is the sub-function that the row's name already says. -/
def decodeFmt (w : Word) (c : Common) (sub : BitVec 4) : Option FmtF :=
  if w.extractLsb' 119 9 != 0 then none
  else some { toCommon := c, hb := w.extractLsb' 111 8, ha := w.extractLsb' 103 8,
              subop := w.extractLsb' 99 4 - sub, rm := Rm.ofCode (w.extractLsb' 97 2),
              f := w.extractLsb' 94 3 }

/-- The spawn class (R56). -/
def decodeSpawn (w : Word) (c : Common) : Option SpawnF :=
  if w.extractLsb' 105 23 != 0 then none
  else some { toCommon := c, queue := w.extractLsb' 101 4, nargs := w.extractLsb' 94 7 }

/-- The system class (R56); `sub` is the sub-function that the row's name already says. -/
def decodeSys (w : Word) (c : Common) (sub : BitVec 4) : Option SysF :=
  if w.extractLsb' 122 6 != 0 then none
  else some { toCommon := c, mark := w.extractLsb' 106 16, entry := w.extractLsb' 98 8,
              subop := w.extractLsb' 94 4 - sub }

/-- The Causeway class (R57). -/
def decodeCw (w : Word) (c : Common) : Option CwF :=
  if w.extractLsb' 119 9 != 0 then none
  else some { toCommon := c, pod := w.getLsbD 118, op := w.extractLsb' 115 3, ten := w.getLsbD 114,
              tag := w.extractLsb' 106 8, h := w.extractLsb' 98 8, ch := w.extractLsb' 94 4 }

/-- The opcodes of the lane class that have one row each (R58). -/
def laneOf (op : Nat) : Option (LaneF → Instr) :=
  match op with
  | 0x000 => some .nop | 0x001 => some .mov | 0x003 => some .sel | 0x004 => some .add
  | 0x005 => some .sub | 0x006 => some .mul | 0x007 => some .mulh | 0x008 => some .mad
  | 0x009 => some .addc | 0x00A => some .subb | 0x00B => some .min | 0x00C => some .max
  | 0x00D => some .abs | 0x00E => some .neg | 0x00F => some .sadd | 0x010 => some .ssub
  | 0x011 => some .and | 0x012 => some .or | 0x013 => some .xor | 0x014 => some .not
  | 0x015 => some .andn | 0x016 => some .shl | 0x017 => some .shr | 0x018 => some .sar
  | 0x019 => some .rot | 0x01A => some .popc | 0x01B => some .clz | 0x01C => some .brev
  | 0x01D => some .bfx | 0x01E => some .bfi | 0x01F => some .cmp | 0x020 => some .plog
  | 0x021 => some .addr | 0x022 => some .pack | 0x023 => some .unpack | 0x040 => some .fadd
  | 0x041 => some .fsub | 0x042 => some .fmul | 0x043 => some .fma | 0x044 => some .fmin
  | 0x045 => some .fmax | 0x046 => some .fcmp | 0x047 => some .frcp | 0x048 => some .frsq
  | 0x049 => some .fsqrt | 0x04A => some .fdiv | 0x04B => some .fexp2 | 0x04C => some .flog2
  | 0x04D => some .fsin | 0x04E => some .fcos | 0x04F => some .ftanh | 0x050 => some .fclass
  | 0x051 => some .frnd | 0x052 => some .cvt | 0x053 => some .fscale | 0x080 => some .shfl
  | 0x081 => some .vote | 0x082 => some .gred | 0x083 => some .gscan | 0x084 => some .gets
  | 0x085 => some .sets | 0x086 => some .kmov | 0x087 => some .matchLanes | 0x088 => some .rdclk
  | 0x089 => some .elect
  | _ => none

/-- The opcodes of the mem class that have one row each (R58). -/
def memOf (op : Nat) : Option (MemF → Instr) :=
  match op with
  | 0x0C0 => some .ld | 0x0C1 => some .st | 0x0C2 => some .ldk | 0x0C3 => some .atom
  | 0x0C4 => some .atomr | 0x0C5 => some .cas | 0x0C6 => some .fence | 0x0C7 => some .pref
  | 0x0C8 => some .spill | 0x0C9 => some .fill | 0x0CA => some .salloc | 0x0CB => some .cmo
  | _ => none

/-- The opcodes of the ctl class that have one row each (R58). -/
def ctlOf (op : Nat) : Option (CtlF → Instr) :=
  match op with
  | 0x100 => some .prep | 0x101 => some .prepv | 0x103 => some .xcall | 0x104 => some .ret
  | 0x105 => some .cset | 0x106 => some .sign | 0x107 => some .join | 0x108 => some .exit
  | 0x109 => some .trap | 0x10A => some .brk | 0x10B => some .yield | 0x10C => some .sethdl
  | 0x10D => some .hret | 0x10E => some .icinv | 0x10F => some .wmclr | 0x110 => some .sleep
  | _ => none

/-- The opcodes of the tile class that have one row each (R58). -/
def tileOf (op : Nat) : Option (TileF → Instr) :=
  match op with
  | 0x140 => some .talloc | 0x141 => some .tfree | 0x142 => some .tld | 0x143 => some .tst
  | 0x144 => some .tfill | 0x145 => some .tinfo | 0x146 => some .tbind
  | _ => none

/-- The opcodes of the copy class that have one row each (R58). -/
def copyOf (op : Nat) : Option (CopyF → Instr) :=
  match op with
  | 0x180 => some .cpy | 0x181 => some .cpys | 0x182 => some .cpym | 0x183 => some .cpya
  | 0x184 => some .cpyx | 0x186 => some .binit | 0x187 => some .barr | 0x188 => some .bexp
  | 0x189 => some .bwait | 0x18A => some .btest
  | _ => none

/-- The opcodes of the mat class that have one row each (R58). -/
def matOf (op : Nat) : Option (MatF → Instr) :=
  match op with
  | 0x1C0 => some .mma | 0x1C1 => some .tmma | 0x1C2 => some .tmmac | 0x1C3 => some .mfin
  | _ => none

/-- The opcodes of the fmt class that have one row each (R58). -/
def fmtOf (op : Nat) : Option (FmtF → Instr) :=
  match op with
  | 0x200 => some .fcvti | 0x201 => some .fcvto | 0x202 => some .fqnt | 0x203 => some .fdqnt
  | 0x206 => some .fsync | 0x207 => some .fmode
  | _ => none

/-- The opcodes of the spawn class that have one row each (R58). -/
def spawnOf (op : Nat) : Option (SpawnF → Instr) :=
  match op with
  | 0x240 => some .spawn | 0x241 => some .wput | 0x242 => some .wtake | 0x243 => some .qidle
  | 0x244 => some .qtest | 0x245 => some .launch | 0x246 => some .lwait
  | _ => none

/-- The opcodes of the sys class that have one row each (R58). -/
def sysOf (op : Nat) : Option (SysF → Instr) :=
  match op with
  | 0x281 => some .xlate | 0x282 => some .gate | 0x283 => some .gret | 0x285 => some .ordmark
  | 0x286 => some .hashrd | 0x287 => some .psaved
  | _ => none

/-- The opcodes of the cw class that have one row each (R58). -/
def cwOf (op : Nat) : Option (CwF → Instr) :=
  match op with
  | 0x2C0 => some .rput | 0x2C1 => some .rget | 0x2C2 => some .cred | 0x2C3 => some .credb
  | 0x2C4 => some .fbar | 0x2C5 => some .fbwait | 0x2C6 => some .fevt
  | _ => none

/-- The opcodes that have a row for each sub-function: XFER by its shed bit, MILE by its operand A, FLOAD,
FSTAT, TLBI and TKT by their subop (R180, R226, R282, R331, R376). -/
def multiRow (op : Nat) : Bool :=
  op = 0x102 || op = 0x185 || op = 0x204 || op = 0x205 || op = 0x280 || op = 0x284

/-- The opcode map (R58): check 1 of R47. -/
def opcodeListed (op : Nat) : Bool :=
  op = 0x002 || multiRow op || (laneOf op).isSome || (memOf op).isSome || (ctlOf op).isSome ||
  (tileOf op).isSome || (copyOf op).isSome || (matOf op).isSome || (fmtOf op).isSome ||
  (spawnOf op).isSome || (sysOf op).isSome || (cwOf op).isSome

/-- The instruction of an opcode with several rows. -/
def decodeMulti (op : Nat) (w : Word) (c : Common) : Option Instr :=
  if op = 0x102 then
    if w.getLsbD 97 then (decodeCtlF w c true).map .xferShed else (decodeCtlF w c false).map .xfer
  else if op = 0x185 then
    (decodeCopy w c).map (if c.a = .imm 1 then .mileFault else .mile)
  else if op = 0x204 then
    if w.extractLsb' 99 4 = 1 then (decodeFmt w c 1).map .floadClr else (decodeFmt w c 0).map .fload
  else if op = 0x205 then
    if w.extractLsb' 99 4 = 1 then (decodeFmt w c 1).map .fstatHash else (decodeFmt w c 0).map .fstat
  else if op = 0x280 then
    if w.extractLsb' 94 4 = 1 then (decodeSys w c 1).map .tlbiRange
    else if w.extractLsb' 94 4 = 2 then (decodeSys w c 2).map .tlbiDom
    else if w.extractLsb' 94 4 = 3 then (decodeSys w c 3).map .tlbiWorld
    else (decodeSys w c 0).map .tlbiVa
  else
    if w.extractLsb' 94 4 = 1 then (decodeSys w c 1).map .tktLap else (decodeSys w c 0).map .tktTurn

/-- An instruction's fields read by its class. -/
def decodeFields (op : Nat) (w : Word) (c : Common) : Option Instr :=
  if op = 0x002 then (decodeImm w c).map .movi
  else if multiRow op then decodeMulti op w c
  else if op < 0x0C0 then (laneOf op).bind fun mk => (decodeLane w c).map mk
  else if op < 0x100 then (memOf op).bind fun mk => (decodeMem w c).map mk
  else if op < 0x140 then (ctlOf op).bind fun mk => (decodeCtlF w c false).map mk
  else if op < 0x180 then (tileOf op).bind fun mk => (decodeTile w c).map mk
  else if op < 0x1C0 then (copyOf op).bind fun mk => (decodeCopy w c).map mk
  else if op < 0x200 then (matOf op).bind fun mk => (decodeMat w c).map mk
  else if op < 0x240 then (fmtOf op).bind fun mk => (decodeFmt w c 0).map mk
  else if op < 0x280 then (spawnOf op).bind fun mk => (decodeSpawn w c).map mk
  else if op < 0x2C0 then (sysOf op).bind fun mk => (decodeSys w c 0).map mk
  else (cwOf op).bind fun mk => (decodeCw w c).map mk

/-- The decoder: the instruction of a word, or the first of checks 1 to 4 of R47 that the word fails. -/
def decode (w : Word) : Except Illegal Instr :=
  let op := (w.extractLsb' 0 10).toNat
  if !opcodeListed op then .error .opcode
  else
    match (decodeCommon w).bind (decodeFields op w) with
    | none => .error .encoding
    | some i =>
      match i.illegal with
      | some e => .error e
      | none => .ok i

/-- The decoder on a word whose bits are a number; the bits above the word's 128 are no part of it. -/
def decodeTableWord (_nbits w : Nat) : Option Instr := (decode (BitVec.ofNat 128 w)).toOption

/-- A word from 16 bytes, the first at the lowest address (R35). -/
def wordOfBytes (bs : List Byte) : Word :=
  BitVec.ofNat 128 (bs.foldr (fun b n => b.toNat + 256 * n) 0)

/-! ### The encoder -/

/-- Field and kind of a source operand (R36 to R38). -/
def Opnd.field : Opnd → BitVec 13
  | .slice w s => w.code ++ s
  | .uni w k => w.code ++ (0#4 ++ k)
  | .imm v => 0#3 ++ v
  | .sreg r => 1#3 ++ BitVec.ofNat 10 r.num

def Opnd.kind : Opnd → BitVec 2
  | .slice _ _ => 0
  | .uni _ _ => 1
  | .imm _ => 2
  | .sreg _ => 2

/-- The word of an opcode, the common fields and the class field (R35). -/
def Common.word (c : Common) (op : BitVec 10) (cls : BitVec 34) : Word :=
  cls ++ BitVec.ofNat 4 c.ty.code ++ c.c.kind ++ c.b.kind ++ c.a.kind ++ c.c.field ++ c.b.field ++
    c.a.field ++ c.d.w.code ++ c.d.start ++ 0#1 ++ BitVec.ofBool c.ctl.reuse ++ c.ctl.wait ++
    c.ctl.setSlot ++ BitVec.ofBool c.ctl.setEn ++ c.ctl.la ++ BitVec.ofBool c.ctl.neg ++ c.ctl.gp ++ op

def LaneF.word (f : LaneF) (op : BitVec 10) : Word :=
  f.toCommon.word op (0#1 ++ f.slot ++ f.aux2 ++ f.aux1 ++ 0#5 ++ BitVec.ofBool f.pneg ++ f.ps ++ f.pd ++
    f.subop ++ f.rm.code)

def ImmF.word (f : ImmF) (op : BitVec 10) : Word := f.toCommon.word op (0#2 ++ f.imm32)

def CtlF.wordShed (f : CtlF) (op : BitVec 10) (shed : Bool) : Word :=
  f.toCommon.word op (f.arg24 ++ 0#2 ++ f.cr ++ BitVec.ofBool shed ++ f.m)

def CtlF.word (f : CtlF) (op : BitVec 10) : Word := f.wordShed op false

def MemF.word (f : MemF) (op : BitVec 10) : Word :=
  f.toCommon.word op (f.offset ++ f.vec ++ f.evict ++ f.scope.code ++ f.order.code)

def TileF.word (f : TileF) (op : BitVec 10) : Word :=
  f.toCommon.word op (0#10 ++ f.hp ++ f.peer ++ 0#1 ++ BitVec.ofBool f.level ++ f.h)

def CopyF.word (f : CopyF) (op : BitVec 10) : Word :=
  f.toCommon.word op (0#2 ++ BitVec.ofBool f.dir ++ f.arm ++ BitVec.ofBool f.parity ++
    BitVec.ofBool f.ben ++ BitVec.ofBool f.bmem ++ 0#4 ++ BitVec.ofBool f.claim ++ f.hb ++ f.h ++ f.ch)

def MatF.word (f : MatF) (op : BitVec 10) : Word :=
  f.toCommon.word op (f.hc ++ f.hb ++ f.ha ++ f.cr ++ f.fb ++ f.fa)

def FmtF.wordSub (f : FmtF) (op : BitVec 10) (sub : BitVec 4) : Word :=
  f.toCommon.word op (0#9 ++ f.hb ++ f.ha ++ (f.subop + sub) ++ f.rm.code ++ f.f)

def FmtF.word (f : FmtF) (op : BitVec 10) : Word := f.wordSub op 0

def SpawnF.word (f : SpawnF) (op : BitVec 10) : Word :=
  f.toCommon.word op (0#23 ++ f.queue ++ f.nargs)

def SysF.wordSub (f : SysF) (op : BitVec 10) (sub : BitVec 4) : Word :=
  f.toCommon.word op (0#6 ++ f.mark ++ f.entry ++ (f.subop + sub))

def SysF.word (f : SysF) (op : BitVec 10) : Word := f.wordSub op 0

def CwF.word (f : CwF) (op : BitVec 10) : Word :=
  f.toCommon.word op (0#9 ++ BitVec.ofBool f.pod ++ f.op ++ BitVec.ofBool f.ten ++ f.tag ++ f.h ++ f.ch)

/-- The word of an instruction; the steps of engines, host and platform have none. -/
def encode : Instr → Option Word
  | .movi f => some (f.word 0x002)
  | .xfer f => some (f.wordShed 0x102 false) | .xferShed f => some (f.wordShed 0x102 true)
  | .mile f => some (f.word 0x185) | .mileFault f => some (f.word 0x185)
  | .fload f => some (f.wordSub 0x204 0) | .floadClr f => some (f.wordSub 0x204 1)
  | .fstat f => some (f.wordSub 0x205 0) | .fstatHash f => some (f.wordSub 0x205 1)
  | .tlbiVa f => some (f.wordSub 0x280 0) | .tlbiRange f => some (f.wordSub 0x280 1)
  | .tlbiDom f => some (f.wordSub 0x280 2) | .tlbiWorld f => some (f.wordSub 0x280 3)
  | .tktTurn f => some (f.wordSub 0x284 0) | .tktLap f => some (f.wordSub 0x284 1)
  | .nop f => some (f.word 0x000) | .mov f => some (f.word 0x001) | .sel f => some (f.word 0x003)
  | .add f => some (f.word 0x004) | .sub f => some (f.word 0x005) | .mul f => some (f.word 0x006)
  | .mulh f => some (f.word 0x007) | .mad f => some (f.word 0x008) | .addc f => some (f.word 0x009)
  | .subb f => some (f.word 0x00A) | .min f => some (f.word 0x00B) | .max f => some (f.word 0x00C)
  | .abs f => some (f.word 0x00D) | .neg f => some (f.word 0x00E) | .sadd f => some (f.word 0x00F)
  | .ssub f => some (f.word 0x010) | .and f => some (f.word 0x011) | .or f => some (f.word 0x012)
  | .xor f => some (f.word 0x013) | .not f => some (f.word 0x014) | .andn f => some (f.word 0x015)
  | .shl f => some (f.word 0x016) | .shr f => some (f.word 0x017) | .sar f => some (f.word 0x018)
  | .rot f => some (f.word 0x019) | .popc f => some (f.word 0x01A) | .clz f => some (f.word 0x01B)
  | .brev f => some (f.word 0x01C) | .bfx f => some (f.word 0x01D) | .bfi f => some (f.word 0x01E)
  | .cmp f => some (f.word 0x01F) | .plog f => some (f.word 0x020) | .addr f => some (f.word 0x021)
  | .pack f => some (f.word 0x022) | .unpack f => some (f.word 0x023) | .fadd f => some (f.word 0x040)
  | .fsub f => some (f.word 0x041) | .fmul f => some (f.word 0x042) | .fma f => some (f.word 0x043)
  | .fmin f => some (f.word 0x044) | .fmax f => some (f.word 0x045) | .fcmp f => some (f.word 0x046)
  | .frcp f => some (f.word 0x047) | .frsq f => some (f.word 0x048) | .fsqrt f => some (f.word 0x049)
  | .fdiv f => some (f.word 0x04A) | .fexp2 f => some (f.word 0x04B) | .flog2 f => some (f.word 0x04C)
  | .fsin f => some (f.word 0x04D) | .fcos f => some (f.word 0x04E) | .ftanh f => some (f.word 0x04F)
  | .fclass f => some (f.word 0x050) | .frnd f => some (f.word 0x051) | .cvt f => some (f.word 0x052)
  | .fscale f => some (f.word 0x053) | .shfl f => some (f.word 0x080) | .vote f => some (f.word 0x081)
  | .gred f => some (f.word 0x082) | .gscan f => some (f.word 0x083) | .gets f => some (f.word 0x084)
  | .sets f => some (f.word 0x085) | .kmov f => some (f.word 0x086)
  | .matchLanes f => some (f.word 0x087) | .rdclk f => some (f.word 0x088)
  | .elect f => some (f.word 0x089)
  | .ld f => some (f.word 0x0C0) | .st f => some (f.word 0x0C1) | .ldk f => some (f.word 0x0C2)
  | .atom f => some (f.word 0x0C3) | .atomr f => some (f.word 0x0C4) | .cas f => some (f.word 0x0C5)
  | .fence f => some (f.word 0x0C6) | .pref f => some (f.word 0x0C7) | .spill f => some (f.word 0x0C8)
  | .fill f => some (f.word 0x0C9) | .salloc f => some (f.word 0x0CA) | .cmo f => some (f.word 0x0CB)
  | .prep f => some (f.word 0x100) | .prepv f => some (f.word 0x101) | .xcall f => some (f.word 0x103)
  | .ret f => some (f.word 0x104) | .cset f => some (f.word 0x105) | .sign f => some (f.word 0x106)
  | .join f => some (f.word 0x107) | .exit f => some (f.word 0x108) | .trap f => some (f.word 0x109)
  | .brk f => some (f.word 0x10A) | .yield f => some (f.word 0x10B) | .sethdl f => some (f.word 0x10C)
  | .hret f => some (f.word 0x10D) | .icinv f => some (f.word 0x10E) | .wmclr f => some (f.word 0x10F)
  | .sleep f => some (f.word 0x110)
  | .talloc f => some (f.word 0x140) | .tfree f => some (f.word 0x141) | .tld f => some (f.word 0x142)
  | .tst f => some (f.word 0x143) | .tfill f => some (f.word 0x144) | .tinfo f => some (f.word 0x145)
  | .tbind f => some (f.word 0x146)
  | .cpy f => some (f.word 0x180) | .cpys f => some (f.word 0x181) | .cpym f => some (f.word 0x182)
  | .cpya f => some (f.word 0x183) | .cpyx f => some (f.word 0x184) | .binit f => some (f.word 0x186)
  | .barr f => some (f.word 0x187) | .bexp f => some (f.word 0x188) | .bwait f => some (f.word 0x189)
  | .btest f => some (f.word 0x18A)
  | .mma f => some (f.word 0x1C0) | .tmma f => some (f.word 0x1C1) | .tmmac f => some (f.word 0x1C2)
  | .mfin f => some (f.word 0x1C3)
  | .fcvti f => some (f.word 0x200) | .fcvto f => some (f.word 0x201) | .fqnt f => some (f.word 0x202)
  | .fdqnt f => some (f.word 0x203) | .fsync f => some (f.word 0x206) | .fmode f => some (f.word 0x207)
  | .spawn f => some (f.word 0x240) | .wput f => some (f.word 0x241) | .wtake f => some (f.word 0x242)
  | .qidle f => some (f.word 0x243) | .qtest f => some (f.word 0x244)
  | .launch f => some (f.word 0x245) | .lwait f => some (f.word 0x246)
  | .xlate f => some (f.word 0x281) | .gate f => some (f.word 0x282) | .gret f => some (f.word 0x283)
  | .ordmark f => some (f.word 0x285) | .hashrd f => some (f.word 0x286)
  | .psaved f => some (f.word 0x287)
  | .rput f => some (f.word 0x2C0) | .rget f => some (f.word 0x2C1) | .cred f => some (f.word 0x2C2)
  | .credb f => some (f.word 0x2C3) | .fbar f => some (f.word 0x2C4) | .fbwait f => some (f.word 0x2C5)
  | .fevt f => some (f.word 0x2C6)  | _ => none

end Sys2Proof
end

