-- ==== Sys2Proof/Config.lean ====
section
/-! DEFINITION. What an implementation fixes and the free values. A free value is an opaque constant without
a body: a statement about the model holds whatever its values are. The first argument is always the counter
`State.free`, which every step advances, so that two steps never share a value. -/

namespace Sys2Proof.Config

/-- Which of n enabled acts a step takes; used modulo n (DESIGN CHOICE, log entry 3). -/
opaque pick : Nat → Nat → Nat

/-- fclk cycles that pass during a step, beside the one it takes (DESIGN CHOICE, log entry 3). -/
opaque elapsed : Nat → Nat

/-- A 4-bit slice that is read while an incomplete instruction has it as destination, where the machine may show the new
value before the model has computed it (R45, DEDUCED, log entry 10). -/
opaque slice : Nat → TRef → Nat → BitVec 4

/-- Whether a slice that is read before an incomplete instruction has written it shows what stood there, and whether one
that two instructions write gets the incomplete one's value (R45, DEDUCED, log entry 10). -/
opaque keep : Nat → TRef → Nat → Bool

/-- Whether a nibble of a uniform register shows, or keeps, what stood there rather than the value of an LDK that is
incomplete (R142, DEDUCED, log entry 10). -/
opaque keepUni : Nat → Nat → Nat → Bool

/-- Whether a read of a tile's element, made by an operation in flight, finds what stood there before a racing write: counter, the
read, the write (R81, R262, DEDUCED, log entry 47). -/
opaque seenOld : Nat → Nat → Nat → Bool

/-- After how many chunks a TLD finds an element of a TMMA's accumulator (R262, DEDUCED, log entry 47). -/
opaque chunks : Nat → Nat → Nat

/-- The functional classes of a quad that cannot accept an issue in a cycle (R129, R157; DESIGN CHOICE, log entry 3). -/
opaque closedClasses : Nat → BitVec 7

/-- Whether a walk uses a cached translation that it could use (R317, R318, DEDUCED, log entry 11). -/
opaque useCached : Nat → W64 → Bool

/-- Whether a walk uses an entry of its die's walk cache: counter, address and level (R317, R318, DEDUCED, log entry 11). -/
opaque useWalk : Nat → W64 → Nat → Bool

/-- Which entry of a disagreeing 64 KiB block an access uses (R314, DEDUCED, log entry 12); used modulo 16. -/
opaque blockEntry : Nat → W64 → Nat

/-- A byte of the host's memory or of a peer's memory as a read finds it, where no rule fixes it
(DEDUCED, log entry 13). -/
opaque outsideByte : Nat → W64 → Byte

/-- The host's ATS completion allows an access of a world to a host address: arguments counter, world, address
and whether it writes (R324, DEDUCED, log entry 13). -/
opaque atsAllows : Nat → Nat → W64 → Bool → Bool

/-- A signature over data under a key verifies (R17, R274, R457, R459, DEDUCED, log entry 14). -/
opaque signatureOk : Nat → List Byte → Bool

/-- A GMAC under the ring key of a world verifies (R450, R451, DEDUCED, log entry 14). -/
opaque macOk : Nat → W64 → List Byte → Bool

/-- A byte of the device's signature over a digest (R17, R445, DEDUCED, log entry 14). -/
opaque signature : Nat → BitVec 512 → Nat → Byte

/-- A decoder strip of an image has the function its sheet states (R274, DEDUCED, log entry 14). -/
opaque stripOk : List Byte → Bool

/-- A key that Kraord unwraps (R453, DEDUCED, log entry 14). -/
opaque keyOf : Nat → Nat → Nat

/-- The L2 set of a line, in its home slice: the hash that R21 speaks of is not given (R21, R224, DEDUCED, log entry 35). -/
opaque l2Set : Nat → Nat

/-- By how much a performance counter of an event that the model does not count advances in a step (R404, DESIGN CHOICE, log
entry 3). -/
opaque counted : Nat → Nat → Nat

/-- Fused and stored identity: serial number and stepping (R464, DESIGN CHOICE, log entry 9). -/
opaque fused : BitVec 40

/-- A measured value of the management page: temperatures, power, ring oscillators (R464, DESIGN CHOICE, log entry 9). -/
opaque measured : Nat → Nat → W64

/-- Which of two neighbouring values a tie of a class-1 format takes where both have an even code, by the lower code (R269, DESIGN
CHOICE, log entry 33). -/
opaque logTie : Nat → Bool

/-- The value of a result that the specification does not state, of a width in bits (DESIGN CHOICE, log entry 15). -/
opaque unstated : Nat → Nat → Nat

end Sys2Proof.Config
end

