-- ==== Sys2Proof/Machine/Bits.lean ====
section
/-! DEFINITION. Bit fields, bytes and sign extension: the helpers of R59 that need no state. -/

namespace Sys2Proof.Machine

/-- Bits lo to lo+n-1 of a number. -/
def bits (x lo n : Nat) : Nat := x / 2 ^ lo % 2 ^ n

/-- Bit i of a number. -/
def bit (x i : Nat) : Bool := bits x i 1 = 1

/-- Value of one bit at a place. -/
def bitAt (b : Bool) (i : Nat) : Nat := if b then 2 ^ i else 0

/-- A field of n bits at a place. -/
def fieldAt (x lo n : Nat) : Nat := x % 2 ^ n * 2 ^ lo

/-- sext of R59: x read as a signed number of w bits. -/
def sextN (x w : Nat) : Int := if x % 2 ^ w < 2 ^ (w - 1) then (x % 2 ^ w : Nat) else (x % 2 ^ w : Nat) - (2 ^ w : Nat)

/-- The low w bits of an integer. -/
def wrapN (x : Int) (w : Nat) : Nat := (x % (2 ^ w : Nat)).toNat

/-- Bytes of a number, little-endian (R1). -/
def toBytes (x : Nat) : Nat → List Byte
  | 0 => []
  | n + 1 => BitVec.ofNat 8 x :: toBytes (x / 256) n

/-- A number from its bytes, little-endian (R1). -/
def ofBytes (bs : List Byte) : Nat := bs.foldr (fun b n => b.toNat + 256 * n) 0

/-- 64-bit field of a packed number. -/
def w64 (x lo : Nat) : W64 := BitVec.ofNat 64 (bits x lo 64)

/-- Quotient rounded up. -/
def ceilDiv (a b : Nat) : Nat := (a + b - 1) / b

/-- Canonical under R131. -/
def canonical (a : W64) : Bool := bits a.toNat 56 8 = 0 || bits a.toNat 56 8 = 255

/-- Code-canonical under R163. -/
def codeCanonical (a : W64) : Bool := bits a.toNat 51 13 = 0 || bits a.toNat 51 13 = 2 ^ 13 - 1

/-- floor(log2 x), and 0 for 0. -/
def log2 (x : Nat) : Nat := x.log2

/-- Lowest set bit of the low n bits, or none. -/
def lowestBit (x : Nat) : Nat → Option Nat
  | 0 => none
  | n + 1 => (lowestBit x n).or (if bit x n then some n else none)

/-- The two nibbles of each byte from a list of nibbles, low first (R155). -/
def packNibbles : List Nat → List Byte
  | [] => []
  | [a] => [BitVec.ofNat 8 a]
  | a :: b :: r => BitVec.ofNat 8 (a + 16 * b) :: packNibbles r

/-- The nibbles of bytes, low first. -/
def unpackNibbles (bs : List Byte) : List Nat := bs.flatMap fun b => [b.toNat % 16, b.toNat / 16]

/-- Status codes (R203). -/
def stOk : Nat := 0
def stOobFilled : Nat := 1
def stCancelled : Nat := 2
def stFaulted : Nat := 3
def stPoisoned : Nat := 4
def stKeygen : Nat := 5
def stTileDeadlock : Nat := 6
def stBadsig : Nat := 7
def stShape : Nat := 8
def stNoResidence : Nat := 9
def stQuiescent : Nat := 10

/-- A status word (R203, R221): status, channel and the value of [31:16]. -/
def statusWord (st ch hi : Nat) : Nat := st + ch * 2 ^ 8 + min hi 0xFFFF * 2 ^ 16

end Sys2Proof.Machine
end

