-- ==== Sys2Proof/Machine/Float.lean ====
section
/-! DEFINITION. Floating-point arithmetic on exact values: the fixed formats, one rounding, and the functions
of group 0x1 (R59, R103, R104, R112 to R118). -/

namespace Sys2Proof.Machine

/-- A binary format: exponent and fraction widths (R103). -/
structure Fmt where
  ew : Nat
  fw : Nat
deriving DecidableEq, Repr

def Fmt.width (F : Fmt) : Nat := 1 + F.ew + F.fw
def Fmt.bias (F : Fmt) : Nat := 2 ^ (F.ew - 1) - 1
/-- Exponent of the smallest normal number. -/
def Fmt.emin (F : Fmt) : Int := 1 - F.bias

def fmtF16 : Fmt := ⟨5, 10⟩
def fmtB16 : Fmt := ⟨8, 7⟩
def fmtF32 : Fmt := ⟨8, 23⟩
def fmtF64 : Fmt := ⟨11, 52⟩

/-- The format of a floating type. -/
def fmtOf : Ty → Fmt
  | .f16 => fmtF16
  | .b16 => fmtB16
  | .f64 => fmtF64
  | _ => fmtF32

/-- An exact value: NaN (signalling or not), an infinity, a zero, or ±m × 2^e with m positive. -/
inductive FVal where
  | nan (signalling : Bool)
  | inf (neg : Bool)
  | zero (neg : Bool)
  | fin (neg : Bool) (m : Nat) (e : Int)
deriving DecidableEq, Repr

/-- Flags in the order of %fpflags[5:0] (R101). -/
def flNv : Nat := 1
def flDz : Nat := 2
def flOf : Nat := 4
def flUf : Nat := 8
def flNx : Nat := 16
def flFl : Nat := 32

def orFlags (a b : Nat) : Nat := a ||| b

/-- The value of the bits of a format (R103). -/
def Fmt.decode (F : Fmt) (x : Nat) : FVal :=
  let s := bit x (F.ew + F.fw)
  let e := bits x F.fw F.ew
  let f := bits x 0 F.fw
  if e = 2 ^ F.ew - 1 then
    if f = 0 then .inf s else .nan (!bit f (F.fw - 1))
  else if e = 0 then
    if f = 0 then .zero s else .fin s f (F.emin - F.fw)
  else .fin s (2 ^ F.fw + f) ((e : Int) - F.bias - F.fw)

/-- The bits are those of a subnormal number. -/
def Fmt.subnormal (F : Fmt) (x : Nat) : Bool := bits x F.fw F.ew = 0 && bits x 0 F.fw ≠ 0

def Fmt.nan (F : Fmt) : Nat := (2 ^ F.ew - 1) * 2 ^ F.fw + 2 ^ (F.fw - 1)
def Fmt.signBit (F : Fmt) (neg : Bool) : Nat := if neg then 2 ^ (F.ew + F.fw) else 0
def Fmt.infBits (F : Fmt) (neg : Bool) : Nat := F.signBit neg + (2 ^ F.ew - 1) * 2 ^ F.fw
def Fmt.maxBits (F : Fmt) (neg : Bool) : Nat := F.signBit neg + (2 ^ F.ew - 1) * 2 ^ F.fw - 1

/-- flush_in of R59: the value of an input, and fl where it was flushed. -/
def Fmt.input (F : Fmt) (flush : Bool) (x : Nat) : FVal × Nat :=
  if flush && F.subnormal x then (.zero (bit x (F.ew + F.fw)), flFl) else (F.decode x, 0)

/-! ### Rounding -/

/-- Whether a magnitude cut off at a place is rounded up: the kept bits are odd, the rest compared with half
(0 nothing, 1 below, 2 half, 3 above). -/
def roundUp (rm : Rm) (neg odd : Bool) (rest : Nat) : Bool :=
  match rm with
  | .rne => rest = 3 || (rest = 2 && odd)
  | .rtz => false
  | .rup => !neg && rest ≠ 0
  | .rdn => neg && rest ≠ 0

/-- Cuts m (with a further nonzero rest below it when sticky) by sh places. -/
def cut (m : Nat) (sh : Int) (sticky : Bool) : Nat × Nat :=
  match sh with
  | .ofNat k =>
    let r := m % 2 ^ k
    let h := if k = 0 then 0 else 2 ^ (k - 1)
    (m / 2 ^ k,
      if r = 0 then (if sticky then 1 else 0)
      else if k = 0 then 0
      else if r < h then 1 else if r = h then (if sticky then 3 else 2) else 3)
  | .negSucc k => (m * 2 ^ (k + 1), if sticky then 1 else 0)

/-- Rounds m cut by sh places. -/
def roundCut (rm : Rm) (neg : Bool) (m : Nat) (sh : Int) (sticky : Bool) : Nat × Bool :=
  let (k, rest) := cut m sh sticky
  (if roundUp rm neg (k % 2 = 1) rest then k + 1 else k, rest ≠ 0)

/-- round_to of R59 for a nonzero ±(m × 2^e): bits and flags. Tininess is judged on the value rounded with an
unbounded exponent (R104 rule 6; DEDUCED, log entry 18). -/
def Fmt.round (F : Fmt) (rm : Rm) (rfl neg : Bool) (m : Nat) (e : Int) (sticky : Bool) : Nat × Nat :=
  let top := (log2 m : Int) + e
  let q := max (top - F.fw) (F.emin - F.fw)
  let (k, nx) := roundCut rm neg m (q - e) sticky
  let (ku, _) := roundCut rm neg m (top - F.fw - e) sticky
  let tiny := top < F.emin && !(top + 1 = F.emin && ku = 2 ^ (F.fw + 1))
  let (k, q) := if k = 2 ^ (F.fw + 1) then (2 ^ F.fw, q + 1) else (k, q)
  if k < 2 ^ F.fw then
    if rfl && k ≠ 0 then (F.signBit neg, flUf + flNx)
    else (F.signBit neg + k, (if nx then flNx else 0) + (if nx && tiny then flUf else 0))
  else
    let be := q + F.fw + F.bias
    if be ≥ (2 ^ F.ew - 1 : Nat) then
      let toInf := match rm with
        | .rne => true
        | .rtz => false
        | .rup => !neg
        | .rdn => neg
      (if toInf then F.infBits neg else F.maxBits neg, flOf + flNx)
    else (F.signBit neg + be.toNat * 2 ^ F.fw + (k - 2 ^ F.fw),
      (if nx then flNx else 0) + (if nx && tiny then flUf else 0))

/-- Encodes a value, rounding it once. -/
def Fmt.encode (F : Fmt) (rm : Rm) (rfl : Bool) : FVal → Nat × Nat
  | .nan _ => (F.nan, 0)
  | .inf n => (F.infBits n, 0)
  | .zero n => (F.signBit n, 0)
  | .fin n m e => F.round rm rfl n m e false

/-! ### Exact arithmetic -/

def FVal.neg : FVal → FVal
  | .nan s => .nan s
  | .inf n => .inf (!n)
  | .zero n => .zero (!n)
  | .fin n m e => .fin (!n) m e

def FVal.isNan : FVal → Bool
  | .nan _ => true
  | _ => false

def FVal.signalling : FVal → Bool
  | .nan s => s
  | _ => false

/-- Signed integer of a finite value at exponent q (q at most its own). -/
def signedAt (neg : Bool) (m : Nat) (e q : Int) : Int :=
  let v : Int := (m * 2 ^ (e - q).toNat : Nat)
  if neg then -v else v

/-- The exact sum of two numbers that are not NaNs; an exact zero of operands of opposite sign has the sign
that the rounding mode gives it (R104 rule 7). Opposite infinities have no sum. -/
def FVal.add (rm : Rm) : FVal → FVal → Option FVal
  | .nan s, _ => some (.nan s)
  | _, .nan s => some (.nan s)
  | .inf a, .inf b => if a = b then some (.inf a) else none
  | .inf a, _ => some (.inf a)
  | _, .inf b => some (.inf b)
  | .zero a, .zero b => some (.zero (if a = b then a else rm = .rdn))
  | .zero _, y => some y
  | x, .zero _ => some x
  | .fin a m e, .fin b n f =>
    let q := min e f
    let v := signedAt a m e q + signedAt b n f q
    if v = 0 then some (.zero (rm = .rdn)) else some (.fin (v < 0) v.natAbs q)

/-- The exact product of two numbers that are not NaNs; zero times infinity has none. -/
def FVal.mul : FVal → FVal → Option FVal
  | .nan s, _ => some (.nan s)
  | _, .nan s => some (.nan s)
  | .inf _, .zero _ => none
  | .zero _, .inf _ => none
  | .inf a, .inf b => some (.inf (a != b))
  | .inf a, .fin b _ _ => some (.inf (a != b))
  | .fin a _ _, .inf b => some (.inf (a != b))
  | .zero a, .zero b => some (.zero (a != b))
  | .zero a, .fin b _ _ => some (.zero (a != b))
  | .fin a _ _, .zero b => some (.zero (a != b))
  | .fin a m e, .fin b n f => some (.fin (a != b) (m * n) (e + f))

/-- nv for signalling inputs (R104 rule 3). -/
def nvOf (l : List FVal) : Nat := if l.any (·.signalling) then flNv else 0

/-- Encodes the result of an operation, where none is an invalid operation (R104 rules 3 and 4). -/
def Fmt.finish (F : Fmt) (rm : Rm) (rfl : Bool) (inputs : List FVal) (r : Option FVal) : Nat × Nat :=
  if inputs.any (·.isNan) then (F.nan, nvOf inputs)
  else
    match r with
    | none => (F.nan, flNv)
    | some v => F.encode rm rfl v

def Fmt.add (F : Fmt) (rm : Rm) (rfl : Bool) (a b : FVal) : Nat × Nat := F.finish rm rfl [a, b] (a.add rm b)

def Fmt.mul (F : Fmt) (rm : Rm) (rfl : Bool) (a b : FVal) : Nat × Nat := F.finish rm rfl [a, b] (a.mul b)

/-- a × b + c with one rounding (R111). Zero times infinity is invalid whatever c is. -/
def Fmt.fma (F : Fmt) (rm : Rm) (rfl : Bool) (a b c : FVal) : Nat × Nat :=
  match a.mul b with
  | none => (F.nan, flNv)
  | some p => F.finish rm rfl [a, b, c] (p.add rm c)

/-- Order of two values that are not NaNs; -0 is not below +0. -/
def FVal.lt (a b : FVal) : Bool :=
  match a, b with
  | .nan _, _ => false
  | _, .nan _ => false
  | .inf x, .inf y => x && !y
  | .inf x, _ => x
  | _, .inf y => !y
  | .zero _, .zero _ => false
  | .zero _, .fin n _ _ => !n
  | .fin n _ _, .zero _ => n
  | .fin x m e, .fin y n f => signedAt x m e (min e f) < signedAt y n f (min e f)

def FVal.sign : FVal → Bool
  | .nan _ => false
  | .inf n => n
  | .zero n => n
  | .fin n _ _ => n

/-- a precedes b in the order of minimumNumber, in which -0 is below +0 (R112). -/
def FVal.below (a b : FVal) : Bool :=
  a.lt b || (!b.lt a && a.sign && !b.sign)

/-- FMIN or FMAX (R112): one of the inputs, as bits. -/
def Fmt.minMax (F : Fmt) (max : Bool) (a b : FVal) (xa xb : Nat) : Nat × Nat :=
  let pick := fun (v : FVal) (x : Nat) => match v with
    | .zero n => F.signBit n
    | _ => x
  let nv := nvOf [a, b]
  if a.isNan && b.isNan then (F.nan, nv)
  else if a.isNan then (pick b xb, nv)
  else if b.isNan then (pick a xa, nv)
  else if (if max then a.below b else b.below a) then (pick b xb, nv)
  else (pick a xa, nv)

/-- The condition of FCMP and its nv (R113). -/
def fcmpCond (cond : Nat) (a b : FVal) : Bool × Nat :=
  let un := a.isNan || b.isNan
  let r := match cond with
    | 0 => !un && !a.lt b && !b.lt a
    | 1 => un || a.lt b || b.lt a
    | 2 => !un && a.lt b
    | 3 => !un && !b.lt a
    | 4 => !un && b.lt a
    | 5 => !un && !a.lt b
    | 6 => un
    | _ => !un
  let quiet := cond = 2 || cond = 3 || cond = 4 || cond = 5
  (r, if nvOf [a, b] ≠ 0 || (un && quiet) then flNv else 0)

/-- The mask of FCLASS (R115). -/
def Fmt.classMask (F : Fmt) (x : Nat) : Nat :=
  match F.decode x with
  | .inf true => 1
  | .fin true _ _ => if F.subnormal x then 4 else 2
  | .zero true => 8
  | .zero false => 16
  | .fin false _ _ => if F.subnormal x then 32 else 64
  | .inf false => 128
  | .nan true => 256
  | .nan false => 512

/-- Rounds a finite value to an integer: its magnitude, and whether it changed. -/
def roundInt (rm : Rm) (neg : Bool) (m : Nat) (e : Int) : Nat × Bool := roundCut rm neg m (-e) false

/-- FRND (R116). -/
def Fmt.rnd (F : Fmt) (rm : Rm) (exact : Bool) (a : FVal) : Nat × Nat :=
  match a with
  | .nan s => (F.nan, if s then flNv else 0)
  | .fin n m e =>
    let (k, nx) := roundInt rm n m e
    let r := if k = 0 then F.signBit n else (F.round .rne false n k 0 false).1
    (r, if exact && nx then flNx else 0)
  | v => F.encode rm false v

/-- A floating value to an integer of w bits (R117): out of range saturates with nv, a NaN gives 0 with nv. -/
def toInteger (rm : Rm) (w : Nat) (signed : Bool) (a : FVal) : Nat × Nat :=
  let lo : Int := if signed then -(2 ^ (w - 1) : Nat) else 0
  let hi : Int := if signed then (2 ^ (w - 1) : Nat) - 1 else (2 ^ w : Nat) - 1
  match a with
  | .nan _ => (0, flNv)
  | .inf n => (wrapN (if n then lo else hi) w, flNv)
  | .zero _ => (0, 0)
  | .fin n m e =>
    let (k, nx) := roundInt rm n m e
    let v : Int := if n then -(k : Int) else k
    if v < lo then (wrapN lo w, flNv)
    else if hi < v then (wrapN hi w, flNv)
    else (wrapN v w, if nx then flNx else 0)

/-- An integer to a format (R37, R117). -/
def Fmt.ofInt (F : Fmt) (rm : Rm) (rfl : Bool) (v : Int) : Nat × Nat :=
  if v = 0 then (0, 0) else F.round rm rfl (v < 0) v.natAbs 0 false

/-- FSCALE (R118). An exponent of more than 8192 is beyond the range of every format. -/
def Fmt.scale (F : Fmt) (rm : Rm) (rfl : Bool) (a : FVal) (b : Int) : Nat × Nat :=
  match a with
  | .nan s => (F.nan, if s then flNv else 0)
  | .fin n m e => F.round rm rfl n m (e + max (-8192) (min 8192 b)) false
  | v => F.encode rm rfl v

/-! ### Division and roots -/

/-- Integer square root, one bit at a time from a bit downward. -/
def isqrtFrom (n : Nat) : Nat → Nat → Nat
  | 0, r => r
  | k + 1, r => let r' := r + 2 ^ k; isqrtFrom n k (if r' * r' ≤ n then r' else r)

def isqrt (n : Nat) : Nat := isqrtFrom n (log2 n / 2 + 1) 0

/-- Bits of precision that a quotient or root is computed to before its sticky bit. -/
def guardBits : Nat := 160

/-- a / b (R114). -/
def Fmt.div (F : Fmt) (rm : Rm) (rfl : Bool) (a b : FVal) : Nat × Nat :=
  match a, b with
  | .nan _, _ => (F.nan, nvOf [a, b])
  | _, .nan _ => (F.nan, nvOf [a, b])
  | .inf _, .inf _ => (F.nan, flNv)
  | .zero _, .zero _ => (F.nan, flNv)
  | .inf x, _ => (F.infBits (x != b.sign), 0)
  | _, .inf y => (F.signBit (a.sign != y), 0)
  | .zero x, _ => (F.signBit (x != b.sign), 0)
  | .fin x _ _, .zero y => (F.infBits (x != y), flDz)
  | .fin x m e, .fin y n f =>
    let k := guardBits + log2 n
    F.round rm rfl (x != y) (m * 2 ^ k / n) (e - f - k) (m * 2 ^ k % n ≠ 0)

/-- 1 / a (R114). -/
def Fmt.rcp (F : Fmt) (rm : Rm) (rfl : Bool) (a : FVal) : Nat × Nat := F.div rm rfl (.fin false 1 0) a

/-- m × 2^e with an even exponent and many bits. -/
def evenScale (m : Nat) (e : Int) : Nat × Int :=
  let k : Nat := 2 * guardBits
  if (e - k) % 2 = 0 then (m * 2 ^ k, e - k) else (m * 2 ^ (k + 1), e - k - 1)

/-- √a (R114). -/
def Fmt.sqrt (F : Fmt) (rm : Rm) (rfl : Bool) (a : FVal) : Nat × Nat :=
  match a with
  | .nan s => (F.nan, if s then flNv else 0)
  | .inf true => (F.nan, flNv)
  | .inf false => (F.infBits false, 0)
  | .zero n => (F.signBit n, 0)
  | .fin true _ _ => (F.nan, flNv)
  | .fin false m e =>
    let (n, f) := evenScale m e
    let r := isqrt n
    F.round rm rfl false r (f / 2) (r * r ≠ n)

/-- 1 / √a (R114). -/
def Fmt.rsq (F : Fmt) (rm : Rm) (rfl : Bool) (a : FVal) : Nat × Nat :=
  match a with
  | .nan s => (F.nan, if s then flNv else 0)
  | .inf true => (F.nan, flNv)
  | .inf false => (0, 0)
  | .zero n => (F.infBits n, flDz)
  | .fin true _ _ => (F.nan, flNv)
  | .fin false m e =>
    let (n, f) := if e % 2 = 0 then (m, e) else (2 * m, e - 1)
    let k := 2 * (guardBits + log2 n)
    let r := isqrt (2 ^ k / n)
    F.round rm rfl false r (-(f / 2) - k / 2) (r * r * n ≠ 2 ^ k)

/-! ### Functions in fixed point -/

/-- Fraction bits of the fixed-point evaluation. -/
def fixBits : Nat := 704

/-- One in fixed point. -/
def fixOne : Nat := 2 ^ fixBits

/-- Error of an evaluation in units of its last bit. -/
def fixErr : Nat := 2 ^ 12

def fixMul (a b : Nat) : Nat := a * b / fixOne

/-- Sum of z^(2k+1) / (2k+1) with alternating signs or not, for n terms: arctangent and its hyperbolic
counterpart. `p` is the power reached. -/
def oddSeries (z2 : Nat) (alt : Bool) : Nat → Nat → Nat → Int → Int
  | 0, _, _, acc => acc
  | n + 1, k, p, acc =>
    let term : Int := p / (2 * k + 1)
    oddSeries z2 alt n (k + 1) (fixMul p z2) (if alt && k % 2 = 1 then acc - term else acc + term)

/-- atan(1/n) in fixed point. -/
def fixAtanInv (n : Nat) : Int := oddSeries (fixOne / (n * n)) true 310 0 (fixOne / n) 0

/-- π in fixed point (Machin's formula). -/
def fixPi : Nat := (16 * fixAtanInv 5 - 4 * fixAtanInv 239).toNat

/-- The natural logarithm of x in [1, 2), in fixed point. -/
def fixLn (x : Nat) : Nat :=
  let z := (x - fixOne) * fixOne / (x + fixOne)
  (2 * oddSeries (fixMul z z) false 230 0 z 0).toNat

/-- ln 2 in fixed point. -/
def fixLn2 : Nat := (2 * oddSeries (fixOne / 9) false 230 0 (fixOne / 3) 0).toNat

/-- Sum of x^k / k! from term p on, for n terms. -/
def expSeries (x : Nat) : Nat → Nat → Nat → Nat → Nat
  | 0, _, _, acc => acc
  | n + 1, k, p, acc => expSeries x n (k + 1) (fixMul p x / (k + 1)) (acc + p)

/-- e^x for x in [0, 1), in fixed point. -/
def fixExp (x : Nat) : Nat := expSeries x 150 0 fixOne 0

/-- Alternating series of sine (k = 1, p = x) or cosine (k = 0, p = 1). -/
def trigSeries (x2 : Nat) : Nat → Nat → Nat → Int → Bool → Int
  | 0, _, _, acc, _ => acc
  | n + 1, k, p, acc, neg =>
    trigSeries x2 n (k + 2) (fixMul p x2 / ((k + 1) * (k + 2))) (if neg then acc - p else acc + p) (!neg)

def fixSin (x : Nat) : Nat := (trigSeries (fixMul x x) 80 1 x 0 false).toNat
def fixCos (x : Nat) : Nat := (trigSeries (fixMul x x) 80 0 fixOne 0 false).toNat

/-- A finite value in fixed point, exact for the formats that the functions take; magnitude only. -/
def fixOf (m : Nat) (e : Int) : Nat :=
  if 0 ≤ e + fixBits then m * 2 ^ (e + fixBits).toNat else m / 2 ^ (-(e + fixBits)).toNat

/-- Rounds an evaluation in fixed point: no value of these functions is a rounding boundary, except the exact
ones that are treated apart, and the error does not reach the next boundary. -/
def Fmt.roundFix (F : Fmt) (rm : Rm) (rfl neg : Bool) (x : Nat) (shift : Int) : Nat × Nat :=
  F.round rm rfl neg (x - fixErr) (shift - fixBits) true

/-- 2^a (R114). -/
def Fmt.exp2 (F : Fmt) (rm : Rm) (rfl : Bool) (a : FVal) : Nat × Nat :=
  match a with
  | .nan s => (F.nan, if s then flNv else 0)
  | .inf true => (0, 0)
  | .inf false => (F.infBits false, 0)
  | .zero _ => F.round rm rfl false 1 0 false
  | .fin n m e =>
    if 12 ≤ (log2 m : Int) + e then F.round rm rfl false 1 (if n then -5000 else 5000) true
    else
      let x := fixOf m e
      let k : Int := if n then -(ceilDiv x fixOne : Nat) else (x / fixOne : Nat)
      let f := if n then (fixOne - x % fixOne) % fixOne else x % fixOne
      if f = 0 then F.round rm rfl false 1 k false
      else F.roundFix rm rfl false (fixExp (fixMul f fixLn2)) k

/-- log2(a) (R114). -/
def Fmt.log2 (F : Fmt) (rm : Rm) (rfl : Bool) (a : FVal) : Nat × Nat :=
  match a with
  | .nan s => (F.nan, if s then flNv else 0)
  | .inf true => (F.nan, flNv)
  | .inf false => (F.infBits false, 0)
  | .zero _ => (F.infBits true, flDz)
  | .fin true _ _ => (F.nan, flNv)
  | .fin false m e =>
    let t := m.log2
    let k : Int := t + e
    if m = 2 ^ t then F.ofInt rm rfl k
    else
      let x := fixOf m (-(t : Int))
      let l := fixLn x * fixOne / fixLn2
      let v : Int := k * (fixOne : Nat) + l
      if v < 0 then F.roundFix rm rfl true v.natAbs 0 else F.roundFix rm rfl false v.natAbs 0

/-- sin(πr) for r in [0, 1/2], in fixed point. -/
def fixSinPi (r : Nat) : Nat :=
  if 4 * r ≤ fixOne then fixSin (fixMul fixPi r) else fixCos (fixMul fixPi (fixOne / 2 - r))

/-- sin(πa) for a = ±x in fixed point, 0 ≤ x < 2 (R114). -/
def Fmt.sinOf (F : Fmt) (rm : Rm) (rfl neg : Bool) (x : Nat) : Nat × Nat :=
  let half := fixOne / 2
  let neg' := neg != decide (fixOne ≤ x)
  let y := x % fixOne
  let r := if y ≤ half then y else fixOne - y
  if r = half then F.round rm rfl neg' 1 0 false
  else F.roundFix rm rfl neg' (fixSinPi r) 0

/-- sin(πa) (R114). -/
def Fmt.sin (F : Fmt) (rm : Rm) (rfl : Bool) (a : FVal) : Nat × Nat :=
  match a with
  | .nan s => (F.nan, if s then flNv else 0)
  | .inf _ => (F.nan, flNv)
  | .zero n => (F.signBit n, 0)
  | .fin n m e =>
    let x := fixOf m e
    if x % fixOne = 0 then (F.signBit n, 0) else F.sinOf rm rfl n (x % (2 * fixOne))

/-- cos(πa) (R114): the sine a half further. -/
def Fmt.cos (F : Fmt) (rm : Rm) (rfl : Bool) (a : FVal) : Nat × Nat :=
  match a with
  | .nan s => (F.nan, if s then flNv else 0)
  | .inf _ => (F.nan, flNv)
  | .zero _ => F.round rm rfl false 1 0 false
  | .fin _ m e =>
    let x := (fixOf m e + fixOne / 2) % (2 * fixOne)
    if x % fixOne = 0 then (0, 0)
    else if x = fixOne / 2 then F.round rm rfl false 1 0 false
    else F.sinOf rm rfl false x

/-- tanh(a) (R114). -/
def Fmt.tanh (F : Fmt) (rm : Rm) (rfl : Bool) (a : FVal) : Nat × Nat :=
  match a with
  | .nan s => (F.nan, if s then flNv else 0)
  | .inf n => F.round rm rfl n 1 0 false
  | .zero n => (F.signBit n, 0)
  | .fin n m e =>
    if 7 ≤ (m.log2 : Int) + e then F.round rm rfl n (fixOne - 1) (-(fixBits : Int)) true
    else
      let x := 2 * fixOf m e
      let k := x / fixLn2
      let ex := fixExp (x - k * fixLn2) * 2 ^ k
      F.roundFix rm rfl n ((ex - fixOne) * fixOne / (ex + fixOne)) 0

end Sys2Proof.Machine
end

