-- ==== Sys2Proof/Machine/Formats.lean ====
section
/-! DEFINITION. Format sheets: their fields, when one is malformed, and how its elements decode and encode
(R266 to R270, R273). -/

namespace Sys2Proof.Machine

/-- A format sheet (R266). -/
structure Sheet where
  cls : Nat
  ew : Nat
  rate : Nat
  ebits : Nat
  fbits : Nat
  bias : Int
  sub : Nat
  spec : Nat
  rms : Nat
  drm : Nat
  ovf : Nat
  dovf : Nat
  emax : Int
  lanes : Nat
  half : Nat
  moduli : List Nat
  table : List Nat
deriving DecidableEq, Repr

/-- The sheet in 128 bytes read as a number (R266). -/
def Sheet.ofNat (n : Nat) : Sheet :=
  { cls := bits n 0 8, ew := bits n 8 8, rate := bits n 16 8, ebits := bits n 24 8, fbits := bits n 32 8,
    bias := sextN (bits n 40 16) 16, sub := bits n 56 8, spec := bits n 64 8, rms := bits n 72 8,
    drm := bits n 80 8, ovf := bits n 88 8, dovf := bits n 96 8, emax := sextN (bits n 104 8) 8,
    lanes := bits n 112 8, half := bits n 120 16,
    moduli := [bits n 136 16, bits n 152 16, bits n 168 16],
    table := (List.range 16).map fun i => bits n (256 + 32 * i) 32 }

/-- The reserved bits of a sheet (R266). -/
def sheetReserved (n : Nat) : Nat := bits n 184 72 + bits n 768 256

def Sheet.modulus (h : Sheet) (i : Nat) : Nat := h.moduli.getD i 1

/-- Product of the moduli. -/
def Sheet.prod (h : Sheet) : Nat := h.modulus 0 * h.modulus 1 * h.modulus 2

/-- Largest code of a finite magnitude of class 0. -/
def Sheet.topCode (h : Sheet) : Nat :=
  let top := 2 ^ h.ebits - 1
  if h.spec = 1 then
    if top = 1 && h.sub = 0 then 0 else top * 2 ^ h.fbits - 1
  else if h.spec = 2 then
    if 2 ^ h.fbits = 1 && top = 1 && h.sub = 0 then 0 else top * 2 ^ h.fbits + 2 ^ h.fbits - 2
  else top * 2 ^ h.fbits + 2 ^ h.fbits - 1

/-- Residues of an element, lowest digit first (R268). -/
def Sheet.digits (h : Sheet) (x : Nat) : List Nat :=
  (List.range 3).map fun i => bits x (i * h.fbits) h.fbits % h.modulus i

/-- An element from the residues of an integer (R269). -/
def Sheet.packDigits (h : Sheet) (v : Int) : Nat :=
  (List.range 3).foldl (fun n i => n + (v % (h.modulus i : Int)).toNat * 2 ^ (i * h.fbits)) 0

/-- The balanced integer of a residue element, by the Chinese remainder theorem (R268). -/
def Sheet.balanced (h : Sheet) (x : Nat) : Int :=
  let M := h.prod
  let d := h.digits x
  let v := (List.range 3).foldl (fun n i =>
    let m := h.modulus i
    let mi := M / m
    let inv := ((List.range m).find? fun j => mi * j % m = 1 % m).getD 0
    n + d.getD i 0 * mi * inv) 0 % M
  if v < M - M / 2 then v else (v : Int) - M

/-- Magnitude of a code of class 1 (R268): m × 2^e. -/
def Sheet.logMag (h : Sheet) (c : Nat) : Nat × Int :=
  let o : Int := c - h.bias
  if o % 2 = 0 then (1, o / 2) else (h.half, (o - 1) / 2 - 15)

/-- decode of R268. NaNs of slot formats are quiet. -/
def Sheet.decode (h : Sheet) (x : Nat) : FVal :=
  let s := bit x (h.ew - 1)
  match h.cls with
  | 0 =>
    let e := bits x h.fbits h.ebits
    let f := bits x 0 h.fbits
    let top := 2 ^ h.ebits - 1
    if h.spec = 1 && e = top then (if f = 0 then .inf s else .nan false)
    else if h.spec = 2 && e = top && f = 2 ^ h.fbits - 1 then .nan false
    else if e = 0 && (h.sub = 0 || f = 0) then .zero s
    else if e = 0 then .fin s f (1 - h.bias - h.fbits)
    else .fin s (2 ^ h.fbits + f) (e - h.bias - h.fbits)
  | 1 =>
    let c := bits x 0 (h.ew - 1)
    if c = 0 then .zero s else .fin s (h.logMag c).1 (h.logMag c).2
  | 2 =>
    let v := sextN x h.ew
    if v = 0 then .zero false else .fin (v < 0) v.natAbs (-(h.fbits : Int))
  | 3 =>
    let v := h.balanced x
    if v = 0 then .zero false else .fin (v < 0) v.natAbs 0
  | _ => fmtF32.decode (h.table.getD (bits x 0 4) 0)

/-- An element that the ifl_slot flush turns into a zero: a subnormal of class 0 (R270). -/
def Sheet.subnormal (h : Sheet) (x : Nat) : Bool :=
  h.cls = 0 && h.sub = 1 && bits x h.fbits h.ebits = 0 && bits x 0 h.fbits ≠ 0 &&
    !(h.decode x).isNan && (match h.decode x with | .inf _ => false | _ => true)

/-- The exact value of an element after flush_in, and fl where it was flushed. -/
def Sheet.input (h : Sheet) (flush : Bool) (x : Nat) : FVal × Nat :=
  if flush && h.subnormal x then (.zero (bit x (h.ew - 1)), flFl) else (h.decode x, 0)

/-- Comparison of two magnitudes m × 2^e: -1, 0 or 1. -/
def cmpMag (a b : Nat × Int) : Int :=
  let q := min a.2 b.2
  let x := a.1 * 2 ^ (a.2 - q).toNat
  let y := b.1 * 2 ^ (b.2 - q).toNat
  if x < y then -1 else if x = y then 0 else 1

/-- The sign bit of an element. -/
def Sheet.signBit (h : Sheet) (neg : Bool) : Nat := if neg then 2 ^ (h.ew - 1) else 0

/-- The overflow result of class 0 (R269). -/
def Sheet.overflow0 (h : Sheet) (rm : Rm) (ob neg : Bool) : Nat :=
  let toInf := match rm with
    | .rne => true
    | .rtz => false
    | .rup => !neg
    | .rdn => neg
  h.signBit neg + (if ob && h.spec = 1 && toInf then (2 ^ h.ebits - 1) * 2 ^ h.fbits else h.topCode)

/-- A code of class 0 is a subnormal: one that rfl_slot flushes (R269). -/
def Sheet.tiny (h : Sheet) (x : Nat) : Bool := bits x 0 (h.ew - 1) ≠ 0 && decide (bits x 0 (h.ew - 1) < 2 ^ h.fbits)

/-- Encoding of a finite nonzero value in class 0 (R269). -/
def Sheet.encode0 (h : Sheet) (rm : Rm) (ob rfl neg : Bool) (m : Nat) (e : Int) : Nat × Nat :=
  let emin : Int := 1 - h.bias
  let top := (log2 m : Int) + e
  let q := if emin ≤ top then top - h.fbits else if h.sub = 1 then emin - h.fbits else emin
  let (k, nx) := roundCut rm neg m (q - e) false
  let top' := (log2 k : Int) + q
  let mag : Nat :=
    if k = 0 then 0
    else if top' < emin then k
    else
      let sig := k * 2 ^ h.fbits / 2 ^ log2 k
      (top' + h.bias).toNat * 2 ^ h.fbits + (sig - 2 ^ h.fbits)
  if h.topCode < mag then
    let x := h.overflow0 rm ob neg
    if rfl && h.tiny x then (h.signBit neg, flOf + flUf + flNx) else (x, flOf + flNx)
  else
    let fl := (if nx then flNx else 0) + (if nx && decide (top < emin) then flUf else 0)
    if rfl && h.tiny mag then (h.signBit neg, flUf + flNx)
    else (h.signBit neg + mag, fl)

/-- The code of class 1 that stands for the value of a code: where a half-step of 1 gives one value two codes, the even one
(R269, DEDUCED, log entry 33). -/
def Sheet.evenCode (h : Sheet) (c : Nat) : Nat :=
  let other := if ((c : Int) - h.bias) % 2 = 0 then c + 1 else c - 1
  if h.half = 0x8000 && c % 2 = 1 && 0 < other && other < 2 ^ h.ebits then other else c

/-- Encoding of a finite nonzero value in class 1 (R269), between the largest code whose value is not above it and the next. A tie
of two values that both have an even code is open (log entry 33). -/
def Sheet.encode1 (h : Sheet) (rm : Rm) (neg : Bool) (m : Nat) (e : Int) : Nat × Nat :=
  let cmax := 2 ^ h.ebits - 1
  let t := (log2 m : Int) + e
  let c : Int := 2 * t + (if 0 ≤ cmpMag (m, e) (h.half, t - 15) then 1 else 0) + h.bias
  let lo : Nat := if c < 1 then 0 else min cmax c.toNat
  let hi := min cmax (lo + 1)
  let sb := h.signBit neg
  if lo ≠ 0 && cmpMag (m, e) (h.logMag lo) = 0 then (sb + h.evenCode lo, 0)
  else if lo = cmax then (sb + h.evenCode cmax, flOf + flNx)
  else
    let l := if lo = 0 then (0, (h.logMag hi).2) else h.logMag lo
    let u := h.logMag hi
    let q := min l.2 u.2
    let mid := (l.1 * 2 ^ (l.2 - q).toNat + u.1 * 2 ^ (u.2 - q).toNat, q - 1)
    let d := cmpMag (m, e) mid
    let up := match rm with
      | .rne => 0 < d || (d = 0 && h.evenCode hi % 2 = 0 && (h.evenCode lo % 2 = 1 || Config.logTie lo))
      | .rtz => false
      | .rup => !neg
      | .rdn => neg
    (sb + (if up then h.evenCode hi else h.evenCode lo), flNx + (if cmpMag (m, e) (h.logMag 1) < 0 then flUf else 0))

/-- Bounds and scale of classes 2 and 3 (R269). -/
def Sheet.intBounds (h : Sheet) : Int × Int × Nat :=
  if h.cls = 2 then (-(2 ^ (h.ew - 1) : Nat), (2 ^ (h.ew - 1) : Nat) - 1, h.fbits)
  else
    let b : Int := (h.prod / 2 : Nat) - 1
    (-b, b, 0)

/-- The element of an integer in classes 2 and 3. -/
def Sheet.intCode (h : Sheet) (n : Int) : Nat := if h.cls = 2 then wrapN n h.ew else h.packDigits n

def Sheet.encodeInt (h : Sheet) (rm : Rm) (neg : Bool) (m : Nat) (e : Int) : Nat × Nat :=
  let (lo, hi, sc) := h.intBounds
  let (k, nx) := roundCut rm neg m (-(e + sc)) false
  let n : Int := if neg then -(k : Int) else k
  if n < lo then (h.intCode lo, flOf + flNx)
  else if hi < n then (h.intCode hi, flOf + flNx)
  else (h.intCode n, if nx then flNx else 0)

/-- Distance of two finite values, as m × 2^e. -/
def FVal.dist (a b : FVal) : Nat × Int :=
  match a, b with
  | .fin x m e, .fin y n f => ((signedAt x m e (min e f) - signedAt y n f (min e f)).natAbs, min e f)
  | .fin _ m e, _ => (m, e)
  | _, .fin _ m e => (m, e)
  | _, _ => (0, 0)

/-- The codes of a codebook with their entries. -/
def Sheet.entries (h : Sheet) : List (Nat × FVal) :=
  (List.range (2 ^ h.ew)).map fun i => (i, fmtF32.decode (h.table.getD i 0))

/-- The first entry for which no other is better. -/
def bestEntry (better : FVal → FVal → Bool) (l : List (Nat × FVal)) : Nat × FVal :=
  match l with
  | [] => (0, .zero false)
  | x :: xs => xs.foldl (fun b y => if better y.2 b.2 then y else b) x

/-- Encoding in class 4 (R269). -/
def Sheet.encode4 (h : Sheet) (v : FVal) : Nat × Nat :=
  match v with
  | .inf neg => ((bestEntry (fun a b => if neg then a.lt b else b.lt a) h.entries).1, flOf)
  | _ =>
    let best := bestEntry (fun a b => cmpMag (a.dist v) (b.dist v) < 0) h.entries
    (best.1, if (best.2.dist v).1 = 0 then 0 else flNx)

/-- The code of a NaN (R269), and nv where the format has none. -/
def Sheet.nanCode (h : Sheet) : Nat × Nat :=
  if h.cls = 0 && h.spec = 1 then ((2 ^ h.ebits - 1) * 2 ^ h.fbits + 2 ^ h.fbits / 2, 0)
  else if h.cls = 0 && h.spec = 2 then (2 ^ (h.ew - 1) - 1, 0)
  else (0, flNv)

/-- The encoding of a value in rounding mode rm and overflow behaviour ob (R269). -/
def Sheet.encode (h : Sheet) (rm : Rm) (ob rfl : Bool) (v : FVal) : Nat × Nat :=
  match v with
  | .nan s => (h.nanCode.1, h.nanCode.2 ||| (if s then flNv else 0))
  | .zero n =>
    match h.cls with
    | 0 | 1 => (h.signBit n, 0)
    | 4 => h.encode4 v
    | _ => (h.intCode 0, 0)
  | .inf n =>
    match h.cls with
    | 0 =>
      let x := h.overflow0 rm ob n
      if rfl && h.tiny x then (h.signBit n, flOf + flUf) else (x, flOf)
    | 1 => (h.signBit n + h.evenCode (2 ^ h.ebits - 1), flOf)
    | 4 => h.encode4 v
    | _ => (h.intCode (if n then h.intBounds.1 else h.intBounds.2.1), flOf)
  | .fin n m e =>
    match h.cls with
    | 0 => h.encode0 rm ob rfl n m e
    | 1 => h.encode1 rm n m e
    | 4 => h.encode4 v
    | _ => h.encodeInt rm n m e

/-! ### Well-formed sheets (R267) -/

/-- emax of the other fields: floor(log2) of the largest finite magnitude; 0 when it is zero. -/
def Sheet.emaxOf (h : Sheet) : Int :=
  match h.cls with
  | 0 =>
    match h.decode h.topCode with
    | .fin _ m e => (log2 m : Int) + e
    | _ => 0
  | 1 =>
    let x := h.logMag (2 ^ h.ebits - 1)
    (log2 x.1 : Int) + x.2
  | 2 => (h.ew : Int) - 2 - h.fbits
  | 3 => log2 (h.prod / 2)
  | _ =>
    let logs := h.entries.filterMap fun x => match x.2 with
      | .fin _ m e => some ((log2 m : Int) + e)
      | _ => none
    match logs with
    | [] => 0
    | l :: ls => ls.foldl max l

/-- Rate class of a significand of n bits (R266). -/
def rateOf (n : Nat) : Nat := if n ≤ 4 then 0 else if n ≤ 8 then 1 else if n ≤ 12 then 2 else if n ≤ 24 then 3 else 4

def Sheet.rateWanted (h : Sheet) : Nat :=
  match h.cls with
  | 0 => rateOf (h.fbits + 1)
  | 1 => 0
  | 2 => rateOf h.ew
  | 3 => rateOf h.fbits
  | _ => 3

/-- The conditions of R267 that belong to the class. -/
def Sheet.classOk (h : Sheet) : Bool :=
  match h.cls with
  | 0 => 1 + h.ebits + h.fbits = h.ew && h.ebits ≠ 0
  | 1 => 1 + h.ebits = h.ew && 0x8000 ≤ h.half && 1 ≤ h.bias && h.bias ≤ (2 ^ h.ebits : Nat) - 1
  | 2 => h.fbits + 1 ≤ h.ew
  | 3 => 3 * h.fbits = h.ew && h.moduli.all (fun m => 2 ≤ m && m ≤ 2 ^ h.fbits) &&
      Nat.gcd (h.modulus 0) (h.modulus 1) = 1 && Nat.gcd (h.modulus 0) (h.modulus 2) = 1 &&
      Nat.gcd (h.modulus 1) (h.modulus 2) = 1
  | 4 => h.ew ≤ 4 && h.table.all (fun x => bits x 23 8 ≠ 255)
  | _ => false

/-- A sheet is well formed: none of the conditions of R267 holds. -/
def sheetOk (n : Nat) : Bool :=
  let h := Sheet.ofNat n
  sheetReserved n = 0 && h.cls ≤ 4 && 2 ≤ h.ew && h.ew ≤ 32 &&
  h.spec ≤ 2 && h.sub ≤ 1 && h.drm ≤ 3 && h.dovf ≤ 1 && h.rate ≤ 4 && h.rms < 16 && h.ovf < 4 && h.lanes < 32 &&
  (h.cls = 0 || (h.spec = 0 && h.sub = 0)) && (h.cls ≤ 1 || (h.bias = 0 && h.ebits = 0)) &&
  ((h.cls ≠ 1 && h.cls ≠ 4) || h.fbits = 0) && (h.cls = 1 || h.half = 0) &&
  (h.cls = 3 || h.moduli.all (· = 0)) && (if h.cls = 4 then (h.table.drop (2 ^ h.ew)).all (· = 0) else h.table.all (· = 0)) &&
  h.classOk && h.rms ≠ 0 && bit h.rms h.drm && h.ovf ≠ 0 && bit h.ovf h.dovf &&
  (!bit h.ovf 1 || (h.cls = 0 && h.spec = 1)) && h.rate = h.rateWanted && h.emax = h.emaxOf &&
  !(h.cls = 3 && bits h.lanes 3 2 ≠ 0) && !(h.cls = 4 && h.lanes ≠ 0)

/-! ### Lane forms on slot elements (R119, R270) -/

/-- The operations that a sheet may offer to lanes. -/
inductive SlotOp where
  | add | sub | mul | fma | min | max
deriving DecidableEq, Repr

/-- Bit of `lanes` for an operation (R266). -/
def SlotOp.bit : SlotOp → Nat
  | .add | .sub => 0
  | .mul => 1
  | .fma => 2
  | .min | .max => 3

/-- The sheet's rounding modes contain one (R266). -/
def Sheet.offers (h : Sheet) (rm : Rm) : Bool :=
  match rm with
  | .rne => bit h.rms 0
  | .rtz => bit h.rms 1
  | .rup => bit h.rms 2
  | .rdn => bit h.rms 3

/-- Digit-by-digit arithmetic of class 3 (R270). -/
def Sheet.digitOp (h : Sheet) (op : SlotOp) (x y z : Nat) : Nat :=
  let dx := h.digits x
  let dy := h.digits y
  let dz := h.digits z
  (List.range 3).foldl (fun n i =>
    let m := h.modulus i
    let a := dx.getD i 0
    let b := dy.getD i 0
    let r := match op with
      | .add => a + b
      | .sub => a + m - b
      | .mul => a * b
      | _ => a * b + dz.getD i 0
    n + r % m * 2 ^ (i * h.fbits)) 0

/-- FMIN and FMAX of two elements (R112, R270): one of the inputs after flush_in. -/
def Sheet.minMax (h : Sheet) (max : Bool) (a b : FVal) (xa xb : Nat) : Nat :=
  let pick := fun (v : FVal) (x : Nat) => match v with
    | .zero n => if h.subnormal x then h.signBit n else bits x 0 h.ew
    | _ => bits x 0 h.ew
  if a.isNan && b.isNan then h.nanCode.1
  else if a.isNan then pick b xb
  else if b.isNan then pick a xa
  else if (if max then a.below b else b.below a) then pick b xb
  else pick a xa

/-- A lane operation on elements of a sheet: result and flags (R270). -/
def Sheet.laneOp (h : Sheet) (op : SlotOp) (rm : Rm) (ob ifl rfl : Bool) (x y z : Nat) : Nat × Nat :=
  if h.cls = 3 then (h.digitOp op x y z, 0)
  else
    let (a, fa) := h.input ifl x
    let (b, fb) := h.input ifl y
    let (c, fc) := if op = .fma then h.input ifl z else (.zero false, 0)
    let fin := fun (r : Option FVal) =>
      if a.isNan || b.isNan || c.isNan then h.encode rm ob rfl (.nan false)
      else match r with
        | none => let e := h.encode rm ob rfl (.nan false); (e.1, e.2 ||| flNv)
        | some v => h.encode rm ob rfl v
    let (v, fv) := match op with
      | .add => fin (a.add rm b)
      | .sub => fin (a.add rm b.neg)
      | .mul => fin (a.mul b)
      | .fma =>
        match a.mul b with
        | none => let e := h.encode rm ob rfl (.nan false); (e.1, e.2 ||| flNv)
        | some p => fin (p.add rm c)
      | .min => (h.minMax false a b x y, 0)
      | .max => (h.minMax true a b x y, 0)
    (v, fa ||| fb ||| fc ||| fv)

end Sys2Proof.Machine
end

