-- ==== Sys2Proof/Machine/State.lean ====
section
/-! DEFINITION. The state of the machine as plain data: every piece of state that the specification gives the
SP9, held in flat tables whose rows name what they belong to, and the state right after reset. -/

namespace Sys2Proof.Machine

/-! ### Threads, groups and teams -/

/-- A waymark (R162). -/
structure Waymark where
  valid : Bool
  domain : BitVec 4
  target : BitVec 48
  pstate : BitVec 2
deriving DecidableEq, Repr

/-- A trap record that is not yet written (R174, R175). -/
structure Trap where
  code : BitVec 8
  info : BitVec 8
  pc : W64
  resume : W64
  addr : W64
  /-- pc and resume are those of the thread's next instruction at delivery (R176) -/
  next : Bool
deriving DecidableEq, Repr

/-- A thread in YIELD or SLEEP: the cycle at which it is ready again (R189). In a saved team the cycles that
remain. -/
structure Sleep where
  deadline : Nat
  yield : Bool
deriving DecidableEq, Repr

/-- A thread that waits to be placed in a lay-by (R183, R295). -/
structure Placement where
  entry : W64
  first : Nat
  count : Nat
  bytes : List Byte
  /-- the issue that it belongs to (R295) -/
  iss : Nat
deriving DecidableEq, Repr

/-- A place in memory: an address of this device or of a peer (R434), or a host address (R311). -/
structure Loc where
  host : Bool
  addr : Nat
deriving DecidableEq, Repr

/-- A barrier object (R233). -/
inductive BarRef where
  | mem (addr : Loc)
  | tile (id : Nat) (byte : Nat)
deriving DecidableEq, Repr

/-- A thread that waits in a BWAIT (R235, R236): the instruction, its object and its parity, whether a phase's end has
released it, and, where the object is a peer's, whether a read of it is under way and what the last one brought. -/
structure BWait where
  pc : W64
  obj : BarRef
  parity : Bool
  released : Bool
  asked : Bool
  value : Nat
deriving DecidableEq, Repr

/-- A thread: the state that R23 holds at this level. -/
structure Thread where
  id : TRef
  live : Bool
  pc : W64
  /-- slices s0 to s1023; bit 4i+b is bit b of slice i (R36, R97) -/
  slices : BitVec 4096
  /-- q0 to q6 (R98) -/
  preds : BitVec 7
  fmode : BitVec 32
  fpflags : BitVec 32
  /-- m0 to m7 (R162) -/
  wm : List Waymark
  /-- on-chip return entries, oldest first (R168) -/
  ret : List W64
  /-- spilled return entries (R168) -/
  n : Nat
  sp : W64
  base : W64
  stklim : W64
  retbase : W64
  retlim : W64
  /-- sb0 to sb7 busy (R20) -/
  sb : BitVec 8
  handler : Bool
  sphase : BitVec 16
  await : BitVec 16
  wait : Nat
  seq : Nat
  /-- the reuse latch holds the operands of the instruction before (R46) -/
  reuse : Bool
  sleep : Option Sleep
  /-- the trap that the thread's own instruction raised (R47, R173) -/
  trap : Option Trap
  /-- asynchronous traps that are pending (R177, R396, R153, R463) -/
  async : List Trap
  /-- the open fault whose disposition the thread waits for (R320) -/
  fault : Option Nat
  /-- the thread stands at a turn point; true when it is lap-ending (R357) -/
  turn : Option Bool
  /-- the thread is shed and waits for a lay-by (R295) -/
  shed : Option Placement
  /-- the thread's latest release fence had a scope of team or narrower, so its writes carry a release mark (R86) -/
  marking : Bool
  /-- the BWAIT in which the thread waits (R235, R236) -/
  bwait : Option BWait
  /-- waymarks whose lines are being fetched (R164), and the one at whose target the thread waits for them (R165) -/
  prefetch : BitVec 8
  landing : Option (BitVec 3)
  /-- the thread has begun the JOIN, SIGN or MMA at its pc and waits there for the phase (R186) -/
  joins : Bool
deriving DecidableEq, Repr

/-- A group (R23, R24, R99). -/
structure Group where
  team : Nat
  gid : Nat
  quad : Nat
  producer : Bool
  /-- slices per thread (R24) -/
  budget : Nat
  /-- k0 to k63; bit 32i+b is bit b of ki -/
  k : BitVec 2048
  hdl : W64
  domain : BitVec 4
  gfp : W64
  hash : W64
  /-- parked by PSAVED with the range of slices that it keeps (R399), or by R396 -/
  parked : Option (Nat × Nat)
  /-- the call that the group is in is being unwound for this trap code (R349) -/
  unwind : Option (BitVec 8)
deriving DecidableEq, Repr

/-- A convergence register (R170); bit 32g+l of `signed` is the thread of group g at home lane l. -/
structure CReg where
  set : BitVec 32
  phase : Bool
  signed : BitVec 1024
deriving DecidableEq, Repr

/-- Where a team is (R321, R391, R392). -/
inductive Place where
  | resident
  | frame       -- saved in its context frame
deriving DecidableEq, Repr

/-- A team (R23, R38, R170, R355, R359). -/
structure Team where
  id : Nat
  launch : Nat
  /-- team linear index (R353); 2^32 - 1 for a formed team -/
  index : Nat
  formed : Bool
  /-- formation number in the launch, of a formed team (R386) -/
  form : Nat
  world : Nat
  core : Nat
  place : Place
  /-- the save is for a fault swap, and the team keeps its slot when its launch is persistent (R321) -/
  swapped : Bool
  team : W64
  teamdim : W64
  griddim : W64
  lcore : Nat
  /-- cluster grid number and size, 0 when there is none; the rank is index mod size (R389) -/
  cgrid : Nat
  cregs : List CReg
  /-- tile store reservation in granules (R196) -/
  reserve : Nat
  lap : Nat
  turns : Nat
  finalTurn : Bool
  started : Nat
  /-- gate slots that the team's end still has to release: frame addresses by group (R347) -/
  releases : List (Nat × W64)
deriving DecidableEq, Repr

/-! ### Memory -/

/-- A write in a core write buffer (R67): the bytes of one atomic element. -/
structure BufEntry where
  id : Nat
  core : Nat
  who : TRef
  seq : Nat
  op : Nat
  world : Nat
  bytes : List (Loc × Byte)
  release : Bool
  /-- the issue that wrote it, and the lines that the issue covers whole (R147) -/
  iss : Nat
  whole : List Nat
deriving DecidableEq, Repr

/-- What a line of HBM4E is sealed under: the memory key and the tweak of R439 (upper word, second word, offset). -/
structure Seal where
  key : Nat
  hi : Nat
  ver : Nat
  off : Nat
deriving DecidableEq, Repr

/-- A release mark of the directory (R86): on each byte whose latest write carries one. -/
structure Mark where
  at_ : Loc
  core : Nat
  before : Nat
deriving DecidableEq, Repr

/-- Protection of a line against replacement (R139). -/
structure Prot where
  line : Nat
  code : BitVec 3
  world : Nat
  core : Nat
deriving DecidableEq, Repr

/-- A line of a quad's fetch buffers (R164). -/
structure FetchLine where
  core : Nat
  quad : Nat
  world : Nat
  domain : BitVec 4
  line : Nat
  bits : BitVec 1024
deriving DecidableEq, Repr

/-- A cached translation (R134, R317); size 0 to 3. -/
structure Xlat where
  core : Nat
  world : Nat
  domain : BitVec 4
  size : BitVec 2
  vpage : Nat
  out : Loc
  read : Bool
  write : Bool
  exec : Bool
  /-- size of the leaf that it comes from, which is not below its own (R332) -/
  leaf : BitVec 2
  /-- the leaf -/
  entry : W64
deriving DecidableEq, Repr

/-- An entry of a compute die's walk cache: the stage-1 entry read at a level, and the part of the address that led to it
(R317). -/
structure WalkEntry where
  die : Nat
  world : Nat
  domain : BitVec 4
  level : Nat
  pre : Nat
  entry : W64
deriving DecidableEq, Repr

/-- A last-page register (R134). -/
structure LastPage where
  core : Nat
  quad : Nat
  lane : Nat
  page : Xlat
deriving DecidableEq, Repr

/-- A line of a stack window: its line in memory, its virtual line number, and the home lane of its thread (R152). -/
structure WinLine where
  line : Nat
  vline : Nat
  lane : Nat
deriving DecidableEq, Repr

/-- A stack window (R152). -/
structure Window where
  core : Nat
  team : Nat
  gid : Nat
  lines : List WinLine
deriving DecidableEq, Repr

/-! ### Operations -/

/-- How far an operation has come. -/
inductive Phase where
  | pending     -- issued
  | buffered    -- its writes are in the core write buffer
  | recall      -- it waits for a line that is owned, or for a recalled core (R22, R86)
  | remote      -- requests to a peer are outstanding (R408)
  | queued      -- it waits in the queue of its engine
  | turn        -- it waits for its team's turn (R357)
  | hold        -- the tollgate holds it (R374)
  | again       -- withdrawn by a save: it is executed again (R146)
  | result      -- its result is known and is written when it completes
deriving DecidableEq, Repr

/-- An instruction that has issued and is not complete (R42, R43). -/
structure Op where
  id : Nat
  who : TRef
  seq : Nat
  la : BitVec 4
  /-- the scoreboard slot that it set -/
  slot : Option (BitVec 3)
  instr : Instr
  pc : W64
  /-- the operation that this one completes with: a collective's, or its own -/
  lead : Nat
  /-- the issue that it belongs to (R136, R375) -/
  iss : Nat
  phase : Phase
  /-- operand values sampled at issue -/
  a : Nat
  b : Nat
  c : Nat
  x : Nat
  domain : BitVec 4
  /-- the bytes of memory that it names, translated at issue -/
  locs : List Loc
  /-- what it has read or computed -/
  data : List Nat
  /-- the tiles that it names, resolved at issue (R202, R209) -/
  tiles : List Nat
  /-- slices of its destination that a later instruction has written (R45) -/
  clobber : BitVec 1024
  /-- the open fault that it waits for, and its element (R320) -/
  fault : Option Nat
  elem : W64
  /-- cycle of its issue, or since when it waits -/
  since : Nat
deriving DecidableEq, Repr

/-! ### Tiles -/

/-- A tile (R195, R198): its lines that are not zero, and its poisoned lines (R469). -/
structure Tile where
  id : Nat
  core : Nat
  team : Nat
  world : Nat
  level : Bool
  rows : Nat
  cols : Nat
  ew : Nat
  lines : List (Nat × BitVec 1024)
  poison : List Nat
  releasing : Bool
  /-- granules taken from the team's reservation; the rest are unreserved (R196) -/
  fromReserve : Nat
deriving DecidableEq, Repr

/-- What a handle names (R199). -/
inductive HState where
  | waiting (op : Nat)
  | allocated (tile : Nat)
  | view (tile : Nat)
  | stale (rows cols ew : Nat) (level : Bool)
  | releasing (tile : Nat) (view : Bool) (rows cols ew : Nat) (level : Bool)
deriving DecidableEq, Repr

/-- A handle that is not Free (R199). -/
structure Handle where
  team : Nat
  h : BitVec 8
  state : HState
  chan : Option (BitVec 4)
deriving DecidableEq, Repr

/-! ### Copies and barrier objects -/

/-- What a copy moves (R228 to R230, R415). -/
inductive CopyKind where
  | box | bytes | multi | rput | rget
deriving DecidableEq, Repr

/-- A copy that is queued or in flight (R218 to R221). -/
structure Copy where
  id : Nat
  op : Nat
  team : Nat
  ch : BitVec 4
  kind : CopyKind
  /-- true: from tile to memory -/
  st : Bool
  tile : Nat
  /-- the handles that it names (R209) -/
  hs : List (BitVec 8)
  /-- the record's snapshot (R218) -/
  record : BitVec 512
  coords : List Int
  /-- byte count and first tile byte, for copies without a record -/
  count : Nat
  tbyte : Nat
  addr : W64
  bar : Option BarRef
  /-- virtual address of a barrier object in memory (R222) -/
  barVa : W64
  /-- the tensor table entry found at issue (R217) -/
  entry : Nat
  domain : BitVec 4
  world : Nat
  /-- stream bytes delivered and units delivered out of order (CPYM) -/
  done : Nat
  units : List Nat
  /-- elements of the next unit that are moved already -/
  part : Nat
  /-- source lines as they were read (R220), or for a copy to memory the bits written in each line (R147) -/
  seen : List (Nat × BitVec 1024)
  /-- lines of peers as their homes have answered them, for a copy to memory that merges into them (R224), and lines that
  were poisoned there -/
  base : List (Nat × BitVec 1024)
  bad : List Nat
  /-- elements that a poisoned line kept from being written: row and tile bit (R223) -/
  skipped : List (Nat × Nat)
  /-- owned destination lines with the last unit that writes each (R224) -/
  own : List (Nat × Nat)
  oob : Bool
  poisoned : Bool
  reason : Nat
  failAddr : W64
  cancelled : Bool
  /-- the status that ends it, once decided -/
  status : Option Nat
  fault : Option Nat
  tag : Option (BitVec 8)
  /-- members of a CPYM: the copies of its gathering, this one's position -/
  group : Nat
  share : Nat
  members : Nat
  /-- the target device of a transfer, and the translated pages of [addr, addr + count) -/
  target : Nat
  pages : List Loc
  /-- stopped by a save (R238) -/
  stopped : Bool
deriving DecidableEq, Repr

/-- An armed copy (R231). -/
structure Armed where
  team : Nat
  ch : BitVec 4
  arm : BitVec 3
  parity : Bool
  trigger : BarRef
  copy : Copy
deriving DecidableEq, Repr

/-- A channel of a team (R219, R220, R222). -/
structure Channel where
  team : Nat
  ch : BitVec 4
  queue : List Nat
  milestone : W64
  fault : W64
deriving DecidableEq, Repr

/-- A CPYM that has arrived at its gathering (R230). -/
structure Gather where
  id : Nat
  op : Nat
  team : Nat
  grid : Nat
  mask : W64
  digest : List Nat
  copy : Copy
deriving DecidableEq, Repr

/-! ### Matrix engine -/

/-- A team MMA (R249, R251): the threads that wait at its convergence register with the instruction at which each
stands; whether the phase has released them, and whether the first has issued. -/
structure TeamMma where
  id : Nat
  team : Nat
  cr : BitVec 4
  members : List (TRef × Instr)
  released : Bool
  started : Bool
deriving DecidableEq, Repr

/-- A TMMAC of one member team that waits for or takes part in its rendezvous (R256). -/
structure Tmmac where
  id : Nat
  op : Nat
  team : Nat
  mask : W64
  digest : List Nat
  met : Option Nat
deriving DecidableEq, Repr

/-! ### Format engine -/

/-- State of a format slot (R263, R275). -/
inductive SlotState where
  | empty | stable | draining | reconfiguring
deriving DecidableEq, Repr

/-- A format slot of a world (R263, R275, R287, R288). -/
structure Slot where
  world : Nat
  f : BitVec 3
  state : SlotState
  sheet : List Byte
  digest : BitVec 512
  drm : BitVec 2
  ob : Bool
  gen : BitVec 32
  reason : BitVec 8
deriving DecidableEq, Repr

/-- A request in the slot queue of a world (R275). -/
structure SlotJob where
  id : Nat
  world : Nat
  f : BitVec 3
  op : Nat
  core : Nat
  kind : Nat         -- 0 FLOAD, 1 FLOAD.clr, 2 FMODE
  addr : W64
  domain : BitVec 4
  word : Nat
  stage : Nat        -- 0 queued, 1 verified, 2 draining, 3 reconfiguring, 4 refused
  /-- reason of a refusal (R287) -/
  why : Nat
  sheet : List Byte
  digest : BitVec 512
  fault : Option Nat
deriving DecidableEq, Repr

/-- An image in the bitstream cache (R278). -/
structure Image where
  digest : BitVec 512
  bytes : List Byte
  worlds : List Nat
  used : Nat
deriving DecidableEq, Repr

/-! ### Spawn engine -/

/-- A lay-by that is in use (R294, R296, R298). -/
structure Layby where
  id : Nat
  cluster : Nat
  /-- its number; none while it is saved or waits for one -/
  number : Option Nat
  world : Nat
  domain : BitVec 4
  launch : Nat
  entry : W64
  waiting : List Placement
  /-- deadline of its timer; cycles that remain while it is saved -/
  deadline : Nat
  saved : Bool
deriving DecidableEq, Repr

/-- A placement that has reached the spawn engine and waits for a lay-by (R295, R298): of a SPAWN, of a shed thread, or of a
lay-by that a world switch has brought back. -/
inductive Arrival where
  | spawn (op : Nat)
  | shed (t : TRef)
  | layby (id : Nat)
deriving DecidableEq, Repr

/-- A group that has been formed and waits for a core (R296, R297). -/
structure Formed where
  id : Nat
  cluster : Nat
  number : Nat
  world : Nat
  domain : BitVec 4
  launch : Nat
  entry : W64
  entries : List Placement
  form : Nat
deriving DecidableEq, Repr

/-- A work list set in use (R305, R306). -/
structure WorkSet where
  id : Nat
  world : Nat
  addr : Loc
  vaddr : W64
  domain : BitVec 4
  launch : Nat
  lists : Nat
  cap : Nat
  idle : List Nat
  closed : Bool
  /-- lists at peers whose homes have said that they are empty since the last item was moved (R306) -/
  heard : List Nat
deriving DecidableEq, Repr

/-! ### Order engine -/

/-- A staging entry (R355): a plain write of some bytes of one 8-byte unit, or an RMW of a unit. -/
structure Stage where
  id : Nat
  team : Nat
  gid : Nat
  lane : Nat
  unit : Loc
  /-- plain write: its bytes, each at its place -/
  bytes : List (Loc × Byte)
  /-- RMW: the instruction, the place and address of its element, its operands, and the operation that waits for
  its result; 0 for none -/
  rmw : Option Instr
  at_ : Loc
  va : W64
  b : Nat
  c : Nat
  op : Nat
  iss : Nat
  size : Nat
deriving DecidableEq, Repr

/-- The writes of one issue in one group that are not yet folded into the group's hash (R375): each thread's home
lane with its elements (address, value, bytes). -/
structure Fold where
  iss : Nat
  team : Nat
  gid : Nat
  items : List (Nat × List (W64 × Nat × Nat))
deriving DecidableEq, Repr

/-- The log of a record or replay launch (R371 to R374). -/
structure OrderLog where
  launch : Nat
  replay : Bool
  addr : W64
  seg : Nat
  ckpt : Nat
  ckused : Nat
  stopped : Bool
  diverged : Bool
  /-- record: entries written and the open chunk of each bank; replay: position and remaining count -/
  banks : List (Nat × Nat × Nat × Nat × Nat)
  abandoned : List Nat
  used : List Nat
deriving DecidableEq, Repr

/-! ### Launches, worlds, partitions -/

/-- State of a launch (R384, R388, R394). -/
inductive LState where
  | checking     -- taken by the dispatcher, its memory being read
  | waiting      -- checked, waiting for its dependences
  | running | soft | grace | parked
  | stopped      -- its threads have stopped for good, and their writes are still on their way (R79)
  | ended
deriving DecidableEq, Repr

/-- A launch (R382 to R398). -/
structure Launch where
  id : Nat
  world : Nat
  queue : Nat
  ticket : BitVec 16
  state : LState
  record : BitVec 1024
  kd : BitVec 1024
  args : List Byte
  /-- the record has been read; until then it is the queue's next host record (R381) -/
  taken : Bool
  /-- the next team to dispatch -/
  next : Nat
  deps : List Bool
  forms : Nat
  status : Nat
  reason : Nat
  started : Nat
  g1 : Option Nat
  g2 : Option Nat
  /-- who started the ladder: 1 room, 2 quantum, 3 time cap, 4 host -/
  cause : Nat
  fault : Option Nat
  fatal : Option (Trap × TRef)
  /-- status of its last restore (R34, R369) -/
  restore : Nat
deriving DecidableEq, Repr

/-- A record in a queue (R381): a host record by its number, or a device record with the enqueuing thread's
domain. -/
structure QEntry where
  world : Nat
  queue : Nat
  ticket : BitVec 16
  host : Bool
  record : BitVec 1024
  domain : BitVec 4
deriving DecidableEq, Repr

/-- Registers of one launch queue (R380). -/
structure Queue where
  world : Nat
  q : Nat
  cfg : W64
  tail : BitVec 32
  head : BitVec 32
  ticket : BitVec 16
  last : BitVec 8
  /-- status of each ended launch among the last 1,024 enqueues (R308) -/
  ended : List (BitVec 16 × Nat)
deriving DecidableEq, Repr

/-- State of a TDI (R431). -/
inductive Tdi where
  | unlocked | locked | run | error
deriving DecidableEq, Repr

/-- State of a command ring (R449). -/
inductive RingState where
  | off | run | halted | disabled
deriving DecidableEq, Repr

/-- Registers of a world's command ring (R449). -/
structure Ring where
  base : W64
  tail : BitVec 32
  head : BitVec 32
  seq : W64
  wrap : W64
  state : RingState
  macfail : BitVec 16
  repeats : BitVec 32
  gaps : Nat
  sync : W64
  key : Nat
  session : Bool
  /-- the record at the head as Kraord has read it, once it has passed every test of R451 -/
  passed : Option Nat
deriving DecidableEq, Repr

/-- A fabric barrier on this device (R412, R420). -/
structure FabBar where
  pod : Bool
  n : Nat
  cfg : W64
  reload : Nat
  count : Nat
  phase : Bool
  sent : Bool
  held : Bool
  brk : Bool
  ovr : Bool
  enNow : Bool
  status : Nat
  /-- arrivals of the open and of the next phase: kind code and value of each -/
  current : List (Nat × List Nat)
  next : List (Nat × List Nat)
  /-- an arrival or a contribution has been seen since the world was bound; until then local and en are those of the
  register (DESIGN CHOICE, log entry 20) -/
  used : Bool
  /-- the open phase is under way on this device, and what it owes its parent is sent (R421, DESIGN CHOICE, log entry 20) -/
  awake : Bool
  sentUp : Bool
  /-- contributions of the open phase from below: who sent them, whether key generations are mixed, and the arrivals -/
  heard : List (Nat × Bool × List (Nat × List Nat))
deriving DecidableEq, Repr

/-- A world (R26, R316, R327, R336, R391, R404, R407, R412, R431 to R433, R447, R449). -/
structure World where
  w : Nat
  tdi : Tdi
  bound : Bool
  /-- leaf partition: top * 32 + child -/
  part : Nat
  droot : List W64
  frbase : W64
  frtail : BitVec 32
  frhead : W64
  frignored : BitVec 32
  frnext : BitVec 32
  gtbase : W64
  dbm0 : W64
  dbm1 : W64
  dbmctl : W64
  pullto : W64
  ctxbase : W64
  ctxsize : W64
  pmsel : List W64
  pmcnt : List W64
  cwto : W64
  cwdrop : BitVec 48
  fab : List FabBar
  /-- event map: tag and object (R417) -/
  events : List (BitVec 8 × BarRef × Nat)
  dspan : List Nat
  pspan : List Nat
  memKey : Option Nat
  frameKey : Option Nat
  fcur : Option (BitVec 16 × Nat)
  fprev : Option (BitVec 16 × Nat)
  fsend : BitVec 16
  ring : Ring
  /-- NOTIFY writes that wait for the world to return (R323) -/
  notes : List W64
  /-- MSI-X vectors signalled and not yet taken by the host (R456) -/
  msix : BitVec 4
deriving DecidableEq, Repr

/-- A partition (R400, R401, R403). -/
structure Partition where
  id : Nat
  desc : BitVec 1024
  resident : Option Nat
  quantumEnd : Nat
  switching : Option Nat
  period : Nat
  /-- world and queue served last (R387) -/
  served : Nat × Nat
  capped : Bool
  /-- cycles of the period in which a world was resident, and since when one is (R401) -/
  used : Nat
  since : Nat
  /-- the partition of bring-up, whose shares are the whole (R457) -/
  initial : Bool
deriving DecidableEq, Repr

/-! ### Faults, stage 2, Kraord -/

/-- Who waits for a fault (R320). -/
inductive Source where
  | thread (t : TRef)
  | copy (id : Nat)
  | loader (job : Nat)
  | background (team gid : Nat)
  | slotRelease (team gid : Nat)
  | fabric
  | launch (id : Nat)
deriving DecidableEq, Repr

/-- A fault that is recorded or held (R320 to R323, R329, R437). -/
structure FaultRec where
  id : Nat
  world : Nat
  source : Source
  /-- stage-1 fault kinds and notices of R322, or 0x14 for a stage-2 event -/
  kind : Nat
  access : Nat
  level : Nat
  domain : BitVec 4
  entry : W64
  va : W64
  pc : W64
  channel : Nat
  queue : Nat
  ticket : BitVec 16
  /-- record or event number once it is written -/
  num : Option (BitVec 32)
  notice : Bool
  /-- it waits for the host's page response (R324), or for a pull (R329), and is not recorded -/
  pri : Bool
  pull : Bool
  ipa : Nat
  deadline : Nat
deriving DecidableEq, Repr

/-- A stage-2 mapping (R434). -/
structure S2Map where
  world : Nat
  ipa : Nat
  bytes : Nat
  pa : Nat
  r : Bool
  w : Bool
  x : Bool
  tensor : Nat
  pull : Bool
  source : Nat
deriving DecidableEq, Repr

/-- An entry of the protected tensor table that is not free (R438). -/
structure Tensor where
  index : Nat
  world : Nat
  tensor : BitVec 32
  base : W64
  version : BitVec 32
  rekeying : Bool
  cursor : Nat
deriving DecidableEq, Repr

/-- What a request to a peer reads for, where it is not an operation or a copy: the thread whose BWAIT it is (R236), the thread
whose fetch it is with the line of the fetch buffers to fill (R167), or a list of a work list set (R306). -/
inductive Reader where
  | own
  | bwait (t : TRef)
  | code (t : TRef) (line : FetchLine)
  | list (set : Nat) (i : Nat)
deriving DecidableEq, Repr

/-- A remote request that is outstanding at the Causeway engine (R408, R409). -/
structure Remote where
  id : Nat
  op : Nat
  copy : Nat
  world : Nat
  target : Nat
  addr : Nat
  bytes : Nat
  kind : BitVec 4
  since : Nat
  /-- the core of its thread, and whether its answer has come -/
  core : Nat
  done : Bool
  /-- the name of the write that it carries, as the core write buffer named it; otherwise its own (R74) -/
  born : Nat
  use : Reader
deriving DecidableEq, Repr

/-- Registers of one Ethernet port (R465). -/
structure EthPort where
  port : Nat
  tx : W64
  rx : W64
  txt : BitVec 32
  rxt : BitVec 32
  txh : BitVec 32
  rxh : BitVec 32
deriving DecidableEq, Repr

/-- Management registers (R464). -/
structure Mgmt where
  id : W64
  boot : BitVec 4
  thr : Bool
  cfg : W64
  temp : W64
  pwr : W64
  proc : W64
  cor : BitVec 32
  unc : BitVec 32
  fwaddr : W64
  fwst : BitVec 2
  pl : W64
  pages : List Nat
  cores : List Nat
deriving DecidableEq, Repr

/-- What an agent decides to do next. -/
inductive Act where
  /-- a cycle of a quad, with the classes that cannot accept an issue in it (R157) -/
  | issue (core quad : Nat) (closed : BitVec 7)
  /-- the second issue of that cycle (R158, R159) -/
  | second (core quad : Nat) (threads : List TRef)
  | event (i : Instr)
  /-- the host writes its memory (DESIGN CHOICE, log entry 2) -/
  | write (addr : Nat) (bs : List Byte)
deriving DecidableEq, Repr

/-- The threads of one issue (R159), in ascending home lane. -/
structure Issue where
  core : Nat
  quad : Nat
  threads : List TRef
  id : Nat
deriving DecidableEq, Repr

/-- A frame sent or received on an Ethernet port. -/
abbrev Frame := Nat × List Byte

/-- The state of the machine. -/
structure State where
  /-- acts already decided, oldest first; inputs from outside stand here (DESIGN CHOICE, log entry 2) -/
  agenda : List Act
  /-- counter of free values (DESIGN CHOICE, log entry 3) -/
  free : Nat
  /-- counter of fresh names (DESIGN CHOICE, log entry 4) -/
  ids : Nat
  /-- the issue that is being executed (DESIGN CHOICE, log entry 5) -/
  issue : Issue
  clock : Nat
  power : Bool
  halted : Bool
  /-- the host link is up (R454, R466) -/
  link : Bool
  mem : List Host.Cell
  hostMem : List Host.Cell
  poison : List Nat
  /-- the seal of each line that has been written (R439) -/
  seals : List (Nat × Seal)
  wbuf : List BufEntry
  marks : List Mark
  /-- lines that a copy owns, each with the copy (R22, R224) -/
  owned : List (Nat × Nat)
  prot : List Prot
  fetch : List FetchLine
  lastPage : List LastPage
  tlb : List Xlat
  /-- the walk caches of the compute dies (R317) -/
  walkCache : List WalkEntry
  windows : List Window
  /-- groups that wait for a stack window, the longest first: core, team, group (R152) -/
  winQ : List (Nat × Nat × Nat)
  threads : List Thread
  groups : List Group
  teams : List Team
  ops : List Op
  tiles : List Tile
  handles : List Handle
  tileQ : List Nat
  channels : List Channel
  copies : List Copy
  /-- the channel units: core, channel, and the team and copy served last (R219) -/
  units : List (Nat × BitVec 4 × Nat × Nat)
  armed : List Armed
  gathers : List Gather
  mmas : List TeamMma
  tmmacs : List Tmmac
  /-- tiles as they stood before writes that race with an operation in flight, by the operation (R81, R262) -/
  shadows : List (Nat × Tile)
  slots : List Slot
  slotQ : List SlotJob
  images : List Image
  laybys : List Layby
  /-- placements that wait, in the order in which they reached the engine (R295) -/
  arrivals : List Arrival
  formed : List Formed
  sets : List WorkSet
  staging : List Stage
  folds : List Fold
  logs : List OrderLog
  launches : List Launch
  queued : List QEntry
  queues : List Queue
  worlds : List World
  parts : List Partition
  faults : List FaultRec
  s2 : List S2Map
  tensors : List Tensor
  /-- registered keys: index, world, key (R443) -/
  regKeys : List (Nat × Nat × Nat)
  kebase : W64
  ketail : BitVec 32
  kehead : W64
  kenext : BitVec 32
  remotes : List Remote
  /-- flits sent and not acknowledged by their link (R411) -/
  flits : List (Nat × Flit)
  /-- flits received that wait for a line or a saved team (R22, R417) -/
  inbox : List Flit
  /-- sequence numbers of the links: port, next sent, next received (R411) -/
  links : List (Nat × BitVec 48 × BitVec 48)
  eth : List EthPort
  /-- frames sent and not yet gone (R465) -/
  frames : List Frame
  mgmt : Mgmt
  /-- the firmware image accepted for the next bring-up (R459) -/
  store : List Byte
  /-- the response to the last GET_MEASUREMENTS (R445) -/
  doe : List Byte
deriving DecidableEq, Repr

/-- Why the machine stops: nothing stops it, since every access to an address that does not exist takes the trap or the status
that its rule names. -/
inductive Fault
deriving DecidableEq, Repr

/-- Why an instruction is not executed. -/
inductive Refusal where
  /-- Raised by the dispatcher for an instruction that has no meaning yet: safe. -/
  | notModelled (mnemonic : String)
deriving DecidableEq, Repr

/-! ### Reset -/

def Ring.init : Ring :=
  { base := 0, tail := 0, head := 0, seq := 0, wrap := 0, state := .off, macfail := 0, repeats := 0, gaps := 0,
    sync := 0, key := 0, session := false, passed := none }

/-- A fabric barrier that the world has no row for (R412, R420). -/
def FabBar.init (pod : Bool) (n : Nat) : FabBar :=
  { pod := pod, n := n, cfg := 0, reload := 1, count := 1, phase := false, sent := false, held := false, brk := false,
    ovr := false, enNow := false, status := 0, current := [], next := [], used := false, awake := false,
    sentUp := false, heard := [] }

/-- A world that the state has no row for: unbound, its registers at their reset values. -/
def World.init (w : Nat) : World :=
  { w := w, tdi := if w = 0 then .run else .unlocked, bound := false, part := 0,
    droot := List.replicate 16 0, frbase := 0, frtail := 0, frhead := 0, frignored := 0, frnext := 0,
    gtbase := 0, dbm0 := 0, dbm1 := 0, dbmctl := 0, pullto := 0, ctxbase := 0, ctxsize := 0,
    pmsel := List.replicate 8 0, pmcnt := List.replicate 8 0, cwto := 0, cwdrop := 0, fab := [], events := [],
    dspan := [], pspan := [], memKey := none, frameKey := none, fcur := none, fprev := none, fsend := 0,
    ring := Ring.init, notes := [], msix := 0 }

/-- The management registers at reset (R464); fused and stored values are zero (DESIGN CHOICE, log entry 9). -/
def Mgmt.init : Mgmt :=
  { id := 9, boot := 0, thr := false, cfg := 0, temp := 0, pwr := 0, proc := 0, cor := 0, unc := 0,
    fwaddr := 0, fwst := 0, pl := 0, pages := [], cores := [] }

/-- The machine with the rails on and PERST# still asserted (R32, R457). -/
def State.reset : State :=
  { agenda := [], free := 0, ids := 1, issue := ⟨0, 0, [], 0⟩, clock := 0, power := true, halted := false,
    link := false, mem := [], hostMem := [], poison := [], seals := [], wbuf := [], marks := [], owned := [], prot := [],
    fetch := [], lastPage := [], tlb := [], walkCache := [], windows := [], winQ := [],
    threads := [], groups := [], teams := [], ops := [], tiles := [],
    handles := [], tileQ := [], channels := [], copies := [], units := [], armed := [], gathers := [], mmas := [],
    tmmacs := [], shadows := [], slots := [], slotQ := [], images := [], laybys := [], arrivals := [], formed := [], sets := [],
    staging := [], folds := [], logs := [], launches := [], queued := [], queues := [], worlds := [], parts := [],
    faults := [], s2 := [], tensors := [], regKeys := [], kebase := 0, ketail := 0, kehead := 0, kenext := 0,
    remotes := [], flits := [], inbox := [], links := [], eth := [], frames := [], mgmt := Mgmt.init,
    store := [], doe := [] }

end Sys2Proof.Machine
end

