-- ==== Sys2Proof/Machine/Tables.lean ====
section
/-! DEFINITION. Reading and changing the rows of the state's tables. A row that does not exist reads as a
default, and changing it has no effect. -/

namespace Sys2Proof.Machine

/-- A fresh name. -/
def State.fresh (s : State) : Nat × State := (s.ids, { s with ids := s.ids + 1 })

def Waymark.none : Waymark := ⟨false, 0, 0, 0⟩

/-- A thread at its start (R97, R98, R100, R101, R162, R168, R170, R173). -/
def Thread.init (t : TRef) (pc : W64) : Thread :=
  { id := t, live := true, pc := pc, slices := 0, preds := 0, fmode := 0, fpflags := 0,
    wm := List.replicate 8 Waymark.none, ret := [], n := 0, sp := 0, base := 0, stklim := 0, retbase := 0,
    retlim := 0, sb := 0, handler := false, sphase := 0, await := 0, wait := 0, seq := 0, reuse := false,
    sleep := .none, trap := .none, async := [], fault := .none, turn := .none, shed := .none, marking := false, bwait := .none,
    prefetch := 0, landing := .none, joins := false }

def Thread.absent : Thread := { Thread.init ⟨0, 0, 0⟩ 0 with live := false }

def State.thread (s : State) (t : TRef) : Thread := (s.threads.find? (·.id = t)).getD Thread.absent

def State.setThread (s : State) (t : TRef) (f : Thread → Thread) : State :=
  { s with threads := s.threads.map fun x => if x.id = t then f x else x }

/-- A group at its start (R99, R344). -/
def Group.init (team gid quad : Nat) (producer : Bool) (budget : Nat) (domain : BitVec 4) : Group :=
  { team, gid, quad, producer, budget, k := 0, hdl := 0, domain, gfp := 0, hash := 0, parked := none,
    unwind := none }

def State.group (s : State) (team gid : Nat) : Group :=
  (s.groups.find? fun g => g.team = team && g.gid = gid).getD (Group.init team gid 0 false 0 0)

def State.setGroup (s : State) (team gid : Nat) (f : Group → Group) : State :=
  { s with groups := s.groups.map fun g => if g.team = team ∧ g.gid = gid then f g else g }

def CReg.init (groups : Nat) : CReg := ⟨BitVec.ofNat 32 (2 ^ groups - 1), false, 0⟩

def Team.absent : Team :=
  { id := 0, launch := 0, index := 0, formed := false, form := 0, world := 0, core := 0, place := .resident,
    swapped := false, team := 0, teamdim := 0, griddim := 0, lcore := 0, cgrid := 0, cregs := [], reserve := 0,
    lap := 0, turns := 0, finalTurn := false, started := 0, releases := [] }

def State.team (s : State) (n : Nat) : Team := (s.teams.find? (·.id = n)).getD Team.absent

def State.setTeam (s : State) (n : Nat) (f : Team → Team) : State :=
  { s with teams := s.teams.map fun x => if x.id = n then f x else x }

def State.op? (s : State) (n : Nat) : Option Op := s.ops.find? (·.id = n)

def State.setOp (s : State) (n : Nat) (f : Op → Op) : State :=
  { s with ops := s.ops.map fun x => if x.id = n then f x else x }

def State.tile? (s : State) (n : Nat) : Option Tile := s.tiles.find? (·.id = n)

/-- An operation that reads tiles between its issue and its completion (R87). -/
def Op.readsTile (o : Op) (n : Nat) : Bool :=
  o.tiles.contains n && (match o.instr with | .tmma _ | .tmmac _ | .fqnt _ | .fdqnt _ => true | _ => false)

/-- Changes a tile. The operations in flight that read it may still find it as it stood (R81, R262). -/
def State.setTile (s : State) (n : Nat) (f : Tile → Tile) : State :=
  { s with
    tiles := s.tiles.map fun x => if x.id = n then f x else x
    shadows := (s.shadows.filter fun x => s.ops.any (·.id = x.1)) ++
      (s.ops.filter (·.readsTile n)).flatMap fun o => (s.tiles.filter (·.id = n)).map fun t => (o.id, t) }

/-- The tiles that an operation may still find as they stood. -/
def State.oldTiles (s : State) (op : Nat) : List Tile := (s.shadows.filter (·.1 = op)).map (·.2)

def State.handle? (s : State) (team : Nat) (h : BitVec 8) : Option Handle :=
  s.handles.find? fun x => x.team = team && x.h = h

/-- Sets or frees a handle. -/
def State.setHandle (s : State) (team : Nat) (h : BitVec 8) (v : Option Handle) : State :=
  let rest := s.handles.filter fun x => !(x.team = team && x.h = h)
  { s with handles := match v with | some x => rest ++ [x] | .none => rest }

def State.channel (s : State) (team : Nat) (ch : BitVec 4) : Channel :=
  (s.channels.find? fun c => c.team = team && c.ch = ch).getD ⟨team, ch, [], 0, 0⟩

def State.setChannel (s : State) (team : Nat) (ch : BitVec 4) (f : Channel → Channel) : State :=
  let c := f (s.channel team ch)
  { s with channels := (s.channels.filter fun x => !(x.team = team && x.ch = ch)) ++ [c] }

def State.copy? (s : State) (n : Nat) : Option Copy := s.copies.find? (·.id = n)

def State.setCopy (s : State) (n : Nat) (f : Copy → Copy) : State :=
  { s with copies := s.copies.map fun x => if x.id = n then f x else x }

def State.launch? (s : State) (n : Nat) : Option Launch := s.launches.find? (·.id = n)

def State.setLaunch (s : State) (n : Nat) (f : Launch → Launch) : State :=
  { s with launches := s.launches.map fun x => if x.id = n then f x else x }

/-- The record of a launch; all zero when there is none. -/
def State.launchRec (s : State) (n : Nat) : Nat := ((s.launch? n).map (·.record.toNat)).getD 0

def State.world (s : State) (w : Nat) : World := (s.worlds.find? (·.w = w)).getD (World.init w)

def State.setWorld (s : State) (w : Nat) (f : World → World) : State :=
  let x := f (s.world w)
  { s with worlds := (s.worlds.filter (·.w ≠ w)) ++ [x] }

def Queue.init (w q : Nat) : Queue :=
  { world := w, q := q, cfg := 0, tail := 0, head := 0, ticket := 0, last := 0, ended := [] }

def State.queue (s : State) (w q : Nat) : Queue :=
  (s.queues.find? fun x => x.world = w && x.q = q).getD (Queue.init w q)

def State.setQueue (s : State) (w q : Nat) (f : Queue → Queue) : State :=
  let x := f (s.queue w q)
  { s with queues := (s.queues.filter fun y => !(y.world = w && y.q = q)) ++ [x] }

def Slot.init (w : Nat) (f : BitVec 3) : Slot :=
  { world := w, f := f, state := .empty, sheet := [], digest := 0, drm := 0, ob := false, gen := 0,
    reason := 0 }

def State.slot (s : State) (w : Nat) (f : BitVec 3) : Slot :=
  (s.slots.find? fun x => x.world = w && x.f = f).getD (Slot.init w f)

def State.setSlot (s : State) (w : Nat) (f : BitVec 3) (g : Slot → Slot) : State :=
  let x := g (s.slot w f)
  { s with slots := (s.slots.filter fun y => !(y.world = w && y.f = f)) ++ [x] }

def State.part? (s : State) (n : Nat) : Option Partition := s.parts.find? (·.id = n)

def State.setPart (s : State) (n : Nat) (f : Partition → Partition) : State :=
  { s with parts := s.parts.map fun x => if x.id = n then f x else x }

/-- The world is resident in its partition now (R391, R401). -/
def State.worldHere (s : State) (w : Nat) : Bool := s.parts.any fun p => p.resident = some w

/-- Advances by n the performance counters of a world that count an event (R404). -/
def World.perf (x : World) (ev n : Nat) : World :=
  { x with pmcnt := (List.range 8).map fun i =>
      let sel := (x.pmsel.getD i 0).toNat
      let c := (x.pmcnt.getD i 0).toNat
      let v := c % 2 ^ 48 + n
      BitVec.ofNat 64 (if bit sel 8 && bits sel 0 8 = ev then
        c / 2 ^ 49 * 2 ^ 49 + bitAt (bit c 48 || 2 ^ 48 ≤ v) 48 + v % 2 ^ 48
      else c) }

/-- Counts an event of a world while it is resident (R404). -/
def State.perf (s : State) (w ev n : Nat) : State :=
  if s.worldHere w then { s with worlds := s.worlds.map fun x => if x.w = w then x.perf ev n else x } else s

def State.fault? (s : State) (n : Nat) : Option FaultRec := s.faults.find? (·.id = n)

/-! ### Derived facts about threads and teams -/

def State.worldOf (s : State) (t : TRef) : Nat := (s.team t.team).world

def State.coreOf (s : State) (t : TRef) : Nat := (s.team t.team).core

def State.groupOf (s : State) (t : TRef) : Group := s.group t.team t.gid

def State.domainOf (s : State) (t : TRef) : BitVec 4 := (s.groupOf t).domain

/-- The physical cluster of a core (R10). -/
def clusterOfCore (core : Nat) : Nat := core / 64

def State.clusterOf (s : State) (t : TRef) : Nat := clusterOfCore (s.coreOf t)

/-- The live threads of a group, in ascending home lane. -/
def State.liveOfGroup (s : State) (team gid : Nat) : List TRef :=
  ((List.range 32).map fun l => TRef.mk team gid l).filter fun t => (s.thread t).live

/-- The threads of a team that are live. -/
def State.liveOfTeam (s : State) (team : Nat) : List TRef :=
  (s.threads.filter fun x => x.id.team = team && x.live).map (·.id)

def State.groupsOf (s : State) (team : Nat) : List Group := s.groups.filter (·.team = team)

/-- A team that is resident and not in a frame. -/
def State.resident (s : State) (team : Nat) : Bool :=
  (s.teams.find? (·.id = team)).any fun x => x.place = .resident

/-- A rank's team in the cluster grid of a team (R389). -/
def State.rankTeam (s : State) (tm : Team) (rank : Nat) : Option Team :=
  if tm.cgrid = 0 then none
  else s.teams.find? fun x => x.launch = tm.launch && !x.formed && x.index / tm.cgrid = tm.index / tm.cgrid &&
    x.index % tm.cgrid = rank && x.cgrid ≠ 0

end Sys2Proof.Machine
end

