-- ==== Sys2Proof/Machine/Hash.lean ====
section
/-! DEFINITION. The store hash of a group (R375). -/

namespace Sys2Proof.Machine

/-- mix of R375. -/
def mix (x : W64) : W64 :=
  let x := x ^^^ (x >>> 31)
  let x := x * 0x9E6C63D0876A9A5B
  let x := x ^^^ (x >>> 29)
  let x := x * 0xD35A2D97A4F10C27
  x ^^^ (x >>> 32)

/-- The digest of an issue's writes: lanes ascending, elements ascending (R375). -/
def issueDigest (items : List (Nat × List (W64 × Nat × Nat))) : W64 :=
  (List.range 32).foldl (fun d l =>
    (items.filter fun x => x.1 = l).foldl (fun d x =>
      x.2.foldl (fun d e => mix (mix (d ^^^ e.1) ^^^ (BitVec.ofNat 64 e.2.1 ^^^ (BitVec.ofNat 64 e.2.2 <<< 56)))) d) d)
    0x5350394841534800

/-- A write of the fold's issue and group has not completed. -/
def State.foldOpen (s : State) (f : Fold) : Bool :=
  (s.ops.any fun o => o.iss = f.iss && o.who.team = f.team && o.who.gid = f.gid) ||
    s.staging.any fun e => e.iss = f.iss && e.rmw.isSome && e.team = f.team && e.gid = f.gid

def State.foldsOf (s : State) (team gid : Nat) : List Fold := s.folds.filter fun f => f.team = team && f.gid = gid

/-- %hash: the group's sum with the issues whose writes have all completed (R375). -/
def State.hashOf (s : State) (team gid : Nat) : W64 :=
  (s.foldsOf team gid).foldl (fun h f => if s.foldOpen f then h else h + issueDigest f.items)
    (s.group team gid).hash

/-- Adds the elements that a thread's completed instruction has written. -/
def State.addFold (s : State) (t : TRef) (iss : Nat) (items : List (W64 × Nat × Nat)) : State :=
  let mine := fun (f : Fold) => f.iss = iss && f.team = t.team && f.gid = t.gid
  if s.folds.any mine then
    { s with folds := s.folds.map fun (f : Fold) => if mine f then { f with items := f.items ++ [(t.lane, items)] } else f }
  else { s with folds := s.folds ++ [(⟨iss, t.team, t.gid, [(t.lane, items)]⟩ : Fold)] }

/-- Adds the digests of a group's finished issues to its hash. -/
def State.settle (s : State) (team gid : Nat) : State :=
  let h := s.hashOf team gid
  let s := s.setGroup team gid fun g => { g with hash := h }
  { s with folds := s.folds.filter fun f => !(f.team = team && f.gid = gid) || s.foldOpen f }

end Sys2Proof.Machine
end

