-- ==== Sys2Proof/Machine/Memory.lean ====
section
/-! DEFINITION. Bytes of memory in one canonical form, the core write buffers in front of it, line ownership,
poison and the dirty bitmaps (R22, R67, R73, R86, R147, R328). -/

namespace Sys2Proof.Machine

/-- What a byte that is not listed reads as (DESIGN CHOICE, log entry 6). -/
def blank : Byte := 0

/-- The byte at an address. -/
def memRead : List Host.Cell → Nat → Byte
  | [], _ => blank
  | (x, v) :: r, a => if x = a then v else memRead r a

/-- Writes the byte at an address, keeping addresses rising and blank bytes unlisted. -/
def memWrite : List Host.Cell → Nat → Byte → List Host.Cell
  | [], a, b => if b = blank then [] else [(a, b)]
  | (x, v) :: r, a, b =>
    if x < a then (x, v) :: memWrite r a b
    else if x = a then (if b = blank then r else (a, b) :: r)
    else if b = blank then (x, v) :: r
    else (a, b) :: (x, v) :: r

/-- The canonical form: addresses strictly rising, no blank byte listed. -/
def memWf : List Host.Cell → Bool
  | [] => true
  | (a, b) :: r => b != blank && memWf r && (match r with | [] => true | (x, _) :: _ => decide (a < x))

/-- Memory addresses of this device (R11, R434): 768 GiB. -/
def localBytes : Nat := 0xC000000000

def Loc.isPeer (l : Loc) : Bool := !l.host && 2 ^ 51 ≤ l.addr

/-- Local memory: not the host's and not a peer's. -/
def Loc.isLocal (l : Loc) : Bool := !l.host && l.addr < 2 ^ 51

/-- The line of a place, as a number that is different for different lines (R11). -/
def Loc.line (l : Loc) : Nat := (if l.host then 2 ^ 60 else 0) + l.addr / 128

/-- The first byte of a line. -/
def Loc.lineStart (l : Loc) : Loc := { l with addr := l.addr / 128 * 128 }

def Loc.add (l : Loc) (n : Nat) : Loc := { l with addr := l.addr + n }

/-- The device of a peer place (R434). -/
def Loc.device (l : Loc) : Nat := l.addr / 2 ^ 42 % 512

/-- The byte in memory at a place. A peer's memory is reached by flits only; read otherwise it is a free
value (DEDUCED, log entry 13). -/
def State.memByte (s : State) (l : Loc) : Byte :=
  if l.host then memRead s.hostMem l.addr
  else if l.isPeer then Config.outsideByte s.free (BitVec.ofNat 64 l.addr)
  else memRead s.mem l.addr

/-- The byte that a thread of a core sees at a place: the newest entry of the core's write buffer, or memory
(R67). -/
def State.seenByte (s : State) (core : Nat) (l : Loc) : Byte :=
  match s.wbuf.reverse.findSome? fun e =>
      if e.core = core then (e.bytes.find? (·.1 = l)).map (·.2) else none with
  | some b => b
  | none => s.memByte l

def State.memBytes (s : State) (l : Loc) (n : Nat) : List Byte :=
  (List.range n).map fun i => s.memByte (l.add i)

/-- A little-endian number of n bytes in memory. -/
def State.memNat (s : State) (l : Loc) (n : Nat) : Nat := ofBytes (s.memBytes l n)

/-- Sets the bit of an IPA block in the active dirty bitmap of the world that owns a local page (R328). -/
def State.recordDirty (s : State) (a : Nat) : State :=
  match s.s2.find? fun m => m.pa < 2 ^ 51 && m.pa ≤ a && a < m.pa + m.bytes with
  | none => s
  | some m =>
    let w := s.world m.world
    let block := (m.ipa + (a - m.pa)) / 65536
    if bit w.dbmctl.toNat 0 && block < bits w.dbmctl.toNat 32 32 then
      let buf := if bit w.dbmctl.toNat 1 then w.dbm1 else w.dbm0
      let byte := bits buf.toNat 12 40 * 4096 + block / 8
      { s with mem := memWrite s.mem byte (memRead s.mem byte ||| BitVec.ofNat 8 (2 ^ (block % 8))) }
    else s

/-! ### Seals (R439, R440) -/

/-- The mapping that gives a local line to a world (R434, R435): the latest, where the world maps the line twice. -/
def State.lineMap (s : State) (line : Nat) : Option S2Map :=
  s.s2.find? fun m => m.pa < 2 ^ 51 && m.pa ≤ 128 * line && 128 * line < m.pa + m.bytes

/-- What a line at an IPA of a mapping is sealed under (R439); an attribute that names no entry has a tweak of its own
(DEDUCED, log entry 110). -/
def State.sealIn (s : State) (m : S2Map) (line : Nat) : Seal :=
  let a := (m.ipa + (128 * line - m.pa)) / 128
  let key := (s.world m.world).memKey.getD 0
  if m.tensor = 0 then ⟨key, 0xFFFFFFFF, 0, a⟩
  else
    match s.tensors.find? fun t => t.index = m.tensor && t.world = m.world with
    | none => ⟨key, 2 ^ 32, m.tensor, a⟩
    | some t =>
      let o := (a + 2 ^ 64 - t.base.toNat / 128) % 2 ^ 64
      ⟨key, t.tensor.toNat, t.version.toNat + (if t.rekeying && o < t.cursor then 1 else 0), o⟩

/-- What the memory controllers seal a line under now; none where no world maps it. -/
def State.sealOf (s : State) (line : Nat) : Option Seal := (s.lineMap line).map fun m => s.sealIn m line

/-- The seal under which a line stands in HBM4E; none where it has not been written. -/
def State.sealAt (s : State) (line : Nat) : Option Seal := (s.seals.find? (·.1 = line)).map (·.2)

/-- A line that fails its integrity tag when it is opened (R440): it was sealed under another key or tweak. That 28 bits of
two tags agree by chance is left out (DEDUCED, log entry 110). -/
def State.broken (s : State) (line : Nat) : Bool :=
  match s.sealAt line, s.sealOf line with
  | some x, some y => x != y
  | _, _ => false

/-- Seals a line anew. -/
def State.setSeal (s : State) (line : Nat) : State :=
  match s.sealOf line with
  | none => s
  | some x => if s.sealAt line = some x then s else { s with seals := s.seals.filter (·.1 ≠ line) ++ [(line, x)] }

/-- A write seals its line, unless the rest of the line cannot be opened (R147, R440). -/
def State.sealWrite (s : State) (line : Nat) : State := if s.broken line then s else s.setSeal line

/-- Writes a byte to memory at its home (R73). A peer's byte is written by the flit that carries it; a byte for the host
is lost while the link is down (R409, R466). -/
def State.writeByte (s : State) (l : Loc) (b : Byte) : State :=
  if l.host then (if s.link then { s with hostMem := memWrite s.hostMem l.addr b } else s)
  else if l.isPeer then s
  else
    let s := s.sealWrite l.line
    State.recordDirty { s with mem := memWrite s.mem l.addr b } l.addr

def State.writeBytes (s : State) (bs : List (Loc × Byte)) : State :=
  bs.foldl (fun s x => s.writeByte x.1 x.2) s

/-- Writes consecutive bytes from a place. -/
def State.writeRun (s : State) (l : Loc) (bs : List Byte) : State :=
  s.writeBytes ((List.range bs.length).map (l.add ·) |>.zip bs)

/-- Writes a number of n bytes at a place (R1). -/
def State.writeNat (s : State) (l : Loc) (n x : Nat) : State := s.writeRun l (toBytes x n)

/-! ### Ownership and poison -/

def State.ownedLine (s : State) (line : Nat) : Bool := s.owned.any (·.1 = line)

/-- One of the places lies in a line that an engine owns (R22). -/
def State.anyOwned (s : State) (ls : List Loc) : Bool := ls.any fun l => s.ownedLine l.line

/-- A copy releases the lines that it owns. -/
def State.release (s : State) (copy : Nat) : State := { s with owned := s.owned.filter (·.2 ≠ copy) }

/-- A line is poisoned (R147), or fails its tag as soon as it is opened (R440). -/
def State.poisoned (s : State) (l : Loc) : Bool := s.poison.contains l.line || s.broken l.line

def State.setPoison (s : State) (line : Nat) : State :=
  if s.poison.contains line then s else { s with poison := s.poison ++ [line] }

/-- A line that has been written whole: it is sealed anew, and its poison is gone (R147, R439). -/
def State.clearPoison (s : State) (line : Nat) : State :=
  { s.setSeal line with poison := s.poison.filter (· ≠ line) }

/-- The bytes lose their release marks with a later write (R86). -/
def State.unmark (s : State) (ls : List Loc) : State := { s with marks := s.marks.filter fun m => !ls.contains m.at_ }

/-! ### The core write buffer -/

/-- A load of a core meets poison in a line: poisoned in memory, unless an issue whose writes cover the whole line
stands in the core's write buffer (R73, R147). -/
def State.poisonedFor (s : State) (core : Nat) (l : Loc) : Bool :=
  s.poisoned l && !(s.wbuf.any fun e => e.core = core && e.whole.contains l.line)

/-- Entries of a core that hold one of the bytes. -/
def State.bufferedAt (s : State) (core : Nat) (ls : List Loc) : Bool :=
  s.wbuf.any fun e => e.core = core && e.bytes.any fun x => ls.contains x.1

/-- An entry may drain when no older entry of its core holds one of its bytes (R80) and no engine owns its
line (R84). -/
def State.canDrain (s : State) (e : BufEntry) : Bool :=
  !(s.wbuf.any fun f => f.core = e.core && f.id < e.id && f.bytes.any fun x => (e.bytes.map (·.1)).contains x.1) &&
    !s.anyOwned (e.bytes.map (·.1))

end Sys2Proof.Machine
end

