-- ==== Sys2Proof/Machine/Walk.lean ====
section
/-! DEFINITION. Translation: stage 2, stage-1 walks, cached translations, accessed and dirty bits (R311 to
R318, R324, R325, R434). -/

namespace Sys2Proof.Machine

/-- Access kinds with their codes in a fault record (R315, R322). -/
inductive Acc where
  | read | write | rmw | fetch
deriving DecidableEq, Repr

def Acc.code : Acc → Nat
  | .read => 0 | .write => 1 | .rmw => 2 | .fetch => 3

def Acc.writes : Acc → Bool
  | .write | .rmw => true
  | _ => false

def Acc.reads : Acc → Bool
  | .read | .rmw => true
  | _ => false

/-- Result of stage 2 (R434, R437). -/
inductive S2Res where
  | ok (pa : Nat)
  | fault
  | pull
deriving DecidableEq, Repr

def State.s2Find (s : State) (w ipa : Nat) : Option S2Map :=
  s.s2.find? fun m => m.world = w && m.ipa ≤ ipa && ipa < m.ipa + m.bytes

/-- Stage 2 of a world (R434): the physical address of an IPA, when the access is allowed. -/
def State.stage2 (s : State) (w ipa : Nat) (acc : Acc) : S2Res :=
  match s.s2Find w ipa with
  | none => .fault
  | some m =>
    if m.pull then .pull
    else if (match acc with | .read => m.r | .write => m.w | .rmw => m.r && m.w | .fetch => m.x) then
      .ok (m.pa + (ipa - m.ipa))
    else .fault

/-- Fields of a stage-1 entry (R313). -/
def pteV (e : Nat) : Bool := bit e 0
def pteL (e : Nat) : Bool := bit e 1
def pteW (e : Nat) : Bool := bit e 2
def pteX (e : Nat) : Bool := bit e 3
def pteA (e : Nat) : Bool := bit e 4
def pteD (e : Nat) : Bool := bit e 5
def pteC (e : Nat) : Bool := bit e 6
def pteH (e : Nat) : Bool := bit e 7
def pteAddr (e : Nat) : Nat := bits e 12 40 * 4096

/-- A malformed entry at a level (R314). -/
def pteMalformed (e lvl : Nat) : Bool :=
  bits e 8 4 ≠ 0 || bits e 52 4 ≠ 0 || bit e 63 || (pteL e && lvl ≥ 3) || (!pteL e && lvl = 0) ||
  (!pteL e && bits e 2 6 ≠ 0) || (pteC e && (lvl = 1 || lvl = 2)) ||
  (pteL e && lvl = 1 && bits e 12 9 ≠ 0) || (pteL e && lvl = 2 && bits e 12 18 ≠ 0)

/-- log2 of the bytes that a leaf maps (R312). -/
def leafShift (lvl : Nat) (c : Bool) : Nat :=
  if lvl = 0 then (if c then 16 else 12) else 12 + 9 * lvl

/-- Page size code of a leaf (R134, R333). -/
def leafSize (lvl : Nat) (c : Bool) : BitVec 2 :=
  if lvl = 0 then (if c then 1 else 0) else if lvl = 1 then 2 else 3

/-- A leaf reached by a walk. -/
structure Leaf where
  entry : Nat
  level : Nat
  /-- IPA of the entry -/
  at_ : Nat
deriving DecidableEq, Repr

/-- Result of a stage-1 walk. -/
inductive Stage1 where
  | leaf (l : Leaf)
  | fault (kind level entry : Nat)
  | s2 (ipa : Nat)      -- stage 2 failed on a table entry
  | pull (ipa : Nat)
deriving DecidableEq, Repr

/-- Levels lvl - 1 downto 0 of a walk from the table at IPA t (R315), with the entries on its way; an entry that `cached` gives
for its level is not read. -/
def State.walkFrom (s : State) (cached : Nat → Option Nat) (w : Nat) (va : Nat) : Nat → Nat → Stage1 × List (Nat × Nat)
  | 0, t => (.fault 4 0 t, [])
  | lvl + 1, t =>
    let ipa := t + 8 * bits va (12 + 9 * lvl) 9
    let go := fun (e : Nat) =>
      if !pteV e then (.fault 1 lvl e, [])
      else if pteMalformed e lvl then (.fault 4 lvl e, [])
      else if pteL e then (.leaf ⟨e, lvl, ipa⟩, [(lvl, e)])
      else
        let r := s.walkFrom cached w va lvl (pteAddr e)
        (r.1, (lvl, e) :: r.2)
    match cached lvl with
    | some e => go e
    | none =>
      match s.stage2 w ipa .read with
      | .fault => (.s2 ipa, [])
      | .pull => (.pull ipa, [])
      | .ok pa => go (s.memNat ⟨false, pa⟩ 8)

/-- A walk of R315 up to its leaf, with its permission checks and the entries on its way. -/
def State.walkWith (s : State) (cached : Nat → Option Nat) (w : Nat) (d : BitVec 4) (acc : Acc) (va : Nat) :
    Stage1 × List (Nat × Nat) :=
  let r := ((s.world w).droot.getD d.toNat 0).toNat
  if !bit r 0 then (.fault 5 4 0, [])
  else
    match s.walkFrom cached w va 5 (bits r 12 40 * 4096) with
    | (.leaf l, p) =>
      if acc.writes && !pteW l.entry then (.fault 2 l.level l.entry, p)
      else if acc = .fetch && !pteX l.entry then (.fault 3 l.level l.entry, p)
      else (.leaf l, p)
    | x => x

/-- The walk that reads every entry (R315). -/
def State.walk (s : State) (w : Nat) (d : BitVec 4) (acc : Acc) (va : Nat) : Stage1 :=
  (s.walkWith (fun _ => none) w d acc va).1

/-- The entry of a 64 KiB block that an access uses (R314): the leaf itself where the block's entries agree, and
otherwise a free one of the sixteen (DEDUCED, log entry 12). -/
def State.blockLeaf (s : State) (w va : Nat) (l : Leaf) : Leaf :=
  if l.level = 0 && pteC l.entry then
    let base := l.at_ - l.at_ % 128
    let entry := fun i => match s.stage2 w (base + 8 * i) .read with
      | .ok pa => s.memNat ⟨false, pa⟩ 8
      | _ => l.entry
    let es := (List.range 16).map entry
    let agrees := (List.range 16).all fun i =>
      let e := es.getD i 0
      pteV e && pteC e && pteH e = pteH l.entry && pteX e = pteX l.entry && pteW e = pteW l.entry &&
        pteAddr (es.getD 0 0) % 65536 = 0 && pteAddr e = pteAddr (es.getD 0 0) + 4096 * i
    if agrees then l
    else
      let i := Config.blockEntry s.free (BitVec.ofNat 64 va) % 16
      { entry := es.getD i 0, level := 0, at_ := base + 8 * i }
  else l

/-- The output of a leaf for an address (R315): with C, the leaf's own 4 KiB frame gives the base of the block
(R314). -/
def leafOut (l : Leaf) (va : Nat) : Nat :=
  let sh := leafShift l.level (pteC l.entry)
  pteAddr l.entry / 2 ^ sh * 2 ^ sh + va % 2 ^ sh

/-- The bits that the walker sets in a leaf: A, and D for a write (R325). -/
def marked (e : Nat) (writes : Bool) : Nat := e ||| 16 ||| (if writes then 32 else 0)

/-- Sets A, and D for a write, in the leaf of a walk (R325). -/
def State.setAD (s : State) (w : Nat) (l : Leaf) (writes : Bool) : State :=
  let e := marked l.entry writes
  if e = l.entry then s
  else
    match s.stage2 w l.at_ .read with
    | .ok pa => s.writeNat ⟨false, pa⟩ 8 e
    | _ => s

/-- Who translates: core, quad and home lane (none for an engine), world and domain. -/
structure XCtx where
  core : Nat
  lane : Option (Nat × Nat)
  world : Nat
  domain : BitVec 4
deriving DecidableEq, Repr

/-- Result of a translation. -/
inductive Xl where
  | ok (l : Loc)
  | fault (kind level entry : Nat)
  | s2 (ipa : Nat) (walker : Bool)
  | pull (ipa : Nat)
  | pri (host : Nat)
deriving DecidableEq, Repr

/-- log2 of the bytes of a page size code (R134). -/
def pageShift (size : BitVec 2) : Nat := if size = 0 then 12 else if size = 1 then 16 else if size = 2 then 21 else 30

def Xlat.shift (x : Xlat) : Nat := pageShift x.size

/-- The address lies in the leaf that a cached translation comes from (R317, R332). -/
def Xlat.inLeaf (x : Xlat) (va : Nat) : Bool :=
  va % 2 ^ 57 / 2 ^ pageShift x.leaf = x.vpage * 2 ^ x.shift / 2 ^ pageShift x.leaf

/-- An access hits a cached translation (R135): world, domain, page, and the permission of both stages. -/
def Xlat.hits (x : Xlat) (c : XCtx) (acc : Acc) (va : Nat) : Bool :=
  x.world = c.world && x.domain = c.domain && va % 2 ^ 57 / 2 ^ x.shift = x.vpage &&
  (!acc.reads || x.read) && (!acc.writes || x.write) && (acc ≠ .fetch || x.exec)

def Xlat.place (x : Xlat) (va : Nat) : Loc := x.out.add (va % 2 ^ x.shift)

/-- The part of an address that leads to an entry at a level. -/
def vaPrefix (va lvl : Nat) : Nat := va % 2 ^ 57 / 2 ^ (12 + 9 * lvl)

/-- The entry of a level that a walk of a core may take from the walk cache of its compute die (R317, R318). -/
def State.walkCached (s : State) (c : XCtx) (va lvl : Nat) : Option Nat :=
  match s.walkCache.find? fun x => x.die = c.core / 128 && x.world = c.world && x.domain = c.domain && x.level = lvl &&
      x.pre = vaPrefix va lvl with
  | none => none
  | some x => if Config.useWalk s.free (BitVec.ofNat 64 va) lvl then some x.entry.toNat else none

/-- The walk cache holds nothing for an address but the entries of a path. -/
def State.walkCacheFresh (s : State) (c : XCtx) (va : Nat) (path : List (Nat × Nat)) : Bool :=
  s.walkCache.all fun x => x.die ≠ c.core / 128 || x.world ≠ c.world || x.domain ≠ c.domain || x.pre ≠ vaPrefix va x.level ||
    path.contains (x.level, x.entry.toNat)

/-- The walk of an access (R315, R318). A leaf from the cache that has to be marked and has been rewritten since makes the walker
walk again (R325). Where the cache holds what memory holds, the choice of its entries changes nothing. -/
def State.walkOf (s : State) (c : XCtx) (acc : Acc) (va : Nat) : Stage1 × List (Nat × Nat) :=
  let fresh := s.walkWith (fun _ => none) c.world c.domain acc va
  if s.walkCacheFresh c va fresh.2 then fresh else
  match s.walkWith (s.walkCached c va) c.world c.domain acc va with
  | (.leaf l, p) =>
    let now := match s.stage2 c.world l.at_ .read with
      | .ok pa => s.memNat ⟨false, pa⟩ 8
      | _ => l.entry
    if marked l.entry acc.writes ≠ l.entry && now ≠ l.entry then fresh else (.leaf l, p)
  | x => x

/-- Keeps the entries of levels 4 to 1 of a walk in the walk cache of its die (R317). -/
def State.keepWalk (s : State) (c : XCtx) (va : Nat) (p : List (Nat × Nat)) : State :=
  let keep := fun (ws : List WalkEntry) (x : Nat × Nat) =>
    let w : WalkEntry := ⟨c.core / 128, c.world, c.domain, x.1, vaPrefix va x.1, BitVec.ofNat 64 x.2⟩
    if x.1 = 0 then ws else (ws.filter fun y => { y with entry := w.entry } ≠ w) ++ [w]
  { s with walkCache := p.foldl keep s.walkCache }

/-- Loads the last-page register of a lane with the translation of a data access (R135); never with host memory
(R317). -/
def State.loadLastPage (s : State) (c : XCtx) (acc : Acc) (x : Xlat) : State :=
  match c.lane with
  | none => s
  | some (q, l) =>
    if x.out.host || acc = .fetch then s
    else { s with lastPage :=
        (s.lastPage.filter fun p => !(p.core = c.core && p.quad = q && p.lane = l)) ++ [⟨c.core, q, l, x⟩] }

/-- The size at which a translation is cached (R134, R317): that of the leaf, or the largest below it whose page lies in one
stage-2 mapping (DEDUCED, log entry 74). -/
def State.cacheSize (s : State) (w out va : Nat) (leaf : BitVec 2) : BitVec 2 :=
  let whole := fun (z : BitVec 2) =>
    let n := 2 ^ pageShift z
    (s.s2Find w out).any fun m => m.ipa ≤ out - va % n && out - va % n + n ≤ m.ipa + m.bytes
  ([3, 2, 1, 0].find? fun (z : BitVec 2) => z ≤ leaf && whole z).getD 0

/-- Keeps a translation in the core's TLB and in the lane's register (R135, R317). A page that has not been written through
its leaf is kept without the right to write (R325). -/
def State.keepXlat (s : State) (c : XCtx) (acc : Acc) (va : Nat) (l : Leaf) (size : BitVec 2) (o : Loc) (r w x : Bool) :
    State :=
  let sh := pageShift size
  let e : Xlat :=
    { core := c.core, world := c.world, domain := c.domain, size := size, vpage := va % 2 ^ 57 / 2 ^ sh,
      out := { o with addr := o.addr - va % 2 ^ sh }, read := r,
      write := w && pteW l.entry && (acc.writes || pteD l.entry), exec := x && pteX l.entry,
      leaf := leafSize l.level (pteC l.entry), entry := BitVec.ofNat 64 (marked l.entry acc.writes) }
  let s := { s with tlb := (s.tlb.filter fun (y : Xlat) => !(y.core = c.core && y.world = c.world &&
    y.domain = c.domain && y.size = e.size && y.vpage = e.vpage)) ++ [e] }
  s.loadLastPage c acc e

/-- Translates by a walk, sets A and D and caches the result (R315, R317, R324, R325). -/
def State.translateWalk (s : State) (c : XCtx) (acc : Acc) (va : Nat) : Xl × State :=
  match s.walkOf c acc va with
  | (.fault k l e, _) => (.fault k l e, s)
  | (.s2 ipa, _) => (.s2 ipa true, s)
  | (.pull ipa, _) => (.pull ipa, s)
  | (.leaf l0, path) =>
    let s := s.keepWalk c va path
    let l := s.blockLeaf c.world va l0
    if acc.writes && !pteW l.entry then (.fault 2 0 l.entry, s)
    else if acc = .fetch && !pteX l.entry then (.fault 3 0 l.entry, s)
    else
      let out := leafOut l va
      let leaf := leafSize l.level (pteC l.entry)
      if pteH l.entry then
        let may := Config.atsAllows s.free c.world (BitVec.ofNat 64 out)
        if (!acc.writes || may true) && (acc = .write || may false) then
          let s := s.setAD c.world l acc.writes
          (.ok ⟨true, out⟩, s.keepXlat c acc va l leaf ⟨true, out⟩ (may false) (may true) (may false))
        else (.pri out, s)
      else
        match s.stage2 c.world out acc with
        | .fault => (.s2 out false, s)
        | .pull => (.pull out, s)
        | .ok pa =>
          let s := s.setAD c.world l acc.writes
          let perm := fun a => decide (s.stage2 c.world out a ≠ .fault)
          (.ok ⟨false, pa⟩, s.keepXlat c acc va l (s.cacheSize c.world out va leaf) ⟨false, pa⟩ (perm .read) (perm .write)
            (perm .fetch))

/-- Translates one address (R135, R317): a last-page register that hits is used; a TLB entry that hits may be
used or may have been evicted (DEDUCED, log entry 11); otherwise the walkers translate. Where a walk finds again what the TLB
holds, the choice changes nothing. -/
def State.translate (s : State) (c : XCtx) (acc : Acc) (va : W64) : Xl × State :=
  let a := va.toNat
  let reg := match c.lane with
    | some (q, l) => s.lastPage.find? fun (p : LastPage) =>
        p.core = c.core && p.quad = q && p.lane = l && acc != Acc.fetch && p.page.hits c acc a
    | none => none
  match reg with
  | some p => (.ok (p.page.place a), s)
  | none =>
    match s.tlb.find? fun (x : Xlat) => x.core = c.core && x.hits c acc a with
    | some x =>
      let used := s.loadLastPage c acc x
      let walked := s.translateWalk c acc a
      if walked.1 = .ok (x.place a) ∧ walked.2.lastPage = used.lastPage ∧ walked.2.mem = s.mem ∧ walked.2.hostMem = s.hostMem ∧
          walked.2.tlb = (s.tlb.filter fun y => y ≠ x) ++ [x] then (walked.1, { walked.2 with tlb := s.tlb })
      else if Config.useCached s.free va then (.ok (x.place a), used) else walked
    | none => s.translateWalk c acc a

/-- Translates every byte of a run, page by page: the places of its bytes, or the first failure with the
offset of its byte. -/
def State.translateRun (s : State) (c : XCtx) (acc : Acc) (va : W64) :
    Nat → List Loc → (List Loc ⊕ (Xl × Nat)) × State
  | 0, acc' => (.inl acc'.reverse, s)
  | n + 1, done =>
    let i := done.length
    let a := va + BitVec.ofNat 64 i
    match done with
    | l :: _ =>
      if a.toNat % 4096 ≠ 0 then s.translateRun c acc va n (l.add 1 :: done)
      else
        match s.translate c acc a with
        | (.ok l, s) => s.translateRun c acc va n (l :: done)
        | (x, s) => (.inr (x, i), s)
    | [] =>
      match s.translate c acc a with
      | (.ok l, s) => s.translateRun c acc va n (l :: done)
      | (x, s) => (.inr (x, i), s)

/-- Discards entries of the walk caches (R317, R332). -/
def State.sweepWalks (s : State) (p : WalkEntry → Bool) : State := { s with walkCache := s.walkCache.filter fun x => !p x }

/-- Discards the cached translations that satisfy a condition, last-page registers included (R135, R317). -/
def State.sweep (s : State) (p : Xlat → Bool) : State :=
  { s with tlb := s.tlb.filter fun x => !p x, lastPage := s.lastPage.filter fun x => !p x.page }

end Sys2Proof.Machine
end

