-- ==== Sys2Proof/Machine/Operands.lean ====
section
/-! DEFINITION. Every operand form of R36 to R39: slices, uniform registers, immediates and special registers,
and writing a destination. Slices that an incomplete instruction is still to write are read as free values and
marked when they are written (R45). -/

namespace Sys2Proof.Machine

/-! ### Destinations -/

/-- Slices that an instruction writes at its completion, or later than its issue: start and count (R42, R45). -/
def destSlices : Instr → List (Nat × Nat)
  | .ldk _ | .atom _ | .st _ | .fence _ | .pref _ | .spill _ | .cmo _ | .tst _ | .tfill _ | .tlbiVa _
  | .tlbiRange _ | .tlbiDom _ | .tlbiWorld _ | .ordmark _ | .gret _ | .sets _ => []
  | .fill f => [(f.a.start, f.b.start - f.a.start + 1)]
  | .mma f => [(f.d.start.toNat, 128)]
  | i =>
    match i.common with
    | some c => [(c.d.start.toNat, c.d.w.bits / 4)]
    | none => []

/-- One past the highest slice of the fragments of an MMA with elements of ea and eb bits (R248). -/
def mmaTop (f : MatF) (ea eb : Nat) : Nat :=
  max (f.d.start.toNat + 128)
    (max (f.a.start + 8 * ea) (max (f.b.start + 4 * eb) (f.c.start + 128)))

/-- One past the highest slice that an instruction names by its width codes (R36, R47 check 5). -/
def sliceTop (i : Instr) : Nat :=
  match i.common with
  | none => 0
  | some c =>
    let o := fun (x : Opnd) => match x with
      | .slice w s => s.toNat + w.bits / 4
      | _ => 0
    let d := match i with
      | .ldk _ | .sets _ => 0
      | _ => c.d.start.toNat + c.d.w.bits / 4
    let n := max d (max (o c.a) (max (o c.b) (o c.c)))
    match i with
    | .mma f => if f.ty = .slot then n else max n (mmaTop f f.ty.bits f.ty.bits)
    | _ => n

/-- Slices that an incomplete instruction is to write in its thread: a lane that a CPYM finds inactive receives nothing (R120). -/
def Op.dest (o : Op) : List (Nat × Nat) :=
  match o.instr with
  | .cpym _ => if o.x.testBit o.who.lane then destSlices o.instr else []
  | i => destSlices i

/-- The incomplete instructions of a thread. -/
def State.opsOf (s : State) (t : TRef) : List Op := s.ops.filter (·.who = t)

/-- A slice of a thread is a destination of one of its incomplete instructions. -/
def State.pendingSlice (s : State) (t : TRef) (i : Nat) : Bool :=
  (s.opsOf t).any fun o => o.dest.any fun r => r.1 ≤ i && i < r.1 + r.2

def State.anyPending (s : State) (t : TRef) (start count : Nat) : Bool :=
  (s.opsOf t).any fun o => o.dest.any fun r => overlap r.1 r.2 start count

/-- Slices of a register as a number (R36). -/
def slicesGet (sl : BitVec 4096) (start w : Nat) : Nat := (sl >>> (4 * start)).toNat % 2 ^ w

/-- Slices with a number written into them (R59, write_slices). -/
def slicesSet (sl : BitVec 4096) (start w v : Nat) : BitVec 4096 :=
  (sl &&& ~~~(BitVec.ofNat 4096 (2 ^ w - 1) <<< (4 * start))) |||
    (BitVec.ofNat 4096 (v % 2 ^ w) <<< (4 * start))

/-- The place of a byte as one number. -/
def Loc.key (l : Loc) : Nat := (if l.host then 2 ^ 60 else 0) + l.addr

/-- A byte that an operation has read (kept in its data as 256 times the place plus the byte). -/
def Op.received (o : Op) (l : Loc) : Option Byte := (o.data.find? fun n => n / 256 = l.key).map (BitVec.ofNat 8 ·)

/-- The loads of group 0x3, which read line by line (R136). -/
def isLoad : Instr → Bool
  | .ld _ | .ldk _ | .fill _ => true
  | _ => false

/-- Nibble j of what an incomplete instruction is going to write, once the machine has it: a result, or a byte that a load
has read. -/
def Op.newNibble (o : Op) (j : Nat) : Option Nat :=
  match o.instr, o.phase with
  | .cred _, _ | .credb _, _ | .fqnt _, _ => none
  | i, .result => if isLoad i || !o.data.isEmpty then some (bits (o.data.headD 0) (4 * j) 4) else none
  | i, _ => if isLoad i then (o.locs[j / 2]?.bind o.received).map fun b => bits b.toNat (4 * (j % 2)) 4 else none

/-- What a slice that reads `cur` may show instead while an instruction is to write it as its nibble j: the new value, or
what a machine may have of it before this model has computed it (R45, DEDUCED, log entry 10). -/
def Op.shown (o : Op) (n : Nat) (t : TRef) (i j cur : Nat) : Nat :=
  if Config.keep n t (i + 1024 * o.id) then cur
  else
    match o.newNibble j with
    | some v => v
    | none => if isLoad o.instr then cur else (Config.slice n t i).toNat

/-- One pending slice of a thread (R45): the old or the new value of each instruction that is to write it. -/
def State.readPending (s : State) (t : TRef) (i : Nat) : Nat :=
  (s.opsOf t).foldl (fun cur o =>
    match o.dest.find? fun r => r.1 ≤ i && i < r.1 + r.2 with
    | some r => o.shown s.free t i (i - r.1) cur
    | none => cur) (slicesGet (s.thread t).slices i 4)

/-- What a thread reads in its slices (R36, R45). -/
def State.readSlices (s : State) (t : TRef) (start w : Nat) : Nat :=
  let sl := (s.thread t).slices
  if s.anyPending t start (w / 4) then
    (List.range (w / 4)).foldr (fun i n => 16 * n + s.readPending t (start + i)) 0
  else slicesGet sl start w

/-- Marks slices as written by a later instruction in the thread's incomplete ones (R45). -/
def Op.clobbered (o : Op) (start count : Nat) : Op :=
  { o with clobber := o.clobber ||| (BitVec.ofNat 1024 (2 ^ count - 1) <<< start) }

/-- Writes slices of a thread (R59, write_slices). -/
def State.writeSlices (s : State) (t : TRef) (start w v : Nat) : State :=
  let s := s.setThread t fun x => { x with slices := slicesSet x.slices start w v }
  if s.anyPending t start (w / 4) then
    { s with ops := s.ops.map fun o => if o.who = t then o.clobbered start (w / 4) else o }
  else s

/-- Writes slices as an incomplete instruction's result: a slice that a later instruction has written ends with
either value (R45, DEDUCED, log entry 10). -/
def State.writeLate (s : State) (o : Op) (start w v : Nat) : State :=
  if o.clobber = 0 then
    s.setThread o.who fun x => { x with slices := slicesSet x.slices start w v }
  else
    (List.range (w / 4)).foldl (fun s i =>
      if o.clobber.getLsbD (start + i) && !Config.keep s.free o.who (start + i) then s
      else s.setThread o.who fun x => { x with slices := slicesSet x.slices (start + i) 4 (bits v (4 * i) 4) }) s

/-! ### Special registers and uniform registers -/

/-- %tid from the group and the home lane: the thread index within the team, X first (R38, R386). -/
def tidOf (teamdim : W64) (t : TRef) : Nat :=
  let i := 32 * t.gid + t.lane
  let dx := max 1 (bits teamdim.toNat 0 16)
  let dy := max 1 (bits teamdim.toNat 16 16)
  i % dx + (i / dx % dy) * 2 ^ 10 + (i / dx / dy) * 2 ^ 20

/-- The value of a special register (R38). -/
def State.sreg (s : State) (t : TRef) (r : SReg) : Nat :=
  let x := s.thread t
  let g := s.groupOf t
  let m := s.team t.team
  match r with
  | .tid => tidOf m.teamdim t
  | .lane => t.lane
  | .gid => t.gid
  | .team => m.team.toNat
  | .teamdim => m.teamdim.toNat
  | .griddim => m.griddim.toNat
  | .role => if g.producer then 1 else 0
  | .core => m.core
  | .cluster => clusterOfCore m.core
  | .lcore => m.lcore
  | .world => m.world
  | .domain => g.domain.toNat
  | .fmode => x.fmode.toNat
  | .fpflags => x.fpflags.toNat
  | .sp => x.sp.toNat
  | .stklim => x.stklim.toNat
  | .retbase => x.retbase.toNat
  | .retlim => x.retlim.toNat
  | .hdl => g.hdl.toNat
  | .clock => s.clock % 2 ^ 64
  | .gen f => (s.slot m.world f).gen.toNat
  | .hash => (s.hashOf t.team t.gid).toNat

/-- Nibbles of uniform registers that an instruction writes at its completion: start and count (R142). -/
def destUni : Instr → Nat × Nat
  | .ldk f => (8 * f.d.start.toNat, f.d.w.bits / 4)
  | _ => (0, 0)

/-- An incomplete LDK of the group is still to write one of some nibbles of uniform registers (R142). -/
def State.pendingUni (s : State) (t : TRef) (start count : Nat) : Bool :=
  (s.opsOf t).any fun o => overlap (destUni o.instr).1 (destUni o.instr).2 start count

/-- One nibble of a uniform register as a thread reads it (R142): the old or the new value of each LDK that is to write
it. -/
def State.readNibble (s : State) (t : TRef) (k : BitVec 2048) (i : Nat) : Nat :=
  (s.opsOf t).foldl (fun cur o =>
    let r := destUni o.instr
    if r.1 ≤ i && i < r.1 + r.2 then
      match o.newNibble (i - r.1) with
      | some v => if Config.keepUni s.free t.gid (i + 512 * o.id) then cur else v
      | none => cur
    else cur) ((k >>> (4 * i)).toNat % 16)

/-- Bits of uniform registers from k(i) upward (R37). -/
def State.readUni (s : State) (t : TRef) (i w : Nat) : Nat :=
  let k := (s.groupOf t).k
  if s.pendingUni t (8 * i) (ceilDiv w 4) then
    (List.range (ceilDiv w 4)).foldr (fun j n => 16 * n + s.readNibble t k (8 * i + j)) 0 % 2 ^ w
  else (k >>> (32 * i)).toNat % 2 ^ w

/-- Writes uniform registers of a group. -/
def uniSet (k : BitVec 2048) (i w v : Nat) : BitVec 2048 :=
  (k &&& ~~~(BitVec.ofNat 2048 (2 ^ w - 1) <<< (32 * i))) ||| (BitVec.ofNat 2048 (v % 2 ^ w) <<< (32 * i))

/-- Writes uniform registers as an instruction that issues now, and marks them in the LDKs of the group that are incomplete
(R142). -/
def State.writeUni (s : State) (t : TRef) (i w v : Nat) : State :=
  let s := s.setGroup t.team t.gid fun g => { g with k := uniSet g.k i w v }
  { s with ops := s.ops.map fun (o : Op) =>
      if o.who.team = t.team ∧ o.who.gid = t.gid ∧ (destUni o.instr).2 ≠ 0 then o.clobbered (8 * i) (ceilDiv w 4) else o }

/-- Writes uniform registers as the result of an LDK: a nibble that a KMOV has written since ends with either value
(R142, R156). -/
def State.writeUniLate (s : State) (o : Op) (i w v : Nat) : State :=
  s.setGroup o.who.team o.who.gid fun g =>
    if o.clobber = 0 then { g with k := uniSet g.k i w v }
    else
      { g with k := (List.range (ceilDiv w 4)).foldl (fun k j =>
          if o.clobber.getLsbD (8 * i + j) && Config.keepUni s.free o.who.gid (8 * i + j) then k
          else (k &&& ~~~(15#2048 <<< (32 * i + 4 * j))) ||| (BitVec.ofNat 2048 (bits v (4 * j) 4) <<< (32 * i + 4 * j))) g.k }

/-! ### Source operands -/

/-- The bits of an operand at its own width (R36 to R38). -/
def State.rawOpnd (s : State) (t : TRef) : Opnd → Nat
  | .slice w st => s.readSlices t st.toNat w.bits
  | .uni w k => s.readUni t k.toNat w.bits
  | .imm v => v.toNat
  | .sreg r => s.sreg t r

/-- An operand extended or truncated to w bits (R39): narrower ones by sign where `signed` says so, immediates
always by sign (R37). -/
def State.opndAt (s : State) (t : TRef) (o : Opnd) (w : Nat) (signed : Bool) : Nat :=
  let raw := s.rawOpnd t o
  match o with
  | .imm _ => wrapN (sextN raw 10) w
  | _ => if o.bits < w && signed then wrapN (sextN raw o.bits) w else raw % 2 ^ w

/-- read_operand of R59 for an integer type. -/
def State.opnd (s : State) (t : TRef) (o : Opnd) (ty : Ty) : Nat := s.opndAt t o ty.bits ty.isSigned

/-- An operand read as n32. -/
def State.opnd32 (s : State) (t : TRef) (o : Opnd) : Nat := s.opndAt t o 32 false

/-- An operand read as n64. -/
def State.opnd64 (s : State) (t : TRef) (o : Opnd) : Nat := s.opndAt t o 64 false

/-- write_dest of R59: the low bits of a result of type width w, extended to the destination's width. -/
def destValue (d : Dst) (w : Nat) (signed : Bool) (v : Nat) : Nat :=
  if d.w.bits > w && signed then wrapN (sextN v w) d.w.bits else v % 2 ^ min w d.w.bits

def State.writeDest (s : State) (t : TRef) (d : Dst) (ty : Ty) (v : Nat) : State :=
  s.writeSlices t d.start.toNat d.w.bits (destValue d ty.bits ty.isSigned v)

/-! ### Predicates -/

/-- A predicate; q7 reads 1 (R40, R98). -/
def Thread.pred (x : Thread) (q : BitVec 3) : Bool := q = 7 || x.preds.getLsbD q.toNat

/-- Writes a predicate q0 to q6. -/
def Thread.setPred (x : Thread) (q : BitVec 3) (b : Bool) : Thread :=
  if q = 7 then x
  else { x with preds := (x.preds &&& ~~~(1#7 <<< q.toNat)) ||| (BitVec.ofNat 7 (if b then 1 else 0) <<< q.toNat) }

/-- The guard (R40). -/
def State.guard (s : State) (t : TRef) (c : Ctl) : Bool := (s.thread t).pred c.gp != c.neg

end Sys2Proof.Machine
end

