-- ==== Sys2Proof/Machine/Ops.lean ====
section
/-! DEFINITION. The operations that instructions share: raising, delivering and returning from traps, opening
faults, issuing for each thread, and starting and completing incomplete instructions (R20, R40 to R44, R47,
R168, R173 to R178, R191, R320 to R323). -/

namespace Sys2Proof.Machine

/-- A step that answers a next state. -/
abbrev Out := Host.Outcome State Fault Refusal

/-- fclk cycles in a microsecond, at the 2.0 GHz of R13 (DEDUCED, log entry 16). -/
def cyclesPerUs : Nat := 2000

/-! ### Trap codes (R175) -/

def trapIllegalOpcode : BitVec 8 := 0x01
def trapIllegalEncoding : BitVec 8 := 0x02
def trapIllegalType : BitVec 8 := 0x03
def trapOperandAlign : BitVec 8 := 0x04
def trapSliceRange : BitVec 8 := 0x05
def trapUnpreparedWaymark : BitVec 8 := 0x06
def trapWaymarkDomain : BitVec 8 := 0x07
def trapStackLimit : BitVec 8 := 0x08
def trapReturnUnderflow : BitVec 8 := 0x09
def trapConvergenceDeadlock : BitVec 8 := 0x0A
def trapConvergenceMismatch : BitVec 8 := 0x0B
def trapSoftware : BitVec 8 := 0x0C
def trapBreakpoint : BitVec 8 := 0x0D
def trapFpException : BitVec 8 := 0x0E
def trapPageFault : BitVec 8 := 0x10
def trapAccessViolation : BitVec 8 := 0x11
def trapMisaligned : BitVec 8 := 0x12
def trapPoison : BitVec 8 := 0x13
def trapMigrationLost : BitVec 8 := 0x14
def trapTileHandle : BitVec 8 := 0x18
def trapBarrierOverrun : BitVec 8 := 0x19
def trapFormatSlot : BitVec 8 := 0x1A
def trapGateDenied : BitVec 8 := 0x1C
def trapGateMismatch : BitVec 8 := 0x1D
def trapGateFault : BitVec 8 := 0x1E
def trapPreempt : BitVec 8 := 0x20
def trapReplayDiverged : BitVec 8 := 0x21
def trapFabricError : BitVec 8 := 0x22

/-- The trap of a decoding check (R47, R175). -/
def illegalTrap : Illegal → BitVec 8
  | .opcode => trapIllegalOpcode
  | .encoding => trapIllegalEncoding
  | .type => trapIllegalType
  | .align => trapOperandAlign

/-! ### Raising -/

/-- A trap becomes the thread's own, or joins the pending ones behind one that it already has (R177). -/
def Thread.addTrap (x : Thread) (r : Trap) : Thread :=
  if x.trap.isNone then { x with trap := some r } else { x with async := x.async ++ [r] }

/-- Raises a trap of the instruction at pc, without effect, to be resumed there (R47, R176). -/
def State.raiseAt (s : State) (t : TRef) (code info : BitVec 8) (addr pc : W64) : State :=
  s.setThread t fun x => x.addTrap ⟨code, info, pc, pc, addr, false⟩

/-- Raises a trap of the instruction at the thread's pc. -/
def State.raise (s : State) (t : TRef) (code : BitVec 8) (info : BitVec 8 := 0) (addr : W64 := 0) : State :=
  s.raiseAt t code info addr (s.thread t).pc

/-- Raises a trap of the instruction at pc whose effect stands, to be resumed after it (R176). -/
def State.raiseAfter (s : State) (t : TRef) (code info : BitVec 8) (pc : W64) : State :=
  s.setThread t fun x => x.addTrap ⟨code, info, pc, pc + 16, 0, false⟩

/-- Makes an asynchronous trap pending, unless one of its code already is (R177). In handler mode only PREEMPT and a
background ACCESS_VIOLATION are held; another one is the thread's next trap, and so fatal (R177, R463). -/
def State.raiseAsync (s : State) (t : TRef) (code : BitVec 8) (addr : W64) : State :=
  s.setThread t fun x =>
    if x.handler && code ≠ trapPreempt && code ≠ trapAccessViolation then x.addTrap ⟨code, 0, 0, 0, addr, true⟩
    else if x.async.any (·.code = code) then x
    else { x with async := x.async ++ [⟨code, 0, 0, 0, addr, true⟩] }

/-- Sets the pc; an address past the code-canonical range raises ACCESS_VIOLATION as a fetch trap (R163,
R165, R176). -/
def State.setPc (s : State) (t : TRef) (pc : W64) : State :=
  s.setThread t fun x =>
    { x with pc := pc,
             trap := if codeCanonical pc then x.trap else some ⟨trapAccessViolation, 0, pc, pc, pc, false⟩ }

/-- Counts an issued instruction: its place in the thread's sequence, its reuse bit, and the pc (R43, R46,
R157). -/
def State.advance (s : State) (t : TRef) (c : Ctl) : State :=
  (s.setThread t fun x => { x with seq := x.seq + 1, wait := 0, reuse := c.reuse, bwait := none, joins := false }).setPc t
    ((s.thread t).pc + 16)

/-- Counts an issued instruction that sets the pc itself. -/
def State.countIssue (s : State) (t : TRef) (c : Ctl) : State :=
  s.setThread t fun x => { x with seq := x.seq + 1, wait := 0, reuse := c.reuse, bwait := none, joins := false }

/-! ### Issue for each thread -/

/-- The slices that an instruction names lie within the thread's budget (R47, check 5). -/
def State.slicesOk (s : State) (t : TRef) (i : Instr) : Bool := sliceTop i ≤ (s.groupOf t).budget

/-- Executes an instruction for each thread of the issue in ascending home lane: a thread whose guard is 0
passes it, one that names a slice beyond its budget traps, and the others have the effect (R40, R47). -/
def State.forIssue (s : State) (i : Instr) (c : Common) (f : TRef → State → State) : State :=
  s.issue.threads.foldl (fun s t =>
    if !s.guard t c.ctl then s.advance t c.ctl
    else if !s.slicesOk t i then s.raise t trapSliceRange
    else f t s) s

/-- Executes a fixed-latency instruction that goes on at the next word: the effect, which may raise a trap,
and then the pc (R41). -/
def State.forLanes (s : State) (i : Instr) (c : Common) (f : TRef → State → State) : State :=
  s.forIssue i c fun t s =>
    let s' := f t s
    if (s'.thread t).trap.isSome then s' else s'.advance t c.ctl

/-- The active lanes of an issue: guard 1, slices in range. -/
def State.activeLanes (s : State) (i : Instr) (c : Common) : List TRef :=
  s.issue.threads.filter fun t => s.guard t c.ctl && s.slicesOk t i

/-! ### Incomplete instructions -/

/-- Starts a variable-latency instruction of a thread: it takes its place in the sequence, its slot becomes
busy and the pc moves on (R20, R42, R43). -/
def State.start (s : State) (t : TRef) (i : Instr) (c : Common) (a b cc x : Nat) : Op × State :=
  let th := s.thread t
  let o : Op :=
    { id := s.ids, who := t, seq := th.seq, la := c.ctl.la,
      slot := if c.ctl.setEn then some c.ctl.setSlot else none, instr := i, pc := th.pc, lead := s.ids, iss := s.issue.id,
      phase := .pending, a := a, b := b, c := cc, x := x, domain := s.domainOf t, locs := [], data := [], tiles := [],
      clobber := 0, fault := none, elem := 0, since := s.clock }
  let s := { s with ids := s.ids + 1, ops := s.ops ++ [o] }
  let s := if c.ctl.setEn then
      s.setThread t fun y => { y with sb := y.sb ||| (1#8 <<< c.ctl.setSlot.toNat) }
    else s
  (o, s.advance t c.ctl)

/-- Removes an instruction that is complete, and clears its slot (R20, R42). -/
def State.complete (s : State) (o : Op) : State :=
  let s := { s with ops := s.ops.filter (·.id ≠ o.id) }
  match o.slot with
  | some j => s.setThread o.who fun x => { x with sb := x.sb &&& ~~~(1#8 <<< j.toNat) }
  | none => s

/-- Completes an instruction with a result in its destination (R20). -/
def State.completeWith (s : State) (o : Op) (v : Nat) : State :=
  match o.instr.common with
  | some c => (s.writeLate o c.d.start.toNat c.d.w.bits v).complete o
  | none => s.complete o

/-- The instruction traps without effect: it is no longer incomplete (R47, R146). -/
def State.trapOp (s : State) (o : Op) (code info : BitVec 8) (addr : W64) : State :=
  (s.complete o).raiseAt o.who code info addr o.pc

/-- A collective operation completes in every thread of its group, with the result in the lanes that were active (R142,
R230). -/
def State.completeGroup (s : State) (o : Op) (v : Nat) : State :=
  (s.ops.filter fun p => p.lead = o.id).foldl (fun s p =>
    if bit o.x p.who.lane then s.completeWith p v else s.complete p) s

/-- A collective operation raises a trap in every lane that was active, and is over in the others (R142, R230). -/
def State.groupTrap (s : State) (o : Op) (code info : BitVec 8) (addr : W64) : State :=
  (s.ops.filter fun p => p.lead = o.id).foldl (fun s p =>
    if bit o.x p.who.lane then s.trapOp p code info addr else s.complete p) s

/-- Issues a collective operation of a group, led by the lowest active lane, whose operands it takes (R120): an operation in
every live thread (R142, R230), or in the active lanes only where `every` is false (R40). -/
def State.groupIssue (s : State) (i : Instr) (c : Common) (sample : State → TRef → Nat × Nat × Nat)
    (launch : State → Op → State) (every : Bool := true) : State :=
  let act := s.activeLanes i c
  match act with
  | [] => s.forIssue i c fun _ s => s
  | l :: _ =>
    let (a, b, cc) := sample s l
    let mask := act.foldl (fun n t => n + 2 ^ t.lane) 0
    let s := s.issue.threads.foldl (fun s t =>
      if s.guard t c.ctl && !s.slicesOk t i then s.raise t trapSliceRange
      else if !every && !s.guard t c.ctl then s.advance t c.ctl
      else (s.start t i c a b cc mask).2) s
    match s.ops.find? fun o => o.iss = s.issue.id && o.who = l with
    | none => s
    | some o =>
      launch { s with ops := s.ops.map fun (y : Op) => if y.iss = o.iss then { y with lead := o.id } else y } o

/-! ### Faults (R320 to R323) -/

/-- The fault ring of a world is enabled: lgn from 6 to 16 (R316). -/
def World.ringOn (w : World) : Bool := 6 ≤ bits w.frbase.toNat 0 5 && bits w.frbase.toNat 0 5 ≤ 16

/-- The stage-2 event ring is enabled: lgn from 4 to 12 (R437). -/
def State.eventsOn (s : State) : Bool := 4 ≤ bits s.kebase.toNat 0 4 && bits s.kebase.toNat 0 4 ≤ 12

/-- Adds a notice, unless the world's ring is disabled (R322, R323). -/
def State.notice (s : State) (f : FaultRec) : State :=
  if (s.world f.world).ringOn then { s with faults := s.faults ++ [{ f with notice := true }] } else s

/-- Notice 0x12, fabric target lost (R409). -/
def State.lostNotice (s : State) (w : Nat) (va : W64) : State :=
  let s' := s.notice { id := s.ids, world := w, source := .fabric, kind := 0x12, access := 0, level := 0, domain := 0,
                       entry := 0, va := va, pc := 0, channel := 0, queue := 0, ticket := 0, num := none, notice := true,
                       pri := false, pull := false, ipa := 0, deadline := 0 }
  { s' with ids := s.ids + 1 }

/-- An event that finds the device only while its rails are on (R32). -/
def State.powered (s : State) (f : State → State) : Out := .next (if s.power then f s else s)

/-- An event that finds the device only once it has been brought up (R32, R457). -/
def State.whenUp (s : State) (f : State → State) : Out := s.powered fun s => if s.mgmt.boot = 2 then f s else s

/-- Opens the lines of some places that a world reads (R440): one that fails its integrity tag is poisoned, and the world
that owns it gets a notice of kind 0x13. -/
def State.openLines (s : State) (ls : List Loc) (va : W64 := 0) : State :=
  (((ls.filter fun l => s.broken l.line).map (·.line)).eraseDups).foldl (fun s n =>
    let w := ((s.lineMap n).map (·.world)).getD 0
    let s' := s.notice { id := s.ids, world := w, source := .fabric, kind := 0x13, access := 0, level := 0, domain := 0,
                         entry := 0, va := va, pc := 0, channel := 0, queue := 0, ticket := 0, num := none, notice := true,
                         pri := false, pull := false, ipa := 0, deadline := 0 }
    ({ s' with ids := s.ids + 1 }.setPoison n).setSeal n) s

/-- What becomes of an access that does not translate: it waits for a fault, or it is denied at once with
PAGE_FAULT or ACCESS_VIOLATION. -/
inductive Opened where
  | wait (id : Nat)
  | deny (violation : Bool)
deriving DecidableEq, Repr

/-- The launch of a source (R322). -/
def State.sourceLaunch (s : State) : Source → Option Launch
  | .thread t => s.launch? (s.team t.team).launch
  | .copy n => (s.copy? n).bind fun c => s.launch? (s.team c.team).launch
  | .loader _ | .fabric => none
  | .background tm _ => s.launch? (s.team tm).launch
  | .slotRelease tm _ => s.launch? (s.team tm).launch
  | .launch n => s.launch? n

/-- Source codes of R320; a transfer has the Causeway engine's (R416). -/
def State.sourceCode (s : State) : Source → Nat
  | .thread _ => 0
  | .copy n => if (s.copy? n).any fun c => c.kind = .rput || c.kind = .rget then 4 else 1
  | .loader _ => 2
  | .background _ _ => 3
  | .slotRelease _ _ => 3
  | .fabric => 4
  | .launch _ => 5

/-- Discards the cached translations of a faulting page (R317). -/
def State.sweepPage (s : State) (w : Nat) (d : BitVec 4) (va : Nat) : State :=
  (s.sweep fun y => y.world = w && y.domain = d && y.inLeaf va).sweepWalks fun y =>
    y.world = w && y.domain = d && y.pre = vaPrefix va y.level

/-- Opens the fault of an access (R320, R321, R324, R329, R437). A stage-1 fault discards the
cached translations of its page (R317). -/
def State.openFault (s : State) (src : Source) (w : Nat) (d : BitVec 4) (x : Xl) (acc : Acc) (va pc : W64)
    (ch : Nat) : Opened × State :=
  let l := s.sourceLaunch src
  let base : FaultRec :=
    { id := s.ids, world := w, source := src, kind := 0, access := acc.code, level := 0, domain := d, entry := 0,
      va := va, pc := pc, channel := ch, queue := (l.map (·.queue)).getD 0, ticket := (l.map (·.ticket)).getD 0,
      num := none, notice := false, pri := false, pull := false, ipa := 0, deadline := 0 }
  let add := fun (f : FaultRec) => (Opened.wait s.ids, { s with ids := s.ids + 1, faults := s.faults ++ [f] })
  match x with
  | .ok _ => (.deny false, s)
  | .fault k lv e =>
    if (s.world w).ringOn then
      let (r, s) := add { base with kind := k, level := lv, entry := BitVec.ofNat 64 e }
      (r, s.sweepPage w d va.toNat)
    else (.deny false, s)
  | .s2 ipa walker =>
    let f := { base with kind := 0x14, va := if walker then 0 else va, ipa := ipa / 4096 * 4096,
                         entry := BitVec.ofNat 64 (ipa / 4096 * 4096) }
    if s.eventsOn then add f else (.deny true, s.notice { f with kind := 0x08, va := va })
  | .pull ipa =>
    let us := bits (s.world w).pullto.toNat 0 16
    add { base with kind := 0x07, pull := true, ipa := ipa / 4096 * 4096,
                    deadline := s.clock + (if us = 0 then 200 else us) * cyclesPerUs }
  | .pri h => add { base with kind := 0x06, pri := true, entry := BitVec.ofNat 64 h }

/-- The trap code of a denied access (R320). -/
def denyCode (violation : Bool) : BitVec 8 := if violation then trapAccessViolation else trapPageFault

/-- An instruction waits for the fault of one of its elements, to be executed again afterwards (R146, R320). -/
def State.awaitFault (s : State) (o : Op) (n : Nat) (elem : W64) : State :=
  (s.setOp o.id fun y => { y with phase := .again, fault := some n, elem := elem }).setThread o.who fun y => { y with fault := some n }

/-- The thread of an instruction meets a fault: it waits and the instruction is executed again afterwards, or it
traps (R146, R320). -/
def State.faultOp (s : State) (o : Op) (x : Xl) (acc : Acc) (va elem : W64) : State :=
  let (r, s) := s.openFault (.thread o.who) (s.worldOf o.who) o.domain x acc va o.pc 0
  match r with
  | .wait n => s.awaitFault o n elem
  | .deny v => s.trapOp o (denyCode v) 0 elem

/-- Some of the places are the host's, and the host link is down (R466). -/
def State.hostLost (s : State) (ls : List Loc) : Bool := !s.link && ls.any (·.host)

/-- The context in which an instruction translates: the domain is that of its issue. -/
def State.opCtx (s : State) (o : Op) : XCtx :=
  { core := s.coreOf o.who, lane := some ((s.groupOf o.who).quad, o.who.lane), world := s.worldOf o.who,
    domain := o.domain }

/-- The context in which a thread translates (R135). -/
def State.xctx (s : State) (t : TRef) : XCtx :=
  { core := s.coreOf t, lane := some ((s.groupOf t).quad, t.lane), world := s.worldOf t, domain := s.domainOf t }

/-! ### Narrow stores and the data stack -/

/-- The thread's data stack (R151). -/
def Thread.inStack (x : Thread) (a : W64) : Bool := x.stklim ≤ a && a < x.base

def Window.of (w : Window) (team gid : Nat) : Bool := w.team = team && w.gid = gid

/-- The window of a group (R152). -/
def State.window? (s : State) (team gid : Nat) : Option Window := s.windows.find? (·.of team gid)

/-- A group receives a window at its first stack access when its core has one free, and otherwise waits for one (R152;
DEDUCED, log entry 28). -/
def State.needWindow (s : State) (t : TRef) : State :=
  let core := s.coreOf t
  if (s.window? t.team t.gid).isSome then s
  else if (s.windows.filter (·.core = core)).length < 32 then
    { s with windows := s.windows ++ [⟨core, t.team, t.gid, []⟩] }
  else if s.winQ.contains (core, t.team, t.gid) then s
  else { s with winQ := s.winQ ++ [(core, t.team, t.gid)] }

/-- Groups lose their windows and their places in the queue; each free window passes to the group of its core that has
waited longest (R152). -/
def State.freeWindows (s : State) (gone : Nat → Nat → Bool) : State :=
  let freed := (s.windows.filter fun w => gone w.team w.gid).map (·.core)
  let s := { s with windows := s.windows.filter fun (w : Window) => !gone w.team w.gid,
                    winQ := s.winQ.filter fun x => !gone x.2.1 x.2.2 }
  freed.foldl (fun s core =>
    match s.winQ.find? (·.1 = core) with
    | none => s
    | some x => { s with windows := s.windows ++ [⟨core, x.2.1, x.2.2, []⟩], winQ := s.winQ.filter (· ≠ x) }) s

def State.setWindow (s : State) (team gid : Nat) (f : Window → Window) : State :=
  { s with windows := s.windows.map fun w => if w.of team gid then f w else w }

/-- How far a line of a window lies above the stack pointer of its thread (R152). -/
def State.lineDistance (s : State) (team gid : Nat) (x : WinLine) : Int :=
  (128 * x.vline : Int) - (s.thread ⟨team, gid, x.lane⟩).sp.toNat

/-- The line of a window that is written back first: the one that lies furthest above its own thread's %sp (R152). -/
def State.furthest (s : State) (w : Window) : Option WinLine :=
  match w.lines with
  | [] => none
  | x :: r => some (r.foldl (fun b y =>
      if s.lineDistance w.team w.gid b < s.lineDistance w.team w.gid y then y else b) x)

/-- Puts the bytes of one element into the core write buffer (R67, R73). -/
def State.buffer (s : State) (t : TRef) (seq op : Nat) (bytes : List (Loc × Byte)) (release : Bool)
    (iss : Nat := 0) (whole : List Nat := []) : State :=
  { s with ids := s.ids + 1,
           wbuf := s.wbuf ++ [⟨s.ids, s.coreOf t, t, seq, op, s.worldOf t, bytes, release, iss, whole⟩] }

/-- The group's window holds the lines of some places. -/
def State.inWindow (s : State) (t : TRef) (ls : List Loc) : Bool :=
  (s.window? t.team t.gid).any fun w => ls.all fun l => w.lines.any (·.line = l.line)

/-- A store of one element at thread, group or team scope: it is performed in the group's window, which is coherent, where
the window holds its line (R152), and enters the core write buffer otherwise (R73). -/
def State.storeNarrow (s : State) (t : TRef) (seq op : Nat) (va : W64) (bytes : List (Loc × Byte))
    (release : Bool) (iss : Nat := 0) (whole : List Nat := []) : State :=
  let ls := bytes.map (·.1)
  if (s.thread t).inStack va && s.inWindow t ls && !s.bufferedAt (s.coreOf t) ls && !s.anyOwned ls && ls.all (·.isLocal) then
    let s := (s.writeBytes bytes).unmark ls
    if release then { s with ids := s.ids + 1, marks := s.marks ++ ls.map fun l => ⟨l, s.coreOf t, s.ids⟩ } else s
  else s.buffer t seq op bytes release iss whole

/-! ### Taking a trap and returning from it -/

/-- The 32 bytes of a trap record (R174). -/
def Trap.record (r : Trap) (x : Thread) : Nat :=
  r.code.toNat + fieldAt x.id.lane 8 5 + fieldAt x.id.gid 13 5 + fieldAt x.preds.toNat 24 7 +
    fieldAt r.info.toNat 56 8 + r.pc.toNat * 2 ^ 64 + r.resume.toNat * 2 ^ 128 + r.addr.toNat * 2 ^ 192

/-- Result of a delivery. -/
inductive Delivered where
  | entered (s : State)     -- the thread is at its handler
  | waits (s : State)       -- a fault on the record is open
  | fatal (s : State)
deriving Repr

/-- Takes a trap (R173, steps 2 to 4): the record is written at %sp - 32, %sp moves down to it, handler mode
becomes 1 and the pc becomes %hdl. Fatal without a handler, in handler mode, or where the record cannot be
written. -/
def State.takeTrap (s : State) (t : TRef) (r : Trap) : Delivered :=
  let x := s.thread t
  let hdl := (s.groupOf t).hdl
  let a := x.sp - 32
  if hdl = 0 || x.handler then .fatal s
  else if bits x.sp.toNat 0 4 ≠ 0 || x.sp.toNat < 32 || a < x.stklim then .fatal s
  else if !canonical a then .fatal s
  else
    match s.translateRun (s.xctx t) .write a 32 [] with
    | (.inr (f, i), s) =>
      match s.openFault (.thread t) (s.worldOf t) (s.domainOf t) f .write (a + BitVec.ofNat 64 i) r.pc 0 with
      | (.wait n, s) => .waits (s.setThread t fun y => { y with fault := some n })
      | (.deny _, s) => .fatal s
    | (.inl ls, s) =>
      let bs := ls.zip (toBytes (r.record x) 32)
      let s := (List.range 4).foldl (fun s j =>
        s.storeNarrow t x.seq 0 (a + BitVec.ofNat 64 (8 * j)) ((bs.drop (8 * j)).take 8) false) s
      .entered ((s.setThread t fun y => { y with sp := a, handler := true, reuse := false }).setPc t hdl)

/-- Returns from a trap with the record that the thread reads (R191): predicates, %sp, handler mode and pc. -/
def State.returnFromTrap (s : State) (t : TRef) (r : Nat) : State :=
  (s.setThread t fun y =>
    { y with preds := BitVec.ofNat 7 (bits r 24 7), sp := y.sp + 32, handler := false }).setPc t (w64 r 128)

/-! ### The return stack (R168) -/

/-- An entry of the return stack. -/
def retEntry (domain : BitVec 4) (addr : W64) : W64 :=
  BitVec.ofNat 64 (bits addr.toNat 4 48 + domain.toNat * 2 ^ 48)

/-- The 48-bit target of an entry or waymark as an address (R163). -/
def targetAddr (target : Nat) : W64 := BitVec.ofNat 64 (wrapN (sextN target 48 * 16) 64)

end Sys2Proof.Machine
end

