-- ==== Sys2Proof/Machine/Flags.lean ====
section
/-! DEFINITION. %fmode and %fpflags: rounding modes, flush bits, sticky flags and FP_EXCEPTION (R100 to R104),
and values of floating and slot types as operands (R37, R39, R119, R467). -/

namespace Sys2Proof.Machine

/-! ### %fmode -/

/-- The effective rounding mode of a lane instruction (R104 rule 1). -/
def Thread.effRm (x : Thread) (rm : Rm) : Rm :=
  if rm = .rne && x.fmode.getLsbD 10 then Rm.ofCode (x.fmode.extractLsb' 8 2) else rm

/-- Place of a class's input-flush bit in %fmode (R100). -/
def flushBit : Ty → Nat
  | .f64 => 0
  | .f32 => 2
  | .f16 | .b16 => 4
  | _ => 6

/-- Input flush of a type's class. -/
def Thread.ifl (x : Thread) (t : Ty) : Bool := x.fmode.getLsbD (flushBit t)

/-- Result flush of a type's class. -/
def Thread.rfl (x : Thread) (t : Ty) : Bool := x.fmode.getLsbD (flushBit t + 1)

/-! ### %fpflags -/

/-- Sets sticky flags (R101). -/
def Thread.withFlags (x : Thread) (fl : Nat) : Thread :=
  { x with fpflags := x.fpflags ||| BitVec.ofNat 32 (bits fl 0 6) }

/-- A flag among these has its trap enabled (R101, R102). -/
def Thread.traps (x : Thread) (fl : Nat) : Bool := x.fpflags.extractLsb' 8 6 &&& BitVec.ofNat 6 fl != 0

/-- Sets the flags of an instruction, and then lets it have its effect or raises FP_EXCEPTION (R102). -/
def State.withFlags (s : State) (t : TRef) (fl : Nat) (effect : State → State) : State :=
  let s := s.setThread t fun x => x.withFlags fl
  if (s.thread t).traps fl then s.raise t trapFpException (BitVec.ofNat 8 (bits fl 0 6)) else effect s

/-- The same for an incomplete instruction, at its completion. -/
def State.opFlags (s : State) (o : Op) (fl : Nat) (effect : State → State) : State :=
  let s := s.setThread o.who fun x => x.withFlags fl
  if (s.thread o.who).traps fl then s.trapOp o trapFpException (BitVec.ofNat 8 (bits fl 0 6)) 0 else effect s

/-! ### Operands of floating types -/

/-- An operand of any fixed type: an immediate of a floating type is converted with RNE, without a flag (R37). -/
def State.operand (s : State) (t : TRef) (o : Opnd) (ty : Ty) : Nat :=
  if ty.isFloat then
    match o with
    | .imm v => ((fmtOf ty).ofInt .rne false (sextN v.toNat 10)).1
    | _ => s.rawOpnd t o % 2 ^ ty.bits
  else s.opnd t o ty

/-- The exact value of a floating operand after flush_in, and fl where it was flushed (R104 rule 2). -/
def State.fopnd (s : State) (t : TRef) (o : Opnd) (ty : Ty) : FVal × Nat :=
  (fmtOf ty).input ((s.thread t).ifl ty) (s.operand t o ty)

/-! ### Slot elements -/

def FVal.ofInt (v : Int) : FVal := if v = 0 then .zero false else .fin (v < 0) v.natAbs 0

/-- The sheet of a slot. -/
def Slot.form (x : Slot) : Sheet := Sheet.ofNat (ofBytes x.sheet)

/-- The slot holds no format for a use: it is Empty (R264). -/
def Slot.none? (x : Slot) : Bool := x.state = .empty || x.sheet.isEmpty

/-- A swap of the slot is pending (R276). -/
def Slot.pending (x : Slot) : Bool := x.state = .draining || x.state = .reconfiguring

/-- The smallest width code that holds an element (R39). -/
def slotWd (ew : Nat) : Wd :=
  if ew ≤ 4 then .w4 else if ew ≤ 8 then .w8 else if ew ≤ 12 then .w12 else if ew ≤ 16 then .w16
  else if ew ≤ 24 then .w24 else .w32

/-- R39's slot rule on a source operand. -/
def slotOpndOk (ew : Nat) (o : Opnd) : Bool :=
  match o with
  | .slice w _ => w = slotWd ew
  | .uni w _ => w = slotWd ew
  | _ => true

/-- An element operand: an immediate is converted with RNE, without a flag (R37, R39). -/
def State.slotOpnd (s : State) (t : TRef) (x : Slot) (o : Opnd) : Nat :=
  match o with
  | .imm v => (x.form.encode .rne x.ob false (.ofInt (sextN v.toNat 10))).1
  | _ => s.rawOpnd t o % 2 ^ x.form.ew

/-- The rounding mode of an operation in a slot: rm 00 is the slot's default (R119). -/
def Slot.effRm (x : Slot) (rm : Rm) : Rm := if rm = .rne then Rm.ofCode x.drm else rm

/-- Writes an element zero-extended (R39). -/
def State.writeElem (s : State) (t : TRef) (d : Dst) (ew v : Nat) : State :=
  s.writeSlices t d.start.toNat d.w.bits (v % 2 ^ ew)

/-- The checks of a lane use of a slot, and then its effect (R119, R467): FORMAT_SLOT where the slot is Empty or
does not offer the operation, ILLEGAL_ENCODING where an operand has not the element's width. -/
def State.slotUse (s : State) (t : TRef) (f : BitVec 3) (srcs : List Opnd) (d : Option Dst) (offered : Slot → Bool)
    (effect : Slot → State → State) : State :=
  let x := s.slot (s.worldOf t) f
  if x.none? || !offered x then s.raise t trapFormatSlot
  else if !(srcs.all (slotOpndOk x.form.ew) && d.all fun d => d.w = slotWd x.form.ew) then
    s.raise t trapIllegalEncoding
  else effect x s

end Sys2Proof.Machine
end

