-- ==== Sys2Proof/Machine/LaneInt.lean ====
section
/-! DEFINITION. The instructions of group 0x0: moves, integer arithmetic, predicates, addresses and fields (R105
to R110). -/

namespace Sys2Proof.Machine

/-- The value of an operand's bits under a type's signedness. -/
def intOf (t : Ty) (x : Nat) : Int := if t.isSigned then sextN x t.bits else (x % 2 ^ t.bits : Nat)

/-- sat of R59. -/
def satOf (t : Ty) (v : Int) : Int :=
  let lo : Int := if t.isSigned then -(2 ^ (t.bits - 1) : Nat) else 0
  let hi : Int := if t.isSigned then (2 ^ (t.bits - 1) : Nat) - 1 else (2 ^ t.bits : Nat) - 1
  max lo (min hi v)

/-- A group-0x0 instruction that writes D with a value of its operands a and b, read by its type (R105). -/
def State.laneInt (s : State) (i : Instr) (f : LaneF) (g : Int → Int → Int) : State :=
  s.forLanes i f.toCommon fun t s =>
    s.writeDest t f.d f.ty (wrapN (g (intOf f.ty (s.opnd t f.a f.ty)) (intOf f.ty (s.opnd t f.b f.ty))) f.ty.bits)

/-- The same for a value of the operands' bits, read as natural. -/
def State.laneBits (s : State) (i : Instr) (f : LaneF) (g : Nat → Nat → Nat) : State :=
  s.forLanes i f.toCommon fun t s =>
    s.writeDest t f.d f.ty (g (s.opnd t f.a f.ty) (s.opnd t f.b f.ty) % 2 ^ f.ty.bits)

/-- P = q[ps] XOR pneg. -/
def State.srcPred (s : State) (t : TRef) (f : LaneF) : Bool := (s.thread t).pred f.ps != f.pneg

def State.writePred (s : State) (t : TRef) (q : BitVec 3) (b : Bool) : State := s.setThread t (·.setPred q b)

/-- Copies an operand as bits into D (MOV, SEL): elements of a slot under R39's slot rule (R119, R467). -/
def State.laneCopy (s : State) (t : TRef) (f : LaneF) (srcs : List Opnd) (o : Opnd) : State :=
  if f.ty = .slot then
    s.slotUse t f.slot srcs (some f.d) (fun _ => true) fun x s => s.writeElem t f.d x.form.ew (s.slotOpnd t x o)
  else s.writeDest t f.d f.ty (s.operand t o f.ty)

/-- NOP (R106). -/
def execNop (f : LaneF) (s : State) : Out := .next (s.forLanes (.nop f) f.toCommon fun _ s => s)

/-- MOV (R106). -/
def execMov (f : LaneF) (s : State) : Out :=
  .next (s.forLanes (.mov f) f.toCommon fun t s => s.laneCopy t f [f.a] f.a)

/-- MOVI (R107). -/
def execMovi (f : ImmF) (s : State) : Out :=
  .next (s.forLanes (.movi f) f.toCommon fun t s =>
    s.writeSlices t f.d.start.toNat f.d.w.bits
      (if f.ty.isSigned then wrapN (sextN f.imm32.toNat 32) f.d.w.bits else f.imm32.toNat))

/-- SEL (R106). -/
def execSel (f : LaneF) (s : State) : Out :=
  .next (s.forLanes (.sel f) f.toCommon fun t s =>
    s.laneCopy t f [f.a, f.b] (if s.srcPred t f then f.a else f.b))

def execAdd (f : LaneF) (s : State) : Out := .next (s.laneInt (.add f) f fun a b => a + b)

def execSub (f : LaneF) (s : State) : Out := .next (s.laneInt (.sub f) f fun a b => a - b)

def execMul (f : LaneF) (s : State) : Out := .next (s.laneInt (.mul f) f fun a b => a * b)

/-- MULH (R106): the high half of the exact product. -/
def execMulh (f : LaneF) (s : State) : Out :=
  .next (s.laneInt (.mulh f) f fun a b => a * b / (2 ^ f.ty.bits : Nat))

/-- MAD (R106). -/
def execMad (f : LaneF) (s : State) : Out :=
  .next (s.forLanes (.mad f) f.toCommon fun t s =>
    s.writeDest t f.d f.ty ((s.opnd t f.a f.ty * s.opnd t f.b f.ty + s.opnd t f.c f.ty) % 2 ^ f.ty.bits))

/-- ADDC (R106). -/
def execAddc (f : LaneF) (s : State) : Out :=
  .next (s.forLanes (.addc f) f.toCommon fun t s =>
    let x := s.opnd t f.a f.ty + s.opnd t f.b f.ty + (if s.srcPred t f then 1 else 0)
    (s.writeDest t f.d f.ty (x % 2 ^ f.ty.bits)).writePred t f.pd (2 ^ f.ty.bits ≤ x))

/-- SUBB (R106). -/
def execSubb (f : LaneF) (s : State) : Out :=
  .next (s.forLanes (.subb f) f.toCommon fun t s =>
    let x : Int := (s.opnd t f.a f.ty : Int) - s.opnd t f.b f.ty - (if s.srcPred t f then 1 else 0)
    (s.writeDest t f.d f.ty (wrapN x f.ty.bits)).writePred t f.pd (x < 0))

def execMin (f : LaneF) (s : State) : Out := .next (s.laneInt (.min f) f fun a b => min a b)

def execMax (f : LaneF) (s : State) : Out := .next (s.laneInt (.max f) f fun a b => max a b)

/-- ABS (R106): the most negative value maps to itself. -/
def execAbs (f : LaneF) (s : State) : Out := .next (s.laneInt (.abs f) f fun a _ => a.natAbs)

def execNeg (f : LaneF) (s : State) : Out := .next (s.laneInt (.neg f) f fun a _ => -a)

def execSadd (f : LaneF) (s : State) : Out := .next (s.laneInt (.sadd f) f fun a b => satOf f.ty (a + b))

def execSsub (f : LaneF) (s : State) : Out := .next (s.laneInt (.ssub f) f fun a b => satOf f.ty (a - b))

def execAnd (f : LaneF) (s : State) : Out := .next (s.laneBits (.and f) f fun a b => a &&& b)

def execOr (f : LaneF) (s : State) : Out := .next (s.laneBits (.or f) f fun a b => a ||| b)

def execXor (f : LaneF) (s : State) : Out := .next (s.laneBits (.xor f) f fun a b => a ^^^ b)

/-- The complement of w bits. -/
def notBits (x w : Nat) : Nat := 2 ^ w - 1 - x % 2 ^ w

def execNot (f : LaneF) (s : State) : Out := .next (s.laneBits (.not f) f fun a _ => notBits a f.ty.bits)

def execAndn (f : LaneF) (s : State) : Out :=
  .next (s.laneBits (.andn f) f fun a b => a &&& notBits b f.ty.bits)

/-- SHL (R106): 0 where the distance is not below the width. -/
def execShl (f : LaneF) (s : State) : Out :=
  .next (s.laneBits (.shl f) f fun a k => if k < f.ty.bits then a * 2 ^ k else 0)

/-- SHR (R106). -/
def execShr (f : LaneF) (s : State) : Out :=
  .next (s.laneBits (.shr f) f fun a k => if k < f.ty.bits then a / 2 ^ k else 0)

/-- SAR (R106): a read as signed whatever the type is. -/
def execSar (f : LaneF) (s : State) : Out :=
  .next (s.laneBits (.sar f) f fun a k =>
    wrapN (sextN a f.ty.bits / (2 ^ min k (f.ty.bits - 1) : Nat)) f.ty.bits)

/-- A rotation left within w bits. -/
def rotBits (a k w : Nat) : Nat := let j := k % w; a * 2 ^ j % 2 ^ w + a % 2 ^ w / 2 ^ (w - j)

/-- ROT (R106). -/
def execRot (f : LaneF) (s : State) : Out := .next (s.laneBits (.rot f) f fun a k => rotBits a k f.ty.bits)

/-- Number of 1 bits among the low w. -/
def popCount (x w : Nat) : Nat := ((List.range w).filter (bit x)).length

def execPopc (f : LaneF) (s : State) : Out := .next (s.laneBits (.popc f) f fun a _ => popCount a f.ty.bits)

/-- Leading zeros within w bits; w for 0. -/
def leadZeros (x w : Nat) : Nat := if x % 2 ^ w = 0 then w else w - 1 - log2 (x % 2 ^ w)

def execClz (f : LaneF) (s : State) : Out := .next (s.laneBits (.clz f) f fun a _ => leadZeros a f.ty.bits)

/-- The low w bits in reverse order. -/
def revBits (x w : Nat) : Nat := (List.range w).foldl (fun n i => n + bitAt (bit x (w - 1 - i)) i) 0

def execBrev (f : LaneF) (s : State) : Out := .next (s.laneBits (.brev f) f fun a _ => revBits a f.ty.bits)

/-- BFX (R106). -/
def execBfx (f : LaneF) (s : State) : Out :=
  let len := f.aux2.toNat + 1
  .next (s.laneBits (.bfx f) f fun a _ =>
    let x := bits a f.aux1.toNat len
    if f.ty.isSigned then wrapN (sextN x len) f.ty.bits else x)

/-- BFI (R106). -/
def execBfi (f : LaneF) (s : State) : Out :=
  let pos := f.aux1.toNat
  let len := f.aux2.toNat + 1
  .next (s.laneBits (.bfi f) f fun a b => a - bits a pos len * 2 ^ pos + bits b 0 len * 2 ^ pos)

/-- The conditions of CMP (R110). -/
def cmpCond (cond : Nat) (a b : Int) : Bool :=
  match cond with
  | 0 => a = b
  | 1 => a ≠ b
  | 2 => a < b
  | 3 => a ≤ b
  | 4 => b < a
  | _ => b ≤ a

/-- CMP (R106, R110). -/
def execCmp (f : LaneF) (s : State) : Out :=
  .next (s.forLanes (.cmp f) f.toCommon fun t s =>
    let c := cmpCond f.subop.toNat (intOf f.ty (s.opnd t f.a f.ty)) (intOf f.ty (s.opnd t f.b f.ty))
    s.writePred t f.pd (c && s.srcPred t f))

/-- PLOG (R106, R110). -/
def execPlog (f : LaneF) (s : State) : Out :=
  .next (s.forLanes (.plog f) f.toCommon fun t s =>
    let x := s.srcPred t f
    let y := (s.thread t).pred (f.aux1.extractLsb' 0 3) != f.aux1.getLsbD 3
    s.writePred t f.pd (match f.subop.toNat with
      | 0 => x && y
      | 1 => x || y
      | 2 => x != y
      | _ => x))

/-- ADDR (R108). -/
def execAddr (f : LaneF) (s : State) : Out :=
  .next (s.forLanes (.addr f) f.toCommon fun t s =>
    let v : Int := (s.opnd64 t f.a : Int) + intOf f.ty (s.opnd t f.b f.ty) * (2 ^ f.aux1.toNat : Nat)
    s.writeSlices t f.d.start.toNat 64 (wrapN v 64))

/-- A source of PACK: its own bits, extended by the signedness of t (R109). -/
def State.packSource (s : State) (t : TRef) (o : Opnd) (ty : Ty) : Int :=
  let raw := s.rawOpnd t o % 2 ^ o.bits
  if ty.isSigned then sextN raw o.bits else raw

/-- PACK (R109). -/
def execPack (f : LaneF) (s : State) : Out :=
  .next (s.forLanes (.pack f) f.toCommon fun t s =>
    let conv := fun (o : Opnd) =>
      let v := s.packSource t o f.ty
      wrapN (if f.subop = 1 then satOf f.ty v else v) f.ty.bits
    s.writeSlices t f.d.start.toNat (2 * f.ty.bits) (conv f.a + conv f.b * 2 ^ f.ty.bits))

/-- UNPACK (R109). -/
def execUnpack (f : LaneF) (s : State) : Out :=
  .next (s.forLanes (.unpack f) f.toCommon fun t s =>
    s.writeDest t f.d f.ty (bits (s.rawOpnd t f.a) (f.aux1.toNat * f.ty.bits) f.ty.bits))

end Sys2Proof.Machine
end

