-- ==== Sys2Proof/Machine/Layby.lean ====
section
/-! DEFINITION. Lay-bys and the former (R294 to R296, R298). -/

namespace Sys2Proof.Machine

/-- Lay-by numbers of a cluster that are free (R294). -/
def State.freeLaybys (s : State) (cluster : Nat) : List Nat :=
  (List.range 64).filter fun n => !s.laybys.any fun l => l.cluster = cluster && l.number = some n

/-- The lay-by timer of a launch in cycles: units of 0.125 µs, 2 µs when the field is 0 (R296, R383). -/
def State.laybyTimer (s : State) (launch : Nat) : Nat :=
  let u := bits (s.launchRec launch) 285 16
  (if u = 0 then 16 else u) * cyclesPerUs / 8

/-- Forms the entries of a lay-by into one group, which waits for a core; the lay-by is freed (R296). -/
def State.form (s : State) (l : Layby) : State :=
  let n := ((s.launch? l.launch).map (·.forms)).getD 0
  let s := { s with
    laybys := s.laybys.filter (·.id ≠ l.id), ids := s.ids + 1,
    formed := s.formed ++ [(⟨s.ids, l.cluster, l.number.getD 0, l.world, l.domain, l.launch, l.entry, l.waiting, n⟩ : Formed)] }
  s.setLaunch l.launch fun x => { x with forms := x.forms + 1 }

/-- Places a waiting thread into a lay-by of a cluster (R295): the lay-by's number and its position there, or
none where no lay-by is free. A lay-by that reaches 32 entries is formed (R296). -/
def State.place (s : State) (cluster world : Nat) (d : BitVec 4) (launch : Nat) (p : Placement) :
    Option (Nat × Nat) × State :=
  match s.laybys.find? fun l => l.cluster = cluster && l.world = world && l.domain = d && l.launch = launch &&
      l.entry = p.entry && l.number.isSome && !l.saved && l.waiting.length < 32 with
  | some l =>
    let l' := { l with waiting := l.waiting ++ [p] }
    let s := { s with laybys := s.laybys.map fun x => if x.id = l.id then l' else x }
    (some (l.number.getD 0, l.waiting.length), if l'.waiting.length = 32 then s.form l' else s)
  | none =>
    match s.freeLaybys cluster with
    | [] => (none, s)
    | n :: _ =>
      (some (n, 0), { s with
        ids := s.ids + 1,
        laybys := s.laybys ++ [(⟨s.ids, cluster, some n, world, d, launch, p.entry, [p],
          s.clock + s.laybyTimer launch, false⟩ : Layby)] })

/-! ### Placements that wait (R295, R298) -/

/-- The cluster in which a placement waits; none once it is made or given up. -/
def State.standsIn (s : State) : Arrival → Option Nat
  | .spawn n => (s.op? n).bind fun o =>
      if o.phase = .queued && s.resident o.who.team then some (s.clusterOf o.who) else none
  | .shed t =>
    let x := s.thread t
    if x.live && x.shed.isSome && s.resident t.team then some (s.clusterOf t) else none
  | .layby n => (s.laybys.find? fun l => l.id = n && l.number.isNone && !l.saved).map (·.cluster)

/-- The placements that wait in a cluster, in the order in which they reached the engine. -/
def State.waitingIn (s : State) (cluster : Nat) : List Arrival := s.arrivals.filter fun a => s.standsIn a = some cluster

/-- A placement that is not made when it reaches the engine waits behind the others. -/
def State.await (s : State) (a : Arrival) : State :=
  { s with arrivals := (s.arrivals.filter fun b => (s.standsIn b).isSome && b ≠ a) ++ [a] }

/-- Places a thread's entry when it reaches the engine, unless others wait there before it (R295). -/
def State.placeNow (s : State) (t : TRef) (d : BitVec 4) (p : Placement) (a : Arrival) : Option (Nat × Nat) × State :=
  if (s.waitingIn (s.clusterOf t)).isEmpty then
    match s.place (s.clusterOf t) (s.worldOf t) d (s.team t.team).launch p with
    | (some r, s) => (some r, s)
    | (none, s) => (none, s.await a)
  else (none, s.await a)

/-- A lay-by that a world switch has brought back takes the lowest free number of its cluster, or waits for one (R298). -/
def State.placeLayby (s : State) (l : Layby) : State :=
  match s.freeLaybys l.cluster with
  | n :: _ => { s with laybys := s.laybys.map fun (x : Layby) =>
      if x.id = l.id then { x with number := some n, deadline := s.clock + x.deadline } else x }
  | [] => s

end Sys2Proof.Machine
end

