-- ==== Sys2Proof/Machine/TileMem.lean ====
section
/-! DEFINITION. Tiles as data: layout, elements, poison, and the handles that name them (R195 to R203, R469). -/

namespace Sys2Proof.Machine

/-! ### Layout (R195) -/

/-- Lines of one row. -/
def rowLinesOf (cols ew : Nat) : Nat := ceilDiv (cols * ew) 1024

def footprintOf (rows cols ew : Nat) : Nat := rows * (128 * rowLinesOf cols ew)

def granulesOf (rows cols ew : Nat) : Nat := ceilDiv (footprintOf rows cols ew) 4096

def Tile.rowLines (t : Tile) : Nat := rowLinesOf t.cols t.ew

def Tile.footprint (t : Tile) : Nat := footprintOf t.rows t.cols t.ew

def Tile.granules (t : Tile) : Nat := granulesOf t.rows t.cols t.ew

/-- Bytes of a row image; the row is a whole number of bytes where `rowWhole` holds (R229). -/
def Tile.rowBytes (t : Tile) : Nat := t.cols * t.ew / 8

def Tile.rowWhole (t : Tile) : Bool := t.cols * t.ew % 8 = 0

/-! ### Lines and elements -/

/-- A line of a tile; a line that is not listed is zero. -/
def Tile.line (t : Tile) (k : Nat) : BitVec 1024 := ((t.lines.find? (·.1 = k)).map (·.2)).getD 0

/-- Puts a line into a list of lines that are not zero, in rising order. -/
def putLine (k : Nat) (v : BitVec 1024) : List (Nat × BitVec 1024) → List (Nat × BitVec 1024)
  | [] => if v = 0 then [] else [(k, v)]
  | (j, u) :: r =>
    if j < k then (j, u) :: putLine k v r
    else if j = k then (if v = 0 then r else (k, v) :: r)
    else if v = 0 then (j, u) :: r
    else (k, v) :: (j, u) :: r

def Tile.setLine (t : Tile) (k : Nat) (v : BitVec 1024) : Tile := { t with lines := putLine k v t.lines }

/-- Some bits of a row, from a bit offset in it. -/
def Tile.getBits (t : Tile) (row off n : Nat) : Nat :=
  let k := row * t.rowLines + off / 1024
  ((t.line k).toNat + (t.line (k + 1)).toNat * 2 ^ 1024) / 2 ^ (off % 1024) % 2 ^ n

/-- Writes some bits of a row. -/
def Tile.setBits (t : Tile) (row off n v : Nat) : Tile :=
  let k := row * t.rowLines + off / 1024
  let sh := off % 1024
  let x := (t.line k).toNat + (t.line (k + 1)).toNat * 2 ^ 1024
  let x := x - bits x sh n * 2 ^ sh + v % 2 ^ n * 2 ^ sh
  let t := t.setLine k (BitVec.ofNat 1024 x)
  if sh + n ≤ 1024 then t else t.setLine (k + 1) (BitVec.ofNat 1024 (x / 2 ^ 1024))

/-- Element (row, col). -/
def Tile.elem (t : Tile) (row col : Nat) : Nat := t.getBits row (col * t.ew) t.ew

/-- Element (row, col) as one read of an operation in flight finds it: as it is, or as it stood before a write that raced with
the operation (R81, R262). -/
def Tile.read (t : Tile) (old : List Tile) (n row col key : Nat) : Nat :=
  old.zipIdx.foldl (fun v y => if y.1.id = t.id && Config.seenOld n key y.2 then y.1.elem row col else v) (t.elem row col)

def Tile.setElem (t : Tile) (row col v : Nat) : Tile := t.setBits row (col * t.ew) t.ew v

/-- All positions of a tile. -/
def Tile.cells (t : Tile) : List (Nat × Nat) :=
  (List.range t.rows).flatMap fun i => (List.range t.cols).map fun j => (i, j)

/-- A tile as an operation that reads each element once finds it. -/
def Tile.mixed (t : Tile) (old : List Tile) (n : Nat) : Tile :=
  if old.any (·.id = t.id) then
    t.cells.foldl (fun x p => x.setElem p.1 p.2 (t.read old n p.1 p.2 (t.id * 2 ^ 24 + p.1 * 4096 + p.2))) t
  else t

/-- Byte o of the row image of a tile whose rows are whole bytes (R229). -/
def Tile.byte (t : Tile) (o : Nat) : Byte :=
  BitVec.ofNat 8 (t.getBits (o / t.rowBytes) (8 * (o % t.rowBytes)) 8)

def Tile.setByte (t : Tile) (o : Nat) (b : Byte) : Tile :=
  t.setBits (o / t.rowBytes) (8 * (o % t.rowBytes)) 8 b.toNat

/-- The same value in every element (R206). -/
def Tile.fill (t : Tile) (v : Nat) : Tile :=
  let row := (List.range t.cols).foldr (fun _ n => n * 2 ^ t.ew + v % 2 ^ t.ew) 0
  let ls := (List.range t.rowLines).map fun l => BitVec.ofNat 1024 (row / 2 ^ (1024 * l))
  { t with
    poison := []
    lines := ((List.range (t.rows * t.rowLines)).map fun k => (k, ls.getD (k % t.rowLines) 0)).filter fun x => x.2 ≠ 0 }

/-! ### Poison (R469) -/

/-- The lines that some bits of a row lie in. -/
def Tile.linesAt (t : Tile) (row off n : Nat) : List Nat :=
  if n = 0 then []
  else (List.range ((off + n - 1) / 1024 - off / 1024 + 1)).map fun i => row * t.rowLines + off / 1024 + i

/-- Number of element bits that a line holds. -/
def Tile.lineBits (t : Tile) (k : Nat) : Nat := min 1024 (t.cols * t.ew - 1024 * (k % t.rowLines))

/-- Runs of bits, each a row, an offset and a length, cover every element bit of a line. -/
def Tile.covered (t : Tile) (runs : List (Nat × Nat × Nat)) (k : Nat) : Bool :=
  let here := runs.filter fun r => r.1 = k / t.rowLines
  (List.range (t.lineBits k)).all fun i =>
    let p := 1024 * (k % t.rowLines) + i
    here.any fun r => r.2.1 ≤ p && p < r.2.1 + r.2.2

/-- Poisoned lines that some runs cover. -/
def Tile.cleansed (t : Tile) (runs : List (Nat × Nat × Nat)) : List Nat := t.poison.filter (t.covered runs)

def Tile.cleanse (t : Tile) (ks : List Nat) : Tile := { t with poison := t.poison.filter fun k => !ks.contains k }

/-! ### Handles (R199, R202) -/

/-- Raises TILE_HANDLE with its reason (R202). -/
def State.tileTrap (s : State) (t : TRef) (info : BitVec 8) : State := s.raise t trapTileHandle info

/-- The tile that a handle of a team names, or the reason of a TILE_HANDLE. -/
def State.tileOf (s : State) (team : Nat) (h : BitVec 8) : Except (BitVec 8) Tile :=
  match s.handle? team h with
  | none => .error 1
  | some x =>
    match x.state with
    | .allocated n | .view n =>
      match s.tile? n with
      | some t => .ok t
      | none => .error 1
    | .stale _ _ _ _ => .error 5
    | _ => .error 1

/-- An incomplete engine operation names a tile (R209): TFREE itself apart. -/
def State.tileBusy (s : State) (n : Nat) (among : Op → Bool := fun _ => true) : Bool :=
  (s.ops.any fun o => among o && o.tiles.contains n && (match o.instr with | .tfree _ => false | _ => true)) ||
    (s.copies.any fun c => c.tile = n && (match s.op? c.op with | some o => among o | none => true))

/-- The status word with a footprint (R203). -/
def footprintStatus (st fp : Nat) : Nat := statusWord st 0 (fp / 64)

/-- The tile store has ended its use of a team's tiles in the core: the team's reservation counts while it is
resident and not ended (R24, R196). -/
def State.occupies (s : State) (m : Team) (core : Nat) : Bool :=
  m.place = .resident && m.core = core && (m.finalTurn || !(s.liveOfTeam m.id).isEmpty)

/-- A tile that lies in a core now: its team is not in a frame. -/
def State.tilesOn (s : State) (core : Nat) : List Tile :=
  s.tiles.filter fun t => t.core = core && (s.team t.team).place = .resident

/-- Level-0 granules that no resident team has reserved (R196). -/
def State.unreserved (s : State) (core : Nat) : Nat :=
  512 - ((s.teams.filter fun m => s.occupies m core).map (·.reserve)).sum

/-- Granules of the unreserved pool that tiles hold. A tile of an ended team holds no reserved ones. -/
def State.unreservedUsed (s : State) (core : Nat) : Nat :=
  (((s.tilesOn core).filter fun t => !t.level).map fun t =>
    if s.occupies (s.team t.team) core then t.granules - t.fromReserve else t.granules).sum

/-- What is left of a team's reservation. -/
def State.reserveLeft (s : State) (team : Nat) : Nat :=
  (s.team team).reserve - ((s.tiles.filter fun t => t.team = team).map (·.fromReserve)).sum

/-- Level-1 granules that a core's tiles hold (R197). -/
def State.level1Used (s : State) (core : Nat) : Nat :=
  (((s.tilesOn core).filter (·.level)).map (·.granules)).sum

/-- Entries of a core's tile table that are in use (R199). -/
def State.tableUsed (s : State) (core : Nat) : Nat :=
  (s.handles.filter fun h => (s.team h.team).core = core && (s.team h.team).place = .resident &&
      (match h.state with | .waiting _ => false | _ => true)).length +
    ((s.tilesOn core).filter fun t => t.releasing && !(s.occupies (s.team t.team) core)).length

/-- A copy that is armed completes CANCELLED (R209, R222, R231). -/
def State.cancelArmed (s : State) (a : Armed) : State :=
  let s := { s with armed := s.armed.filter fun (b : Armed) => b ≠ a }
  let s := s.setChannel a.team a.ch fun c => { c with fault := BitVec.ofNat 64 (fieldAt 0x0B 57 7) }
  match s.op? a.copy.op with
  | some o => s.completeWith o (statusWord stCancelled a.ch.toNat 0)
  | none => s

/-- TFREE of a handle cancels the armed copies that name it, and the transfers to peers (R209, R231, R416). -/
def State.cancelNamed (s : State) (team : Nat) (h : BitVec 8) : State :=
  let s := (s.armed.filter fun (a : Armed) => a.team = team && a.copy.hs.contains h).foldl State.cancelArmed s
  { s with copies := s.copies.map fun (c : Copy) =>
      if c.team = team ∧ c.hs.contains h ∧ (c.kind = .rput ∨ c.kind = .rget) then { c with cancelled := true } else c }

end Sys2Proof.Machine
end

