-- ==== Sys2Proof/Machine/Lifecycle.lean ====
section
/-! DEFINITION. Convergence registers, and the ends of threads, groups and teams (R44, R171, R187, R209,
R358). -/

namespace Sys2Proof.Machine

/-- The launch is deterministic: its record and its descriptor ask for it (R353). -/
def State.deterministic (s : State) (launch : Nat) : Bool :=
  (s.launch? launch).any fun l => bit l.record.toNat 273 && bit l.kd.toNat 131

/-- The incomplete instructions that R44 waits for are gone: only detached ones remain. -/
def State.stalled (s : State) (t : TRef) : Bool := (s.opsOf t).all (·.la = 15)

def Team.creg (m : Team) (c : BitVec 4) : CReg := m.cregs.getD c.toNat ⟨0, false, 0⟩

def Team.setCreg (m : Team) (c : BitVec 4) (r : CReg) : Team := { m with cregs := m.cregs.set c.toNat r }

/-- Place of a thread's bit in `signed`. -/
def signIndex (t : TRef) : Nat := 32 * t.gid + t.lane

/-- Tests the completion of a phase of a convergence register (R171). It releases the threads that wait there at an
MMA (R249). -/
def State.testPhase (s : State) (team : Nat) (c : BitVec 4) : State :=
  let r := (s.team team).creg c
  let members := (s.liveOfTeam team).filter fun t => r.set.getLsbD t.gid
  if r.signed ≠ 0 ∧ members.all fun t => r.signed.getLsbD (signIndex t) then
    let s := s.setTeam team fun m => m.setCreg c { r with phase := !r.phase, signed := 0 }
    { s with mmas := s.mmas.map fun (x : TeamMma) =>
        if x.team = team ∧ x.cr = c then { x with released := true } else x }
  else s

/-- Tests every convergence register of a team. -/
def State.testPhases (s : State) (team : Nat) : State :=
  (List.range 16).foldl (fun s c => s.testPhase team (BitVec.ofNat 4 c)) s

/-- The end of a team (R187, R209, R231, R417): its armed copies complete CANCELLED, its TALLOC requests go, its
tiles are released, its entries in the event map are removed. A deterministic team still takes its final turn
(R358), and gate slots of ended groups are still released (R347). -/
def State.endTeam (s : State) (team : Nat) : State :=
  let mine := fun (o : Op) => o.who.team = team
  let s := (s.armed.filter fun (a : Armed) => a.team = team).foldl State.cancelArmed s
  let waitsEntry := fun (o : Op) => o.phase = .queued && (match o.instr with | .tbind _ => true | _ => false)
  let waitingOps := (s.ops.filter fun o => mine o && (s.tileQ.contains o.id || waitsEntry o)).map (·.id)
  let tiles := (s.tiles.filter (·.team = team)).map (·.id)
  let isMine := fun (b : BarRef) => match b with
    | .tile n _ => tiles.contains n
    | .mem _ => false
  let s := { s with
    ops := s.ops.filter fun o => !waitingOps.contains o.id
    tileQ := s.tileQ.filter fun n => !waitingOps.contains n
    tiles := s.tiles.map fun (x : Tile) => if x.team = team then { x with releasing := true } else x
    handles := s.handles.filter fun h => h.team ≠ team
    worlds := s.worlds.map fun (w : World) => { w with events := w.events.filter fun e => !isMine e.2.1 } }
  s.setTeam team fun m => { m with finalTurn := s.deterministic m.launch && s.staging.any (·.team = team) }

/-- A thread stands at no team MMA any more, of some of them; one that has issued its MMA stays in it (R249, R262). -/
def State.leaveMma (s : State) (t : TRef) (of : TeamMma → Bool := fun _ => true) : State :=
  let issued := fun (x : TeamMma) => s.ops.any fun o => o.who = t && o.lead = x.id
  { s with mmas := (s.mmas.map fun (x : TeamMma) =>
      if of x && !issued x then { x with members := x.members.filter fun m => m.1 ≠ t } else x).filter fun (x : TeamMma) =>
        !x.members.isEmpty }

/-- The end of a thread (R171, R187): it leaves the convergence sets; the last of its group releases the stack
window and the handler, and the slots of open gate calls are still to be released (R347); the last of its team
ends the team. -/
def State.endThread (s : State) (t : TRef) : State :=
  let s := s.setThread t fun x => { x with live := false, reuse := false }
  let s := s.setTeam t.team fun m =>
    { m with cregs := m.cregs.map fun r => { r with signed := r.signed &&& ~~~(1#1024 <<< signIndex t) } }
  let s := s.leaveMma t
  let s := s.testPhases t.team
  let s :=
    if (s.liveOfGroup t.team t.gid).isEmpty then
      let gfp := (s.groupOf t).gfp
      let s := s.freeWindows fun team gid => team = t.team && gid = t.gid
      let s := s.setGroup t.team t.gid fun g => { g with hdl := 0 }
      if gfp = 0 then s else s.setTeam t.team fun m => { m with releases := m.releases ++ [(t.gid, gfp)] }
    else s
  if (s.liveOfTeam t.team).isEmpty then s.endTeam t.team else s

end Sys2Proof.Machine
end

