-- ==== Sys2Proof/Machine/Remote.lean ====
section
/-! DEFINITION. Flits out and requests to peers (R408, R409, R411), and the core write buffer's way to memory
(R67, R73, R84, R86, R147). -/

namespace Sys2Proof.Machine

/-- The number of this device (R407, R458). -/
def State.deviceNum (s : State) : Nat := bits s.mgmt.cfg.toNat 32 9

/-- The number of this device's load-store domain. -/
def State.domainNum (s : State) : Nat := bits s.mgmt.cfg.toNat 48 3

/-- Flit kinds (R411). -/
def flWrite : BitVec 4 := 0
def flRead : BitVec 4 := 1
def flData : BitVec 4 := 2
def flRmw : BitVec 4 := 3
def flResult : BitVec 4 := 4
def flAck : BitVec 4 := 5
def flContribution : BitVec 4 := 6
def flReleased : BitVec 4 := 7

/-- Sends a flit: sealed under the world's send generation, with the next sequence number of its link (R411). The
model sends on port 0: routes set time only (R410). -/
def State.sendFlit (s : State) (x : Flit) : State :=
  let row := (s.links.find? (·.1 = 0)).getD (0, 0, 0)
  let x := { x with gen := (s.world x.world.toNat).fsend, seq := row.2.1, src := BitVec.ofNat 9 s.deviceNum }
  { s with flits := s.flits ++ [(0, x)],
           links := s.links.filter (·.1 ≠ 0) ++ [(0, row.2.1 + 1, row.2.2)] }

/-- A flit about n bytes at a physical address of a target. -/
def mkFlit (kind : BitVec 4) (world target addr n xfer : Nat) (payload : List Byte) : Flit :=
  { gen := 0, seq := 0, tag := 0, ev := false, kind := kind, world := BitVec.ofNat 6 world, src := 0,
    dst := BitVec.ofNat 9 target, last := BitVec.ofNat 7 (addr % 128 + n - 1), first := BitVec.ofNat 7 addr,
    xfer := BitVec.ofNat 22 xfer, line := BitVec.ofNat 45 (addr % 2 ^ 40 / 128), payload := payload }

/-- Consecutive places as runs, each within one line: first place and its bytes. -/
def lineRuns : List (Loc × Byte) → List (Loc × List Byte)
  | [] => []
  | (l, b) :: rest =>
    match lineRuns rest with
    | (m, bs) :: more => if m = l.add 1 && m.line = l.line then (l, b :: bs) :: more else (l, [b]) :: (m, bs) :: more
    | [] => [(l, [b])]

/-- Opens a request to a peer and sends its flit (R408); `born` names the buffered write that it carries. -/
def State.request (s : State) (op copy core world : Nat) (kind : BitVec 4) (l : Loc) (n : Nat) (payload : List Byte)
    (born : Option Nat := none) (use : Reader := .own) : State :=
  let r : Remote := ⟨s.ids, op, copy, world, l.device, l.addr, n, kind, s.clock, core, false, born.getD s.ids, use⟩
  ({ s with ids := s.ids + 1, remotes := s.remotes ++ [r] } : State).sendFlit
    (mkFlit kind world l.device l.addr n s.ids payload)

/-- A request is unanswered. -/
def State.awaits (s : State) (op : Nat) : Bool := s.remotes.any fun r => r.op = op && !r.done

/-! ### Draining the core write buffer -/

/-- Lines that an issue has covered whole lose their poison with the last of its writes (R147). -/
def State.clearWhole (s : State) (iss : Nat) (lines whole : List Nat) : State :=
  lines.foldl (fun s n =>
    if whole.contains n && !(s.wbuf.any fun f => f.iss = iss && f.bytes.any fun x => x.1.line = n) &&
        !(s.ops.any fun o => o.iss = iss && o.phase = .pending && o.locs.any fun l => l.line = n) then
      s.clearPoison n
    else s) s

/-- Puts a release mark on some bytes: the core has to drain what is older (R86). -/
def State.markRelease (s : State) (ls : List Loc) (core before : Nat) : State :=
  { s with marks := (s.unmark ls).marks ++ ls.map fun l => ⟨l, core, before⟩ }

/-- Performs an entry at its home (R73): its bytes are in memory, or on their way to the peer, and they get or lose their
release mark (R86). -/
def State.performEntry (s : State) (e : BufEntry) : State :=
  let s := s.writeBytes (e.bytes.filter fun x => !x.1.isPeer)
  let s := (lineRuns (e.bytes.filter fun x => x.1.isPeer)).foldl (fun s r =>
    s.request e.op 0 e.core e.world flWrite r.1 r.2.length r.2 (some e.id)) s
  let lines := (e.bytes.map (·.1.line)).eraseDups
  let s := s.clearWhole e.iss lines e.whole
  let ls := e.bytes.map (·.1)
  if e.release then s.markRelease ls e.core e.id else s.unmark ls

/-- Drains the entries that satisfy a condition, oldest first. -/
def State.drain (s : State) (p : BufEntry → Bool) : State :=
  (s.wbuf.filter p).foldl State.performEntry { s with wbuf := s.wbuf.filter fun e => !p e }

/-- Entries of a core that a device-remote acquire of a marked line has to drain (R86). -/
def Mark.covers (m : Mark) (e : BufEntry) : Bool := e.core = m.core && e.id < m.before

/-- Marks on some places. -/
def State.marksOn (s : State) (ls : List Loc) : List Mark := s.marks.filter fun m => ls.contains m.at_

/-- Entries that some marks call in are still in a write buffer. -/
def State.markPending (s : State) (ms : List Mark) : Bool := s.wbuf.any fun e => ms.any (·.covers e)

/-- None of those entries is held by a line that an engine owns. -/
def State.markDrainable (s : State) (ms : List Mark) : Bool :=
  s.wbuf.all fun e => !(ms.any (·.covers e)) || !s.anyOwned (e.bytes.map (·.1))

end Sys2Proof.Machine
end

