-- ==== Sys2Proof/Machine/Staging.lean ====
section
/-! DEFINITION. The staging buffer of a deterministic launch: quotas, entries, and loads over them (R354 to R357). -/

namespace Sys2Proof.Machine

/-- The thread's own data stack or spill area of the return stack (R151, R354). -/
def Thread.ownStack (x : Thread) (a : W64) : Bool := x.inStack a || (x.retbase ≤ a && a < x.retlim)

/-- A write at an address is staged (R354). -/
def State.stages (s : State) (t : TRef) (a : W64) : Bool :=
  s.deterministic (s.team t.team).launch && !(s.thread t).ownStack a

/-- Entries that a thread may hold (R355). -/
def State.quota (s : State) (t : TRef) : Nat :=
  let q := bits (s.launchRec (s.team t.team).launch) 301 5
  if q = 0 then 2 else q

def Stage.of (e : Stage) (t : TRef) : Bool := e.team = t.team && e.gid = t.gid && e.lane = t.lane

def State.staged (s : State) (t : TRef) : List Stage := s.staging.filter (·.of t)

/-- The 8-byte unit of a place (R355). -/
def Loc.unit (l : Loc) : Loc := { l with addr := l.addr / 8 * 8 }

/-- The thread's quota is used up. -/
def State.quotaFull (s : State) (t : TRef) : Bool := s.quota t ≤ (s.staged t).length

/-- The thread's latest plain entry for a unit, where no RMW of the unit stands after it (R355). -/
def State.mergeInto (s : State) (t : TRef) (u : Loc) : Option Stage :=
  match (s.staged t).reverse.find? (·.unit = u) with
  | some e => if e.rmw.isNone then some e else none
  | none => none

/-- Later bytes take the place of earlier ones. -/
def overlay (old new : List (Loc × Byte)) : List (Loc × Byte) :=
  old.filter (fun x => !new.any fun y => y.1 = x.1) ++ new

/-- Stages a plain write of some bytes of one unit; none where the quota is full (R355). -/
def State.stageUnit (s : State) (t : TRef) (iss : Nat) (u : Loc) (bs : List (Loc × Byte)) : Option State :=
  match s.mergeInto t u with
  | some e => some { s with staging := s.staging.map fun (x : Stage) =>
      if x.id = e.id then { x with bytes := overlay x.bytes bs } else x }
  | none =>
    if s.quotaFull t then none
    else some { s with
      ids := s.ids + 1
      staging := s.staging ++ [(⟨s.ids, t.team, t.gid, t.lane, u, bs, none, u, 0, 0, 0, 0, iss, 8⟩ : Stage)] }

/-- Stages the bytes of a write, unit by unit, as far as the quota goes: the bytes that are left, and the state. -/
def State.stageBytes (s : State) (t : TRef) (iss : Nat) : List (Loc × List (Loc × Byte)) →
    List (Loc × Byte) × State
  | [] => ([], s)
  | (u, bs) :: rest =>
    match s.stageUnit t iss u bs with
    | some s => s.stageBytes t iss rest
    | none => (bs ++ rest.flatMap (·.2), s)

/-- Bytes by their units. -/
def byUnit (bs : List (Loc × Byte)) : List (Loc × List (Loc × Byte)) :=
  ((bs.map (·.1.unit)).eraseDups).map fun u => (u, bs.filter fun x => x.1.unit = u)

/-- Stages an RMW of one element in an entry of its own (R355). -/
def State.stageRmw (s : State) (o : Op) (l : Loc) (size b c : Nat) : State :=
  { s with
    ids := s.ids + 1
    staging := s.staging ++ [(⟨s.ids, o.who.team, o.who.gid, o.who.lane, l.unit, [], some o.instr, l,
      BitVec.ofNat 64 o.a, b, c, o.id, o.iss, size⟩ : Stage)] }

/-- Order of application: threads ascending by their index in the team, entries of a thread by issue (R360). -/
def Stage.before (x y : Stage) : Bool :=
  let i := 32 * x.gid + x.lane
  let j := 32 * y.gid + y.lane
  i < j || (i = j && x.id < y.id)

/-- Inserts an entry in order of application. -/
def insertStage (x : Stage) : List Stage → List Stage
  | [] => [x]
  | y :: ys => if x.before y then x :: y :: ys else y :: insertStage x ys

/-- The entries of a team in order of application. -/
def State.teamStages (s : State) (team : Nat) : List Stage :=
  (s.staging.filter (·.team = team)).foldl (fun l x => insertStage x l) []

/-- A staged RMW of the thread's team covers the byte (R356). -/
def State.rmwCovers (s : State) (team : Nat) (l : Loc) : Bool :=
  s.staging.any fun e => e.team = team && e.rmw.isSome && e.at_.host = l.host && e.at_.addr ≤ l.addr &&
    l.addr < e.at_.addr + e.size

/-- A byte that its team has staged, in the order of application, or that its core has buffered (R67, R356). -/
def State.ownByte? (s : State) (t : TRef) (l : Loc) : Option Byte :=
  ((s.teamStages t.team).reverse.findSome? fun e => (e.bytes.find? (·.1 = l)).map (·.2)).or
    (s.wbuf.reverse.findSome? fun e =>
      if e.core = s.coreOf t then (e.bytes.find? (·.1 = l)).map (·.2) else none)

/-- The byte that a load reads now (R81, R356): its team's or its core's own, or memory (DEDUCED, log entry 125). -/
def State.loadByte (s : State) (o : Op) (l : Loc) : Byte := (s.ownByte? o.who l).getD (s.memByte l)

/-- The number that a load has read: its bytes, each as it was read (R136). -/
def Op.loaded (o : Op) : Nat := ofBytes (o.locs.map fun l => (o.received l).getD 0)

/-- An instruction stops its thread at a turn point (R357). -/
def State.atTurn (s : State) (o : Op) (lap : Bool) : State :=
  (s.setOp o.id fun y => { y with phase := .turn }).setThread o.who fun x => { x with turn := some lap }

end Sys2Proof.Machine
end

