-- ==== Sys2Proof/Machine/OrderLog.lean ====
section
/-! DEFINITION. Logical banks, the log of a record or replay launch, and the tollgate (R367, R371 to R374). -/

namespace Sys2Proof.Machine

/-- The logical bank of an IPA (R367). -/
def bankOf (ipa : Nat) : Nat :=
  let l := bits ipa 7 45
  (bits l 0 12 ^^^ bits l 12 12 ^^^ bits l 24 12 ^^^ bits l 36 9) % 48

/-- The IPA at which a world maps a physical place. -/
def State.ipaOf (s : State) (w : Nat) (l : Loc) : Nat :=
  match s.s2.find? fun m => m.world = w && !m.pull && m.pa ≤ l.addr && l.addr < m.pa + m.bytes with
  | some m => m.ipa + (l.addr - m.pa)
  | none => l.addr

def State.log? (s : State) (launch : Nat) : Option OrderLog := s.logs.find? (·.launch = launch)

def State.setLog (s : State) (launch : Nat) (f : OrderLog → OrderLog) : State :=
  { s with logs := s.logs.map fun x => if x.launch = launch then f x else x }

/-- The place of a byte of a launch's memory, through the domain of its record (R315, R383). -/
def State.launchPlace (s : State) (launch : Nat) (acc : Acc) (va : W64) : Option Loc :=
  match s.launch? launch with
  | none => none
  | some l =>
    match (s.translate ⟨0, none, l.world, BitVec.ofNat 4 (bits l.record.toNat 688 4)⟩ acc va).1 with
    | .ok p => some p
    | _ => none

/-- Writes a number of a log, where its page is mapped. -/
def State.logWrite (s : State) (g : OrderLog) (off n v : Nat) : State :=
  match s.launchPlace g.launch .write (g.addr + BitVec.ofNat 64 off) with
  | some l => s.writeNat l n v
  | none => s

def State.logRead (s : State) (g : OrderLog) (off n : Nat) : Nat :=
  match s.launchPlace g.launch .read (g.addr + BitVec.ofNat 64 off) with
  | some l => s.memNat l n
  | none => 0

/-- Offset of a chunk entry (R371). -/
def OrderLog.chunkOff (g : OrderLog) (bank pos : Nat) : Nat := 128 + 8 * (g.seg * bank + pos)

/-- Offset of a checkpoint entry (R371). -/
def OrderLog.ckptOff (g : OrderLog) (k : Nat) : Nat := 128 + 384 * g.seg + 16 * k

/-- A chunk entry (R372). -/
def chunkEntry (count gid team : Nat) : Nat := fieldAt team 0 32 + fieldAt gid 32 5 + fieldAt count 40 24

/-- Row of a bank: entries finished, count in the open one (replay: RMWs that passed), team and gid of the open one
(replay: cycle of the last progress and 0). -/
def OrderLog.bank (g : OrderLog) (b : Nat) : Nat × Nat × Nat × Nat :=
  ((g.banks.find? (·.1 = b)).map (·.2)).getD (0, 0, 0, 0)

def OrderLog.setBank (g : OrderLog) (b : Nat) (r : Nat × Nat × Nat × Nat) : OrderLog :=
  { g with banks := g.banks.filter (·.1 ≠ b) ++ [(b, r)] }

/-- Recording stops: the header's state becomes 3 (R373). -/
def State.stopLog (s : State) (g : OrderLog) : State :=
  (s.logWrite g 5 1 3).setLog g.launch fun x => { x with stopped := true }

/-- The key of a thread in a log (R372). -/
def State.logKey (s : State) (t : TRef) : Nat × Nat :=
  let m := s.team t.team
  if m.formed then (0xFFFFFFFF, 0) else (m.index, t.gid)

/-- Logs an RMW (R373): it extends the open chunk of its bank or opens the next one. -/
def State.recordRmw (s : State) (g : OrderLog) (t : TRef) (bank : Nat) : State :=
  let (team, gid) := s.logKey t
  let (pos, n, team', gid') := g.bank bank
  if n ≠ 0 && team = team' && gid = gid' && n < 16777215 then
    (s.logWrite g (g.chunkOff bank (pos - 1)) 8 (chunkEntry (n + 1) gid team)).setLog g.launch
      (·.setBank bank (pos, n + 1, team, gid))
  else if g.seg ≤ pos then s.stopLog g
  else
    (s.logWrite g (g.chunkOff bank pos) 8 (chunkEntry 1 gid team)).setLog g.launch
      (·.setBank bank (pos + 1, 1, team, gid))

/-- The launch diverges and the log of the bank is abandoned (R374). -/
def State.abandon (s : State) (g : OrderLog) (bank : Nat) : State :=
  s.setLog g.launch fun x => { x with diverged := true, abandoned := bank :: x.abandoned }

/-- Answer of the tollgate. -/
inductive Toll where
  | pass (s : State)
  | hold
deriving Repr

/-- An RMW of a thread at its home (R373, R374): recorded, held, or let through. Memory of peers and of the host is neither
logged nor held. A chunk entry with reserved bits set is malformed and ends its bank's log (R3; DEDUCED, log entry 118). -/
def State.tollgate (s : State) (t : TRef) (l : Loc) : Toll :=
  if !l.isLocal then .pass s
  else
    let launch := (s.team t.team).launch
    match s.log? launch with
    | none => .pass s
    | some g =>
      let bank := bankOf (s.ipaOf (s.worldOf t) l)
      if !g.replay then .pass (if g.stopped then s else s.recordRmw g t bank)
      else if g.abandoned.contains bank then .pass s
      else
        let (pos, n, _, _) := g.bank bank
        let e := if pos < g.seg then s.logRead g (g.chunkOff bank pos) 8 else 0
        if bits e 40 24 = 0 || bits e 37 3 ≠ 0 then .pass (s.abandon g bank)
        else if (bits e 0 32, bits e 32 5) = s.logKey t then
          .pass (s.setLog launch (·.setBank bank
            (if n + 1 = bits e 40 24 then (pos + 1, 0, s.clock, 0) else (pos, n + 1, s.clock, 0))))
        else .hold

end Sys2Proof.Machine
end

