-- ==== Sys2Proof/Machine/Access.lean ====
section
/-! DEFINITION. What the instructions of group 0x3 share: the checks of their elements, when an access may be
performed, and how a write completes (R131 to R136, R139, R145 to R148). -/

namespace Sys2Proof.Machine

/-! ### Checks -/

/-- Why the elements of an access do not pass (R145). -/
inductive Bad where
  | trap (code : BitVec 8) (addr : W64)
  | fault (x : Xl) (acc : Acc) (va elem : W64)
deriving DecidableEq, Repr

/-- Checks 2 to 5 of R145 on one element of n bytes: its places, or what it fails. An element counts as canonical where
its first and its last byte are (DEDUCED, log entry 111). -/
def State.checkElem (s : State) (c : XCtx) (acc : Acc) (aligned reads : Bool) (va : W64) (n : Nat) :
    (List Loc ⊕ Bad) × State :=
  if !canonical va || !canonical (va + BitVec.ofNat 64 (n - 1)) then (.inr (.trap trapAccessViolation va), s)
  else if aligned && va.toNat % n ≠ 0 then (.inr (.trap trapMisaligned va), s)
  else
    match s.translateRun c acc va n [] with
    | (.inr (x, i), s) => (.inr (.fault x acc (va + BitVec.ofNat 64 i) va), s)
    | (.inl ls, s) =>
      let s := if reads then s.openLines ls va else s
      if reads && ls.any (s.poisonedFor c.core) then (.inr (.trap trapPoison va), s) else (.inl ls, s)

/-- The same for consecutive elements, every check on one before the next (R145). The places are those of the elements that
pass. -/
def State.checkElems (s : State) (c : XCtx) (acc : Acc) (aligned reads : Bool) (n : Nat) :
    W64 → Nat → List Loc → (Option Bad × List Loc) × State
  | _, 0, done => ((none, done), s)
  | va, k + 1, done =>
    match s.checkElem c acc aligned reads va n with
    | (.inr b, s) => ((some b, done), s)
    | (.inl ls, s) => s.checkElems c acc aligned reads n (va + BitVec.ofNat 64 n) k (done ++ ls)

/-- An access that does not pass traps, or waits for a fault (R146). -/
def State.fails (s : State) (o : Op) : Bad → State
  | .trap code addr => s.trapOp o code 0 addr
  | .fault x acc va elem => s.faultOp o x acc va elem

/-- The effective address (R131). -/
def State.eaOf (s : State) (t : TRef) (f : MemF) : W64 :=
  BitVec.ofNat 64 (wrapN (s.opnd64 t f.a + sextN f.offset.toNat 24) 64)

/-- Starts an instruction of group 0x3 in each thread with its sampled operands, and executes it so far as its
issue goes (R131, R145). -/
def State.memIssue (s : State) (i : Instr) (f : MemF) (sample : State → TRef → Nat × Nat × Nat × Nat)
    (launch : State → Op → State) : State :=
  s.forIssue i f.toCommon fun t s =>
    let (a, b, c, x) := sample s t
    let (o, s) := s.start t i f.toCommon a b c x
    launch s o

/-! ### Protection of lines (R139) -/

/-- Protects lines under codes 5 to 7. Limits of ways and victims set no value and are left out. -/
def State.protect (s : State) (t : TRef) (ls : List Loc) (evict : BitVec 3) : State :=
  if evict.toNat < 5 then s
  else
    let lines := ((ls.filter (!·.host)).map (·.line)).eraseDups
    { s with prot := s.prot.filter (fun p => !lines.contains p.line) ++
        lines.map fun n => ⟨n, evict, s.worldOf t, s.coreOf t⟩ }

/-! ### When an access may be performed -/

/-- The fields of an instruction of group 0x3. -/
def memFields : Instr → Option MemF
  | .ld f | .st f | .ldk f | .atom f | .atomr f | .cas f | .fence f | .pref f | .spill f | .fill f | .salloc f
  | .cmo f => some f
  | _ => none

/-- Scopes at which a write is performed in the core write buffer (R73). -/
def scopeNarrow : Scope → Bool
  | .thread | .group | .team => true
  | _ => false

/-- Scopes at which a peer has to acknowledge a write (R73). -/
def scopeBeyond : Scope → Bool
  | .domain | .system => true
  | _ => false

def orderAcquires : Order → Bool
  | .acquire | .acqRel => true
  | _ => false

def orderReleases : Order → Bool
  | .release | .acqRel => true
  | _ => false

/-- A later access of R75 and R141: every variable-latency instruction but the few that make no access. -/
def isAccess : Instr → Bool
  | .pref _ | .cmo _ | .salloc _ => false
  | i => match i.form with
    | some f => f.lat != .fixed
    | none => false

/-- An access that writes, as R76 and R148 count it. -/
def isWriting : Instr → Bool
  | .st _ | .spill _ | .atom _ | .atomr _ | .cas _ | .tst _ | .tfill _ => true
  | .ld _ | .ldk _ | .fill _ | .fence _ | .tld _ | .tinfo _ | .mile _ | .mileFault _ | .btest _ | .bwait _
  | .xlate _ | .fstat _ | .fstatHash _ | .fsync _ => false
  | i => isAccess i

/-- An access that reads, as R76 and R148 count it. -/
def isReading : Instr → Bool
  | .st _ | .spill _ | .tst _ | .tfill _ | .fence _ => false
  | i => isAccess i

/-- The instruction completes only behind the earlier accesses of its thread: a release, a fence, or one that R301, R307, R308
and R332 order after them. -/
def waitsEarlier : Instr → Bool
  | .st f | .atom f | .atomr f | .cas f => orderReleases f.order
  | .fence _ | .barr _ | .spawn _ | .wput _ | .qidle _ | .launch _ => true
  | .tlbiVa _ | .tlbiRange _ | .tlbiDom _ | .tlbiWorld _ => true
  | _ => false

/-- The earlier instructions of an operation's thread that are not complete. -/
def State.earlier (s : State) (o : Op) : List Op := (s.opsOf o.who).filter fun p => p.seq < o.seq

/-- Writes that a release at a scope waits for (R74): those of its thread issued before it, and those that its core's
buffer held when it issued. -/
def State.earlierBuffered (s : State) (o : Op) : Bool :=
  s.wbuf.any fun e => e.core = s.coreOf o.who && (e.id < o.id || (e.who = o.who && e.seq < o.seq))

/-- Earlier writes to peers that are not acknowledged, by the names that they had in the core write buffer (R74, R93). -/
def State.earlierRemote (s : State) (o : Op) : Bool :=
  s.remotes.any fun r => r.core = s.coreOf o.who && r.kind = flWrite && !r.done && r.born < o.id

/-- The release condition of R74 at a scope: every earlier access of the thread is complete and performed. -/
def State.released (s : State) (o : Op) (sc : Scope) (exempt : Op → Bool := fun _ => false) : Bool :=
  (s.earlier o).all (fun p => !isAccessLike p || exempt p) && (scopeNarrow sc || !s.earlierBuffered o) &&
    (!scopeBeyond sc || !s.earlierRemote o)
where
  /-- PREF, CMO and SALLOC make no access (R68). -/
  isAccessLike (p : Op) : Bool :=
    match p.instr with
    | .pref _ | .cmo _ | .salloc _ => false
    | _ => true

/-- A thread of a lower home lane of the same issue has not yet performed its access of a common byte (R136). -/
def State.behindLower (s : State) (o : Op) : Bool :=
  s.ops.any fun p => p.iss = o.iss && p.id ≠ o.id && p.who.lane < o.who.lane && p.phase = .pending &&
    p.locs.any fun l => o.locs.contains l

/-- An RMW of a lower home lane of the same issue on a common byte is still on its way (R136). -/
def State.rmwBehind (s : State) (o : Op) : Bool :=
  s.ops.any fun p => p.iss = o.iss && p.id ≠ o.id && p.who.lane < o.who.lane &&
    (p.phase = .pending || p.phase = .hold || p.phase = .recall || p.phase = .remote) &&
    p.locs.any fun l => o.locs.contains l

/-- The RMWs of one issue on the lines of one of them: performed together, in ascending home lane (R136). -/
def State.together (s : State) (o : Op) : List Op :=
  s.ops.filter fun p => p.iss = o.iss && p.who.team = o.who.team && p.phase = .pending &&
    p.locs.any fun l => o.locs.any fun k => k.line = l.line

/-- The marks that a device-remote acquire meets (R86). -/
def State.acquireMarks (s : State) (o : Op) (f : MemF) : List Mark :=
  if orderAcquires f.order && f.scope = .deviceRemote then s.marksOn o.locs else []

/-- The places that an access has not read yet. -/
def Op.unread (o : Op) : List Loc := o.locs.filter fun l => (o.received l).isNone

/-- A recall has to come first: an engine owns a line, or a marked line's core has to drain (R22, R86). -/
def State.needsRecall (s : State) (o : Op) (f : MemF) : Bool :=
  s.anyOwned o.unread || s.markPending (s.acquireMarks o f)

/-! ### Completion of writes -/

/-- A write of group 0x3 is complete: its elements join the fold of its issue (R375). -/
def State.finishWrite (s : State) (o : Op) (items : List (W64 × Nat × Nat)) : State :=
  let s := s.complete o
  if items.isEmpty then s.settle o.who.team o.who.gid
  else (s.addFold o.who o.iss items).settle o.who.team o.who.gid

/-- The elements that a store writes. -/
def storeItems (o : Op) (f : MemF) : List (W64 × Nat × Nat) :=
  let e := f.ty.bits / 8
  (List.range (vecCount f.vec)).map fun i =>
    (BitVec.ofNat 64 o.a + BitVec.ofNat 64 (i * e), bits o.b (8 * e * i) (8 * e), e)

/-- A buffered write is complete once its entries are performed at its scope (R73, R74). -/
def State.tryFinish (s : State) (n : Nat) : State :=
  match s.op? n with
  | none => s
  | some o =>
    if o.phase ≠ .buffered || s.wbuf.any (·.op = n) then s
    else
      match o.instr with
      | .st f => if scopeBeyond f.scope && s.awaits n then s else s.finishWrite o (storeItems o f)
      | .spill f => if scopeBeyond f.scope && s.awaits n then s else s.complete o
      | _ => s

/-- Drains the entries that satisfy a condition, oldest first, and completes the writes that thereby are performed. -/
def State.flush (s : State) (p : BufEntry → Bool) : State :=
  let ns := ((s.wbuf.filter p).map (·.op)).eraseDups
  ns.foldl State.tryFinish (s.drain p)

end Sys2Proof.Machine
end

