-- ==== Sys2Proof/Machine/Fetch.lean ====
section
/-! DEFINITION. The fetch buffers of the quads and the word that a thread issues next (R157, R164 to R167). -/

namespace Sys2Proof.Machine

/-- The line of the fetch buffers that holds an address, when they hold it. -/
def State.fetchLine? (s : State) (core quad world : Nat) (d : BitVec 4) (a : W64) : Option FetchLine :=
  s.fetch.find? fun x => x.core = core && x.quad = quad && x.world = world && x.domain = d &&
    x.line = a.toNat / 128

/-- The instruction word at an address as the fetch buffers hold it (R35, R167): bytes at rising addresses,
little-endian. -/
def FetchLine.word (x : FetchLine) (a : W64) : Word := x.bits.extractLsb' (8 * (a.toNat % 128 / 16 * 16)) 128

/-- The next instruction word of a thread, when its line is fetched (R157). -/
def State.nextWord (s : State) (t : TRef) : Option Word :=
  let x := s.thread t
  let g := s.groupOf t
  (s.fetchLine? (s.coreOf t) g.quad (s.worldOf t) g.domain x.pc).map (·.word x.pc)

/-- The next instruction of a thread, or why its word is illegal (R47). -/
def State.nextInstr (s : State) (t : TRef) : Option (Except Illegal Instr) := (s.nextWord t).map decode

/-- A line of 128 bytes as bits. -/
def lineBits (bs : List Byte) : BitVec 1024 := BitVec.ofNat 1024 (ofBytes bs)

/-- The first of the two lines that a waymark prefetches (R164). -/
def Waymark.line (w : Waymark) : Nat := (targetAddr w.target.toNat).toNat / 128

/-- Makes the waymarks stale that point into lines of a quad's fetch buffers which satisfy a condition
(R166). -/
def State.staleMarks (s : State) (core quad world : Nat) (p : BitVec 4 → Nat → Bool) : State :=
  { s with threads := s.threads.map fun x =>
      let m := s.team x.id.team
      if m.core = core ∧ m.world = world ∧ (s.group x.id.team x.id.gid).quad = quad then
        { x with wm := x.wm.map fun w =>
            if w.valid && p w.domain w.line then { w with pstate := 3 } else w }
      else x }

/-- Puts a line into a quad's fetch buffers; the oldest of 64 lines makes room (R164, R166). -/
def State.addFetchLine (s : State) (l : FetchLine) : State :=
  let here := fun (x : FetchLine) => x.core = l.core && x.quad = l.quad
  let same := fun (x : FetchLine) => here x && x.world = l.world && x.domain = l.domain && x.line = l.line
  let s := { s with fetch := s.fetch.filter fun x => !same x }
  let s :=
    if (s.fetch.filter here).length < 64 then s
    else
      match s.fetch.find? here with
      | some v => { s.staleMarks v.core v.quad v.world (fun d n => d = v.domain && (n = v.line || n + 1 = v.line)) with
                    fetch := s.fetch.filter (· ≠ v) }
      | none => s
  { s with fetch := s.fetch ++ [l] }

/-- A request whose line of code is not wanted any more. -/
def Remote.dropCode (r : Remote) : Remote :=
  match r.use with
  | .code _ _ => { r with use := .own }
  | _ => r

/-- Discards the fetch-buffer lines of a world on a core, those that are still on their way from a peer among them, and
makes its waymarks there stale (R166, R167, R192). -/
def State.discardFetch (s : State) (core world : Nat) : State :=
  let s := { s with
    fetch := s.fetch.filter fun x => !(x.core = core && x.world = world)
    remotes := s.remotes.map fun r => if r.core = core ∧ r.world = world then r.dropCode else r }
  (List.range 4).foldl (fun s q => s.staleMarks core q world fun _ _ => true) s

end Sys2Proof.Machine
end

