-- ==== Sys2Proof/Machine/Control.lean ====
section
/-! DEFINITION. The instructions of group 0x4 and the background steps of the control engine (R162 to R194). -/

namespace Sys2Proof.Machine

/-! ### Waymarks -/

def Thread.waymark (x : Thread) (m : BitVec 3) : Waymark := x.wm.getD m.toNat Waymark.none

def Thread.setWaymark (x : Thread) (m : BitVec 3) (w : Waymark) : Thread := { x with wm := x.wm.set m.toNat w }

/-- Prepares a waymark with a target (R164, R181). -/
def State.prepare (s : State) (t : TRef) (m : BitVec 3) (x : W64) : State :=
  if !codeCanonical x then s.raise t trapAccessViolation
  else s.setThread t fun y =>
    { y.setWaymark m ⟨true, s.domainOf t, x.extractLsb' 4 48, 1⟩ with prefetch := y.prefetch ||| (1#8 <<< m.toNat) }

/-- PREP (R181). -/
def execPrep (f : CtlF) (s : State) : Out :=
  .next (s.forLanes (.prep f) f.toCommon fun t s =>
    s.prepare t f.m ((s.thread t).pc + BitVec.ofNat 64 (wrapN (sextN f.arg24.toNat 24 * 16) 64)))

/-- PREPV (R181). -/
def execPrepv (f : CtlF) (s : State) : Out :=
  .next (s.forLanes (.prepv f) f.toCommon fun t s =>
    let x := s.opnd64 t f.a
    if x % 16 ≠ 0 then s.raise t trapMisaligned else s.prepare t f.m (BitVec.ofNat 64 x))

/-- The traps of a transfer through a waymark (R165). -/
def State.waymarkTrap (s : State) (t : TRef) (m : BitVec 3) : Option (BitVec 8) :=
  let w := (s.thread t).waymark m
  if !w.valid then some trapUnpreparedWaymark
  else if w.domain ≠ s.domainOf t then some trapWaymarkDomain
  else none

/-- A thread that goes through a waymark which is not ready waits at the target for its lines; those of a stale one, or of
one whose prefetch has stopped, are fetched again (R165). -/
def Thread.lands (x : Thread) (m : BitVec 3) : Thread :=
  let w := x.waymark m
  if w.pstate = 2 then x
  else { x.setWaymark m { w with pstate := 1 } with prefetch := x.prefetch ||| (1#8 <<< m.toNat), landing := some m }

/-- Goes to a waymark's target (R165). -/
def State.goTo (s : State) (t : TRef) (m : BitVec 3) (c : Ctl) : State :=
  let w := (s.thread t).waymark m
  ((s.setThread t (·.lands m)).countIssue t c).setPc t (targetAddr w.target.toNat)

def State.transfer (s : State) (t : TRef) (m : BitVec 3) (c : Ctl) : State :=
  match s.waymarkTrap t m with
  | some code => s.raise t code
  | none => s.goTo t m c

/-- XFER (R182). -/
def execXfer (f : CtlF) (s : State) : Out :=
  .next (s.forIssue (.xfer f) f.toCommon fun t s => s.transfer t f.m f.ctl)

/-! ### The return stack -/

/-- Entries that are spilled or about to be (R168, R169). -/
def Thread.spilled (x : Thread) : Nat := x.n + (x.ret.length - 4)

/-- push of R168; none where the spill area is full. The write of a spilled entry is a background transfer
(R169). -/
def State.push (s : State) (t : TRef) (addr : W64) : Option State :=
  let x := s.thread t
  if 4 ≤ x.ret.length ∧ x.retlim.toNat < x.retbase.toNat + 8 * (x.spilled + 1) then none
  else some (s.setThread t fun x => { x with ret := x.ret ++ [retEntry (s.domainOf t) addr] })

/-- pop of R168: the return address, or none where the stack is empty or its top entry is of another domain. -/
def State.pop (s : State) (t : TRef) : Option (W64 × State) :=
  match (s.thread t).ret.reverse with
  | [] => none
  | e :: r =>
    if bits e.toNat 48 4 ≠ (s.domainOf t).toNat then none
    else some (targetAddr (bits e.toNat 0 48), s.setThread t fun x => { x with ret := r.reverse })

/-- XCALL (R182). -/
def execXcall (f : CtlF) (s : State) : Out :=
  .next (s.forIssue (.xcall f) f.toCommon fun t s =>
    match s.waymarkTrap t f.m with
    | some code => s.raise t code
    | none =>
      match s.push t ((s.thread t).pc + 16) with
      | none => s.raise t trapStackLimit
      | some s => s.goTo t f.m f.ctl)

/-- RET (R184): it stands while the on-chip stack is empty and a spilled entry is still to be read (R169). -/
def execRet (f : CtlF) (s : State) : Out :=
  .next (s.forIssue (.ret f) f.toCommon fun t s =>
    if (s.thread t).ret.isEmpty && (s.thread t).n ≠ 0 then s
    else match s.pop t with
    | none => s.raise t trapReturnUnderflow
    | some (a, s) => (s.countIssue t f.ctl).setPc t a)

/-! ### XFER.shed -/

/-- The bytes of a range of slices (R155, R183). -/
def State.packSlices (s : State) (t : TRef) (first count : Nat) : List Byte :=
  packNibbles ((List.range count).map fun i => s.readSlices t (first + i) 4)

/-- A shed thread may be placed: it has stalled, its spills are made (R169), and no incomplete instruction writes its slices F
to L (R183). -/
def State.shedReady (s : State) (t : TRef) (p : Placement) : Bool :=
  s.stalled t && (s.thread t).ret.length ≤ 4 && !s.anyPending t p.first p.count

/-- A shed thread that has not reached the spawn engine: it still waits for its slices, its spills, or a lower home lane of
its issue (R183, R295). -/
def State.shedAhead (s : State) (t : TRef) : Bool := (s.thread t).shed.isSome && !s.arrivals.contains (.shed t)

/-- A shed thread may go to the spawn engine now. -/
def State.shedArrives (s : State) (t : TRef) : Bool :=
  s.shedAhead t && (s.thread t).live && s.resident t.team && (s.thread t).shed.any fun p => s.shedReady t p &&
    !((s.liveOfGroup t.team t.gid).any fun u => u.lane < t.lane && s.shedAhead u &&
      (s.thread u).shed.any (·.iss = p.iss))

/-- A shed thread reaches the spawn engine with its argument bytes: it ends once it is placed in a lay-by (R183, R295). -/
def State.shedArrive (s : State) (t : TRef) : State :=
  match (s.thread t).shed with
  | none => s
  | some p =>
    let p := { p with bytes := s.packSlices t p.first p.count }
    match (s.setThread t fun x => { x with shed := some p }).placeNow t (s.domainOf t) p (.shed t) with
    | (some _, s) => (s.setThread t fun x => { x with shed := none }).endThread t
    | (none, s) => s

/-- Sheds a thread to a continuation (R183, R295). -/
def State.shedTo (s : State) (t : TRef) (first count : Nat) (entry : W64) (c : Ctl) : State :=
  let s := (s.countIssue t c).setThread t fun x => { x with shed := some ⟨entry, first, count, [], s.issue.id⟩ }
  if s.shedArrives t then s.shedArrive t else s

/-- XFER.shed (R183). In a deterministic launch it acts as XFER (R361). -/
def execXferShed (f : CtlF) (s : State) : Out :=
  let i : Instr := .xferShed f
  let ts := s.issue.threads
  let taken := ts.filter fun t => s.guard t f.ctl
  let fall := ts.filter fun t => !s.guard t f.ctl
  let det := ts.any fun t => s.deterministic (s.team t.team).launch
  let count := f.b.start - f.a.start + 1
  let shedTaken := !det && taken.length < fall.length && !taken.isEmpty
  let shedFall := !det && fall.length < taken.length && !fall.isEmpty
  .next (ts.foldl (fun s t =>
    if taken.contains t then
      if !s.slicesOk t i then s.raise t trapSliceRange
      else
        match s.waymarkTrap t f.m with
        | some code => s.raise t code
        | none =>
          if shedTaken then
            s.shedTo t f.a.start count (targetAddr ((s.thread t).waymark f.m).target.toNat) f.ctl
          else s.goTo t f.m f.ctl
    else if shedFall then s.shedTo t f.a.start count ((s.thread t).pc + 16) f.ctl
    else s.advance t f.ctl) s)

/-! ### Convergence registers -/

/-- Number of groups of a team. -/
def State.groupCount (s : State) (team : Nat) : Nat := (s.groupsOf team).length

/-- CSET (R185). -/
def execCset (f : CtlF) (s : State) : Out :=
  let act := s.activeLanes (.cset f) f.toCommon
  .next (match act with
    | [] => s.forIssue (.cset f) f.toCommon fun _ s => s
    | l :: _ =>
      let mask := s.opnd32 l f.a % 2 ^ s.groupCount l.team
      let r := (s.team l.team).creg f.cr
      if r.signed ≠ 0 then
        s.forIssue (.cset f) f.toCommon fun t s => s.raise t trapConvergenceMismatch (BitVec.ofNat 8 f.cr.toNat)
      else
        let s := s.setTeam l.team fun m => m.setCreg f.cr { r with set := BitVec.ofNat 32 mask }
        s.forIssue (.cset f) f.toCommon fun t s => s.advance t f.ctl)

/-- The signature of a thread (R186). -/
def State.signPhase (s : State) (t : TRef) (c : BitVec 4) : State :=
  let r := (s.team t.team).creg c
  let s := s.setTeam t.team fun m => m.setCreg c { r with signed := r.signed ||| (1#1024 <<< signIndex t) }
  let bitc : BitVec 16 := 1#16 <<< c.toNat
  let s := s.setThread t fun x =>
    { x with sphase := if r.phase then x.sphase ||| bitc else x.sphase &&& ~~~bitc, await := x.await ||| bitc }
  s.testPhase t.team c

/-- The phase that a thread signed is still open. -/
def State.phaseOpen (s : State) (t : TRef) (c : BitVec 4) : Bool :=
  ((s.team t.team).creg c).phase = (s.thread t).sphase.getLsbD c.toNat

/-- The thread begins to wait at its instruction for the phase that it has signed. -/
def State.beginJoin (s : State) (t : TRef) : State := s.setThread t fun x => { x with joins := true }

/-- SIGN (R186). A repeated SIGN stands until the phase completes, and then signs the next one. -/
def execSign (f : CtlF) (s : State) : Out :=
  .next (s.forIssue (.sign f) f.toCommon fun t s =>
    let r := (s.team t.team).creg f.cr
    if !r.set.getLsbD t.gid && !(s.thread t).joins then s.raise t trapConvergenceMismatch (BitVec.ofNat 8 f.cr.toNat)
    else if r.signed.getLsbD (signIndex t) then s.beginJoin t
    else (s.signPhase t f.cr).advance t f.ctl)

/-- JOIN (R186): it signs where the thread has not, and stands until the phase completes. -/
def execJoin (f : CtlF) (s : State) : Out :=
  .next (s.forIssue (.join f) f.toCommon fun t s =>
    let r := (s.team t.team).creg f.cr
    if !r.set.getLsbD t.gid && !(s.thread t).joins then s.raise t trapConvergenceMismatch (BitVec.ofNat 8 f.cr.toNat)
    else
      let s :=
        if (s.thread t).await.getLsbD f.cr.toNat then s
        else if r.signed.getLsbD (signIndex t) then s
        else s.signPhase t f.cr
      if !(s.thread t).await.getLsbD f.cr.toNat || s.phaseOpen t f.cr then s.beginJoin t
      else (s.setThread t fun x => { x with await := x.await &&& ~~~(1#16 <<< f.cr.toNat) }).advance t f.ctl)

/-! ### The other instructions -/

/-- EXIT (R187), after the stall of R44 and once the spills of the return stack are made (R168, R169). -/
def execExit (f : CtlF) (s : State) : Out :=
  .next (s.forIssue (.exit f) f.toCommon fun t s =>
    if s.stalled t && (s.thread t).ret.length ≤ 4 then (s.countIssue t f.ctl).endThread t else s)

/-- TRAP (R188). -/
def execTrap (f : CtlF) (s : State) : Out :=
  .next (s.forIssue (.trap f) f.toCommon fun t s =>
    (s.raiseAfter t trapSoftware (f.arg24.extractLsb' 0 8) (s.thread t).pc).countIssue t f.ctl)

/-- BRK (R188). -/
def execBrk (f : CtlF) (s : State) : Out :=
  .next (s.forIssue (.brk f) f.toCommon fun t s =>
    (s.raiseAfter t trapBreakpoint (f.arg24.extractLsb' 0 8) (s.thread t).pc).countIssue t f.ctl)

/-- Makes a thread not ready for some cycles; it stands at the instruction meanwhile (R189). -/
def State.sleepFor (s : State) (t : TRef) (n : Nat) (yield : Bool) : State :=
  s.setThread t fun x => { x with sleep := some ⟨s.clock + n, yield⟩ }

/-- YIELD (R189). -/
def execYield (f : CtlF) (s : State) : Out :=
  .next (s.forIssue (.yield f) f.toCommon fun t s => s.sleepFor t 16 true)

/-- SLEEP (R189). -/
def execSleep (f : CtlF) (s : State) : Out :=
  .next (s.forIssue (.sleep f) f.toCommon fun t s =>
    if f.arg24 = 0 then s.advance t f.ctl else s.sleepFor t f.arg24.toNat false)

/-- SETHDL (R190). -/
def execSethdl (f : CtlF) (s : State) : Out :=
  .next (match s.activeLanes (.sethdl f) f.toCommon with
    | [] => s.forIssue (.sethdl f) f.toCommon fun _ s => s
    | l :: _ =>
      let a := BitVec.ofNat 64 (s.opnd64 l f.a)
      if bits a.toNat 0 4 ≠ 0 then s.forIssue (.sethdl f) f.toCommon fun t s => s.raise t trapMisaligned
      else if a ≠ 0 ∧ !codeCanonical a then
        s.forIssue (.sethdl f) f.toCommon fun t s => s.raise t trapAccessViolation
      else
        (s.setGroup l.team l.gid fun g => { g with hdl := a }).forIssue (.sethdl f) f.toCommon
          fun t s => s.advance t f.ctl)

/-- HRET (R191): after the stall of R44 the thread reads its record and returns from the trap. A fault on the
read is a trap in handler mode, and so fatal (R177); every translation fault ends as ACCESS_VIOLATION (DESIGN CHOICE, log entry
114). -/
def execHret (f : CtlF) (s : State) : Out :=
  .next (s.forIssue (.hret f) f.toCommon fun t s =>
    let x := s.thread t
    if !x.handler then s.raise t trapReturnUnderflow
    else if !s.stalled t then s
    else if !canonical x.sp then s.raise t trapAccessViolation 0 x.sp
    else
      match s.translateRun (s.xctx t) .read x.sp 32 [] with
      | (.inr (_, i), s) => s.raise t trapAccessViolation 0 (x.sp + BitVec.ofNat 64 i)
      | (.inl ls, s) =>
        let s := s.openLines ls x.sp
        if s.anyOwned ls then s
        else if ls.any (s.poisonedFor (s.coreOf t)) then s.raise t trapPoison 0 x.sp
        else
          let record := ofBytes (ls.map (s.seenByte (s.coreOf t)))
          let resume := w64 record 128
          if bits resume.toNat 0 4 ≠ 0 || !codeCanonical resume then s.raise t trapMisaligned
          else (s.countIssue t f.ctl).returnFromTrap t record)

/-- ICINV (R192): once for an issue. -/
def execIcinv (f : CtlF) (s : State) : Out :=
  let s' := match s.activeLanes (.icinv f) f.toCommon with
    | [] => s
    | t :: _ => s.discardFetch (s.coreOf t) (s.worldOf t)
  .next (s'.forIssue (.icinv f) f.toCommon fun t s => s.advance t f.ctl)

/-- WMCLR (R193). -/
def execWmclr (f : CtlF) (s : State) : Out :=
  .next (s.forLanes (.wmclr f) f.toCommon fun t s => s.setThread t fun x =>
    { x with wm := (List.range 8).zipWith (fun n w =>
        if f.arg24.getLsbD n then { w with valid := false, pstate := 0 } else w) x.wm })

/-! ### Background steps -/

/-- SLEEP_EXPIRY: the cycles of a YIELD or SLEEP have passed, and the thread goes on (R189). -/
def State.sleepDue (s : State) (t : TRef) : Bool :=
  let x := s.thread t
  x.live && s.resident t.team && (x.sleep.any fun z => z.deadline ≤ s.clock)

def execSleepExpiry (t : TRef) (s : State) : Out :=
  .next (if s.sleepDue t then
    ((s.setThread t fun x => { x with sleep := none, seq := x.seq + 1, wait := 0, reuse := false })).setPc t
      ((s.thread t).pc + 16)
  else s)

/-- What a fetch of the line at an address gives (R164, R165, R167). -/
inductive Fetched where
  | line (l : FetchLine)
  | ask (l : Loc) (x : FetchLine)     -- a line of a peer has to be read
  | wait                              -- an engine owns the line
  | poison | lost
  | xl (x : Xl)
deriving Repr

/-- Fetches the line at an address for a thread, in a domain: as its core sees it (R67, R167). -/
def State.fetchAt (s : State) (t : TRef) (d : BitVec 4) (a : W64) : Fetched × State :=
  let core := s.coreOf t
  let stub : FetchLine := ⟨core, (s.groupOf t).quad, s.worldOf t, d, a.toNat / 128, 0⟩
  match s.translate { s.xctx t with domain := d } .fetch a with
  | (.ok l, s) =>
    if s.ownedLine l.line then (.wait, s)
    else
      let s := s.openLines [l] a
      if s.poisonedFor core l then (.poison, s)
      else if s.hostLost [l] then (.lost, s)
      else if l.isPeer then
        match s.fetchLine? core stub.quad stub.world d a with
        | some x => (.line x, s)
        | none => (.ask l.lineStart stub, s)
      else (.line { stub with bits := lineBits ((List.range 128).map fun i => s.seenByte core (l.lineStart.add i)) }, s)
  | (x, s) => (.xl x, s)

/-- A fetch of a thread from a peer is under way. -/
def State.asking (s : State) (t : TRef) : Bool := s.remotes.any fun r => !r.done && (match r.use with
  | .code u _ => u = t
  | _ => false)

/-- Asks a peer for a line of code, behind what the core's buffer holds of it (R80, R408). -/
def State.askCode (s : State) (t : TRef) (l : Loc) (x : FetchLine) : State :=
  let s := s.drain fun e => e.core = x.core && s.canDrain e && e.bytes.any fun y => y.1.line = l.line
  s.request 0 0 x.core x.world flRead l 128 [] none (.code t x)

/-- A fetch at a thread's pc fails: it traps before the first instruction there, or waits for a fault (R165, R320). -/
def State.fetchFails (s : State) (t : TRef) (pc : W64) : Fetched → State
  | .poison => s.raise t trapPoison 0 pc
  | .lost => (s.lostNotice (s.worldOf t) pc).raise t trapAccessViolation 0 pc
  | .xl x =>
    match s.openFault (.thread t) (s.worldOf t) (s.domainOf t) x .fetch pc pc 0 with
    | (.wait n, s) => s.setThread t fun y => { y with fault := some n }
    | (.deny v, s) => s.raise t (denyCode v) 0 pc
  | _ => s

/-- A waymark whose prefetch is running (R164). -/
def Thread.prefetches (x : Thread) (m : BitVec 3) : Bool :=
  (x.waymark m).valid && (x.waymark m).pstate = 1 && x.prefetch.getLsbD m.toNat

/-- The thread waits at the target of a waymark for its lines (R165). -/
def Thread.isLanding (x : Thread) : Bool := x.landing.any x.prefetches

def State.prefetching (s : State) (t : TRef) (m : Nat) : Bool :=
  let x := s.thread t
  x.live && s.resident t.team && m < 8 && x.prefetches (BitVec.ofNat 3 m) && x.fault.isNone && !s.asking t

/-- The prefetch of a waymark is over. -/
def State.stopPrefetch (s : State) (t : TRef) (m : BitVec 3) : State :=
  s.setThread t fun x => { x with prefetch := x.prefetch &&& ~~~(1#8 <<< m.toNat) }

/-- WAYMARK_PREFETCH_DONE: the two lines of the target are in the fetch buffers. A prefetch that cannot go on stops silently,
with pstate 1; where a thread waits for it at the target, it traps (R164, R165). -/
def execWaymarkPrefetchDone (t : TRef) (m : Nat) (s : State) : Out :=
  let m3 := BitVec.ofNat 3 m
  .next (if s.prefetching t m then
    let x := s.thread t
    let w := x.waymark m3
    let a := targetAddr w.target.toNat
    match s.fetchAt t w.domain a with
    | (.wait, s) => s
    | (.ask l y, s) => s.askCode t l y
    | (.line l, s) =>
      let s := s.addFetchLine l
      (match s.fetchAt t w.domain (a - BitVec.ofNat 64 (a.toNat % 128) + 128) with
       | (.wait, s) => s
       | (.ask l y, s) => s.askCode t l y
       | (.line l, s) => ((s.addFetchLine l).setThread t (·.setWaymark m3 { w with pstate := 2 })).stopPrefetch t m3
       | (_, s) => s.stopPrefetch t m3)
    | (e, s) =>
      if x.landing = some m3 && x.trap.isNone then
        let s := s.fetchFails t a e
        if (s.thread t).fault.isSome then s else s.stopPrefetch t m3
      else s.stopPrefetch t m3
  else s)

/-- The next word of a thread is not in its quad's fetch buffers, and nothing else holds the thread. -/
def State.fetching (s : State) (t : TRef) : Bool :=
  let x := s.thread t
  x.live && s.resident t.team && x.trap.isNone && x.fault.isNone && x.shed.isNone && !x.isLanding && !s.asking t &&
    (s.nextWord t).isNone

/-- INSTRUCTION_FETCH_DONE: the line at a thread's pc is fetched, or the fetch raises its trap before the first
instruction there (R165, R167, R320). -/
def execInstructionFetchDone (t : TRef) (s : State) : Out :=
  .next (if s.fetching t then
    let pc := (s.thread t).pc
    match s.fetchAt t (s.domainOf t) pc with
    | (.line l, s) => s.addFetchLine l
    | (.ask l y, s) => s.askCode t l y
    | (e, s) => s.fetchFails t pc e
  else s)

/-- A return-stack transfer that may run: a spill of the oldest entry beyond four, or a fill (R168, R169). -/
def State.stackTransferDue (s : State) (t : TRef) (fill : Bool) : Bool :=
  let x := s.thread t
  x.live && s.resident t.team &&
    !(s.faults.any fun f => f.source = .background t.team t.gid && !f.notice) &&
    (if fill then x.ret.length < 2 && 0 < x.n else 4 < x.ret.length)

/-- A background transfer meets a fault: the group waits for it, or every live thread of the group gets
ACCESS_VIOLATION (R153, R320). -/
def State.backgroundFault (s : State) (t : TRef) (x : Xl) (acc : Acc) (va : W64) : Bool × State :=
  match s.openFault (.background t.team t.gid) (s.worldOf t) (s.domainOf t) x acc va 0 0 with
  | (.wait _, s) => (true, s)
  | (.deny _, s) =>
    (false, (s.liveOfGroup t.team t.gid).foldl (fun s u => s.raiseAsync u trapAccessViolation va) s)

/-- RETURN_STACK_TRANSFER: a spill or a fill of one entry at thread scope (R153, R169). A fill from a poisoned line raises
POISON in its thread (R147; DEDUCED, log entry 115). -/
def execReturnStackTransfer (t : TRef) (fill : Bool) (s : State) : Out :=
  .next (if s.stackTransferDue t fill then
    let x := s.thread t
    let a := x.retbase + BitVec.ofNat 64 (8 * (if fill then x.n - 1 else x.n))
    let acc : Acc := if fill then .read else .write
    let drop := fun (s : State) => s.setThread t fun x =>
      if fill then x else { x with ret := x.ret.drop 1, n := x.n + 1 }
    if !canonical a then
      drop ((s.liveOfGroup t.team t.gid).foldl (fun s u => s.raiseAsync u trapAccessViolation a) s)
    else
      match s.translateRun (s.xctx t) acc a 8 [] with
      | (.inr (e, i), s) =>
        match s.backgroundFault t e acc (a + BitVec.ofNat 64 i) with
        | (true, s) => s
        | (false, s) => drop s
      | (.inl ls, s) =>
        let s := if fill then s.openLines ls a else s
        if fill && s.anyOwned ls then s
        else if fill && ls.any (s.poisonedFor (s.coreOf t)) then (if x.handler then s else s.raiseAsync t trapPoison a)
        else if fill then
          let e := BitVec.ofNat 64 (ofBytes (ls.map (s.seenByte (s.coreOf t))))
          s.setThread t fun x => { x with ret := e :: x.ret, n := x.n - 1 }
        else
          let s := s.storeNarrow t x.seq 0 a (ls.zip (toBytes (x.ret.headD 0).toNat 8)) false
          drop s
  else s)

end Sys2Proof.Machine
end

