-- ==== Sys2Proof/Machine/LoadStore.lean ====
section
/-! DEFINITION. Loads, stores, spills, fences and cache operations of group 0x3 (R131 to R156). Each instruction is
checked at its issue (its `launch`) and has its effect when MEMORY_ACCESS_COMPLETE performs it. -/

namespace Sys2Proof.Machine

/-! ### Stack accesses (R151 to R153) -/

/-- Writes back the line of a full window that lies furthest above its own thread's %sp (R152): a write at thread scope,
whose fault is the group's (R153). -/
def State.writeBackFurthest (s : State) (w : Window) : State :=
  match s.furthest w with
  | none => s
  | some x =>
    let t : TRef := ⟨w.team, w.gid, x.lane⟩
    let a := BitVec.ofNat 64 (128 * x.vline)
    let s := s.setWindow w.team w.gid fun y => { y with lines := y.lines.filter (· ≠ x) }
    match s.translate (s.xctx t) .write a with
    | (.ok _, s) => s
    | (e, s) => (s.backgroundFault t e .write a).2

/-- A stack access touches a line: where it is new in the group's window it enters it, and a full window writes a line back
first (R152). -/
def State.touchLine (s : State) (t : TRef) (va : W64) (l : Loc) : State :=
  match s.window? t.team t.gid with
  | none => s
  | some w =>
    if !l.isLocal || w.lines.any (·.line = l.line) then s
    else
      let s := if w.lines.length < 32 then s else s.writeBackFurthest w
      s.setWindow t.team t.gid fun y => { y with lines := y.lines ++ [⟨l.line, va.toNat / 128, t.lane⟩] }

/-- What a checked access of consecutive bytes does to the stack cache (R151, R152): nothing where its address lies outside
the thread's data stack. -/
def State.stackAccess (s : State) (t : TRef) (va : W64) (ls : List Loc) : State :=
  if (s.thread t).inStack va then
    (List.range ls.length).foldl (fun s i => s.touchLine t (va + BitVec.ofNat 64 i) (ls.getD i ⟨false, 0⟩)) (s.needWindow t)
  else s

/-! ### Loads, line by line (R136, R408) -/

/-- The lowest line in which an access has bytes left to read: a line is read at one moment (R136; DEDUCED, log entry 31). -/
def Op.nextLine (o : Op) : Option Nat :=
  match o.unread.map (·.line) with
  | [] => none
  | n :: ns => some (ns.foldl min n)

/-- An operation of an issue still has bytes of a line to read; all of them take part in the request for the line. -/
def Op.reads (o : Op) (iss line : Nat) : Bool :=
  o.iss = iss && isLoad o.instr && (o.phase = .pending || o.phase = .recall || o.phase = .remote) &&
    o.unread.any (·.line = line)

/-- Reads a line for every load of an issue at one moment (R136): each operation takes its bytes of the line. -/
def State.readLine (s : State) (iss line : Nat) : State :=
  { s with ops := s.ops.map fun (p : Op) =>
      if p.reads iss line then
        { p with data := p.data ++ (p.unread.filter (·.line = line)).map fun l => 256 * l.key + (s.loadByte p l).toNat }
      else p }

/-- The bytes of a line that the loads of an issue ask a peer for. -/
def State.lineBytes (s : State) (iss line : Nat) : List Loc :=
  (s.ops.filter fun p => p.reads iss line).flatMap fun p => p.unread.filter (·.line = line)

/-- The one request for a line of a peer (R136, R408): from the first to the last of the bytes that the loads of the issue
read. -/
def State.askLine (s : State) (o : Op) (line : Nat) : State :=
  let ls := s.lineBytes o.iss line
  let lo := (ls.map (·.addr)).foldl min ((ls.headD ⟨false, 0⟩).addr)
  let hi := (ls.map (·.addr)).foldl max lo
  let s := s.request o.id 0 (s.coreOf o.who) (s.worldOf o.who) flRead ⟨false, lo⟩ (hi + 1 - lo) []
  { s with ops := s.ops.map fun (p : Op) => if p.reads o.iss line then { p with phase := .remote } else p }

/-- A line of a peer is asked for once the core's buffer holds none of the bytes (R80). -/
def State.lineReady (s : State) (o : Op) : Bool :=
  match o.nextLine with
  | none => true
  | some n => !(o.unread.any fun l => l.line = n && l.isPeer) || !s.bufferedAt (s.coreOf o.who) (s.lineBytes o.iss n)

/-- Reads the next line of a load, or asks a peer for it. -/
def State.readNext (s : State) (o : Op) (line : Nat) : State :=
  if o.unread.any fun l => l.line = line && l.isPeer then s.askLine o line else s.readLine o.iss line

/-- A load passes its checks, or fails one. A check that stands behind elements in peer memory waits until the peer has
answered for these, since their poison comes first (R145): the load is then checked again (`c` is 1). -/
def State.checked (s : State) (o : Op) (r : Option Bad × List Loc) (fail : State → Bad → State)
    (go : State → List Loc → State) : State :=
  match r.1 with
  | none => go s r.2
  | some b =>
    if r.2.any fun l => l.isPeer && (o.received l).isNone then
      s.setOp o.id fun y => { y with locs := r.2.filter (·.isPeer), c := 1 }
    else fail s b

/-! ### LD and ST -/

def State.eaOp (o : Op) : W64 := BitVec.ofNat 64 o.a

/-- What LD writes: R39 for one element, the elements side by side for a vector (R132). -/
def loadValue (f : MemF) (v : Nat) : Nat :=
  if f.vec = 0 then destValue f.d f.ty.bits f.ty.isSigned v else v

/-- The checks of LD, and its way to memory (R141, R145, R356). -/
def State.launchLd (f : MemF) (s : State) (o : Op) : State :=
  let (r, s) := s.checkElems (s.opCtx o) .read (f.order ≠ .relaxed) true (f.ty.bits / 8) (State.eaOp o) (vecCount f.vec) []
  s.checked o r (fun s b => s.fails o b) fun s ls =>
    let s := ((s.protect o.who ls f.evict).stackAccess o.who (State.eaOp o) ls).setOp o.id fun y =>
      { y with locs := ls, c := 0, phase := .pending }
    if ls.any (s.rmwCovers o.who.team) then s.atTurn o false else s

/-- LD (R141). -/
def execLd (f : MemF) (s : State) : Out :=
  .next (s.memIssue (.ld f) f (fun s t => ((s.eaOf t f).toNat, 0, 0, 0)) (State.launchLd f))

/-- Lines that the stores of an issue cover whole (R147). -/
def State.wholeLines (s : State) (iss : Nat) : List Nat :=
  let ls := (s.ops.filter fun p => p.iss = iss && p.phase = .pending).flatMap (·.locs)
  ((ls.map (·.line)).eraseDups).filter fun n => 128 ≤ ((ls.filter (·.line = n)).eraseDups).length

/-- Stages some bytes of a store as far as the quota goes; the rest waits for the team's turn (R355, R357). -/
def State.stageStore (s : State) (o : Op) (bs : List (Loc × Byte)) : State :=
  let (rest, s) := s.stageBytes o.who o.iss (byUnit bs)
  if rest.isEmpty then s.setOp o.id fun y => { y with locs := [], data := [], phase := .result }
  else
    (s.setOp o.id fun y => { y with locs := rest.map (·.1), data := rest.map (·.2.toNat) }).atTurn o false

/-- The checks of ST; a staged store is complete with its entries (R141, R145, R354). -/
def State.launchSt (f : MemF) (s : State) (o : Op) : State :=
  let n := vecCount f.vec
  let e := f.ty.bits / 8
  match s.checkElems (s.opCtx o) .write (f.order ≠ .relaxed) false e (State.eaOp o) n [] with
  | ((some b, _), s) => s.fails o b
  | ((none, ls), s) =>
    let s := ((s.protect o.who ls f.evict).stackAccess o.who (State.eaOp o) ls).setOp o.id fun y =>
      { y with locs := ls, phase := .pending }
    if s.stages o.who (State.eaOp o) then s.stageStore o (ls.zip (toBytes o.b (e * n))) else s

/-- The data operand of ST (R132). -/
def State.storeData (s : State) (t : TRef) (f : MemF) : Nat :=
  if f.vec = 0 then s.operand t f.b f.ty else s.rawOpnd t f.b

/-- ST (R141). -/
def execSt (f : MemF) (s : State) : Out :=
  .next (
    let s := s.memIssue (.st f) f (fun s t => ((s.eaOf t f).toNat, s.storeData t f, 0, 0)) (State.launchSt f)
    let whole := s.wholeLines s.issue.id
    if whole.isEmpty then s
    else { s with ops := s.ops.map fun (y : Op) =>
      if y.iss = s.issue.id ∧ y.phase = .pending then { y with data := whole } else y })

/-- A write of a thread carries a release mark: a release at team scope or narrower, or any write after such a
release fence (R86). -/
def State.releaseMark (s : State) (o : Op) (f : MemF) : Bool :=
  (scopeNarrow f.scope && orderReleases f.order) || (s.thread o.who).marking

/-- Performs or buffers the bytes of a checked write, in pieces of some bytes (R69, R73, R84). -/
def State.putWrite (s : State) (o : Op) (f : MemF) (va : W64) (piece : Nat) (bs : List (Loc × Byte)) (whole : List Nat) :
    State :=
  let mark := s.releaseMark o f
  let n := ceilDiv bs.length piece
  if scopeNarrow f.scope then
    let s := s.setOp o.id fun y => { y with phase := .result }
    let s := (List.range n).foldl (fun s i =>
      s.storeNarrow o.who o.seq o.id (va + BitVec.ofNat 64 (piece * i)) ((bs.drop (piece * i)).take piece) mark o.iss whole) s
    s.clearWhole o.iss whole whole
  else
    let s := s.setOp o.id fun y => { y with phase := .buffered }
    (List.range n).foldl (fun s i =>
      s.buffer o.who o.seq o.id ((bs.drop (piece * i)).take piece) mark o.iss whole) s

/-- Performs a checked store: at a narrow scope it is complete in the core write buffer or the stack window, at a
wider one when its entries have drained (R73, R74, R152). Unaligned elements are split into their bytes (R69, R133). -/
def State.performSt (s : State) (o : Op) (f : MemF) : State :=
  let e := f.ty.bits / 8
  let s := s.putWrite o f (State.eaOp o) (if o.a % e = 0 then e else 1) (o.locs.zip (toBytes o.b (e * vecCount f.vec))) o.data
  if scopeNarrow f.scope then s.finishWrite o (storeItems o f) else s

/-! ### LDK -/

/-- An LDK traps in every active lane, or waits for a fault (R142, R146). -/
def State.failsLdk (s : State) (o : Op) : Bad → State
  | .trap code addr => s.groupTrap o code 0 addr
  | .fault x acc va elem =>
    let (r, s) := s.openFault (.thread o.who) (s.worldOf o.who) o.domain x acc va o.pc 0
    match r with
    | .wait n => s.awaitFault o n elem
    | .deny v => s.groupTrap o (denyCode v) 0 elem

/-- The one access of an LDK (R142). -/
def State.launchLdk (f : MemF) (s : State) (o : Op) : State :=
  let (r, s) := s.checkElems (s.opCtx o) .read true true 4 (State.eaOp o) (f.d.w.bits / 32) []
  s.checked o r (fun s b => s.failsLdk o b) fun s ls =>
    let s := (s.protect o.who ls f.evict).stackAccess o.who (State.eaOp o) ls
    let s := { s with ops := s.ops.map fun (y : Op) =>
      if y.lead = o.id ∨ y.id = o.id then { y with locs := ls, c := 0, phase := .pending } else y }
    if ls.any (s.rmwCovers o.who.team) then (s.ops.filter fun p => p.lead = o.id).foldl (fun s p => s.atTurn p false) s
    else s

/-- LDK (R142): an operation in every live thread of the group, and one access at the address of the lowest active
lane. -/
def execLdk (f : MemF) (s : State) : Out :=
  .next (s.groupIssue (.ldk f) f.toCommon (fun s t => ((s.eaOf t f).toNat, 0, 0)) (State.launchLdk f))

/-- The loaded registers are written, and the LDK completes in every thread (R142). -/
def State.performLdk (s : State) (o : Op) (f : MemF) : State :=
  let s := s.writeUniLate o f.d.start.toNat f.d.w.bits o.loaded
  (s.ops.filter fun p => p.lead = o.id).foldl State.complete s

/-! ### SPILL and FILL -/

/-- First byte and number of bytes of a range of slices (R155), exactly. -/
def State.spillBytes (f : MemF) (sp : W64) : Int × Nat :=
  (sp.toNat + sextN f.offset.toNat 24, ceilDiv (f.b.start - f.a.start + 1) 2)

/-- Step 1 of R145 for SPILL and FILL: %sp is aligned, and no byte lies outside [%stklim, b). -/
def Thread.spillTrap (x : Thread) (sp : W64) (p : Int) (n : Nat) : Option (BitVec 8) :=
  if bits sp.toNat 0 4 ≠ 0 then some trapMisaligned
  else if (x.stklim.toNat : Int) ≤ p && p + n ≤ x.base.toNat then none
  else some trapStackLimit

/-- The checks of SPILL and FILL (R145, R155). A trap of step 1 records the first byte's address (DEDUCED, log entry 111). -/
def State.launchSpill (f : MemF) (acc : Acc) (s : State) (o : Op) : State :=
  let (p, n) := State.spillBytes f (BitVec.ofNat 64 o.x)
  let a := BitVec.ofInt 64 p
  match (s.thread o.who).spillTrap (BitVec.ofNat 64 o.x) p n with
  | some code => s.trapOp o code 0 a
  | none =>
    let (r, s) := s.checkElems (s.opCtx o) acc false (acc = .read) 1 a n []
    s.checked o (if acc = .read then r else (r.1, if r.1.isSome then [] else r.2)) (fun s b => s.fails o b) fun s ls =>
      ((s.protect o.who ls f.evict).stackAccess o.who a ls).setOp o.id fun y => { y with locs := ls, c := 0, phase := .pending }

/-- SPILL (R155). -/
def execSpill (f : MemF) (s : State) : Out :=
  .next (s.memIssue (.spill f) f
    (fun s t => (0, ofBytes (s.packSlices t f.a.start (f.b.start - f.a.start + 1)), 0, (s.thread t).sp.toNat))
    (State.launchSpill f .write))

/-- FILL (R155). -/
def execFill (f : MemF) (s : State) : Out :=
  .next (s.memIssue (.fill f) f (fun s t => (0, 0, 0, (s.thread t).sp.toNat)) (State.launchSpill f .read))

def State.performSpill (s : State) (o : Op) (f : MemF) : State :=
  let (p, n) := State.spillBytes f (BitVec.ofNat 64 o.x)
  let s := s.putWrite o f (BitVec.ofInt 64 p) 1 (o.locs.zip (toBytes o.b n)) []
  if scopeNarrow f.scope then s.complete o else s

/-- The nibbles that FILL has read go to its slices; a pad nibble is ignored (R155). -/
def State.performFill (s : State) (o : Op) (f : MemF) : State :=
  let n := f.b.start - f.a.start + 1
  (s.writeLate o f.a.start (4 * n) (o.loaded % 2 ^ (4 * n))).complete o

/-! ### SALLOC -/

/-- SALLOC (R154): the checks and the new %sp at issue, D at completion. The new value is exact: one below 0 or above
2^64 - 1 lies outside the stack. A trap of step 1 records address 0 (DEDUCED, log entry 111). -/
def execSalloc (f : MemF) (s : State) : Out :=
  .next (s.memIssue (.salloc f) f (fun s t => (0, s.opnd t f.a f.ty, 0, (s.thread t).sp.toNat)) fun s o =>
    let n : Int := o.x - sextN o.b 64
    let x := s.thread o.who
    if n % 16 ≠ 0 then s.trapOp o trapMisaligned 0 0
    else if n < x.stklim.toNat || x.base.toNat < n then s.trapOp o trapStackLimit 0 0
    else
      (s.setThread o.who fun y => { y with sp := BitVec.ofInt 64 n }).setOp o.id fun y =>
        { y with phase := .result, data := [n.toNat] })

/-! ### FENCE, PREF and CMO -/

/-- FENCE (R148). -/
def execFence (f : MemF) (s : State) : Out :=
  .next (s.memIssue (.fence f) f (fun _ _ => (0, 0, 0, 0)) fun s _ => s)

/-- The conditions on which a fence completes (R148). -/
def State.fenceDone (s : State) (o : Op) (f : MemF) : Bool :=
  (!orderAcquires f.order || (s.earlier o).all fun p => !isReading p.instr) &&
    (!orderReleases f.order || s.released o f.scope) &&
    (!(orderAcquires f.order && f.scope = .deviceRemote) || s.markDrainable s.marks)

/-- A fence completes. A device-remote acquire fence calls in every marked release (R86). -/
def State.performFence (s : State) (o : Op) (f : MemF) : State :=
  let s := if orderAcquires f.order && f.scope = .deviceRemote then s.flush fun e => s.marks.any (·.covers e) else s
  let s := if orderReleases f.order then s.setThread o.who fun x => { x with marking := scopeNarrow f.scope } else s
  s.complete o

/-- The lines of PREF and CMO, from the line that holds EA (R149, R150). -/
def lineAddrs (f : MemF) (ea : W64) : List W64 :=
  (List.range (vecCount f.vec)).map fun i => ea - BitVec.ofNat 64 (ea.toNat % 128) + BitVec.ofNat 64 (128 * i)

/-- PREF (R149). -/
def execPref (f : MemF) (s : State) : Out :=
  .next (s.memIssue (.pref f) f (fun s t => ((s.eaOf t f).toNat, 0, 0, 0)) fun s _ => s)

/-- The cached translation of an address for a read. -/
def State.cached (s : State) (c : XCtx) (a : W64) : Option Loc :=
  ((s.tlb.find? fun (x : Xlat) => x.core = c.core && x.hits c .read a.toNat).map fun x => x.place a.toNat)

/-- PREF keeps lines that translate from the TLB and lie in memory; every other request is dropped (R149). -/
def State.performPref (s : State) (o : Op) (f : MemF) : State :=
  let ls := (lineAddrs f (State.eaOp o)).filterMap fun a => if canonical a then s.cached (s.opCtx o) a else none
  (s.protect o.who (ls.filter fun l => !l.host && !s.ownedLine l.line) f.evict).complete o

/-- CMO (R150): each line is checked and translated as a read. -/
def State.launchCmo (f : MemF) (s : State) (o : Op) : State :=
  let r := (lineAddrs f (State.eaOp o)).foldl (fun (r : (List Loc ⊕ Bad) × State) a =>
    match r with
    | (.inr b, s) => (.inr b, s)
    | (.inl ls, s) =>
      match s.checkElem (s.opCtx o) .read false false a 1 with
      | (.inr b, s) => (.inr b, s)
      | (.inl l, s) => (.inl (ls ++ l), s)) (.inl [], s)
  match r with
  | (.inr b, s) => s.fails o b
  | (.inl ls, s) => s.setOp o.id fun y => { y with locs := ls, phase := .pending }

def execCmo (f : MemF) (s : State) : Out :=
  .next (s.memIssue (.cmo f) f (fun s t => ((s.eaOf t f).toNat, 0, f.c.immVal, 0)) (State.launchCmo f))

/-- Writes to peers in one of the lines are not acknowledged. -/
def State.linesAwaited (s : State) (ls : List Nat) : Bool :=
  s.remotes.any fun r => r.kind = flWrite && !r.done && ls.contains (Loc.line ⟨false, r.addr⟩)

/-- CMO on lines that no engine owns: .wb and .evict drain every buffer's bytes of them, .evict and .unkeep remove
their protection; complete once peers have accepted what they were sent (R150). -/
def State.performCmo (s : State) (o : Op) : State :=
  let lines := o.locs.map (·.line)
  let s := if o.c < 2 then s.flush fun e => e.bytes.any fun x => lines.contains x.1.line else s
  let s := if o.c = 0 then s else { s with prot := s.prot.filter fun p => !lines.contains p.line }
  let s := if o.c = 1 then
      { s with windows := s.windows.map fun (w : Window) => { w with lines := w.lines.filter fun x => !lines.contains x.line } }
    else s
  if o.c < 2 && s.linesAwaited lines then s else s.complete o

end Sys2Proof.Machine
end

