-- ==== Sys2Proof/Machine/Atomics.lean ====
section
/-! DEFINITION. Atomics of group 0x3, the completion of every access of the group, and the background steps of the
load-store engine (R70, R136, R143, R144, R152, R153). -/

namespace Sys2Proof.Machine

/-- A floating atomic (R143): rounded to nearest even, subnormals kept, no flag. -/
def atomFloat (ty : Ty) (op m b : Nat) : Nat :=
  let F := fmtOf ty
  let x := (F.input false m).1
  let y := (F.input false b).1
  match op with
  | 0 => (F.add .rne false x y).1
  | 1 => (F.minMax false x y m b).1
  | 2 => (F.minMax true x y m b).1
  | _ => b

/-- The new value of an atomic operation (R143). -/
def atomNew (ty : Ty) (op m b : Nat) : Nat :=
  let w := ty.bits
  if ty.isFloat then atomFloat ty op m b
  else
    match op with
    | 0 => wrapN (m + b) w
    | 1 => if intOf ty m ≤ intOf ty b then m else b
    | 2 => if intOf ty b ≤ intOf ty m then m else b
    | 3 => m &&& b
    | 4 => m ||| b
    | 5 => m ^^^ b
    | 6 => b
    | 7 => if b ≤ m then 0 else m + 1
    | 8 => if m = 0 || b < m then b else m - 1
    | _ => wrapN (satOf ty (intOf ty m + intOf ty b)) w

/-- The value that an atomic instruction writes over m; none for a failed CAS (R143). -/
def rmwNew (i : Instr) (m b c : Nat) : Option Nat :=
  match i with
  | .atom f => some (atomNew f.ty f.c.immVal m b)
  | .atomr f => some (atomNew f.ty f.c.immVal m b)
  | .cas _ => if m = b then some c else none
  | _ => none

/-- An atomic that PCIe carries to host memory (R144). -/
def hostAtomic (i : Instr) : Bool :=
  match i with
  | .atom f => 32 ≤ f.ty.bits && ((f.c.immVal = 0 && f.ty.isInt) || f.c.immVal = 6)
  | .atomr f => 32 ≤ f.ty.bits && ((f.c.immVal = 0 && f.ty.isInt) || f.c.immVal = 6)
  | .cas _ => true
  | _ => false

/-- Stages a checked atomic, or stops its thread where the quota is full (R354, R355, R357). -/
def State.stageAtomic (s : State) (o : Op) (f : MemF) (l : Loc) : State :=
  if s.quotaFull o.who then (s.setOp o.id fun y => { y with x := 1 }).atTurn o false
  else
    let s := (s.setOp o.id fun y => { y with x := 0 }).stageRmw o l (f.ty.bits / 8) o.b o.c
    match o.instr with
    | .atom _ => s.setOp o.id fun y => { y with phase := .result }
    | _ => s.atTurn o false

/-- The checks of ATOM, ATOMR and CAS (R143 to R145). -/
def State.launchRmw (f : MemF) (s : State) (o : Op) : State :=
  match s.checkElem (s.opCtx o) .rmw true true (State.eaOp o) (f.ty.bits / 8) with
  | (.inr b, s) => s.fails o b
  | (.inl ls, s) =>
    let l := ls.headD ⟨false, 0⟩
    if l.host && !hostAtomic o.instr then s.trapOp o trapAccessViolation 0 (State.eaOp o)
    else
      let s := if f.evict = 5 then s else s.protect o.who ls f.evict
      let s := (s.stackAccess o.who (State.eaOp o) ls).setOp o.id fun y => { y with locs := ls, phase := .pending }
      if s.stages o.who (State.eaOp o) then s.stageAtomic o f l else s

def State.rmwSample (f : MemF) (s : State) (t : TRef) : Nat × Nat × Nat × Nat :=
  ((s.eaOf t f).toNat, s.operand t f.b f.ty, f.c.immVal, 0)

/-- ATOM (R143). -/
def execAtom (f : MemF) (s : State) : Out :=
  .next (s.memIssue (.atom f) f (State.rmwSample f) (State.launchRmw f))

/-- ATOMR (R143). -/
def execAtomr (f : MemF) (s : State) : Out :=
  .next (s.memIssue (.atomr f) f (State.rmwSample f) (State.launchRmw f))

/-- CAS (R143). -/
def execCas (f : MemF) (s : State) : Out :=
  .next (s.memIssue (.cas f) f
    (fun s t => ((s.eaOf t f).toNat, s.operand t f.b f.ty, s.operand t f.c f.ty, 0)) (State.launchRmw f))

/-- An atomic is complete with the value that it has read: a destination is written, and what it has written joins the
fold of its issue (R143, R375). -/
def State.finishRmw (s : State) (o : Op) (f : MemF) (m : Nat) : State :=
  let s := match o.instr with
    | .atom _ => s
    | _ => s.writeLate o f.d.start.toNat f.d.w.bits (destValue f.d f.ty.bits f.ty.isSigned m)
  s.finishWrite o (match rmwNew o.instr m o.b o.c with
    | some v => [(State.eaOp o, v, f.ty.bits / 8)]
    | none => [])

/-- Writes the new value of an RMW at its home (R70). A release mark that its bytes carry stays, since the RMW continues the
release sequence; its own release adds one (R86). -/
def State.rmwWrite (s : State) (ls : List Loc) (v : Option Nat) (release : Bool) (core : Nat) : State :=
  match v with
  | none => s
  | some v =>
    let s := s.writeBytes (ls.zip (toBytes v ls.length))
    if release then { s with ids := s.ids + 1, marks := s.marks ++ ls.map fun l => ⟨l, core, s.ids⟩ } else s

/-- What a request for an RMW carries: operation (15 for CAS), type code, operand and new value (DESIGN CHOICE, log entry 20). -/
def rmwPayload (i : Instr) (b c : Nat) : List Byte :=
  match i with
  | .atom f => toBytes f.c.immVal 1 ++ toBytes f.ty.code 1 ++ toBytes 0 6 ++ toBytes b 8 ++ toBytes 0 8
  | .atomr f => toBytes f.c.immVal 1 ++ toBytes f.ty.code 1 ++ toBytes 0 6 ++ toBytes b 8 ++ toBytes 0 8
  | .cas f => toBytes 15 1 ++ toBytes f.ty.code 1 ++ toBytes 0 6 ++ toBytes b 8 ++ toBytes c 8
  | _ => []

/-- Performs one atomic at its home, sends it to a peer, or leaves it held by the tollgate (R144, R374). -/
def State.performRmw (s : State) (o : Op) (f : MemF) : State :=
  let l := o.locs.headD ⟨false, 0⟩
  if l.isPeer then
    (s.request o.id 0 (s.coreOf o.who) (s.worldOf o.who) flRmw l o.locs.length (rmwPayload o.instr o.b o.c)).setOp o.id
      fun y => { y with phase := .remote }
  else
    match s.tollgate o.who l with
    | .hold => s.setOp o.id fun y => { y with phase := .hold, since := s.clock }
    | .pass s =>
      let m := ofBytes (o.locs.map s.memByte)
      (s.rmwWrite o.locs (rmwNew o.instr m o.b o.c) (s.releaseMark o f) (s.coreOf o.who)).finishRmw o f m

/-- An atomic may be performed: its release condition holds, and its own core's buffer holds no byte of it (R74,
R80). -/
def State.rmwReady (s : State) (o : Op) (f : MemF) : Bool :=
  (!orderReleases f.order || s.released o f.scope) && !s.bufferedAt (s.coreOf o.who) o.locs

/-- The atomics of an issue on one line, in ascending home lane (R136). -/
def State.performTogether (s : State) (o : Op) : State :=
  (List.range 32).foldl (fun s l =>
    match (s.together o).find? fun p => p.who.lane = l with
    | some p =>
      match memFields p.instr with
      | some f => if s.rmwReady p f && !s.rmwBehind p then s.performRmw p f else s
      | none => s
    | none => s) s

/-! ### Completion -/

/-- A pending or finished access may complete. -/
def State.accessDue (s : State) (o : Op) : Bool :=
  match o.phase with
  | .pending =>
    (match o.instr with
     | .ld _ | .ldk _ | .fill _ => o.lead = o.id && s.lineReady o
     | .pref _ => o.lead = o.id
     | .st f => (!orderReleases f.order || s.released o f.scope) && !s.behindLower o
     | .spill _ => true
     | .atom f | .atomr f | .cas f => s.rmwReady o f && !s.rmwBehind o
     | .fence f => s.fenceDone o f
     | .cmo _ => !s.anyOwned o.locs && !(s.linesAwaited (o.locs.map (·.line)))
     | _ => false)
  | .result =>
    (match o.instr with
     | .st f | .atom f => !orderReleases f.order || s.released o .team
     | .salloc _ => true
     | _ => false)
  | _ => false

/-- A load takes its next line, is checked again, or completes with what it has read (R136, R141, R142, R155). -/
def State.performLoad (s : State) (o : Op) : State :=
  match o.nextLine with
  | some n => s.readNext o n
  | none =>
    match o.instr with
    | .ld f => if o.c = 1 then s.launchLd f o else s.completeWith o (loadValue f o.loaded)
    | .ldk f => if o.c = 1 then s.launchLdk f o else s.performLdk o f
    | .fill f => if o.c = 1 then s.launchSpill f .read o else s.performFill o f
    | _ => s

/-- Performs an access that is due (R136, R141 to R144, R148 to R155). -/
def State.performAccess (s : State) (o : Op) : State :=
  match o.phase, o.instr with
  | .result, .st f => s.finishWrite o (storeItems o f)
  | .result, .salloc _ => s.completeWith o (o.data.headD 0)
  | .result, _ => s.complete o
  | _, .ld _ | _, .ldk _ | _, .fill _ => s.performLoad o
  | _, .st f => s.performSt o f
  | _, .spill f => s.performSpill o f
  | _, .atom _ => s.performTogether o
  | _, .atomr _ => s.performTogether o
  | _, .cas _ => s.performTogether o
  | _, .fence f => s.performFence o f
  | _, .pref f => s.performPref o f
  | _, .cmo _ => s.performCmo o
  | _, _ => s

/-- The instruction reads or RMWs memory, so that an owned or marked line has to be recalled first (R22, R86). -/
def recallKind : Instr → Option MemF
  | .ld f | .ldk f | .fill f | .atom f | .atomr f | .cas f => some f
  | _ => none

/-- An access to host memory while the host link is down: it ends as one to a lost target (R409, R466). -/
def State.loseHost (s : State) (o : Op) : State :=
  let a := BitVec.ofNat 64 o.a
  let s := s.lostNotice (s.worldOf o.who) a
  match o.instr with
  | .ldk _ => s.groupTrap o trapAccessViolation 0 a
  | .st _ | .spill _ | .pref _ | .cmo _ => s.performAccess o
  | _ => s.trapOp o trapAccessViolation 0 a

/-- MEMORY_ACCESS_COMPLETE: an access is performed, or meets an owned line or a marked release and waits for the
recall (R20, R22, R74, R86, R88). -/
def execMemoryAccessComplete (n : Nat) (s : State) : Out :=
  .next (match s.op? n with
    | none => s
    | some o =>
      if !s.accessDue o then s
      else if s.hostLost o.locs then s.loseHost o
      else if o.phase = .pending && (recallKind o.instr).any (s.needsRecall o) then
        s.setOp n fun y => { y with phase := .recall }
      else s.performAccess o)

/-- WRITE_BUFFER_DRAIN: an entry reaches the home of its line (R67, R73, R84). -/
def execWriteBufferDrain (n : Nat) (s : State) : Out :=
  .next (match s.wbuf.find? fun (e : BufEntry) => e.id = n with
    | some e => if s.canDrain e then s.flush fun x => x.id = n else s
    | none => s)

/-! ### Stack windows -/

/-- The lowest live thread of a group whose data stack holds an address, in a group that has a window and no open background
fault (R152, R153). -/
def State.stackThread (s : State) (team gid : Nat) (a : W64) : Option TRef :=
  if s.resident team && (s.window? team gid).isSome &&
      !(s.faults.any fun f => f.source = .background team gid && !f.notice) then
    (s.liveOfGroup team gid).find? fun t => (s.thread t).inStack a
  else none

/-- A line of a group's data stack enters its window: as a read at thread scope (R152, R153). -/
def State.fillWindow (s : State) (t : TRef) (a : W64) : State :=
  if !canonical a then
    (s.liveOfGroup t.team t.gid).foldl (fun s u => s.raiseAsync u trapAccessViolation a) s
  else
    match s.translate (s.xctx t) .read a with
    | (.ok l, s) =>
      if !l.isLocal || (s.window? t.team t.gid).any (fun w => w.lines.any (·.line = l.line)) then s
      else s.setWindow t.team t.gid fun w => { w with lines := w.lines ++ [⟨l.line, a.toNat / 128, t.lane⟩] }
    | (x, s) => (s.backgroundFault t x .read a).2

/-- STACK_WINDOW_TRANSFER: the background fill of a line of a group's data stack into its window, or the write-back of the
line that lies furthest above its thread's %sp, at thread scope (R152, R153). `line` is the virtual line number. -/
def execStackWindowTransfer (team gid line : Nat) (s : State) : Out :=
  let a := BitVec.ofNat 64 (128 * line)
  .next (match s.stackThread team gid a, s.window? team gid with
    | some t, some w =>
      if w.lines.any (·.vline = line) then
        if (s.furthest w).any (·.vline = line) then s.writeBackFurthest w else s
      else if w.lines.length < 32 then s.fillWindow t a
      else s
    | _, _ => s)

end Sys2Proof.Machine
end

