-- ==== Sys2Proof/Machine/CopyRec.lean ====
section
/-! DEFINITION. Tensor layout records, the elements of a copy, and the ownership of its destination lines (R214 to
R220, R224, R229). -/

namespace Sys2Proof.Machine

/-! ### Records (R214, R215) -/

def recBase (r : Nat) : Nat := bits r 0 57
def recEw (r : Nat) : Nat := bits r 57 6
def recRank (r : Nat) : Nat := bits r 64 3
def recSwz (r : Nat) : Nat := bits r 67 3
def recEnc (r : Nat) : Bool := bit r 70
def recOob (r : Nat) : Nat := bits r 72 8
def recTensor (r : Nat) : Nat := bits r 80 32
def recDim (r i : Nat) : Nat := bits r (128 + 32 * i) 32

/-- Stride of dimension i, in elements; dimension 0 has stride 1. -/
def recStride (r i : Nat) : Nat := if i = 0 then 1 else bits r (288 + 40 * (i - 1)) 40

def recBoxField (r i : Nat) : Nat := bits r (448 + 10 * i) 10

/-- Box extent; 1 in dimensions beyond the rank. -/
def recBox (r i : Nat) : Nat := if i < recRank r then recBoxField r i else 1

/-- Malformed (R215). -/
def recMalformed (r : Nat) : Bool :=
  bit r 63 || bit r 71 || bits r 112 16 ≠ 0 || bits r 498 14 ≠ 0 || recEw r < 2 || 32 < recEw r ||
  recRank r < 1 || 5 < recRank r ||
  ((List.range 5).any fun i =>
    if i < recRank r then recDim r i = 0 || recBoxField r i = 0
    else recDim r i ≠ 0 || recBoxField r i ≠ 0 || recStride r i ≠ 0) ||
  4 ≤ recSwz r || (recSwz r ≠ 0 && !([2, 4, 8, 16, 32].contains (recEw r)))

def recRows (r : Nat) : Nat := recBox r 1 * recBox r 2 * recBox r 3 * recBox r 4

/-- Stream bytes of one box row (R220). -/
def recRowBytes (r : Nat) : Nat := ceilDiv (recBox r 0 * recEw r) 8

/-- Delivery size (R220). -/
def recTotal (r : Nat) : Nat := recRows r * recRowBytes r

/-- The tile holds the box (R216). -/
def Tile.holds (t : Tile) (r : Nat) : Bool := t.ew = recEw r && recBox r 0 ≤ t.cols && recRows r ≤ t.rows

/-- Bit offset in a tile row at which the stagger places bit p of row r (R216). -/
def stagger (swz row p : Nat) : Nat :=
  if swz = 0 then p
  else p / 1024 * 1024 + (p % 1024 / 128 + (2 * swz - 1) * row) % 8 * 128 + p % 128

/-! ### Elements -/

/-- An element of a copy: bit address in memory, row and bit of the tile, width, and whether it is in bounds. -/
structure Elem where
  vbit : Int
  row : Nat
  tbit : Nat
  w : Nat
  inb : Bool
deriving DecidableEq, Repr

/-- Box element (row, x0) of a record copy (R216, R217). -/
def recElem (r : Nat) (c : List Int) (row x0 : Nat) : Elem :=
  let x1 := row % recBox r 1
  let x2 := row / recBox r 1 % recBox r 2
  let x3 := row / (recBox r 1 * recBox r 2) % recBox r 3
  let x4 := row / (recBox r 1 * recBox r 2 * recBox r 3)
  let p : List (Nat × Int) := (List.range (recRank r)).map fun i =>
    (i, c.getD i 0 + (([x0, x1, x2, x3, x4].getD i 0 : Nat) : Int))
  { vbit := 8 * (recBase r : Int) + recEw r * (p.foldl (fun (n : Int) (q : Nat × Int) => n + (recStride r q.1 : Int) * q.2) 0),
    row := row, tbit := stagger (recSwz r) row (x0 * recEw r), w := recEw r,
    inb := p.all fun (q : Nat × Int) => decide (0 ≤ q.2) && decide (q.2 < (recDim r q.1 : Int)) }

/-- Elements whose stream offset is one byte (R220). -/
def recElemsAt (r : Nat) (c : List Int) (o : Nat) : List Elem :=
  let b := o % recRowBytes r
  let lo := ceilDiv (8 * b) (recEw r)
  let hi := min (ceilDiv (8 * (b + 1)) (recEw r)) (recBox r 0)
  (List.range (hi - lo)).map fun i => recElem r c (o / recRowBytes r) (lo + i)

/-- Delivery size of a copy. -/
def Copy.total (c : Copy) : Nat :=
  match c.kind with
  | .box | .multi => recTotal c.record.toNat
  | _ => c.count

/-- Elements of one stream byte; s is the row image of the tile in bytes (R216, R229, R415). -/
def Copy.elemsAt (c : Copy) (s o : Nat) : List Elem :=
  match c.kind with
  | .box | .multi => recElemsAt c.record.toNat c.coords o
  | _ =>
    let k := c.tbyte + o
    [⟨8 * ((c.addr.toNat + o : Nat) : Int), k / max 1 s, 8 * (k % max 1 s), 8, true⟩]

def Copy.unitCount (c : Copy) : Nat := ceilDiv c.total 64

def Copy.unitLen (c : Copy) (u : Nat) : Nat := min 64 (c.total - 64 * u)

/-- Bytes after unit u that complete the tile element in which the unit ends; they are written with it, since a tile element
is written at one moment (R69, R213). `s` is the row image in bytes and `ew` the width of the tile's elements. -/
def Copy.extra (c : Copy) (s ew u : Nat) : Nat :=
  let o := 64 * u + c.unitLen u
  let r := 8 * ((c.tbyte + o) % max 1 s) % max 1 ew
  if c.st || r = 0 then 0 else min (ceilDiv (ew - r) 8) (c.total - o)

/-- Stream bytes that are moved with unit u of a copy without a record. -/
def Copy.span (c : Copy) (s ew u : Nat) : List Nat :=
  let lo := 64 * u + (if u = 0 then 0 else c.extra s ew (u - 1))
  (List.range (64 * u + c.unitLen u + c.extra s ew u - lo)).map (lo + ·)

/-- Elements of a delivery unit, in stream order (R220). -/
def Copy.unitElems (c : Copy) (s ew u : Nat) : List Elem :=
  match c.kind with
  | .box | .multi => (List.range (c.unitLen u)).flatMap fun i => c.elemsAt s (64 * u + i)
  | _ => (c.span s ew u).flatMap (c.elemsAt s)

/-- First and last byte address of an element, exactly (R216). -/
def Elem.lo (e : Elem) : Int := e.vbit / 8
def Elem.hi (e : Elem) : Int := (e.vbit + e.w - 1) / 8

/-- The bytes of an element have addresses of 64 bits (R216; DEDUCED, log entry 40). -/
def Elem.exact (e : Elem) : Bool := 0 ≤ e.lo && e.hi < 2 ^ 64

/-- Virtual addresses of the bytes of an element. -/
def Elem.addrs (e : Elem) : List W64 :=
  (List.range ((e.hi - e.lo).toNat + 1)).map fun (i : Nat) => BitVec.ofNat 64 (wrapN (e.lo + (i : Int)) 64)

/-- Its first address, as a fault word holds it (R222). -/
def Elem.va (e : Elem) : W64 := e.addrs.headD 0

/-- Runs of tile bits that the copy has written: the elements of the units delivered so far, but those that a poisoned line
kept from being written (R223, R469). -/
def Copy.written (c : Copy) (s ew : Nat) : List (Nat × Nat × Nat) :=
  let units := if c.kind = .multi then c.units else List.range (ceilDiv c.done 64)
  let es := units.flatMap (c.unitElems s ew)
  (es.filter fun e => !c.skipped.contains (e.row, e.tbit)).map fun e => (e.row, e.tbit, e.w)

/-! ### Translation and ownership -/

/-- Who translates for a copy. -/
def State.copyCtx (s : State) (c : Copy) : XCtx :=
  { core := (s.team c.team).core, lane := none, world := c.world, domain := c.domain }

/-- A live tensor table entry of a world (R217, R438). -/
def State.tensorOf (s : State) (w id : Nat) : Option Tensor :=
  s.tensors.find? fun t => t.world = w && t.tensor.toNat = id && !t.rekeying

/-- The tensor attribute of the page at a place (R434). -/
def State.pageTensor (s : State) (w : Nat) (l : Loc) : Nat :=
  match s.s2.find? fun m => m.world = w && !m.pull && m.pa ≤ l.addr && l.addr < m.pa + m.bytes with
  | some m => m.tensor
  | none => 0

/-- Lines that one core's copies own (R224). -/
def State.ownedBy (s : State) (core : Nat) : Nat :=
  (s.owned.filter fun x => (s.copy? x.2).any fun c => (s.team c.team).core = core).length

/-- Twelve of the ways of a line's L2 set are owned by engine writes (R224; DEDUCED, log entry 35). -/
def State.setFull (s : State) (line : Nat) : Bool :=
  12 ≤ (s.owned.filter fun x => Config.l2Set x.1 = Config.l2Set line).length

/-- Takes a destination line for a copy, where the ownership window and the line's L2 set have room and nobody owns it; the
core's own earlier writes reach it first (R22, R224). -/
def State.takeLine (s : State) (c : Copy) (line unit : Nat) : State × Copy :=
  let core := (s.team c.team).core
  if c.own.any (·.1 = line) then
    (s, { c with own := c.own.map fun x => if x.1 = line then (line, max unit x.2) else x })
  else if s.ownedLine line || 4096 ≤ s.ownedBy core || s.setFull line then (s, c)
  else
    let s := s.flush fun e => e.core = core && e.bytes.any fun x => x.1.line = line
    ({ s with owned := s.owned ++ [(line, c.id)] }, { c with own := c.own ++ [(line, unit)] })

/-- A copy to memory takes ownership of the destination lines that it can translate, in stream order (R224): at its issue,
and of those that are left before each unit. -/
def State.takeOwnership (s : State) (c : Copy) : State :=
  if !c.st || c.kind = .rput then s
  else
    let img := ((s.tile? c.tile).map (·.rowBytes)).getD 1
    let first := c.done / 64
    let (s, c) := (List.range (c.unitCount - first)).foldl (fun (sc : State × Copy) i =>
      ((c.unitElems img 8 (first + i)).filter fun e => e.inb && e.exact).foldl (fun sc e =>
        e.addrs.foldl (fun (sc : State × Copy) a =>
          if !canonical a then sc
          else
            match sc.1.translate (sc.1.copyCtx c) .write a with
            | (.ok l, s) => if l.isLocal then s.takeLine sc.2 l.line (first + i) else (s, sc.2)
            | (_, s) => (s, sc.2)) sc) sc) (s, c)
    s.setCopy c.id fun _ => c

/-- Releases the lines of a copy whose last unit is behind it. -/
def State.releaseLines (s : State) (c : Copy) (upto : Nat) : State × Copy :=
  let gone := (c.own.filter fun x => x.2 ≤ upto).map (·.1)
  ({ s with owned := s.owned.filter fun x => !(x.2 = c.id && gone.contains x.1) },
    { c with own := c.own.filter fun x => upto < x.2 })

/-! ### Channel queues -/

/-- A copy enters its channel's queue (R219). -/
def State.enqueue (s : State) (c : Copy) : State :=
  let s := { s with copies := s.copies ++ [c] }
  let s := s.setChannel c.team c.ch fun x => { x with queue := x.queue ++ [c.id] }
  if c.stopped then s else s.takeOwnership c

/-- The channel of an instruction that makes a copy or a transfer. -/
def copyChannel : Instr → Option (BitVec 4)
  | .cpy f | .cpys f | .cpya f | .cpym f => some f.ch
  | .rput f | .rget f => some f.ch
  | _ => none

/-- Copies of a channel that have issued and are not in its queue yet: they wait for their record, their claim or the copies
before them. -/
def State.atIssue (s : State) (team : Nat) (ch : BitVec 4) : List Op :=
  s.ops.filter fun o => o.who.team = team && o.lead = o.id && copyChannel o.instr = some ch &&
    (o.phase = .recall || o.phase = .remote)

/-- A channel has 32 copies that have issued and are not complete (R219): queued, armed, or still at their issue. -/
def State.queueFull (s : State) (team : Nat) (ch : BitVec 4) : Bool :=
  32 ≤ (s.channel team ch).queue.length + (s.armed.filter fun a => a.team = team && a.ch = ch).length +
    (s.atIssue team ch).length

end Sys2Proof.Machine
end

