-- ==== Sys2Proof/Machine/Barrier.lean ====
section
/-! DEFINITION. Barrier objects and their instructions (R225, R226, R231, R233 to R236). -/

namespace Sys2Proof.Machine

/-! ### Objects (R233) -/

/-- The 16 bytes of an object. -/
def State.objGet (s : State) (r : BarRef) : Nat :=
  match r with
  | .mem l => s.memNat l 16
  | .tile n o =>
    match s.tile? n with
    | some t => t.getBits (o / max 1 t.rowBytes) (8 * (o % max 1 t.rowBytes)) 128
    | none => 0

def State.objSet (s : State) (r : BarRef) (v : Nat) : State :=
  match r with
  | .mem l => s.writeNat l 16 v
  | .tile n o => s.setTile n fun t => t.setBits (o / max 1 t.rowBytes) (8 * (o % max 1 t.rowBytes)) 128 v

/-- The 16 bytes of an object as a thread of a core sees them (R67). -/
def State.objSeen (s : State) (core : Nat) (r : BarRef) : Nat :=
  match r with
  | .mem l => ofBytes ((List.range 16).map fun i => s.seenByte core (l.add i))
  | _ => s.objGet r

def BarRef.peer : BarRef → Bool
  | .mem l => l.isPeer
  | .tile _ _ => false

/-- An object as its fields. -/
structure Obj where
  arrivals : Nat
  reload : Nat
  bytes : Nat
  phase : Bool
  overrun : Bool
  malformed : Bool
deriving DecidableEq, Repr

def objOf (v : Nat) : Obj :=
  { arrivals := bits v 0 32, reload := bits v 32 32, bytes := bits v 64 32, phase := bit v 96, overrun := bit v 97,
    malformed := bits v 98 30 ≠ 0 }

def Obj.bits (o : Obj) : Nat :=
  fieldAt o.arrivals 0 32 + fieldAt o.reload 32 32 + fieldAt o.bytes 64 32 + bitAt o.phase 96 + bitAt o.overrun 97

def State.obj (s : State) (r : BarRef) : Obj := objOf (s.objGet r)

/-- A barrier word (R234). -/
def barrierWord (ok : Bool) (phase overrun done : Bool) : Nat :=
  (if ok then stOk else stFaulted) + bitAt phase 8 + bitAt overrun 9 + bitAt done 10

/-- Fires the armed copies of an object whose parity is the new phase: ascending channel, then arm position (R231,
R235). -/
def State.fireArmed (s : State) (r : BarRef) (phase : Bool) : State :=
  (List.range 128).foldl (fun s k =>
    (s.armed.filter fun (a : Armed) =>
        a.trigger = r && a.parity = phase && 8 * a.ch.toNat + a.arm.toNat = k).foldl (fun s a =>
      ({ s with armed := s.armed.filter fun (b : Armed) => b ≠ a } : State).enqueue { a.copy with stopped := !s.resident a.team }) s) s

/-- Releases every thread that waits at an object with another parity than the new phase (R235). -/
def State.releaseWaits (s : State) (r : BarRef) (phase : Bool) : State :=
  { s with threads := s.threads.map fun x =>
      match x.bwait with
      | some b => if b.obj = r && b.parity ≠ phase then { x with bwait := some { b with released := true } } else x
      | none => x }

/-- Ends the open phase (R235). -/
def State.finishPhase (s : State) (r : BarRef) (o : Obj) : State :=
  let o := { o with phase := !o.phase, arrivals := o.reload, bytes := 0 }
  ((s.objSet r o.bits).releaseWaits r o.phase).fireArmed r o.phase

/-- claim of R235; none where the pending bytes would pass 2^32 - 1. -/
def State.claim (s : State) (r : BarRef) (n : Nat) : Option State :=
  let o := s.obj r
  if 2 ^ 32 - 1 < o.bytes + n then none else some (s.objSet r { o with bytes := o.bytes + n }.bits)

/-- count of R235: whether the payment was a surplus. -/
def State.count (s : State) (r : BarRef) (isArrival : Bool) (n : Nat) : Bool × State :=
  let o := s.obj r
  let owed := if isArrival then o.arrivals else o.bytes
  if owed < n then
    (true, s.finishPhase r
      (if isArrival then { o with overrun := true, arrivals := 0 } else { o with overrun := true, bytes := 0 }))
  else
    let o := if isArrival then { o with arrivals := o.arrivals - n } else { o with bytes := o.bytes - n }
    if o.arrivals = 0 && o.bytes = 0 then (false, s.finishPhase r o) else (false, s.objSet r o.bits)

/-- An operation on an object at its home. -/
inductive BarOp where
  | init | arrive | expect | pay
deriving DecidableEq, Repr

/-- Performs BINIT, BARR, BEXP or a payment of bytes (R236): the barrier word, whether it was a surplus, and the
state. A malformed object is not changed (R233). -/
def State.barrierUpdate (s : State) (op : BarOp) (r : BarRef) (a b : Nat) : Nat × Bool × State :=
  let o := s.obj r
  if o.malformed then (barrierWord false false false false, false, s)
  else
    match op with
    | .init =>
      if a = 0 then (barrierWord false o.phase o.overrun false, false, s)
      else
        (barrierWord true o.phase false false, false,
          s.objSet r { o with arrivals := a, reload := a, bytes := b, overrun := false }.bits)
    | .expect =>
      match s.claim r a with
      | none => (barrierWord false o.phase o.overrun false, false, s)
      | some s => (barrierWord true o.phase o.overrun false, false, s)
    | .arrive =>
      let (x, s) := s.count r true a
      (barrierWord true o.phase (s.obj r).overrun false, x, s)
    | .pay =>
      let (x, s) := s.count r false a
      (barrierWord true o.phase (s.obj r).overrun false, x, s)

/-- The operation of a barrier instruction. -/
def barOpOf : Instr → Option BarOp
  | .binit _ => some .init
  | .barr _ => some .arrive
  | .bexp _ => some .expect
  | _ => none

/-- What a request to a peer's object carries (DESIGN CHOICE, log entry 20). -/
def barPayload (op : BarOp) (a b : Nat) : List Byte :=
  let k := match op with | .init => 16 | .arrive => 17 | .expect => 18 | .pay => 19
  toBytes k 1 ++ toBytes 0 7 ++ toBytes a 8 ++ toBytes b 8

/-- Counts delivered bytes of a copy on its object (R228, R235); false where the object is malformed (R233). A peer answers
for its own object: the request is the copy's. -/
def State.payBytes (s : State) (core world copy : Nat) (r : BarRef) (n : Nat) : Bool × State :=
  match r with
  | .mem l =>
    if l.isPeer then (true, s.request 0 copy core world flRmw l 16 (barPayload .pay n 0))
    else if (s.obj r).malformed then (false, s)
    else (true, (s.count r false n).2)
  | .tile _ _ => if (s.obj r).malformed then (false, s) else (true, (s.count r false n).2)

/-! ### Naming an object -/

/-- How the naming of an object ends. -/
inductive Named where
  | ok (r : BarRef)
  | trap (code info : BitVec 8) (addr : W64)
  | fault (x : Xl) (va : W64)
deriving DecidableEq, Repr

/-- Step 3 of R225 for a tile object: C is its index in the row images of hB (R233); and step 5, a poisoned line of the tile's
bank. -/
def State.tileObject (s : State) (team : Nat) (hb : BitVec 8) (i : Nat) : Named :=
  match s.tileOf team hb with
  | .error e => .trap trapTileHandle e 0
  | .ok t =>
    if !t.rowWhole || t.rowBytes % 16 ≠ 0 || t.rowBytes = 0 then .trap trapTileHandle 4 0
    else if t.rows * t.rowBytes / 16 ≤ i then .trap trapTileHandle 4 0
    else if (t.linesAt (16 * i / t.rowBytes) (8 * (16 * i % t.rowBytes)) 128).any t.poison.contains then
      .trap trapPoison 0 0
    else .ok (.tile t.id (16 * i))

/-- The translation of a memory object's 16 bytes and R225 steps 4 and 5; memory of the host has no objects. -/
def State.memObject (s : State) (c : XCtx) (acc : Acc) (a : W64) : Named × State :=
  match s.translate c acc a with
  | (.ok l, s) =>
    if l.host then (.trap trapAccessViolation 0 a, s)
    else
      let s := s.openLines [l] a
      if s.poisonedFor c.core l then (.trap trapPoison 0 a, s) else (.ok (.mem l), s)
  | (x, s) => (.fault x a, s)

/-- Steps 1 and 2 of R225 for a memory object. -/
def memObjectTrap (a : W64) : Option (BitVec 8) :=
  if !canonical a then some trapAccessViolation else if a.toNat % 16 ≠ 0 then some trapMisaligned else none

/-- The object that operand C of a barrier instruction names: its value, all checks of R225. -/
def State.nameObject (s : State) (c : XCtx) (team : Nat) (f : CopyF) (acc : Acc) (v : Nat) : Named × State :=
  if f.bmem then
    let a := BitVec.ofNat 64 v
    match memObjectTrap a with
    | some code => (.trap code 0 a, s)
    | none => s.memObject c acc a
  else (s.tileObject team f.hb v, s)

/-- Operand C: an address or an index (R226). -/
def State.barOpnd (s : State) (t : TRef) (f : CopyF) : Nat := if f.bmem then s.opnd64 t f.c else s.opnd32 t f.c

/-- The object of an operation that has passed its checks. -/
def Op.obj (o : Op) : BarRef :=
  match o.tiles with
  | n :: _ => .tile n o.x
  | [] => .mem (o.locs.headD ⟨false, 0⟩)

/-- Scope of an object for a team (R91). -/
def State.objScope (s : State) (team : Nat) (r : BarRef) : Scope :=
  match r with
  | .mem l => if l.isPeer then .domain else .device
  | .tile n _ => if (s.tile? n).any (·.team = team) then .team else .cluster

/-! ### BINIT, BARR and BEXP -/

/-- The checks of a barrier instruction that updates its object (R225). -/
def State.launchBarrier (f : CopyF) (s : State) (o : Op) : State :=
  match s.nameObject (s.opCtx o) o.who.team f .rmw o.c with
  | (.trap code info addr, s) => s.trapOp o code info addr
  | (.fault x va, s) => s.faultOp o x .rmw va va
  | (.ok (.mem l), s) =>
    s.setOp o.id fun y => { y with locs := (List.range 16).map l.add, tiles := [], x := 0, phase := .pending }
  | (.ok (.tile n b), s) => s.setOp o.id fun y => { y with locs := [], tiles := [n], x := b, phase := .pending }

def State.barrierIssue (s : State) (i : Instr) (f : CopyF) : State :=
  s.forIssue i f.toCommon fun t s =>
    let (o, s) := s.start t i f.toCommon (s.opnd32 t f.a) (s.opnd32 t f.b) (s.barOpnd t f) 0
    State.launchBarrier f s o

/-- BINIT (R236). -/
def execBinit (f : CopyF) (s : State) : Out := .next (s.barrierIssue (.binit f) f)

/-- BARR (R236). -/
def execBarr (f : CopyF) (s : State) : Out := .next (s.barrierIssue (.barr f) f)

/-- BEXP (R236). -/
def execBexp (f : CopyF) (s : State) : Out := .next (s.barrierIssue (.bexp f) f)

/-! ### BWAIT and BTEST -/

/-- The word of BWAIT and BTEST for an object and parity p (R234, R236). -/
def testWord (v : Nat) (p : Bool) : Nat :=
  let o := objOf v
  if o.malformed then barrierWord false false false false
  else barrierWord true o.phase o.overrun (o.phase != p)

/-- The word of a BWAIT that is released: the phase of its parity is over, even where a later one is open again. -/
def waitWord (v : Nat) : Nat :=
  let o := objOf v
  if o.malformed then barrierWord false false false false else barrierWord true o.phase o.overrun true

/-- The object that a thread's BWAIT names. -/
def State.bwaitObj (s : State) (t : TRef) (f : CopyF) : Named := (s.nameObject (s.xctx t) t.team f .read (s.barOpnd t f)).1

/-- The wait of a thread at its BWAIT, once it has begun. -/
def State.bwaitOf (s : State) (t : TRef) : Option BWait :=
  match (s.thread t).bwait with
  | some b => if b.pc = (s.thread t).pc then some b else none
  | none => none

/-- An object cannot be read now: an engine owns its line (R22, R88). -/
def State.objOwned (s : State) : BarRef → Bool
  | .mem l => s.ownedLine l.line
  | .tile _ _ => false

/-- A phase is over for a wait: the object is malformed, or its phase differs from the parity. -/
def waitOver (v : Nat) (p : Bool) : Bool := (objOf v).malformed || (objOf v).phase != p

/-- A BWAIT that has begun is not ready: nothing has released it, and its object, where it can be read, is well formed and
still in the phase of its parity (R157, R236). -/
def State.bwaitStands (s : State) (t : TRef) (f : CopyF) : Bool :=
  match s.bwaitOf t with
  | none => false
  | some b =>
    !b.released &&
      (match s.bwaitObj t f with
       | .ok r =>
         if r ≠ b.obj then false
         else if r.peer then b.asked
         else s.objOwned r || !waitOver (s.objSeen (s.coreOf t) r) b.parity
       | _ => false)

/-- The checks of BTEST and of a BWAIT that is over (R225). -/
def State.launchTest (f : CopyF) (s : State) (o : Op) : State :=
  match s.nameObject (s.opCtx o) o.who.team f .read o.c with
  | (.trap code info addr, s) => s.trapOp o code info addr
  | (.fault x va, s) => s.faultOp o x .read va va
  | (.ok (.mem l), s) =>
    s.setOp o.id fun y => { y with locs := (List.range 16).map l.add, tiles := [], x := 0, phase := .pending }
  | (.ok (.tile n b), s) => s.setOp o.id fun y => { y with locs := [], tiles := [n], x := b, phase := .pending }

/-- A thread begins to wait at a BWAIT, or goes on waiting: a peer's object is read once more (R236). -/
def State.beginWait (s : State) (t : TRef) (r : BarRef) (p : Bool) : State :=
  let pc := (s.thread t).pc
  let s := s.setThread t fun x => { x with bwait := some ⟨pc, r, p, false, r.peer, 0⟩ }
  match r with
  | .mem l =>
    if l.isPeer then s.request 0 0 (s.coreOf t) (s.worldOf t) flRead l 16 [] none (.bwait t) else s
  | .tile _ _ => s

/-- BWAIT (R236). A thread whose phase is still open stands at it; what it reads then is the object as it stands, or what the
peer has answered. -/
def execBwait (f : CopyF) (s : State) : Out :=
  .next (s.forIssue (.bwait f) f.toCommon fun t s =>
    let p := bit (s.opnd32 t f.a) 8
    let go := fun (s : State) (data : List Nat) =>
      let (o, s) := s.start t (.bwait f) f.toCommon (s.opnd32 t f.a) 0 (s.barOpnd t f) 0
      let s := s.setThread t fun x => { x with bwait := none }
      if data.isEmpty then State.launchTest f s o else s.setOp o.id fun y => { y with phase := .result, data := data }
    match s.bwaitObj t f with
    | .ok r =>
      match s.bwaitOf t with
      | some b =>
        if r ≠ b.obj then s.beginWait t r p
        else if b.released then go s [waitWord (if r.peer then b.value else s.objSeen (s.coreOf t) r)]
        else if r.peer then (if b.asked then s else s.beginWait t r p)
        else if s.objOwned r || !waitOver (s.objSeen (s.coreOf t) r) p then s
        else go s [waitWord (s.objSeen (s.coreOf t) r)]
      | none =>
        if r.peer || s.objOwned r || !waitOver (s.objSeen (s.coreOf t) r) p then s.beginWait t r p else go s []
    | _ => go s [])

/-- BTEST (R236). -/
def execBtest (f : CopyF) (s : State) : Out :=
  .next (s.forIssue (.btest f) f.toCommon fun t s =>
    let (o, s) := s.start t (.btest f) f.toCommon (s.opnd32 t f.a) 0 (s.barOpnd t f) 0
    State.launchTest f s o)

/-- BTEST, or a BWAIT that is over, reads its object: on a peer by a request (R91, R236). -/
def State.performTest (s : State) (o : Op) : State :=
  let done := fun (v : Nat) => s.completeWith o (match o.instr with
    | .bwait _ => waitWord v
    | _ => testWord v (bit o.a 8))
  match o.obj with
  | .mem l =>
    if !l.isPeer then done (s.objSeen (s.coreOf o.who) o.obj)
    else if o.unread.isEmpty then done o.loaded
    else (s.request o.id 0 (s.coreOf o.who) (s.worldOf o.who) flRead l 16 []).setOp o.id fun y => { y with phase := .remote }
  | .tile _ _ => done (s.objGet o.obj)

/-! ### Completion -/

/-- The object's release condition (R74, R75 rule 3, R91): a copy that is counted on the same object is exempt. -/
def State.barrReleased (s : State) (o : Op) : Bool :=
  s.released o (s.objScope o.who.team o.obj) fun p => s.copies.any fun c => c.op = p.id && c.bar = some o.obj

/-- The update may be performed. -/
def State.barrierDue (s : State) (o : Op) : Bool :=
  match o.phase with
  | .result => (match o.instr with | .binit _ | .barr _ | .bexp _ | .bwait _ | .btest _ => true | _ => false)
  | .pending =>
    (match o.instr with
     | .barr _ => s.barrReleased o && !s.bufferedAt (s.coreOf o.who) o.locs
     | .binit _ | .bexp _ => !s.bufferedAt (s.coreOf o.who) o.locs
     | .btest _ | .bwait _ => !o.obj.peer || !s.bufferedAt (s.coreOf o.who) o.locs
     | _ => false) &&
    !s.anyOwned o.locs
  | _ => false

/-- The launch is persistent (R357, R383). -/
def State.persistent (s : State) (team : Nat) : Bool := bit (s.launchRec (s.team team).launch) 272

/-- Completes a barrier instruction with its word; a surplus arrival with .ovt traps after it (R236). -/
def State.finishBarrier (s : State) (o : Op) (word : Nat) (surplus : Bool) : State :=
  let s := s.completeWith o word
  match o.instr with
  | .barr f => if f.dir && surplus then s.raiseAfter o.who trapBarrierOverrun 0 o.pc else s
  | _ => s

/-- Stages an update of an object in memory (R354, R357): BARR stops at a turn point, lap-ending where the launch is
persistent; BINIT and BEXP are complete, with a word whose phase, overrun and status no rule states (DESIGN CHOICE, log
entry 15), but BINIT of no arrivals is FAULTED and changes nothing (R236). -/
def State.stageBarrier (s : State) (o : Op) : State :=
  match o.instr with
  | .barr _ =>
    if s.quotaFull o.who then (s.setOp o.id fun y => { y with x := 1 }).atTurn o false
    else (s.stageRmw o (o.locs.headD ⟨false, 0⟩) 16 o.a o.b).atTurn o (s.persistent o.who.team)
  | _ =>
    if s.quotaFull o.who then (s.setOp o.id fun y => { y with x := 1 }).atTurn o false
    else
      let v := Config.unstated s.free 3
      let zero := (match o.instr with | .binit _ => true | _ => false) && o.a = 0
      if zero then s.completeWith o (barrierWord false (bit v 0) (bit v 1) false)
      else (s.stageRmw o (o.locs.headD ⟨false, 0⟩) 16 o.a o.b).completeWith o
        (barrierWord (bit v 0) (bit v 1) (bit v 2) false)

/-- Performs an update of an object: on a peer by a request, in memory through the tollgate (R233, R374). -/
def State.performBarrier (s : State) (o : Op) (op : BarOp) : State :=
  let run := fun (s : State) =>
    let (w, x, s) := s.barrierUpdate op o.obj o.a o.b
    s.finishBarrier o w x
  match o.obj with
  | .tile _ _ => run s
  | .mem l =>
    if s.deterministic (s.team o.who.team).launch then s.stageBarrier o
    else if l.isPeer then
      (s.request o.id 0 (s.coreOf o.who) (s.worldOf o.who) flRmw l 16 (barPayload op o.a o.b)).setOp o.id
        fun y => { y with phase := .remote }
    else
      match s.tollgate o.who l with
      | .hold => s.setOp o.id fun y => { y with phase := .hold, since := s.clock }
      | .pass s => run s

/-- BARRIER_UPDATE_COMPLETE (R91, R235, R236). -/
def execBarrierUpdateComplete (n : Nat) (s : State) : Out :=
  .next (match s.op? n with
    | none => s
    | some o =>
      if !s.barrierDue o then s
      else
        match o.phase, barOpOf o.instr with
        | .result, _ => s.completeWith o (o.data.headD 0)
        | _, some op => s.performBarrier o op
        | _, none => s.performTest o)

end Sys2Proof.Machine
end

