-- ==== Sys2Proof/Machine/Copy.lean ====
section
/-! DEFINITION. The copies of group 0x6 and their delivery, with the delivery of RPUT and RGET (R216 to R232, R415 to
R417). -/

namespace Sys2Proof.Machine

/-! ### Moving elements -/

/-- How the move of some elements ends: moved, waiting for a line, or stopped by a fault or for a reason of R222. -/
inductive Moved where
  | ok (s : State) (c : Copy)
  | wait
  | ask (s : State) (l : Loc)     -- a line of a peer has to be read first
  | stop (s : State) (c : Copy) (x : Option Xl) (reason : Nat) (va : W64)
deriving Repr

/-- Places of the bytes of an element (R216, R217, R223). -/
def State.elemPlaces (s : State) (c : Copy) (acc : Acc) : List W64 → List Loc → (List Loc ⊕ (Option Xl × Nat × W64)) × State
  | [], done => (.inl done, s)
  | a :: r, done =>
    if !canonical a then (.inr (none, 4, a), s)
    else
      match s.translate (s.copyCtx c) acc a with
      | (.ok l, s) =>
        let rec' := c.record.toNat
        let sealed := match c.kind with
          | .box | .multi => recEnc rec'
          | _ => false
        if sealed && s.pageTensor c.world l ≠ c.entry then
          (.inr (none, 6, a), s)
        else s.elemPlaces c acc r (done ++ [l])
      | (x, s) => (.inr (some x, 0, a), s)

/-- A line as a core sees it (R67). -/
def State.lineSeen (s : State) (core : Nat) (l : Loc) : BitVec 1024 :=
  let b := { l with addr := l.addr / 128 * 128 }
  BitVec.ofNat 1024 (ofBytes ((List.range 128).map fun i => s.seenByte core (b.add i)))

/-- The lines of some places, each read once by a copy (R220; DEDUCED, log entry 41). -/
def State.readLines (s : State) (core : Nat) (c : Copy) (ls : List Loc) : Copy :=
  ls.foldl (fun c l =>
    if c.seen.any (·.1 = l.line) then c else { c with seen := c.seen ++ [(l.line, s.lineSeen core l)] }) c

def Copy.byteSeen (c : Copy) (l : Loc) : Nat :=
  bits (((c.seen.find? (·.1 = l.line)).map (·.2.toNat)).getD 0) (8 * (l.addr % 128)) 8

/-- Marks the first poisoned source of a copy. -/
def Copy.meetsPoison (c : Copy) (a : W64) : Copy :=
  if c.poisoned then c else { c with poisoned := true, failAddr := a }

/-- Asks a peer for a line, behind what the core's buffer holds of it (R80, R140, R408). -/
def State.askFirst (s : State) (core : Nat) (l : Loc) : Moved :=
  .ask (s.flush fun x => x.core = core && x.bytes.any fun y => y.1.line = l.line) l.lineStart

/-- Moves an element from memory into tiles (R216, R217, R220, R223). -/
def State.moveIn (s : State) (c : Copy) (tiles : List Nat) (e : Elem) : Moved :=
  let put := fun (s : State) (v : Nat) => tiles.foldl (fun s n => s.setTile n fun t => t.setBits e.row e.tbit e.w v) s
  if !e.inb then .ok (put s (recOob c.record.toNat * 0x01010101)) { c with oob := true }
  else if !e.exact then .stop s c none 4 e.va
  else
    match s.elemPlaces c .read e.addrs [] with
    | (.inr (x, r, a), s) => .stop s c x r a
    | (.inl ls, s) =>
      let core := (s.team c.team).core
      if s.hostLost ls then .stop (s.lostNotice c.world e.va) c none 0x0C e.va
      else
        match ls.find? fun l => l.isPeer && !c.bad.contains l.line && !c.seen.any (·.1 = l.line) with
        | some l => s.askFirst core l
        | none =>
          let s := s.openLines ls e.va
          if ls.any fun l => s.poisonedFor core l || c.bad.contains l.line then
            .ok s { c.meetsPoison e.va with skipped := c.skipped ++ [(e.row, e.tbit)] }
          else if ls.any fun l => s.ownedLine l.line && !c.seen.any (·.1 = l.line) then .wait
          else
            let c := s.readLines core c ls
            let v := (ls.map c.byteSeen).foldr (fun b n => b + 256 * n) 0
            .ok (put s (v / 2 ^ (e.vbit % 8).toNat)) c

/-- A byte that a copy merges into: of a peer, as it has been answered and written since. -/
def State.mergeByte (s : State) (c : Copy) (l : Loc) : Byte :=
  if l.isPeer then BitVec.ofNat 8 (bits (((c.base.find? (·.1 = l.line)).map (·.2.toNat)).getD 0) (8 * (l.addr % 128)) 8)
  else s.memByte l

/-- Puts a byte into a line of a list, where the list has the line. -/
def patchLine (l : Loc) (b : Byte) (ls : List (Nat × BitVec 1024)) : List (Nat × BitVec 1024) :=
  let sh := 8 * (l.addr % 128)
  ls.map fun x =>
    if x.1 = l.line then (x.1, (x.2 &&& ~~~(255#1024 <<< sh)) ||| (BitVec.ofNat 1024 b.toNat <<< sh)) else x

/-- Writes the bits of an element into memory, merged into its bytes (R224); the bytes of a peer go there in requests of the
copy. -/
def State.mergeBits (s : State) (c : Copy) (ls : List Loc) (sh w v : Nat) : State × Copy :=
  let core := (s.team c.team).core
  let (s, c, away) := (List.range ls.length).foldl (fun (sc : State × Copy × List (Loc × Byte)) i =>
    let (s, c, away) := sc
    let l := ls.getD i ⟨false, 0⟩
    let mask := bits ((2 ^ w - 1) * 2 ^ sh) (8 * i) 8
    let new := bits (v % 2 ^ w * 2 ^ sh) (8 * i) 8
    let b : Byte := (s.mergeByte c l &&& ~~~BitVec.ofNat 8 mask) ||| BitVec.ofNat 8 new
    let s := (if l.isPeer then s else s.writeByte l b).unmark [l]
    let m := (((c.seen.find? (·.1 = l.line)).map (·.2)).getD 0) ||| (BitVec.ofNat 1024 mask <<< (8 * (l.addr % 128)))
    let c := { c with seen := c.seen.filter (·.1 ≠ l.line) ++ [(l.line, m)], base := patchLine l b c.base }
    (if m = BitVec.allOnes 1024 then s.clearPoison l.line else s, c, if l.isPeer then away ++ [(l, b)] else away)) (s, c, [])
  ((lineRuns away).foldl (fun s r => s.request 0 c.id core c.world flWrite r.1 r.2.length r.2) s, c)

/-- Moves an element from the tile to memory (R216, R217, R223, R224): its lines are owned, and those of a peer that it
covers in part have been read. -/
def State.moveOut (s : State) (c : Copy) (t : Tile) (e : Elem) : Moved :=
  if !e.inb then .ok s { c with oob := true }
  else if !e.exact then .stop s c none 4 e.va
  else
    match s.elemPlaces c .write e.addrs [] with
    | (.inr (x, r, a), s) => .stop s c x r a
    | (.inl ls, s) =>
      let core := (s.team c.team).core
      let mine := fun (l : Loc) => s.owned.any fun x => x.1 = l.line && x.2 = c.id
      let whole := e.vbit % 8 = 0 && e.w % 8 = 0
      if s.hostLost ls then .stop (s.lostNotice c.world e.va) c none 0x0C e.va
      else if ls.any fun l => l.isLocal && !mine l then .wait
      else
        match ls.find? fun l => l.isPeer && !whole && !c.bad.contains l.line && !c.base.any (·.1 = l.line) with
        | some l => s.askFirst core l
        | none =>
          let s := s.flush fun x => x.core = core && x.bytes.any fun y => ls.contains y.1
          if (t.linesAt e.row e.tbit e.w).any t.poison.contains then
            .ok (ls.foldl (fun s l => s.setPoison l.line) s) (c.meetsPoison e.va)
          else
            let (s, c) := s.mergeBits c ls (e.vbit % 8).toNat e.w (t.getBits e.row e.tbit e.w)
            .ok s c

/-- Moves the elements of a unit, from the first that is not moved yet (R220). -/
def State.moveElems (s : State) (c : Copy) (tiles : List Nat) : List Elem → Moved
  | [] => .ok s c
  | e :: r =>
    let m := if c.st then
        match s.tile? c.tile with
        | some t => s.moveOut c t e
        | none => .ok s c
      else s.moveIn c tiles e
    match m with
    | .ok s c => s.moveElems { c with part := c.part + 1 } tiles r
    | x => x

/-! ### Progress -/

/-- Bytes of the longest run of delivered units from unit 0 (R230). -/
def Copy.prefixBytes (c : Copy) : Nat :=
  (List.range c.unitCount).foldl (fun (p : Nat × Bool) u =>
    if p.2 && c.units.contains u then (p.1 + c.unitLen u, true) else (p.1, false)) (0, true) |>.1

/-- The copies of a CPYM gathering. -/
def State.gathered (s : State) (g : Nat) : List Copy := s.copies.filter fun c => c.kind = .multi && c.group = g && g ≠ 0

/-- The next unit of a copy: in stream order, or the next of its share (R220, R230). -/
def Copy.nextUnit (c : Copy) : Option Nat :=
  match c.kind with
  | .multi => (List.range c.unitCount).find? fun u => u % max 1 c.members = c.share && !c.units.contains u
  | _ => if c.done < c.total then some (c.done / 64) else none

/-- A copy is at the head of its channel's queue (R219). -/
def State.atHead (s : State) (c : Copy) : Bool := (s.channel c.team c.ch).queue.head? = some c.id

/-- Nothing of its own stops a copy: its team is resident, it is at its channel's head, no fault and no end (R219, R223,
R238). -/
def State.copyRuns (s : State) (c : Copy) : Bool :=
  s.power && !s.halted && s.resident c.team && s.atHead c && !c.stopped && c.fault.isNone && c.status.isNone && !c.cancelled

/-- A copy can go on: a CPYM once it has gathered, with every member at its channel's head (R230). A member that waits on a
fault stops its own share only. -/
def State.goesOn (s : State) (c : Copy) : Bool :=
  s.copyRuns c && (c.kind ≠ .multi || (c.group ≠ 0 && c.reason = 0 &&
    (s.gathered c.group).all fun d => s.resident d.team && s.atHead d && !d.stopped && !d.cancelled))

/-- The copies at the head of their queues that one channel unit of a core serves, and that can go on (R219). -/
def State.unitCopies (s : State) (core : Nat) (ch : BitVec 4) : List Copy :=
  s.copies.filter fun d => d.ch = ch && (s.team d.team).core = core && s.goesOn d

/-- The team that a channel unit serves after another, in round-robin order: the next higher name among those that can go on,
or the lowest (R219). -/
def nextTeam (last : Nat) (ns : List Nat) : Option Nat :=
  let least := fun (l : List Nat) => match l with
    | [] => none
    | n :: r => some (r.foldl min n)
  (least (ns.filter (last < ·))).or (least ns)

/-- The channel unit of a core serves a copy: the one that it has begun, and otherwise one of the next team (R219). -/
def State.unitServes (s : State) (c : Copy) : Bool :=
  let core := (s.team c.team).core
  match s.units.find? fun u => u.1 = core && u.2.1 = c.ch with
  | none => true
  | some (_, _, last, n) =>
    n = c.id || (!((s.unitCopies core c.ch).any (·.id = n)) &&
      nextTeam last ((s.unitCopies core c.ch).map (·.team)) = some c.team)

/-- A channel unit takes a copy. -/
def State.serve (s : State) (c : Copy) : State :=
  let core := (s.team c.team).core
  { s with units := s.units.filter (fun u => !(u.1 = core && u.2.1 = c.ch)) ++ [(core, c.ch, c.team, c.id)] }

/-- The object of a copy is malformed: the copy is to end FAULTED and counts nothing (R222, R233). -/
def State.badObject (s : State) (n : Nat) : State :=
  s.setCopy n fun x => { x with bar := none, status := some stFaulted, reason := 9, failAddr := x.barVa }

/-- A unit of a copy has been written in full: milestone and count (R220, R228). -/
def State.unitDone (s : State) (c : Copy) (u : Nat) : State :=
  let n := c.unitLen u
  let (s, c) := s.releaseLines { c with done := c.done + n, part := 0 } u
  let s := (s.setCopy c.id fun _ => c).setChannel c.team c.ch fun x => { x with milestone := x.milestone + BitVec.ofNat 64 n }
  match c.bar with
  | none => s
  | some r =>
    match s.payBytes (s.team c.team).core c.world c.id r n with
    | (true, s) => s
    | (false, s) => s.badObject c.id

/-- A share of a CPYM has ended: read whole, or stopped (R230). -/
def Copy.shareOver (c : Copy) : Bool := c.reason ≠ 0 || c.nextUnit.isNone

/-- Decides the status of every member of a CPYM when all its shares have ended (R230). -/
def State.settleCpym (s : State) (g : Nat) : State :=
  let cs := s.gathered g
  if g = 0 || !cs.all Copy.shareOver then s
  else
    let bad := cs.find? (·.reason ≠ 0)
    let poi := cs.find? (·.poisoned)
    let oob := cs.any (·.oob)
    let st :=
      if cs.any (·.cancelled) then stCancelled
      else if bad.isSome then stFaulted
      else if poi.isSome then stPoisoned
      else if oob then stOobFilled
      else stOk
    let from' := bad.or poi
    { s with copies := s.copies.map fun (c : Copy) =>
        if c.kind = .multi ∧ c.group = g then
          { c with status := some st, reason := (from'.map fun x => if x.reason = 0 then 10 else x.reason).getD 0,
                   failAddr := (from'.map (·.failAddr)).getD 0 }
        else c }

/-- A unit of a CPYM has been written into every member's tile (R230). -/
def State.cpymUnit (s : State) (g u : Nat) (reader : Copy) : State :=
  let s := s.setCopy reader.id fun x => { x with seen := reader.seen, bad := reader.bad, poisoned := reader.poisoned,
                                                 failAddr := reader.failAddr, oob := reader.oob, part := 0 }
  (s.gathered g).foldl (fun s c =>
    let c' := { c with
      skipped := reader.skipped.foldl (fun l e => if l.contains e then l else l ++ [e]) c.skipped
      units := c.units ++ [u]
      done := c.done + c.unitLen u }
    (s.setCopy c.id fun _ => c').setChannel c.team c.ch fun x =>
      { x with milestone := x.milestone + BitVec.ofNat 64 (c'.prefixBytes - c.prefixBytes) }) s

/-- A fault or a reason of R222 stops a copy: the channel waits for the fault, or the copy is to end (R223). -/
def State.stopCopy (s : State) (c : Copy) (x : Option Xl) (reason : Nat) (va : W64) : State :=
  let fail := fun (s : State) (r : Nat) =>
    let s := s.setCopy c.id fun _ =>
      { c with reason := r, failAddr := va, status := if c.kind = .multi then none else some stFaulted }
    s.settleCpym c.group
  match x with
  | none => fail s reason
  | some x =>
    let acc : Acc := if c.st then .write else .read
    match s.openFault (.copy c.id) c.world c.domain x acc va 0 c.ch.toNat with
    | (.wait n, s) => s.setCopy c.id fun _ => { c with fault := some n }
    | (.deny v, s) => fail s (if v then 4 else 3)

/-! ### Transfers (R415 to R417) -/

/-- Place of a byte of a transfer. -/
def Copy.placeOf (c : Copy) (k : Nat) : Loc :=
  let o := c.addr.toNat % 4096 + k
  (c.pages.getD (o / 4096) ⟨false, 0⟩).add (o % 4096)

/-- Translates every page of a transfer: its pages, the first failure, or none where they name several targets or the
host (R415). -/
def State.transferPages (s : State) (c : Copy) : Nat → List Loc → (Option (List Loc) ⊕ (Option Xl × W64)) × State
  | 0, done =>
    let dev := fun (l : Loc) => if l.isPeer then some l.device else none
    let first := dev (done.headD ⟨false, 0⟩)
    (.inl (if done.any (·.host) || done.any (dev · ≠ first) then none else some done), s)
  | n + 1, done =>
    let base := c.addr - BitVec.ofNat 64 (c.addr.toNat % 4096)
    let page := base + BitVec.ofNat 64 (4096 * done.length)
    let a := if done.isEmpty then c.addr else page
    if !canonical a then (.inr (none, a), s)
    else
      match s.translate (s.copyCtx c) (if c.kind = .rput then .write else .read) a with
      | (.ok l, s) => s.transferPages c n (done ++ [{ l with addr := l.addr - (a - page).toNat }])
      | (x, s) => (.inr (some x, a), s)

def Copy.pageCount (c : Copy) : Nat := ceilDiv (c.addr.toNat % 4096 + c.count) 4096

/-- Translates the pages of a transfer; a fault stops its channel (R415, R416). -/
def State.openTransfer (s : State) (c : Copy) : State :=
  match s.transferPages c c.pageCount [] with
  | (.inl (some ps), s) => s.setCopy c.id fun x => { x with pages := ps, target := (ps.headD ⟨false, 0⟩).device }
  | (.inl none, s) => s.stopCopy c none 4 c.addr
  | (.inr (none, a), s) => s.stopCopy c none 4 a
  | (.inr (some x, a), s) => s.stopCopy c (some x) 4 a

/-- The bytes that a transfer moves with its next unit: their places, and the bytes of the tile. -/
def Copy.nextBytes (c : Copy) (t : Tile) : List (Loc × Nat) :=
  (c.span t.rowBytes t.ew (c.done / 64)).map fun o => (c.placeOf o, c.tbyte + o)

/-- A request of a copy or transfer is unanswered. -/
def State.awaitsCopy (s : State) (n : Nat) : Bool := s.remotes.any fun r => r.copy = n && !r.done

/-- A copy waits for a line of a peer. -/
def State.awaitsLine (s : State) (n : Nat) : Bool := s.remotes.any fun r => r.copy = n && r.kind = flRead && !r.done

/-- The bytes are a world's own memory on this device, and the access is allowed (R408, R416, R419). -/
def State.ownMemory (s : State) (w : Nat) (l : Loc) (n : Nat) (acc : Acc) : Bool :=
  l.isLocal && s.s2.any fun m => m.world = w && !m.pull && m.pa ≤ l.addr && l.addr + n ≤ m.pa + m.bytes &&
    (match acc with | .read => m.r | .write => m.w | .rmw => m.r && m.w | .fetch => m.x)

/-- Counts an event on the world's map (R417): none while the object's team is saved. An object whose page is no longer the
world's own is not touched, as R6 asks, and the event is dropped (R419; DEDUCED, log entry 112). -/
def State.countEvent (s : State) (w : Nat) (tag : BitVec 8) (n : Nat) : Option State :=
  let drop := s.setWorld w fun x => { x with cwdrop := x.cwdrop + 1 }
  match (s.world w).events.find? (·.1 = tag) with
  | none => some drop
  | some e =>
    match e.2.1 with
    | .mem l =>
      some (if !s.ownMemory w l 16 .rmw then drop
        else if (s.obj e.2.1).malformed then s else (s.count e.2.1 false n).2)
    | .tile t _ =>
      match s.tile? t with
      | none => some drop
      | some x =>
        if !s.resident x.team then none
        else some (if (s.obj e.2.1).malformed then s else (s.count e.2.1 false n).2)

/-- One unit of a transfer to or from this device's memory (R415, R416); none while a line is owned. -/
def State.transferHere (s : State) (c : Copy) (t : Tile) : Option State :=
  let bs := c.nextBytes t
  let ls := bs.map (·.1)
  if s.anyOwned ls then none
  else
    let core := (s.team c.team).core
    let s := s.flush fun x => x.core = core && x.bytes.any fun y => ls.contains y.1
    match c.kind with
    | .rput =>
      let bad := fun (o : Nat) => (t.linesAt (o / max 1 t.rowBytes) (8 * (o % max 1 t.rowBytes)) 8).any t.poison.contains
      let s := bs.foldl (fun s x => if bad x.2 then s.setPoison x.1.line else s.writeByte x.1 (t.byte x.2)) s
      let s := s.unmark ls
      let seen := (bs.filter fun x => !bad x.2).foldl (fun (m : List (Nat × BitVec 1024)) x =>
        let old := ((m.find? (·.1 = x.1.line)).map (·.2)).getD 0
        m.filter (·.1 ≠ x.1.line) ++ [(x.1.line, old ||| (255#1024 <<< (8 * (x.1.addr % 128))))]) c.seen
      let s := (((ls.map (·.line)).eraseDups).filter fun n => seen.any fun m => m.1 = n && m.2 = BitVec.allOnes 1024).foldl
        State.clearPoison s
      let c := { c with seen := seen }
      let c := match bs.find? fun x => bad x.2 with
        | some _ => c.meetsPoison (c.addr + BitVec.ofNat 64 c.done)
        | none => c
      some (s.unitDone c (c.done / 64))
    | _ =>
      let s := s.openLines ls (c.addr + BitVec.ofNat 64 c.done)
      let t' := bs.foldl (fun t x => if s.poisonedFor core x.1 then t else t.setByte x.2 (s.memByte x.1)) t
      let lost := bs.filter fun x => s.poisonedFor core x.1
      let c := if lost.isEmpty then c
        else { c.meetsPoison (c.addr + BitVec.ofNat 64 c.done) with
          skipped := c.skipped ++ lost.map fun x => (x.2 / max 1 t.rowBytes, 8 * (x.2 % max 1 t.rowBytes)) }
      some ((s.setTile t.id fun _ => t').unitDone c (c.done / 64))

/-- Sends the flits of one unit of a transfer to a peer (R411, R415): `ev` stands on the last one, whose payload the
transfer's byte count follows; a line from a poisoned bank line has no bytes (DESIGN CHOICE, log entry 20). -/
def State.transferThere (s : State) (c : Copy) (t : Tile) : State :=
  let bs := c.nextBytes t
  let core := (s.team c.team).core
  match c.kind with
  | .rput =>
    let last := c.total ≤ c.done + c.unitLen (c.done / 64)
    let bad := fun (o : Nat) => (t.linesAt (o / max 1 t.rowBytes) (8 * (o % max 1 t.rowBytes)) 8).any t.poison.contains
    let badAt := fun (a : Loc) (n : Nat) => bs.any fun x => bad x.2 && a.addr ≤ x.1.addr && x.1.addr < a.addr + n
    let runs := lineRuns (bs.map fun x => (x.1, t.byte x.2))
    let s := if bs.any fun x => bad x.2 then s.setCopy c.id fun y => y.meetsPoison (c.addr + BitVec.ofNat 64 c.done) else s
    (List.range runs.length).foldl (fun s i =>
      let r := runs.getD i (⟨false, 0⟩, [])
      let q : Remote := ⟨s.ids, c.op, c.id, c.world, c.target, r.1.addr, r.2.length, flWrite, s.clock, core, false, s.ids, .own⟩
      let x := mkFlit flWrite c.world c.target r.1.addr r.2.length s.ids (if badAt r.1 r.2.length then [] else r.2)
      let x := if last && i + 1 = runs.length && c.tag.isSome then
          { x with ev := true, tag := c.tag.getD 0, payload := x.payload ++ toBytes c.total 8 }
        else x
      ({ s with ids := s.ids + 1, remotes := s.remotes ++ [q] } : State).sendFlit x) s
  | _ =>
    (lineRuns (bs.map fun x => (x.1, 0))).foldl (fun s r =>
      s.request c.op c.id core c.world flRead r.1 r.2.length []) s

/-- One unit of a transfer; none where it has to wait. -/
def State.deliverTransfer (s : State) (c : Copy) : Option State :=
  match s.tile? c.tile with
  | none => none
  | some t =>
    if c.pages.isEmpty then some (s.openTransfer c)
    else if (c.pages.headD ⟨false, 0⟩).isPeer then
      if s.awaitsCopy c.id then none else some (s.transferThere c t)
    else s.transferHere c t

/-! ### Delivery steps -/

/-- The attempt to move a copy's next unit. -/
def State.tryUnit (s : State) (c : Copy) (u : Nat) : Moved :=
  let img := ((s.tile? c.tile).map (·.rowBytes)).getD 1
  let ew := ((s.tile? c.tile).map (·.ew)).getD 8
  let tiles := if c.kind = .multi then (s.gathered c.group).map (·.tile) else [c.tile]
  let s := s.takeOwnership c
  s.moveElems ((s.copy? c.id).getD c) tiles ((c.unitElems img ew u).drop c.part)

/-- A tagged RPUT sends nothing before its release at domain scope is performed (R415). -/
def State.transferReleased (s : State) (c : Copy) : Bool := c.tag.isNone || (s.op? c.op).all (s.released · .domain)

/-- A copy may move its next unit: it can go on, its channel unit serves it, and no line of a peer is on its way. -/
def State.unitDue (s : State) (c : Copy) : Bool :=
  s.goesOn c && s.unitServes c && c.nextUnit.isSome && s.transferReleased c && !s.awaitsLine c.id

/-- A copy asks for a line of a peer (R140, R408). -/
def State.askFor (s : State) (c : Copy) (l : Loc) : State :=
  s.request 0 c.id (s.team c.team).core c.world flRead l 128 []

/-- COPY_DELIVERY_UNIT: a copy or transfer delivers one unit, or asks for a line of a peer that it needs for it (R220, R228
to R230, R415). -/
def execCopyDeliveryUnit (n : Nat) (s : State) : Out :=
  .next (match s.copy? n with
    | none => s
    | some c =>
      if !s.unitDue c then s
      else
        let s := s.serve c
        match c.kind, c.nextUnit with
        | _, none => s
        | .rput, _ | .rget, _ => (s.deliverTransfer c).getD s
        | .multi, some u =>
          (match s.tryUnit c u with
           | .ok s c => (s.cpymUnit c.group u c).settleCpym c.group
           | .ask s l => s.askFor c l
           | _ => s)
        | _, some u =>
          (match s.tryUnit c u with
           | .ok s c => s.unitDone c u
           | .ask s l => s.askFor c l
           | _ => s))

/-- COPY_FAULT: the next unit of a copy meets a fault or a reason to stop (R223, R320). -/
def execCopyFault (n : Nat) (s : State) : Out :=
  .next (match s.copy? n with
    | none => s
    | some c =>
      if !s.unitDue c then s
      else
        match c.kind, c.nextUnit with
        | .rput, _ | .rget, _ => s
        | _, some u =>
          (match s.tryUnit c u with
           | .stop s c x r va => s.stopCopy c x r va
           | _ => s)
        | _, none => s)

/-- The status of a copy that ends (R221). -/
def Copy.finalStatus (c : Copy) : Nat :=
  if c.cancelled then stCancelled
  else
    match c.status with
    | some st => st
    | none => if c.poisoned then stPoisoned else if c.oob then stOobFilled else stOk

/-- The fault word of a copy that ends; none where it keeps the old one (R222, R416). -/
def Copy.faultWord (c : Copy) : Option W64 :=
  let st := c.finalStatus
  let word := fun (r : Nat) (a : W64) => some (BitVec.ofNat 64 (fieldAt r 57 7 + bits a.toNat 0 57))
  if st = stCancelled then word 11 0
  else if st = stFaulted then word c.reason c.failAddr
  else if st = stPoisoned then word 10 c.failAddr
  else none

/-- A copy may complete: at the head of its queue, delivered, stopped or cancelled, its requests answered (R219,
R221). -/
def State.copyDone (s : State) (c : Copy) : Bool :=
  s.power && !s.halted && s.resident c.team && s.atHead c && !c.stopped && !s.awaitsCopy c.id &&
    (c.cancelled || c.status.isSome || (c.kind ≠ .multi && c.fault.isNone && c.total ≤ c.done))

/-- The end of a copy: the undelivered bytes are counted, the bytes of a unit that is not complete among them (DEDUCED, log
entry 113), its lines are released, its channel goes on, and its status word is written (R221 to R223). -/
def State.endCopy (s : State) (c : Copy) : State :=
  let s := match c.bar with
    | some r => if c.done < c.total then (s.payBytes (s.team c.team).core c.world 0 r (c.total - c.done)).2 else s
    | none => s
  let s := s.release c.id
  let s := if c.st then s
    else s.setTile c.tile fun t => if t.poison.isEmpty then t else t.cleanse (t.cleansed (c.written t.rowBytes t.ew))
  let s := s.setChannel c.team c.ch fun x =>
    { x with queue := x.queue.filter (· ≠ c.id), fault := c.faultWord.getD x.fault }
  let s := { s with
    copies := s.copies.filter fun (x : Copy) => x.id ≠ c.id
    faults := s.faults.filter fun (f : FaultRec) => f.source ≠ Source.copy c.id || f.notice }
  match s.op? c.op with
  | some o => s.completeGroup o (statusWord c.finalStatus c.ch.toNat (ceilDiv c.done 64))
  | none => s

/-- COPY_COMPLETE (R20, R221). A tagged RPUT to this device is counted first, and waits while its object is with a
saved team (R417). -/
def execCopyComplete (n : Nat) (s : State) : Out :=
  .next (match s.copy? n with
    | none => s
    | some c =>
      if !s.copyDone c then s
      else
        match c.tag with
        | some tag =>
          if !c.cancelled && c.status.isNone && !(c.pages.headD ⟨false, 0⟩).isPeer then
            (match s.countEvent c.world tag c.total with
             | some s => s.endCopy c
             | none => s)
          else s.endCopy c
        | none => s.endCopy c)

/-! ### Issue -/

/-- The coordinates of a record copy: five values of 32 bits (R227). -/
def coordsOf (b : Nat) : List Int := (List.range 5).map fun i => sextN (bits b (32 * i) 32) 32

/-- The 160 bits from operand B on (R227). -/
def State.coordBits (s : State) (t : TRef) (o : Opnd) : Nat :=
  match o with
  | .slice _ st => s.readSlices t st.toNat 160
  | .uni _ k => s.readUni t k.toNat 160
  | _ => 0

/-- Step 6 of R225: the source of c_4 (R227). -/
def State.coordTrap (s : State) (t : TRef) (o : Opnd) (rank : Nat) : Option (BitVec 8) :=
  if rank ≠ 5 then none
  else
    match o with
    | .slice _ st => if (s.groupOf t).budget < st.toNat + 40 then some trapSliceRange else none
    | .uni _ k => if 63 < k.toNat + 4 then some trapOperandAlign else none
    | _ => none

/-- A copy completes FAULTED at its issue, with its fault word (R222, R228). -/
def State.refuseCopy (s : State) (o : Op) (ch : BitVec 4) (reason : Nat) (a : W64) : State :=
  (s.setChannel o.who.team ch fun x => { x with fault := BitVec.ofNat 64 (fieldAt reason 57 7 + bits a.toNat 0 57) }).completeGroup
    o (statusWord stFaulted ch.toNat 0)

/-- A copy at its issue. -/
def State.newCopy (s : State) (o : Op) (f : CopyF) (kind : CopyKind) (tile : Nat) (record : Nat) (bar : Option BarRef) :
    Copy :=
  { id := s.ids, op := o.id, team := o.who.team, ch := f.ch, kind := kind, st := f.dir, tile := tile,
    hs := f.h :: (if f.ben && !f.bmem then [f.hb] else []), record := BitVec.ofNat 512 record, coords := coordsOf o.b,
    count := if kind = .bytes then o.b else 0, tbyte := 0, addr := BitVec.ofNat 64 o.a, bar := bar, domain := o.domain,
    world := s.worldOf o.who, done := 0, units := [], part := 0, seen := [], base := [], bad := [], skipped := [], own := [],
    oob := false, poisoned := false, reason := 0, failAddr := 0, cancelled := false, status := none, fault := none,
    tag := none, group := 0, share := 0, members := 0, target := 0, pages := [], stopped := false,
    barVa := if f.ben && f.bmem then BitVec.ofNat 64 o.c else 0,
    entry := ((s.tensorOf (s.worldOf o.who) (recTensor record)).map (·.index)).getD 0 }

/-- A channel binding (R199, R225). -/
def State.bindChannel (s : State) (team : Nat) (h : BitVec 8) (ch : BitVec 4) : State :=
  { s with handles := s.handles.map fun (x : Handle) =>
      if x.team = team ∧ x.h = h then { x with chan := some ch } else x }

/-- What the checks of a copy's issue give: its tile, its record and its barrier object; or that it waits at its issue, for
its record's line or a copy before it. -/
inductive Checked where
  | ok (tile : Tile) (record : Nat) (bar : Option BarRef)
  | later (tiles : List Nat) (ask : Option Loc)
  | trap (code info : BitVec 8) (addr : W64)
  | fault (x : Xl) (acc : Acc) (va : W64)
deriving Repr

/-- The tiles that a copy names (R209). -/
def copyTiles (tile : Nat) (bar : Option BarRef) : List Nat :=
  tile :: (match bar with | some (.tile n _) => [n] | _ => [])

/-- A copy of the channel that issued earlier is still at its issue (R219). -/
def State.issueBehind (s : State) (o : Op) (ch : BitVec 4) : Bool := (s.atIssue o.who.team ch).any fun p => p.id < o.id

/-- A copy waits at its issue: for the line of its record, which an engine owns (R22, R88) or a peer holds (R408), or for an
earlier copy of its channel. -/
def State.waitAtIssue (s : State) (o : Op) (tiles : List Nat) (ask : Option Loc) : State :=
  match ask with
  | none => s.setOp o.id fun y => { y with phase := .recall, tiles := tiles, locs := [] }
  | some l =>
    let core := s.coreOf o.who
    let s := s.flush fun x => x.core = core && x.bytes.any fun y => y.1.line = l.line
    (s.request o.id 0 core (s.worldOf o.who) flRead l 64 []).setOp o.id fun y =>
      { y with phase := .remote, tiles := tiles, locs := [] }

/-- Steps 1 to 5 of R225 for a copy: `rec?` where operand A is a record address. -/
def State.checkCopy (s : State) (o : Op) (f : CopyF) (rec? : Bool) (acc : Acc) : Checked × State :=
  let team := o.who.team
  let a := BitVec.ofNat 64 o.a
  let b := BitVec.ofNat 64 o.c
  let mem := f.ben && f.bmem
  if rec? && !canonical a then (.trap trapAccessViolation 0 a, s)
  else if mem && !canonical b then (.trap trapAccessViolation 0 b, s)
  else if rec? && a.toNat % 64 ≠ 0 then (.trap trapMisaligned 0 a, s)
  else if mem && b.toNat % 16 ≠ 0 then (.trap trapMisaligned 0 b, s)
  else
    match s.tileOf team f.h with
    | .error e => (.trap trapTileHandle e 0, s)
    | .ok t =>
      let tobj : Option Named := if f.ben && !f.bmem then some (s.tileObject team f.hb o.c) else none
      match tobj with
      | some (.trap code info addr) => (.trap code info addr, s)
      | _ =>
        let (rl, s) : Option Xl × State :=
          if rec? then let (x, s) := s.translate (s.opCtx o) .read a; (some x, s) else (none, s)
        match rl with
        | some (.fault k l e) => (.fault (.fault k l e) .read a, s)
        | some (.s2 i w) => (.fault (.s2 i w) .read a, s)
        | some (.pull i) => (.fault (.pull i) .read a, s)
        | some (.pri h) => (.fault (.pri h) .read a, s)
        | _ =>
          let (bar, s) : Option Named × State :=
            if mem then let (x, s) := s.memObject (s.opCtx o) acc b; (some x, s) else (tobj, s)
          let place : Option Loc := match rl with | some (.ok l) => some l | _ => none
          let core := s.coreOf o.who
          let record := match place with
            | some l => ofBytes ((List.range 64).map fun i => s.seenByte core (l.add i))
            | none => 0
          let have' := place.all fun l => (o.received l).isSome
          let record := if have' && place.isSome then
              ofBytes ((List.range 64).map fun i => ((place.bind fun l => o.received (l.add i)).getD 0))
            else record
          let s := s.openLines place.toList a
          let poisoned := !have' && place.any (s.poisonedFor core)
          let bar? : Option BarRef := match bar with | some (.ok r) => some r | _ => none
          match bar with
          | some (.fault x va) => (.fault x acc va, s)
          | _ =>
          if s.issueBehind o f.ch || (!have' && place.any fun l => s.ownedLine l.line) then
            (.later (copyTiles t.id bar?) none, s)
          else if !have' && place.any (·.isPeer) then (.later (copyTiles t.id bar?) place, s)
          else
          match bar with
          | some (.fault x va) => (.fault x acc va, s)
          | some (.trap code info addr) =>
            if code = trapPoison && poisoned then (.trap trapPoison 0 a, s) else (.trap code info addr, s)
          | some (.ok r) => if poisoned then (.trap trapPoison 0 a, s) else (.ok t record (some r), s)
          | none => if poisoned then (.trap trapPoison 0 a, s) else (.ok t record none, s)

/-- Steps of R228 that may end a record copy at its issue. -/
def State.recordReason (s : State) (w : Nat) (t : Tile) (record : Nat) (needHold : Bool) : Option Nat :=
  if recMalformed record then some 1
  else if needHold && !t.holds record then some 2
  else if recEnc record && (s.tensorOf w (recTensor record)).isNone then some 6
  else none

/-- Where the data of a copy's operation keeps the answer to its claim on a peer's object: 1 granted, 0 refused. -/
def claimKey : Nat := 2 ^ 62

def Op.claimed (o : Op) : Option Bool := (o.data.find? fun n => n / 256 = claimKey).map fun n => n % 256 = 1

/-- A copy claims its bytes on a peer's object with one request, and waits at its issue for the answer (R228, R235). Its
snapshot is kept. -/
def State.askClaim (s : State) (o : Op) (l : Loc) (c : Copy) (snap : List Nat) : State :=
  (s.request o.id 0 (s.coreOf o.who) (s.worldOf o.who) flRmw l 16 (barPayload .expect c.total 0)).setOp o.id fun y =>
    { y with phase := .remote, data := snap }

/-- Asks for the trigger of an armed copy in peer memory (R231). -/
def State.askTrigger (s : State) (a : Armed) : State :=
  match a.trigger with
  | .mem l => s.request 0 a.copy.id (s.team a.team).core a.copy.world flRead l 16 []
  | .tile _ _ => s

/-- A copy without a gathering, once its checks have passed: its claim, its arming or its place in the queue (R228, R229,
R231). -/
def State.admitCopy (s : State) (o : Op) (f : CopyF) (c : Copy) (arm : Bool) (snap : List Nat) : State :=
  let s := { s with ids := s.ids + 1 }
  match c.bar with
  | none => s.enqueue c
  | some r =>
    if !r.peer && (s.obj r).malformed then s.refuseCopy o f.ch 9 c.barVa
    else if arm then
      if s.armed.any fun (x : Armed) => x.team = o.who.team && x.ch = f.ch && x.arm = f.arm then s.refuseCopy o f.ch 8 0
      else
        let a : Armed := ⟨o.who.team, f.ch, f.arm, f.parity, r, { c with bar := none }⟩
        if !r.peer && (objOf (s.objSeen (s.coreOf o.who) r)).phase = f.parity then s.enqueue a.copy
        else
          let s := { s with armed := s.armed ++ [a] }
          if r.peer then s.askTrigger a else s
    else if !f.claim then s.enqueue c
    else
      match r with
      | .mem l =>
        if l.isPeer then
          match o.claimed with
          | none => s.askClaim o l c snap
          | some true => s.enqueue c
          | some false => s.refuseCopy o f.ch 9 c.barVa
        else
          match s.claim r c.total with
          | none => s.refuseCopy o f.ch 9 c.barVa
          | some s => s.enqueue c
      | .tile _ _ =>
        match s.claim r c.total with
        | none => s.refuseCopy o f.ch 9 c.barVa
        | some s => s.enqueue c

/-- A record as the data of an operation that has read it. -/
def State.snapshot (s : State) (o : Op) (record : Nat) : List Nat :=
  match (s.translate (s.opCtx o) .read (BitVec.ofNat 64 o.a)).1 with
  | .ok l => (List.range 64).map fun i => 256 * (l.add i).key + bits record (8 * i) 8
  | _ => []

/-- The issue of CPY, CPYS and CPYA (R225, R227 to R229, R231). -/
def State.launchCopy (f : CopyF) (b : Opnd) (kind : CopyKind) (arm : Bool) (s : State) (o : Op) : State :=
  let isRec := kind = .box
  match s.checkCopy o f isRec (if arm then .read else .rmw) with
  | (.trap code info addr, s) => s.trapOp o code info addr
  | (.fault x acc va, s) => s.faultOp o x acc va va
  | (.later tiles ask, s) => s.waitAtIssue o tiles ask
  | (.ok t record bar, s) =>
    let snap := if isRec then s.snapshot o record else []
    match if isRec then s.coordTrap o.who b (recRank record) else none with
    | some code => s.trapOp o code 0 0
    | none =>
      let s := s.bindChannel o.who.team f.h f.ch
      let s := s.setOp o.id fun y => { y with phase := .queued, tiles := copyTiles t.id bar }
      let c := s.newCopy o f kind t.id record bar
      if isRec then
        match s.recordReason c.world t record true with
        | some r => s.refuseCopy o f.ch r (if r = 2 then 0 else BitVec.ofNat 64 o.a)
        | none => s.admitCopy o f c arm snap
      else if !t.rowWhole || t.rows * t.rowBytes < c.count then s.refuseCopy o f.ch 2 0
      else if c.count = 0 then s.completeWith o (statusWord stOk f.ch.toNat 0)
      else s.admitCopy o f c false snap

/-- Starts a copy in each thread; a thread stands where its channel's queue is full (R219, R225). -/
def State.copyIssue (s : State) (i : Instr) (f : CopyF) (sample : State → TRef → Nat) (launch : State → Op → State) :
    State :=
  s.forIssue i f.toCommon fun t s =>
    if s.queueFull t.team f.ch then s
    else
      let (o, s) := s.start t i f.toCommon (s.opnd64 t f.a) (sample s t) (if f.ben then s.barOpnd t f else 0)
        (2 ^ t.lane)
      launch s o

/-- CPY (R228). -/
def execCpy (f : CopyF) (s : State) : Out :=
  .next (s.copyIssue (.cpy f) f (fun s t => s.coordBits t f.b) (State.launchCopy f f.b .box false))

/-- CPYS (R229). -/
def execCpys (f : CopyF) (s : State) : Out :=
  .next (s.copyIssue (.cpys f) f (fun s t => s.opnd32 t f.b) (State.launchCopy f f.b .bytes false))

/-- CPYA (R231). -/
def execCpya (f : CopyF) (s : State) : Out :=
  .next (s.copyIssue (.cpya f) f (fun s t => s.coordBits t f.b) (State.launchCopy f f.b .box true))

/-! ### CPYM (R230) -/

/-- The mask of a CPYM or TMMAC is valid for a team (R230, R256). -/
def State.maskOk (m : Team) (mask : Nat) : Bool :=
  m.cgrid ≠ 0 && bit mask (m.index % m.cgrid) && mask < 2 ^ m.cgrid &&
    2 ≤ ((List.range 64).filter fun i => bit mask i).length

/-- The issue of CPYM, once for its group (R230). -/
def State.launchCpym (f : CopyF) (s : State) (o : Op) : State :=
  match s.checkCopy o f true .read with
  | (.trap code info addr, s) => s.groupTrap o code info addr
  | (.fault x acc va, s) =>
    (match s.openFault (.thread o.who) (s.worldOf o.who) o.domain x acc va o.pc 0 with
     | (.wait n, s) => s.awaitFault o n va
     | (.deny v, s) => s.groupTrap o (denyCode v) 0 va)
  | (.later tiles ask, s) => s.waitAtIssue o tiles ask
  | (.ok t record _, s) =>
    match s.coordTrap o.who f.b (recRank record) with
    | some code => s.groupTrap o code 0 0
    | none =>
      let m := s.team o.who.team
      let s := s.bindChannel o.who.team f.h f.ch
      let s := s.setOp o.id fun y => { y with phase := .queued, tiles := [t.id] }
      let c := s.newCopy o f .multi t.id record none
      match s.recordReason c.world t record false with
      | some r => s.refuseCopy o f.ch r (BitVec.ofNat 64 o.a)
      | none =>
        if !State.maskOk m o.c then s.refuseCopy o f.ch 7 0
        else
          let g : Gather := ⟨s.ids + 1, o.id, o.who.team, m.index / m.cgrid, BitVec.ofNat 64 o.c,
            [record, o.b % 2 ^ (32 * recRank record), o.c], c⟩
          ({ s with ids := s.ids + 2, gathers := s.gathers ++ [g] } : State).enqueue c

/-- CPYM (R230). -/
def execCpym (f : CopyF) (s : State) : Out :=
  .next (if s.issue.threads.any fun t => s.queueFull t.team f.ch then s
    else s.groupIssue (.cpym f) f.toCommon (fun s t => (s.opnd64 t f.a, s.coordBits t f.b, s.opnd64 t f.c))
      (State.launchCpym f))

/-- The row of a rank that waits in a gathering, and whether its team can still arrive: the first with the same digest, or the
first. -/
def State.gatherRow (s : State) (g : Gather) (rank : Nat) : Option Gather × Bool :=
  match s.rankTeam (s.team g.team) rank with
  | none => (none, false)
  | some m =>
    let rows := s.gathers.filter fun (x : Gather) => x.team = m.id && s.resident m.id
    ((rows.find? (·.digest = g.digest)).or rows.head?, !(s.liveOfTeam m.id).isEmpty)

/-- Ends the gathering of some members (R230). -/
def State.endGather (s : State) (rows : List Gather) (upd : Copy → Copy) : State :=
  { s with
    gathers := s.gathers.filter fun (x : Gather) => !(rows.any (·.id = x.id))
    copies := s.copies.map fun (c : Copy) => if rows.any (·.copy.id = c.id) then upd c else c }

/-- CPYM_GATHER: every member has arrived, and the fetch starts or faults; or a member's team has ended and the others
are cancelled (R230). -/
def execCpymGather (n : Nat) (s : State) : Out :=
  .next (match s.gathers.find? fun (g : Gather) => g.id = n with
    | none => s
    | some g =>
      let ranks := (List.range 64).filter fun i => bit g.mask.toNat i
      let rows := ranks.map (s.gatherRow g)
      let here := rows.filterMap (·.1)
      if rows.any fun r => r.1.isNone && !r.2 then
        s.endGather (here.filter fun x => x.digest = g.digest) fun c => { c with cancelled := true }
      else if !rows.all (·.1.isSome) then s
      else
        let record := g.copy.record.toNat
        let same := here.all fun x => x.digest = g.digest
        let hold := here.all fun x => (s.tile? x.copy.tile).any (·.holds record)
        if !(same && hold) then
          s.endGather here fun c => { c with reason := 7, status := some stFaulted }
        else
          let place := fun (id : Nat) => ((List.range here.length).find? fun i => (here.map (·.copy.id)).getD i 0 = id).getD 0
          s.endGather here fun c => { c with group := g.id, share := place c.id, members := here.length })

/-! ### CPYX and MILE -/

/-- CPYX (R231). -/
def execCpyx (f : CopyF) (s : State) : Out :=
  .next (s.forIssue (.cpyx f) f.toCommon fun t s =>
    let (o, s) := s.start t (.cpyx f) f.toCommon 0 0 0 0
    match s.armed.find? fun (x : Armed) => x.team = t.team && x.ch = f.ch && x.arm = f.arm with
    | some a => (s.cancelArmed a).completeWith o (statusWord stOk f.ch.toNat 1)
    | none => s.completeWith o (statusWord stOk f.ch.toNat 0))

/-- MILE (R92, R232). -/
def execMile (f : CopyF) (s : State) : Out :=
  .next (s.forIssue (.mile f) f.toCommon fun t s =>
    let (o, s) := s.start t (.mile f) f.toCommon 0 0 0 0
    s.completeWith o (s.channel t.team f.ch).milestone.toNat)

/-- MILE.fault (R232). -/
def execMileFault (f : CopyF) (s : State) : Out :=
  .next (s.forIssue (.mileFault f) f.toCommon fun t s =>
    let (o, s) := s.start t (.mileFault f) f.toCommon 0 0 0 0
    s.completeWith o (s.channel t.team f.ch).fault.toNat)

end Sys2Proof.Machine
end

