-- ==== Sys2Proof/Machine/Product.lean ====
section
/-! DEFINITION. Products of the matrix engine: their formats, the value that they compute (R240 to R246), their tiles, and
what racing accesses of those tiles see (R252 to R254, R262). -/

namespace Sys2Proof.Machine

/-! ### Formats of a product (R240, R241) -/

/-- The class of accumulator. -/
inductive MatKind where
  | real | fixed | residue
deriving DecidableEq, Repr

/-- The formats of A and B; none stands for the fixed type. -/
structure MatPair where
  kind : MatKind
  ty : Ty
  sa : Option Sheet
  sb : Option Sheet
  /-- default rounding in effect for slot fa -/
  drm : Rm
deriving DecidableEq, Repr

def MatPair.ea (p : MatPair) : Nat := (p.sa.map (·.ew)).getD p.ty.bits
def MatPair.eb (p : MatPair) : Nat := (p.sb.map (·.ew)).getD p.ty.bits

/-- How two sheets pair (R241). -/
def pairKind (a b : Sheet) : Option MatKind :=
  let real := fun (h : Sheet) => h.cls = 0 || h.cls = 1 || h.cls = 4
  if real a && real b then some .real
  else if a.cls = b.cls ∧ a.ew = b.ew ∧ a.fbits = b.fbits ∧ a.moduli = b.moduli then
    (if a.cls = 2 then some .fixed else if a.cls = 3 then some .residue else none)
  else none

/-- The formats that an instruction of a world names, or none for FORMAT_SLOT. -/
def State.matPair (s : State) (w : Nat) (f : MatF) : Option MatPair :=
  if f.ty ≠ .slot then some ⟨.real, f.ty, none, none, .rne⟩
  else
    let a := s.slot w f.fa
    let b := s.slot w f.fb
    if a.none? || b.none? then none
    else (pairKind a.form b.form).map fun k => ⟨k, .slot, some a.form, some b.form, Rm.ofCode a.drm⟩

/-- A slot that the instruction names has a pending swap (R276). -/
def State.matHeld (s : State) (w : Nat) (f : MatF) : Bool :=
  f.ty = .slot && ((s.slot w f.fa).pending || (s.slot w f.fb).pending)

/-! ### The value computed (R244 to R246) -/

/-- A term: elements of A and B, none for a B row that reads zero, and the scales. -/
structure Term where
  a : Nat
  b : Option Nat
  scales : List FVal
deriving DecidableEq, Repr

/-- An element of a side under the flush bits of a %fmode (R244). -/
def matElem (ty : Ty) (h : Option Sheet) (fmode x : Nat) : FVal × Nat :=
  let flush := bit fmode (flushBit ty)
  match h with
  | none => (fmtOf ty).input flush (x % 2 ^ ty.bits)
  | some h => h.input flush x

/-- The exact product of factors; none for a product of an infinity and a zero. -/
def productOf (l : List FVal) : Option FVal :=
  if l.any FVal.isNan then some (.nan (l.any FVal.signalling))
  else
    let neg := l.foldl (fun n v => n != v.sign) false
    let inf := l.any fun v => match v with | .inf _ => true | _ => false
    let zero := l.any fun v => match v with | .zero _ => true | _ => false
    if inf && zero then none
    else if inf then some (.inf neg)
    else if zero then some (.zero neg)
    else some (l.foldl (fun p v => match p, v with
      | .fin n m e, .fin _ m' e' => .fin n (m * m') (e + e')
      | p, _ => p) (.fin neg 1 0))

/-- floor(log2 |p|) of a product that is finite and not zero. -/
def FVal.exponent : FVal → Option Int
  | .fin _ m e => some ((log2 m : Int) + e)
  | _ => none

/-- The sum of the finite products of a chunk, each kept to 96 bits (R245): the sum at its grain, and whether a
nonzero bit was discarded. -/
def truncSum (grain : Int) (ps : List FVal) : Int × Bool :=
  ps.foldl (fun r p => match p with
    | .fin n m e =>
      let (k, rest) := cut m (grain - e) false
      (if n then r.1 - k else r.1 + k, r.2 || rest ≠ 0)
    | _ => r) (0, false)

/-- chunk_sum of R245: the sum and the flags. -/
def chunkSum (ps : List (Option FVal)) : FVal × Nat :=
  let vs := ps.filterMap id
  let infs := (vs.filterMap fun v => match v with | .inf n => some n | _ => none).eraseDups
  let nv := if vs.any FVal.signalling then flNv else 0
  if ps.any (·.isNone) || infs.length = 2 then (.nan false, flNv)
  else if vs.any FVal.isNan then (.nan false, nv)
  else
    match infs with
    | n :: _ => (.inf n, 0)
    | [] =>
      match vs.filterMap FVal.exponent with
      | [] => (.zero (vs.all FVal.sign), 0)
      | x :: xs =>
        let grain := xs.foldl max x - 95
        let (k, nx) := truncSum grain vs
        (if k = 0 then .zero false else .fin (k < 0) k.natAbs grain, if nx then flNx else 0)

/-- One chunk of a real pair: the new accumulator and the flags (R245). -/
def MatPair.chunkReal (p : MatPair) (fmode acc : Nat) (ts : List Term) : Nat × Nat :=
  let es := ts.map fun t =>
    let (a, fa) := matElem p.ty p.sa fmode t.a
    let (b, fb) := match t.b with
      | some b => matElem p.ty p.sb fmode b
      | none => (.zero false, 0)
    (productOf (a :: b :: t.scales), fa ||| fb)
  let fl := es.foldl (fun n e => n ||| e.2) 0
  let (sum, f1) := chunkSum (es.map (·.1))
  let c := fmtF32.decode acc
  let nv := nvOf [c]
  match c.add .rne sum with
  | none => (fmtF32.nan, fl ||| f1 ||| nv ||| flNv)
  | some v =>
    let (r, f2) := fmtF32.encode .rne (bit fmode (flushBit .f32 + 1)) v
    (r, fl ||| f1 ||| nv ||| f2)

/-- One chunk of a fixed-point pair (R246). -/
def MatPair.chunkFixed (p : MatPair) (h : Sheet) (acc : Nat) (ts : List Term) : Nat × Nat :=
  let sum := ts.foldl (fun n t => n + sextN t.a h.ew * sextN (t.b.getD 0) h.ew) (0 : Int)
  let v := sextN acc 32 * (2 ^ h.fbits : Nat) + sum
  let (k, nx) := roundCut p.drm (v < 0) v.natAbs h.fbits false
  let n : Int := if v < 0 then -(k : Int) else k
  let lo : Int := -(2 ^ 31 : Nat)
  let hi : Int := (2 ^ 31 : Nat) - 1
  let fl := if nx then flNx else 0
  if n < lo then (wrapN lo 32, fl ||| flOf) else if hi < n then (wrapN hi 32, fl ||| flOf) else (wrapN n 32, fl)

/-- One chunk of a residue pair (R246). -/
def chunkResidue (h : Sheet) (acc : Nat) (ts : List Term) : Nat × Nat :=
  let da := h.digits acc
  ((List.range 3).foldl (fun n i =>
    let sum := ts.foldl (fun n t =>
      n + (h.digits t.a).getD i 0 * (match t.b with | some b => (h.digits b).getD i 0 | none => 0)) (da.getD i 0)
    n + sum % h.modulus i * 2 ^ (i * h.fbits)) 0, 0)

/-- One chunk of at most 32 terms. -/
def MatPair.chunk (p : MatPair) (fmode acc : Nat) (ts : List Term) : Nat × Nat :=
  match p.kind, p.sa with
  | .fixed, some h => p.chunkFixed h acc ts
  | .residue, some h => chunkResidue h acc ts
  | _, _ => p.chunkReal fmode acc ts

/-- The terms of one output element, in chunks of 32 in increasing k (R245). -/
def MatPair.accumulate (p : MatPair) (fmode acc : Nat) (ts : List Term) : Nat × Nat :=
  (List.range (ceilDiv ts.length 32)).foldl (fun r c =>
    let (v, fl) := p.chunk fmode r.1 ((ts.drop (32 * c)).take 32)
    (v, r.2 ||| fl)) (acc, 0)

/-- The value of a scale byte (R253). -/
def scaleValue (x : Nat) : FVal := if x = 255 then .nan false else .fin false 1 ((x : Int) - 127)

/-! ### Tiles of a product (R252 to R254) -/

/-- The tiles of a product. -/
structure Product where
  a : Tile
  b : Tile
  c : Tile
  sa : Option Tile
  sb : Option Tile
  /-- tiles as they stood before writes that raced with the operation, and the counter of its free choices -/
  old : List Tile := []
  free : Nat := 0
deriving DecidableEq, Repr

def Product.ids (x : Product) : List Nat :=
  [x.a.id, x.b.id, x.c.id] ++ (x.sa.map (·.id)).toList ++ (x.sb.map (·.id)).toList

/-- An operation is a tile product that has reached the engine. -/
def Op.isProduct (o : Op) : Bool :=
  o.phase = .queued && (match o.instr with | .tmma _ => true | .tmmac _ => o.lead = o.id | _ => false)

/-- An earlier product of the same core has the same accumulator tile (R254). -/
def State.productBehind (s : State) (o : Op) : Bool :=
  s.ops.any fun p => p.isProduct && p.id < o.id && p.tiles.getD 2 0 = o.tiles.getD 2 0 &&
    s.coreOf p.who = s.coreOf o.who

/-- The product of an incomplete operation, with its tiles as they are now: A, B, C and the scale tiles that its selector
names. -/
def State.productNow (s : State) (o : Op) : Option Product :=
  let rest := o.tiles.drop 3
  match s.tile? (o.tiles.getD 0 0), s.tile? (o.tiles.getD 1 0), s.tile? (o.tiles.getD 2 0) with
  | some a, some b, some c =>
    let sa := if bit o.a 16 then s.tile? (rest.headD 0) else none
    let sb := if bit o.a 17 then s.tile? (rest.getLastD 0) else none
    some ⟨a, b, c, sa, sb, s.oldTiles o.id, s.free⟩
  | _, _, _ => none

/-- An element as one read of the product finds it (R262). -/
def Product.read (x : Product) (t : Tile) (row col key : Nat) : Nat := t.read x.old x.free row col key

/-- Scale of row or column i of a data tile; 1 without a scale tile. -/
def Product.scaleAt (x : Product) (t : Option Tile) (row i key : Nat) : List FVal :=
  match t with
  | none => []
  | some t => [scaleValue (x.read t row i key)]

/-- A number for one read of a product: of operand n for term k of output (i, j). -/
def readKey (n i j k : Nat) : Nat := ((i * 4096 + j) * 8192 + k) * 8 + n

/-- The term of an output (i, j) from column k of A: A of one product and B of another, which TMMAC takes from two members
(R244, R257). -/
def termOf (pa pb : Product) (i j k n : Nat) : Term :=
  ⟨pa.read pa.a i k (readKey 0 i j n), some (pb.read pb.b k j (readKey 1 i j n)),
    pa.scaleAt pa.sa 0 i (readKey 2 i j n) ++ pa.scaleAt pa.sa 1 k (readKey 3 i j n) ++
      pb.scaleAt pb.sb 0 k (readKey 4 i j n) ++ pb.scaleAt pb.sb 1 j (readKey 5 i j n)⟩

/-- The terms of output (i, j) over the columns of A (R244). -/
def Product.terms (x : Product) (i j : Nat) : List Term :=
  (List.range x.a.cols).map fun k => termOf x x i j k k

/-- A poisoned line is read for output (i, j) (R254). -/
def Product.poisonedAt (x : Product) (i j : Nat) : Bool :=
  let hit := fun (t : Tile) (row col n : Nat) => (t.linesAt row (col * t.ew) (n * t.ew)).any t.poison.contains
  let scale := fun (t : Option Tile) (row col n : Nat) => match t with
    | none => false
    | some t => hit t row col n
  hit x.a i 0 x.a.cols || (!x.b.poison.isEmpty && (List.range x.b.rows).any fun k => hit x.b k j 1) ||
    scale x.sa 0 i 1 || scale x.sa 1 0 x.a.cols || scale x.sb 0 0 x.b.rows || scale x.sb 1 j 1

/-- An element of C that another access has written meanwhile keeps that value instead of the product's (R262). -/
def Product.yields (x : Product) (i j : Nat) : Bool :=
  x.old.any (fun y => y.id = x.c.id && y.elem i j ≠ x.c.elem i j) && Config.seenOld x.free (readKey 6 i j 0) 0

/-- The accumulator tile after a product: the tile, the flags, and whether an element was left (R254). `terms` and
`bad` give the terms of an output and whether a poisoned line is among them. An element of C in a poisoned line holds
no stated value (DESIGN CHOICE, log entry 15). -/
def Product.multiply (x : Product) (p : MatPair) (fmode : Nat) (terms : Nat → Nat → List Term)
    (bad : Nat → Nat → Bool) : Tile × Nat × Bool :=
  let c := x.c
  let r := (List.range c.rows).foldl (fun r i => (List.range c.cols).foldl (fun (r : Tile × Nat × Bool) j =>
    if bad i j then (r.1, r.2.1, true)
    else
      let acc := if (c.linesAt i (32 * j) 32).any c.poison.contains then Config.unstated x.free (32 * (i * c.cols + j))
        else x.read c i j (readKey 7 i j 0)
      let (v, fl) := p.accumulate fmode (acc % 2 ^ 32) (terms i j)
      (if x.yields i j then r.1 else r.1.setElem i j v, r.2.1 ||| fl, r.2.2)) r) (c, 0, false)
  if c.poison.isEmpty then r
  else
    let runs := (List.range c.rows).flatMap fun i => (List.range c.cols).filterMap fun j =>
      if bad i j then none else some (i, 32 * j, 32)
    (r.1.cleanse (c.cleansed runs), r.2)

/-- An element of a tile as a TLD reads it: where it is the accumulator of a TMMA that has begun, the value before or the value
after some whole number of chunks (R262). -/
def State.elemSeen (s : State) (t : Tile) (row col : Nat) : Nat :=
  (s.ops.filter fun o => o.isProduct && o.tiles.getD 2 0 = t.id && !s.productBehind o).foldl (fun v o =>
    match o.instr with
    | .tmma f =>
      (match s.productNow o, s.matPair (s.worldOf o.who) f with
       | some x, some p =>
         if x.poisonedAt row col then v
         else (p.accumulate o.x v ((x.terms row col).take (32 * Config.chunks s.free (row * 4096 + col)))).1
       | _, _ => v)
    | _ => v) (t.elem row col)

end Sys2Proof.Machine
end

