-- ==== Sys2Proof/Machine/Tile.lean ====
section
/-! DEFINITION. The instructions of group 0x5 and the steps of the tile store engine (R201 to R213, R469). -/

namespace Sys2Proof.Machine

/-- Starts a tile instruction in each thread (R201). -/
def State.tileIssue (s : State) (i : Instr) (f : TileF) (sample : State → TRef → Nat × Nat × Nat)
    (launch : State → Op → State) : State :=
  s.forIssue i f.toCommon fun t s =>
    let (a, b, c) := sample s t
    let (o, s) := s.start t i f.toCommon a b c 0
    launch s o

/-- The instruction traps at its issue with the reason of a TILE_HANDLE. -/
def State.tileOpTrap (s : State) (o : Op) (info : BitVec 8) : State := s.trapOp o trapTileHandle info 0

/-- Its result is known and is written when it completes. -/
def State.settleOp (s : State) (o : Op) (v : Nat) : State :=
  s.setOp o.id fun y => { y with phase := .result, data := [v] }

/-! ### TALLOC and TFREE -/

/-- Rows, columns and element width of a shape word (R201). -/
def shapeOf (x : Nat) : Nat × Nat × Nat := (bits x 0 12 + 1, bits x 12 12 + 1, bits x 24 5 + 1)

/-- A shape word is valid at a level (R202 info 0x03). -/
def shapeOk (x : Nat) (level : Bool) : Bool :=
  let (r, c, e) := shapeOf x
  bits x 29 3 = 0 && bits x 24 5 ≠ 0 && granulesOf r c e ≤ (if level then 128 else 512)

/-- The reason of a TILE_HANDLE where an instruction needs a Free handle (R202): none where the handle is Free. -/
def State.notFree (s : State) (team : Nat) (h : BitVec 8) : Option (BitVec 8) :=
  (s.handle? team h).map fun x => match x.state with
    | .releasing _ _ _ _ _ _ => 1
    | _ => 2

def shapeGranules (x : Nat) : Nat := granulesOf (shapeOf x).1 (shapeOf x).2.1 (shapeOf x).2.2

/-- The checks of TALLOC, and its place in the core's queue (R207). -/
def State.launchTalloc (f : TileF) (s : State) (o : Op) : State :=
  let core := s.coreOf o.who
  let g := shapeGranules o.a
  if !shapeOk o.a f.level then s.tileOpTrap o 3
  else
    match s.notFree o.who.team f.h with
    | some info => s.tileOpTrap o info
    | none =>
      if !f.level && s.reserveLeft o.who.team + s.unreserved core < g then
        s.settleOp o (footprintStatus stTileDeadlock 0)
      else
        let s := s.setHandle o.who.team f.h (some ⟨o.who.team, f.h, .waiting o.id, none⟩)
        { s.setOp o.id fun y => { y with phase := .queued } with tileQ := s.tileQ ++ [o.id] }

/-- TALLOC (R207). -/
def execTalloc (f : TileF) (s : State) : Out :=
  .next (s.tileIssue (.talloc f) f (fun s t => (s.opnd32 t f.a, 0, 0)) (State.launchTalloc f))

/-- Level of a TALLOC. -/
def Op.tallocLevel (o : Op) : Bool :=
  match o.instr with
  | .talloc f => f.level
  | _ => false

/-- A waiting request that can be granted now (R207): its own reservation covers it, or all older requests of its core
and level are gone and its granules are free; the tile table has an entry for it. -/
def State.grantable (s : State) (o : Op) : Bool :=
  let core := s.coreOf o.who
  let g := shapeGranules o.a
  let own := !o.tallocLevel && g ≤ s.reserveLeft o.who.team
  let oldest := (s.tileQ.find? fun n => (s.op? n).any fun p =>
    s.coreOf p.who = core && p.tallocLevel = o.tallocLevel) = some o.id
  let fits := if o.tallocLevel then s.level1Used core + g ≤ 128
    else g ≤ s.reserveLeft o.who.team + (s.unreserved core - s.unreservedUsed core)
  s.tileQ.contains o.id && o.phase = .queued && s.resident o.who.team && (own || (oldest && fits)) &&
    s.tableUsed core < 1024

/-- TALLOC_GRANT (R196 to R198, R207). -/
def execTallocGrant (n : Nat) (s : State) : Out :=
  .next (match s.op? n with
    | none => s
    | some o =>
      match o.instr with
      | .talloc f =>
        if !s.grantable o then s
        else
          let (r, c, e) := shapeOf o.a
          let g := shapeGranules o.a
          let tile : Tile :=
            { id := s.ids, core := s.coreOf o.who, team := o.who.team, world := s.worldOf o.who, level := f.level,
              rows := r, cols := c, ew := e, lines := [], poison := [], releasing := false,
              fromReserve := if f.level then 0 else min g (s.reserveLeft o.who.team) }
          let s := { s with ids := s.ids + 1, tiles := s.tiles ++ [tile], tileQ := s.tileQ.filter (· ≠ n) }
          let s := s.setHandle o.who.team f.h (some ⟨o.who.team, f.h, .allocated tile.id, none⟩)
          s.completeWith o (footprintStatus stOk tile.footprint)
      | _ => s)

/-- The requests that wait on a core. -/
def State.waitingOn (s : State) (core : Nat) : List Op :=
  s.tileQ.filterMap fun n => (s.op? n).bind fun o => if s.coreOf o.who = core then some o else none

/-- Tile deadlock of a core; the handles of teams that have ended are no incomplete TFREE (R208; DEDUCED, log entry 123). -/
def State.tileDeadlocked (s : State) (core : Nat) : Bool :=
  let ws := s.waitingOn core
  !ws.isEmpty && ws.all (fun o => !s.grantable o) &&
    !(s.ops.any fun o => s.coreOf o.who = core && s.resident o.who.team &&
      (match o.instr with | .tfree _ => true | _ => false)) &&
    ((s.teams.filter fun m => s.occupies m core).all fun m =>
      !(s.handles.any fun h => h.team = m.id && (match h.state with | .allocated _ => true | _ => false)) ||
        ws.any fun o => o.who.team = m.id)

/-- TILE_DEADLOCK: the request issued last completes with TILE_DEADLOCK (R208). -/
def execTileDeadlock (core : Nat) (s : State) : Out :=
  .next (if !s.tileDeadlocked core then s
    else
      match (s.waitingOn core).getLast? with
      | none => s
      | some o =>
        let s := { s with tileQ := s.tileQ.filter (· ≠ o.id) }
        let s := match o.instr with
          | .talloc f => s.setHandle o.who.team f.h none
          | _ => s
        s.completeWith o (footprintStatus stTileDeadlock 0))

/-- TFREE of a handle (R209). -/
def State.launchTfree (f : TileF) (s : State) (o : Op) : State :=
  let team := o.who.team
  let shape := fun (n : Nat) => ((s.tile? n).map fun t => (t.rows, t.cols, t.ew, t.level)).getD (1, 1, 1, false)
  let freed := fun (n : Nat) (view : Bool) => let (r, c, e, l) := shape n; HState.releasing n view r c e l
  match s.handle? team f.h with
  | none => s.tileOpTrap o 1
  | some x =>
    match x.state with
    | .waiting _ => s.tileOpTrap o 1
    | .releasing _ _ _ _ _ _ => s.tileOpTrap o 7
    | .stale _ _ _ _ => (s.setHandle team f.h none).settleOp o (footprintStatus stOk 0)
    | .allocated n =>
      let s := s.setHandle team f.h (some { x with state := freed n false })
      let s := (s.setTile n fun t => { t with releasing := true }).cancelNamed team f.h
      s.setOp o.id fun y => { y with phase := .queued, tiles := [n], x := 0 }
    | .view n =>
      let s := (s.setHandle team f.h (some { x with state := freed n true })).cancelNamed team f.h
      s.setOp o.id fun y => { y with phase := .queued, tiles := [n], x := 1 }

/-- TFREE (R209). -/
def execTfree (f : TileF) (s : State) : Out :=
  .next (s.tileIssue (.tfree f) f (fun _ _ => (0, 0, 0)) (State.launchTfree f))

/-- Entries of the event map on a tile are removed (R419). -/
def State.dropEvents (s : State) (tile : Nat) : State :=
  { s with worlds := s.worlds.map fun (w : World) =>
      { w with events := w.events.filter fun e => match e.2.1 with
          | .tile n _ => n ≠ tile
          | .mem _ => true } }

/-- A Releasing handle whose tile, its team's own, has this number. -/
def HState.frees (n : Nat) : HState → Bool
  | .releasing m false _ _ _ _ => m = n
  | _ => false

/-- TILE_RELEASE: every operation that names the tile is complete; the granules are cleared and returned, its handle is
Free, and its views become Stale (R209). -/
def execTileRelease (n : Nat) (s : State) : Out :=
  .next (match s.tile? n with
    | none => s
    | some t =>
      if !t.releasing || s.tileBusy n then s
      else
        let s := s.dropEvents n
        let s := { s with
          tiles := s.tiles.filter fun (x : Tile) => x.id ≠ n
          handles := (s.handles.filter fun (h : Handle) => !h.state.frees n).map fun (h : Handle) =>
            if h.state = HState.view n then { h with state := .stale t.rows t.cols t.ew t.level } else h }
        match s.ops.find? fun (o : Op) => o.tiles = [n] && o.x = 0 &&
            (match o.instr with | .tfree _ => true | _ => false) with
        | some o => s.completeWith o (footprintStatus stOk t.footprint)
        | none => s)

/-! ### TLD, TST and TFILL -/

/-- The checks of TLD and TST (R202, R205). -/
def State.launchElems (f : TileF) (w : Nat) (s : State) (o : Op) : State :=
  match s.tileOf o.who.team f.h with
  | .error e => s.tileOpTrap o e
  | .ok t =>
    if w < t.ew then s.tileOpTrap o 8
    else if t.rows ≤ o.a || t.cols ≤ o.b then s.tileOpTrap o 4
    else s.setOp o.id fun y => { y with tiles := [t.id] }

/-- TLD (R205). -/
def execTld (f : TileF) (s : State) : Out :=
  .next (s.tileIssue (.tld f) f (fun s t => (s.opnd32 t f.a, s.opnd32 t f.b, 0)) (State.launchElems f f.d.w.bits))

/-- The bits of a row that a TST writes (R205). -/
def tstRun (o : Op) (f : TileF) (t : Tile) : Nat × Nat × Nat :=
  (o.a, o.b * t.ew, min (f.c.bits / t.ew) (t.cols - o.b) * t.ew)

/-- A run of bits as one number, as an operation keeps it. -/
def runWord (r : Nat × Nat × Nat) : Nat := r.1 * 2 ^ 40 + r.2.1 * 2 ^ 20 + r.2.2

def wordRun (n : Nat) : Nat × Nat × Nat := (n / 2 ^ 40, bits n 20 20, bits n 0 20)

/-- TST (R205). -/
def execTst (f : TileF) (s : State) : Out :=
  .next (s.tileIssue (.tst f) f (fun s t => (s.opnd32 t f.a, s.opnd32 t f.b, s.rawOpnd t f.c))
    (State.launchElems f f.c.bits))

/-- TFILL (R206). -/
def execTfill (f : TileF) (s : State) : Out :=
  .next (s.tileIssue (.tfill f) f (fun s t => (s.opnd32 t f.a, 0, 0)) fun s o =>
    match s.tileOf o.who.team f.h with
    | .error e => s.tileOpTrap o e
    | .ok t => s.setOp o.id fun y => { y with tiles := [t.id] })

/-! ### TINFO and TBIND -/

/-- The information word of a handle (R200). -/
def State.infoWord (s : State) (team : Nat) (h : BitVec 8) : Nat :=
  match s.handle? team h with
  | none => 0
  | some x =>
    let chan := match x.chan with
      | some c => fieldAt 1 37 1 + fieldAt c.toNat 33 4
      | none => 0
    let shape := fun (st r c e : Nat) (l : Bool) =>
      chan + fieldAt st 30 3 + bitAt l 29 + fieldAt (e - 1) 24 5 + fieldAt (c - 1) 12 12 + fieldAt (r - 1) 0 12
    let tile := fun (st n : Nat) (view : Bool) => match s.tile? n with
      | some t => shape st t.rows t.cols t.ew t.level + (if view then 0 else fieldAt t.granules 38 10)
      | none => chan + fieldAt st 30 3
    match x.state with
    | .waiting _ => fieldAt 1 30 3
    | .allocated n => tile 2 n false
    | .view n => tile 3 n true
    | .stale r c e l => shape 4 r c e l
    | .releasing n false _ _ _ _ => tile 5 n false
    | .releasing _ true r c e l => shape 5 r c e l

/-- TINFO (R211). -/
def execTinfo (f : TileF) (s : State) : Out :=
  .next (s.tileIssue (.tinfo f) f (fun _ _ => (0, 0, 0)) fun s _ => s)

/-- The source of a TBIND (R202 info 0x06, R210). -/
def State.bindSource (s : State) (team : Nat) (f : TileF) : Option Nat :=
  let m := s.team team
  let rank := f.peer.toNat
  if m.cgrid = 0 || rank = m.index % m.cgrid || m.cgrid ≤ rank then none
  else
    match s.rankTeam m rank with
    | none => none
    | some p =>
      match s.handle? p.id f.hp with
      | some x => (match x.state with | .allocated n => some n | _ => none)
      | none => none

/-- The checks of TBIND, and the View it makes (R202, R210). It takes an entry of the tile table, and while the table has none
free it waits as a TALLOC does (R199, R207; DESIGN CHOICE, log entry 120). -/
def State.launchTbind (f : TileF) (s : State) (o : Op) : State :=
  let team := o.who.team
  match s.notFree team f.h with
  | some info => s.tileOpTrap o info
  | none =>
    match s.bindSource team f with
    | none => s.tileOpTrap o 6
    | some n =>
      if s.tableUsed (s.coreOf o.who) < 1024 then
        (s.setHandle team f.h (some ⟨team, f.h, .view n, none⟩)).settleOp o (footprintStatus stOk 0)
      else
        (s.setHandle team f.h (some ⟨team, f.h, .waiting o.id, none⟩)).setOp o.id fun y =>
          { y with phase := .queued, tiles := [n] }

/-- TBIND (R210). -/
def execTbind (f : TileF) (s : State) : Out :=
  .next (s.tileIssue (.tbind f) f (fun _ _ => (0, 0, 0)) (State.launchTbind f))

/-! ### Completion -/

/-- TLD reads its run of elements (R205, R469), in one step (DEDUCED, log entry 121). -/
def State.performTld (s : State) (o : Op) (f : TileF) (t : Tile) : State :=
  let k := min (f.d.w.bits / t.ew) (t.cols - o.b)
  if (t.linesAt o.a (o.b * t.ew) (k * t.ew)).any t.poison.contains then s.trapOp o trapPoison 0 0
  else s.completeWith o ((List.range k).foldr (fun i n => n * 2 ^ t.ew + s.elemSeen t o.a (o.b + i)) 0)

/-- TST writes its run of elements (R205), in one step (DEDUCED, log entry 121). The last of its issue clears the poisoned
lines that the issue's elements together cover; each leaves its run with those that are still to write (R469). -/
def State.performTst (s : State) (o : Op) (f : TileF) (t : Tile) : State :=
  let k := min (f.c.bits / t.ew) (t.cols - o.b)
  let t' := (List.range k).foldl (fun t i => t.setElem o.a (o.b + i) (bits o.c (i * t.ew) t.ew)) t
  let s := s.complete o
  let also := fun (p : Op) => p.iss = o.iss && p.tiles = [t.id]
  let run := tstRun o f t
  if s.ops.any also then
    { s.setTile t.id fun _ => t' with
      ops := s.ops.map fun (p : Op) => if also p then { p with data := runWord run :: p.data } else p }
  else s.setTile t.id fun _ => t'.cleanse (t'.cleansed (run :: o.data.map wordRun))

/-- A tile instruction may complete: a TST stands behind those of lower home lanes of its issue in the same row, and a
TFREE of a view behind the team's operations on the tile, through whichever handle (R205, R209; DEDUCED, log entry 122). -/
def State.tileOpDue (s : State) (o : Op) : Bool :=
  match o.phase, o.instr with
  | .result, .talloc _ | .result, .tfree _ | .result, .tbind _ => true
  | .pending, .tld _ | .pending, .tfill _ | .pending, .tinfo _ => true
  | .pending, .tst _ => !(s.ops.any fun p => p.iss = o.iss && p.tiles = o.tiles && p.a = o.a &&
      p.who.lane < o.who.lane)
  | .queued, .tbind _ => s.resident o.who.team && s.tableUsed (s.coreOf o.who) < 1024
  | .queued, .tfree _ => o.x = 1 && !(s.tileBusy (o.tiles.headD 0) fun p => p.who.team = o.who.team)
  | _, _ => false

/-- TILE_OP_COMPLETE (R20, R74, R203 to R211). A TFILL writes its tile in one step (R206; DEDUCED, log entry 121). -/
def execTileOpComplete (n : Nat) (s : State) : Out :=
  .next (match s.op? n with
    | none => s
    | some o =>
      if !s.tileOpDue o then s
      else
        match o.phase, o.instr with
        | .result, _ => s.completeWith o (o.data.headD 0)
        | .queued, .tfree f =>
          (s.setHandle o.who.team f.h none).completeWith o (footprintStatus stOk 0)
        | .queued, .tbind f =>
          (s.setHandle o.who.team f.h (some ⟨o.who.team, f.h, .view (o.tiles.headD 0), none⟩)).completeWith o
            (footprintStatus stOk 0)
        | _, .tinfo f => s.completeWith o (s.infoWord o.who.team f.h)
        | _, i =>
          match s.tile? (o.tiles.headD 0) with
          | none => s.complete o
          | some t =>
            match i with
            | .tld f => s.performTld o f t
            | .tst f => s.performTst o f t
            | .tfill _ => (s.setTile t.id fun t => t.fill o.a).complete o
            | _ => s)

end Sys2Proof.Machine
end

