-- ==== Sys2Proof/Machine/Residence.lean ====
section
/-! DEFINITION. Launch records and kernel descriptors as fields, the room that a team needs on a core, the start of
teams and formed groups, and the end of a launch (R24, R65, R196, R297, R353, R355, R383 to R386, R389, R391). -/

namespace Sys2Proof.Machine

/-! ### Fields of a launch record and a descriptor (R65, R383) -/

def Launch.rec_ (l : Launch) (lo n : Nat) : Nat := bits l.record.toNat lo n
def Launch.desc (l : Launch) (lo n : Nat) : Nat := bits l.kd.toNat lo n

def Launch.dom (l : Launch) : BitVec 4 := BitVec.ofNat 4 (l.rec_ 688 4)
def Launch.persistent (l : Launch) : Bool := l.rec_ 272 1 = 1
def Launch.cgrid (l : Launch) : Nat := l.rec_ 278 7
def Launch.gridX (l : Launch) : Nat := l.rec_ 128 32
def Launch.gridY (l : Launch) : Nat := l.rec_ 160 16
def Launch.gridZ (l : Launch) : Nat := l.rec_ 176 16
def Launch.teamX (l : Launch) : Nat := l.rec_ 224 10 + 1
def Launch.teamY (l : Launch) : Nat := l.rec_ 234 10 + 1
def Launch.teamZ (l : Launch) : Nat := l.rec_ 244 10 + 1
/-- Threads of a team. -/
def Launch.teamThreads (l : Launch) : Nat := l.teamX * l.teamY * l.teamZ
def Launch.teamGroups (l : Launch) : Nat := l.teamThreads / 32
def Launch.producers (l : Launch) : Nat := l.rec_ 266 6
/-- Slices per thread of the consumer role. -/
def Launch.budgetC (l : Launch) : Nat := 32 * l.rec_ 254 6
def Launch.budgetP (l : Launch) : Nat := 32 * l.rec_ 260 6
/-- Budget of a group of a team. -/
def Launch.budgetOf (l : Launch) (gid : Nat) : Nat := if gid < l.producers then l.budgetP else l.budgetC
/-- Number of teams. -/
def Launch.teamCount (l : Launch) : Nat := l.gridX * l.gridY * l.gridZ
/-- Reserved granules per team (R196). -/
def Launch.granules (l : Launch) : Nat := ceilDiv (l.rec_ 192 32) 4096
/-- Stack bytes and spill bytes of a thread (R65, R386). -/
def Launch.stackBytes (l : Launch) : Nat := l.desc 192 32
def Launch.spillBytes (l : Launch) : Nat := l.desc 224 32
/-- Logical cores of the shape (R366). -/
def Launch.logicalCores (l : Launch) : Nat := 64 * 2 ^ l.rec_ 274 2
def Launch.determ (l : Launch) : Bool := l.rec_ 273 1 = 1 && l.desc 131 1 = 1
/-- Staging quota of a thread (R355). -/
def Launch.quota (l : Launch) : Nat := if l.rec_ 301 5 = 0 then 2 else l.rec_ 301 5
/-- Staging entries of a team. -/
def Launch.stageEntries (l : Launch) : Nat := if l.determ then l.quota * l.teamThreads else 0

/-- The largest frame of a team (R391). -/
def frameBytes (budgets granules stage : Nat) (threads : Nat) : Nat :=
  16384 + 16 * budgets / 32 + 512 * threads + 4096 * granules + 32 * stage

def Launch.frame (l : Launch) : Nat :=
  frameBytes (32 * ((List.range l.teamGroups).map l.budgetOf).sum) (l.granules + 128) l.stageEntries l.teamThreads

/-- The frame of a group formed from a lay-by. -/
def Launch.formedFrame (l : Launch) : Nat := frameBytes (32 * l.budgetC) 128 0 32

/-! ### Room on a core (R24, R389) -/

/-- A team is on its core, or a fault has swapped it out of a persistent launch and it keeps its room (R321). -/
def State.keepsRoom (s : State) (m : Team) : Bool :=
  m.place = .resident || (m.swapped && (s.launch? m.launch).any (·.persistent))

/-- A team that holds its slot on a core: it has not ended. -/
def State.holdsSlot (s : State) (m : Team) : Bool :=
  ((s.launch? m.launch).any fun l => l.state ≠ .ended) && (m.finalTurn || !(s.liveOfTeam m.id).isEmpty) && s.keepsRoom m

def State.slotsOn (s : State) (core : Nat) : List Team := s.teams.filter fun m => m.core = core && s.holdsSlot m

/-- The slices of a group are in use (R24, R44). -/
def State.groupInUse (s : State) (g : Group) : Bool :=
  !(s.liveOfGroup g.team g.gid).isEmpty || s.ops.any fun o => o.who.team = g.team && o.who.gid = g.gid

/-- The groups that hold room in a quad: those of teams that are resident there or keep their room (R321) and whose slices
are in use (R24, R44). -/
def State.groupsIn (s : State) (core quad : Nat) : List Group :=
  s.groups.filter fun g => g.quad = quad && (s.team g.team).core = core && s.keepsRoom (s.team g.team) && s.groupInUse g

/-- What is in use in a quad: slices per lane position, and groups. -/
def State.quadUse (s : State) (core quad : Nat) : Nat × Nat :=
  (((s.groupsIn core quad).map (·.budget)).sum, (s.groupsIn core quad).length)

/-- A quad has room for 16,384 slices per lane position and for 512 threads, which are 16 groups (R11, R24, R160). -/
def quadFits (use : Nat × Nat) (budget : Nat) : Bool := use.1 + budget ≤ 16384 && use.2 < 16

/-- Quads for groups of given budgets, each in the quad with the fewest groups; none where one does not fit. -/
def packQuads : List (Nat × Nat) → List Nat → Option (List Nat)
  | _, [] => some []
  | use, b :: r =>
    let best := (List.range 4).foldl (fun q i => if (use.getD i (0, 0)).2 < (use.getD q (0, 0)).2 then i else q) 0
    let u := use.getD best (0, 0)
    if quadFits u b then (packQuads (use.set best (u.1 + b, u.2 + 1)) r).map (best :: ·) else none

/-- Groups of given budgets fit in the quads that they have (R23). -/
def quadsFit : List (Nat × Nat) → List (Nat × Nat) → Bool
  | _, [] => true
  | use, (q, b) :: r =>
    let u := use.getD q (0, 0)
    quadFits u b && quadsFit (use.set q (u.1 + b, u.2 + 1)) r

/-- Staging entries that deterministic teams hold on a core (R355). -/
def State.stageUse (s : State) (core : Nat) : Nat :=
  ((s.slotsOn core).map fun m => ((s.launch? m.launch).map (·.stageEntries)).getD 0).sum

/-- Bytes of frames reserved in a world's context area (R391). -/
def State.frameUse (s : State) (w : Nat) : Nat :=
  ((s.teams.filter fun m => m.world = w && !(s.liveOfTeam m.id).isEmpty).map fun m =>
    ((s.launch? m.launch).map fun l => if m.formed then l.formedFrame else l.frame).getD 0).sum

def World.ctxBytes (x : World) : Nat := bits x.ctxsize.toNat 12 28 * 4096

/-- The context area of a world has room for a frame (R391). -/
def State.frameRoom (s : State) (w n : Nat) : Bool := s.frameUse w + n ≤ (s.world w).ctxBytes

/-- Fenced cores are never used (R33, R400). -/
def State.usable (s : State) (p : Partition) : List Nat :=
  (List.range 512).filter fun c => bit p.desc.toNat c && !s.mgmt.cores.contains c

/-- The partition of a world. -/
def State.partOf (s : State) (w : Nat) : Option Partition := s.part? (s.world w).part

/-- A core has the room that a team needs, its registers and its frame apart (R389). -/
def State.coreRoom (s : State) (core granules stage : Nat) : Bool :=
  (s.slotsOn core).length < 64 && granules + s.unreservedUsed core ≤ s.unreserved core && s.stageUse core + stage ≤ 2048

/-- Quads for the groups of a team on a core that has all the room that the team needs, its frame apart (R389). -/
def State.roomFor (s : State) (core : Nat) (budgets : List Nat) (granules stage : Nat) : Option (List Nat) :=
  if s.coreRoom core granules stage then packQuads ((List.range 4).map (s.quadUse core)) budgets else none

/-! ### Start of a team (R97 to R99, R162, R170, R173, R386) -/

/-- A new thread of a launch in stack slot `at_`. -/
def Launch.newThread (l : Launch) (t : TRef) (pc : W64) (slices : BitVec 4096) (at_ : W64) : Thread :=
  let b := at_ + BitVec.ofNat 64 l.stackBytes
  { Thread.init t pc with
    slices := slices, sp := b, base := b, stklim := at_, retbase := b, retlim := b + BitVec.ofNat 64 l.spillBytes }

/-- Starts a team of a launch on a core (R386). -/
def State.startTeam (s : State) (l : Launch) (j core : Nat) (quads : List Nat) : State :=
  let id := s.ids
  let nt := l.teamThreads
  let ng := l.teamGroups
  let gx := max 1 l.gridX
  let gy := max 1 l.gridY
  let n := l.rec_ 306 7
  let k := BitVec.ofNat 2048 (ofBytes (l.args.take (4 * n)))
  let sl := BitVec.ofNat 4096 (ofBytes ((l.args.drop (4 * n)).take (l.rec_ 313 9))) <<< (4 * l.rec_ 322 10)
  let stack := l.stackBytes + l.spillBytes
  let team : Team :=
    { Team.absent with
      id := id, launch := l.id, index := j, world := l.world, core := core,
      team := BitVec.ofNat 64 (j % gx + j / gx % gy * 2 ^ 32 + j / (gx * gy) * 2 ^ 48)
      teamdim := BitVec.ofNat 64 (l.teamX + l.teamY * 2 ^ 16 + l.teamZ * 2 ^ 32)
      griddim := BitVec.ofNat 64 (l.rec_ 128 64)
      lcore := j % l.logicalCores, cgrid := l.cgrid, cregs := List.replicate 16 (CReg.init ng)
      reserve := l.granules, started := s.clock + 1 }
  let groups := (List.range ng).map fun g =>
    { Group.init id g (quads.getD g 0) (g < l.producers) (l.budgetOf g) l.dom with k := k }
  let threads := (List.range nt).map fun i =>
    l.newThread ⟨id, i / 32, i % 32⟩ (BitVec.ofNat 64 (l.desc 0 64)) sl
      (BitVec.ofNat 64 (l.rec_ 544 64 + (j * nt + i) * stack))
  { s with ids := id + 1, teams := s.teams ++ [team], groups := s.groups ++ groups, threads := s.threads ++ threads }

/-- Starts a group formed from a lay-by as a team of its own (R297, R386). -/
def State.startFormed (s : State) (l : Launch) (f : Formed) (core quad : Nat) : State :=
  let id := s.ids
  let stack := l.stackBytes + l.spillBytes
  let slot := f.form % l.rec_ 672 16
  let team : Team :=
    { Team.absent with
      id := id, launch := l.id, index := 2 ^ 32 - 1, formed := true, form := f.form, world := f.world, core := core,
      team := BitVec.allOnes 64, teamdim := BitVec.ofNat 64 (32 + 2 ^ 16 + 2 ^ 32), griddim := BitVec.ofNat 64 (l.rec_ 128 64)
      lcore := (2 ^ 32 - 1) % l.logicalCores, cregs := List.replicate 16 (CReg.init 1), started := s.clock + 1 }
  let group := { Group.init id 0 quad false l.budgetC f.domain with
    k := BitVec.ofNat 2048 (f.entries.length + f.number * 2 ^ 32) }
  let threads := (List.range f.entries.length).map fun i =>
    let e := f.entries.getD i ⟨0, 0, 0, [], 0⟩
    l.newThread ⟨id, 0, i⟩ f.entry
      (BitVec.ofNat 4096 (ofBytes e.bytes % 2 ^ (4 * e.count)) <<< (4 * e.first))
      (BitVec.ofNat 64 (l.rec_ 608 64 + (32 * slot + i) * stack))
  { s with ids := id + 1, teams := s.teams ++ [team], groups := s.groups ++ [group], threads := s.threads ++ threads,
           formed := s.formed.filter fun (x : Formed) => x.id ≠ f.id }

/-! ### End of a launch (R178, R298, R385, R398) -/

/-- The place of an address in a launch's domain (R315, R383). -/
def State.launchLoc (s : State) (l : Launch) (acc : Acc) (va : W64) : Xl × State :=
  s.translate { core := 512, lane := none, world := l.world, domain := l.dom } acc va

/-- Writes bytes in a launch's domain where its pages are mapped. -/
def State.launchWrite (s : State) (l : Launch) (va : W64) (bs : List Byte) : State :=
  match s.translateRun { core := 512, lane := none, world := l.world, domain := l.dom } .write va bs.length [] with
  | (.inl ls, s) =>
    let s := s.writeBytes ((ls.zip bs).filter fun x => !x.1.isPeer)
    let s := (lineRuns ((ls.zip bs).filter fun x => x.1.isPeer)).foldl (fun s r =>
      s.request 0 0 512 l.world flWrite r.1 r.2.length r.2) s
    s.unmark ls
  | (.inr _, s) => s

/-- Signals an MSI-X vector of a world (R456). -/
def State.signal (s : State) (w : Nat) (v : Nat) : State :=
  s.setWorld w fun x => { x with msix := x.msix ||| (1#4 <<< v) }

/-- The ticket is among the last 1,024 enqueues of a queue (R308). -/
def Queue.recent (q : Queue) (ticket : BitVec 16) : Bool :=
  let n := (q.ticket - ticket).toNat
  1 ≤ n && n ≤ 1024

/-- Records the status of an ended launch at its queue (R308, R380). -/
def State.recordEnd (s : State) (w q : Nat) (ticket : BitVec 16) (status : Nat) : State :=
  s.setQueue w q fun x => { x with
    ended := (x.ended.filter fun e => e.1 ≠ ticket && x.recent e.1) ++ [(ticket, status)] }

/-- Nothing of a team is in flight any more. -/
def State.teamIdle (s : State) (n : Nat) : Bool :=
  !(s.ops.any fun o => o.who.team = n) && !(s.copies.any fun c => c.team = n) && !(s.tiles.any fun t => t.team = n) &&
    !(s.staging.any fun e => e.team = n) && !(s.wbuf.any fun e => e.who.team = n) &&
    !((s.team n).finalTurn) && (s.team n).releases.isEmpty

/-- Removes the rows of teams of ended launches that have nothing in flight. -/
def State.reap (s : State) : State :=
  let dead := (s.teams.filter fun m =>
    ((s.launch? m.launch).all fun l => l.state = .ended) && s.teamIdle m.id).map (·.id)
  let s := { s with
    teams := s.teams.filter fun (m : Team) => !dead.contains m.id
    groups := s.groups.filter fun (g : Group) => !dead.contains g.team
    threads := s.threads.filter fun (x : Thread) => !dead.contains x.id.team
    channels := s.channels.filter fun (c : Channel) => !dead.contains c.team
    folds := s.folds.filter fun (f : Fold) => !dead.contains f.team }
  { s with launches := s.launches.filter fun (l : Launch) =>
      l.state ≠ .ended || s.teams.any fun m => m.launch = l.id }

/-- Closes the log of a recorded launch: shape, checkpoints, state and terminators (R373). -/
def State.closeLog (s : State) (l : Launch) : State :=
  match s.log? l.id with
  | none => s
  | some g =>
    if g.replay then s
    else
      let s := (s.logWrite g 6 1 (l.rec_ 274 2)).logWrite g 16 4 g.ckused
      let s := if g.stopped then s else s.logWrite g 5 1 2
      (List.range 48).foldl (fun s b =>
        let pos := (g.bank b).1
        if pos < g.seg then s.logWrite g (g.chunkOff b pos) 8 0 else s) s

/-- Ends a launch with a status and a reason: its log is closed (R373), then its completion record, its interrupt, and what its
queue keeps (R384, R385). A work list set that the launch first named leaves use (R305). -/
def State.endLaunch (s : State) (l : Launch) (status reason : Nat) : State :=
  let va := BitVec.ofNat 64 (l.rec_ 384 64)
  let record := status + reason * 2 ^ 8 + l.ticket.toNat * 2 ^ 16 + l.queue * 2 ^ 32 + s.clock % 2 ^ 64 * 2 ^ 64
  let s := s.closeLog l
  let s := if va = 0 then s else s.launchWrite l va (toBytes record 16)
  let s := if l.rec_ 340 1 = 1 then s.signal l.world 1 else s
  let s := s.recordEnd l.world l.queue l.ticket status
  let s := s.setLaunch l.id fun x => { x with state := .ended, status := status, reason := reason }
  let s := { s with
    sets := s.sets.filter fun (x : WorkSet) => x.launch ≠ l.id
    logs := s.logs.filter fun (g : OrderLog) => g.launch ≠ l.id
    faults := s.faults.filter fun (f : FaultRec) => f.notice || f.source ≠ Source.launch l.id }
  s.reap

/-- A launch is refused: nothing of it runs (R380, R384). A host record that was not read counts as taken (R381). -/
def State.refuseLaunch (s : State) (l : Launch) (status reason : Nat) : State :=
  (s.setQueue l.world l.queue fun x =>
    { x with last := BitVec.ofNat 8 status, head := if l.taken then x.head else x.head + 1 }).endLaunch l status reason

/-- A thread that stops for good. -/
def Thread.halt (x : Thread) : Thread :=
  { x with live := false, trap := none, async := [], fault := none, sleep := none, turn := none, shed := none }

/-- A team that ends without a final turn. -/
def Team.halt (m : Team) : Team := { m with finalTurn := false, releases := [], place := .resident }

/-- Every thread of a launch stops, and what its teams hold is released with no further effect (R178, R298, R398). -/
def State.stopLaunch (s : State) (l : Launch) : State :=
  let mine := fun (n : Nat) => (s.team n).launch = l.id
  let gone := fun (o : Op) => mine o.who.team
  let copyOps := (s.copies.filter fun c => mine c.team).map (·.op)
  { s with
    threads := s.threads.map fun (x : Thread) => if mine x.id.team then x.halt else x
    teams := s.teams.map fun (m : Team) => if m.launch = l.id then m.halt else m
    ops := s.ops.filter fun (o : Op) => !gone o
    wbuf := s.wbuf.map fun (e : BufEntry) => if mine e.who.team then { e with op := 0 } else e
    tileQ := s.tileQ.filter fun n => !((s.op? n).any gone)
    tiles := s.tiles.map fun (t : Tile) => if mine t.team then { t with releasing := true } else t
    handles := s.handles.filter fun (h : Handle) => !mine h.team
    armed := s.armed.filter fun (a : Armed) => !mine a.team
    copies := (s.copies.filter fun c => !(mine c.team && (s.team c.team).place = .frame)).map fun (c : Copy) =>
      if copyOps.contains c.op then { c with op := 0 } else c
    gathers := s.gathers.filter fun (g : Gather) => !mine g.team
    mmas := s.mmas.filter fun (g : TeamMma) => !mine g.team
    tmmacs := s.tmmacs.filter fun (x : Tmmac) => !mine x.team
    staging := s.staging.filter fun (e : Stage) => !mine e.team
    folds := s.folds.filter fun (f : Fold) => !mine f.team
    laybys := s.laybys.filter fun (b : Layby) => b.launch ≠ l.id
    formed := s.formed.filter fun (f : Formed) => f.launch ≠ l.id
    windows := s.windows.filter fun (w : Window) => !mine w.team
    winQ := s.winQ.filter fun x => !mine x.2.1
    remotes := s.remotes.map fun (r : Remote) => if (s.op? r.op).any gone then { r with op := 0 } else r
    faults := s.faults.filter fun (f : FaultRec) => f.notice || match f.source with
      | .thread t => !mine t.team
      | .background n _ => !mine n
      | .slotRelease n _ => !mine n
      | _ => true }

/-- Every write of a launch's threads is performed (R79). -/
def State.written (s : State) (l : Launch) : Bool :=
  !(s.wbuf.any fun e => (s.team e.who.team).launch = l.id) &&
    !(s.remotes.any fun r => r.world = l.world && r.kind = flWrite && !r.done)

/-- Cuts a launch off with a status and a reason: it ends once what its threads have written is performed (R79, R178, R398). -/
def State.cutLaunch (s : State) (l : Launch) (status reason : Nat) : State :=
  let s := s.stopLaunch l
  if s.written l then s.endLaunch l status reason
  else s.setLaunch l.id fun x => { x with state := .stopped, status := status, reason := reason }

/-- Adds the notice of a killed or fatally trapped launch (R398). -/
def State.launchNotice (s : State) (l : Launch) (kind : Nat) (entry va pc : W64) : State :=
  let s' := s.notice { id := s.ids, world := l.world, source := .launch l.id, kind := kind, access := 0, level := 0,
                       domain := 0, entry := entry, va := va, pc := pc, channel := 0, queue := l.queue,
                       ticket := l.ticket, num := none, notice := true, pri := false, pull := false, ipa := 0,
                       deadline := 0 }
  { s' with ids := s.ids + 1 }

end Sys2Proof.Machine
end

