-- ==== Sys2Proof/Machine/Queues.lean ====
section
/-! DEFINITION. Launch queues and the checks of a launch (R65, R380, R381, R383, R384, R388). -/

namespace Sys2Proof.Machine

/-! ### Queues (R380, R381) -/

def Queue.enabled (q : Queue) : Bool := bit q.cfg.toNat 0
def Queue.dev (q : Queue) : Bool := bit q.cfg.toNat 2
def Queue.prio (q : Queue) : Nat := bits q.cfg.toNat 3 2
def Queue.lgn (q : Queue) : Nat := bits q.cfg.toNat 5 4
def Queue.base (q : Queue) : Nat := bits q.cfg.toNat 12 40 * 4096

/-- The records of a queue that the dispatcher has not taken. -/
def State.pendingIn (s : State) (w q : Nat) : List QEntry := s.queued.filter fun e => e.world = w && e.queue = q

/-- Device-side records pending in a queue. -/
def State.devPending (s : State) (w q : Nat) : Nat := ((s.pendingIn w q).filter (!·.host)).length

/-- Adds a record to a queue under the next ticket (R381). -/
def State.enqueueRecord (s : State) (w q : Nat) (host : Bool) (record : BitVec 1024) (d : BitVec 4) : State :=
  let x := s.queue w q
  let s := { s with queued := s.queued ++ [(⟨w, q, x.ticket, host, record, d⟩ : QEntry)] }
  s.setQueue w q fun x =>
    let x := { x with ticket := x.ticket + 1 }
    { x with ended := x.ended.filter fun e => x.recent e.1 }

/-- QTAIL_DOORBELL: the host's records up to the new tail are enqueued in ring order; a doorbell that does not fit, or of
a queue that is not enabled, is ignored (R381). A tail behind the old one enqueues nothing. -/
def execQtailDoorbell (w q : Nat) (tail : W64) (s : State) : Out :=
  let x := s.queue w q
  let t : BitVec 32 := tail.setWidth 32
  let size := 2 ^ x.lgn
  s.powered fun s => (
    if !x.enabled || x.lgn < 4 || 12 < x.lgn || size < (t - x.head).toNat || size < (t - x.tail).toNat then
      s.setQueue w q fun x => { x with last := BitVec.ofNat 8 stCancelled }
    else
      let s := (List.range (t - x.tail).toNat).foldl (fun s i =>
        s.enqueueRecord w q true (BitVec.ofNat 1024 (x.tail + BitVec.ofNat 32 i).toNat) 0) s
      s.setQueue w q fun x => { x with tail := t })

/-! ### Checks of a record (R383, R384 reason 0x01) -/

/-- Budgets in units of 32 slices (R65). -/
def budgetOk (b : Nat) : Bool := 1 ≤ b && b ≤ 32

/-- The product of team dimensions is allowed (R65). -/
def teamShapeOk (n : Nat) : Bool := n % 32 = 0 && 1 ≤ n && n ≤ 1024

/-- A launch record is well formed (R383, R386). -/
def Launch.recordOk (l : Launch) : Bool :=
  l.rec_ 692 76 = 0 && l.rec_ 341 43 = 0 && l.rec_ 332 8 = 1 && l.rec_ 276 2 ≠ 3 &&
  l.rec_ 313 9 ≤ 256 && l.rec_ 306 7 ≤ 64 && l.rec_ 301 5 ≤ 16 && l.rec_ 285 16 ≤ 65528 &&
  (l.cgrid = 0 || (2 ≤ l.cgrid && l.cgrid ≤ 64)) && 1 ≤ l.gridX && 1 ≤ l.gridY && 1 ≤ l.gridZ &&
  teamShapeOk l.teamThreads && l.producers ≤ l.teamGroups &&
  (l.producers = l.teamGroups || budgetOk (l.rec_ 254 6)) && (l.producers = 0 || budgetOk (l.rec_ 260 6)) &&
  l.rec_ 0 7 = 0 && l.rec_ 544 4 = 0 && l.rec_ 608 4 = 0 && l.rec_ 384 4 = 0 && l.rec_ 448 7 = 0 &&
  (l.rec_ 276 2 ≠ 0 || l.rec_ 448 64 = 0) &&
  (l.rec_ 313 9 = 0 || ((l.producers = l.teamGroups || l.rec_ 322 10 + 2 * l.rec_ 313 9 ≤ l.budgetC) &&
    (l.producers = 0 || l.rec_ 322 10 + 2 * l.rec_ 313 9 ≤ l.budgetP)))

/-- A kernel descriptor is well formed (R65); the limits that R63 states for fedas are not tested again (DESIGN CHOICE, log
entry 124). -/
def Launch.descOk (l : Launch) : Bool :=
  l.desc 288 736 = 0 && l.desc 132 28 = 0 && l.desc 110 2 = 0 && l.desc 72 8 = 0 && l.desc 64 8 = 1 &&
  l.desc 0 4 = 0 && l.desc 224 32 % 16 = 0 && 16 ≤ l.desc 224 32 && l.desc 224 32 ≤ 1048576 &&
  budgetOk (l.desc 118 6) && (l.desc 112 6 = 0 || budgetOk (l.desc 124 6)) &&
  teamShapeOk ((l.desc 80 10 + 1) * (l.desc 90 10 + 1) * (l.desc 100 10 + 1))

/-- The record agrees with its descriptor (R65, R384 reason 0x02). -/
def Launch.agrees (l : Launch) : Bool :=
  l.rec_ 224 10 = l.desc 80 10 && l.rec_ 234 10 = l.desc 90 10 && l.rec_ 244 10 = l.desc 100 10 &&
  l.desc 118 6 ≤ l.rec_ 254 6 && (l.desc 112 6 = 0 || l.desc 124 6 ≤ l.rec_ 260 6) &&
  l.desc 160 32 ≤ l.rec_ 192 32 && (l.desc 130 1 = 0 || l.persistent) && (l.rec_ 273 1 = 0 || l.desc 131 1 = 1)

/-- A launch whose checks read a record only. -/
def Launch.of (id w q : Nat) (ticket : BitVec 16) (record : BitVec 1024) : Launch :=
  { id := id, world := w, queue := q, ticket := ticket, state := .checking, record := record, kd := 0, args := [],
    taken := true, next := 0, deps := [], forms := 0, status := 0, reason := 0, started := 0, g1 := none, g2 := none, cause := 0,
    fault := none, fatal := none, restore := 0 }

/-! ### Dependences (R388) -/

/-- Dependence i of a launch. -/
def Launch.dep (l : Launch) (i : Nat) : Nat := l.rec_ (768 + 64 * i) 64

/-- A dependence is well formed: its kind is defined and what is reserved is zero. -/
def depOk (d : Nat) : Bool :=
  match bits d 62 2 with
  | 0 => true
  | 1 => bits d 57 4 = 0 && bits d 0 4 = 0
  | 2 => bits d 61 1 = 0 && bits d 16 41 = 0
  | _ => false

/-! ### What the shape and the partition can hold (R31, R368, R384 reasons 0x05 and 0x06) -/

/-- Teams of a launch that one core holds with nothing else resident: slots, tile store, staging, registers. -/
def packCount (budgets : List Nat) : List (Nat × Nat) → Nat → Nat
  | _, 0 => 0
  | use, n + 1 =>
    match packQuads use budgets with
    | none => 0
    | some qs =>
      let use := (List.range 4).map fun i =>
        let bs := (qs.zip budgets).filterMap fun x => if x.1 = i then some x.2 else none
        ((use.getD i (0, 0)).1 + bs.sum, (use.getD i (0, 0)).2 + bs.length)
      packCount budgets use n + 1

def Launch.perCore (l : Launch) : Nat :=
  let tiles := if l.granules = 0 then 64 else 512 / l.granules
  let stage := if l.stageEntries = 0 then 64 else 2048 / l.stageEntries
  min (min tiles stage) (packCount ((List.range l.teamGroups).map l.budgetOf) (List.replicate 4 (0, 0)) 64)

/-- Teams that clusters with given numbers of usable cores hold at once; whole cluster grids only. -/
def Launch.held (l : Launch) (clusters : List Nat) : Nat :=
  (clusters.map fun u =>
    if l.cgrid = 0 then u * l.perCore
    else if u < l.cgrid then 0 else u * l.perCore / l.cgrid * l.cgrid).sum

/-- Usable cores of a partition by cluster. -/
def State.clusterCores (s : State) (p : Partition) : List Nat :=
  (List.range 8).map fun c => ((s.usable p).filter fun x => x / 64 = c).length

/-- The first of reasons 0x05 and 0x06 that a launch meets. -/
def State.shapeReason (s : State) (l : Launch) : Nat :=
  match s.partOf l.world with
  | none => 6
  | some p =>
    let phys := s.clusterCores p
    let logical := List.replicate (l.logicalCores / 64) 64
    if l.persistent && (l.held phys < l.teamCount || l.held logical < l.teamCount) then 5
    else if (l.cgrid ≠ 0 && phys.all (· < l.cgrid)) || (s.usable p).isEmpty || l.perCore = 0 then 6
    else 0

/-! ### The log of a launch (R370, R371, R384 reason 0x04) -/

/-- A header of a log, as a number of 128 bytes, fits a launch. -/
def Launch.logOk (l : Launch) (h : Nat) : Bool :=
  let seg := bits h 64 32
  let ckpt := bits h 96 32
  bits h 0 32 = 0x4F52444C && bits h 32 8 = 1 && 2 ≤ seg && seg ≤ 16777216 && 1 ≤ ckpt &&
    128 + 384 * seg + 16 * ckpt ≤ l.rec_ 512 32 &&
    (if l.rec_ 276 2 = 1 then bits h 128 896 = 0 && bits h 40 24 = 0
     else bits h 160 864 = 0 && bits h 56 8 = 0 && bits h 42 6 = 0 && bits h 40 2 = 2 && bits h 48 8 = l.rec_ 274 2)

end Sys2Proof.Machine
end

