-- ==== Sys2Proof/Machine/WorkList.lean ====
section
/-! DEFINITION. Work lists: WPUT, WTAKE, QIDLE, QTEST and the quiescence of a set (R302 to R306). -/

namespace Sys2Proof.Machine

/-! ### Work lists (R302 to R306) -/

/-- A header line as a number (R302): lists and log2 of items per list; none where its fields are broken. -/
def listHeader (h : Nat) : Option (Nat × Nat) :=
  let n := bits h 8 10 + 1
  let lg := bits h 0 5
  if bits h 18 1006 = 0 && bits h 5 3 = 0 && n ≤ 512 && 4 ≤ lg && lg ≤ 20 then some (n, 2 ^ lg) else none

def State.setAt (s : State) (l : Loc) : Option WorkSet := s.sets.find? (·.addr = l)

/-- Brings a set into use at the first instruction that names it; none where 64 sets are in use (R305). -/
def State.nameSet (s : State) (o : Op) (l : Loc) (lists cap : Nat) : Option State :=
  if (s.setAt l).isSome then some s
  else if 64 ≤ s.sets.length then none
  else some { s with
    ids := s.ids + 1
    sets := s.sets ++ [(⟨s.ids, s.worldOf o.who, l, BitVec.ofNat 64 o.a, o.domain, (s.team o.who.team).launch, lists,
      cap, [], false, []⟩ : WorkSet)] }

/-- The list that an instruction names. -/
def State.listOf (s : State) (o : Op) : Nat :=
  match o.instr with
  | .wput _ => o.b
  | _ => (s.team o.who.team).lcore

/-- Status of an instruction that ends FAULTED: of WTAKE in its place beside the item (R304). -/
def faultedWord (i : Instr) : Nat :=
  match i with
  | .wtake _ => stFaulted * 2 ^ 64
  | _ => stFaulted

/-- Ends an instruction of a work list, in every thread of its issue for QIDLE and QTEST, once it completes. -/
def State.settleIssue (s : State) (o : Op) (v : Nat) : State :=
  { s with ops := s.ops.map fun (y : Op) => if y.lead = o.id then { y with phase := .result, data := [v] } else y }

/-- Stops an instruction of a deterministic launch at its turn point, with an entry of its own for WPUT and WTAKE (R303,
R357). -/
def State.turnWork (s : State) (o : Op) (l : Loc) : State :=
  match o.instr with
  | .wput _ | .wtake _ =>
    if s.quotaFull o.who then (s.setOp o.id fun y => { y with x := 1 }).atTurn o false
    else ((s.setOp o.id fun y => { y with x := 0 }).stageRmw o l 16 o.b o.c).atTurn o false
  | _ => (s.ops.filter fun p => p.lead = o.id).foldl (fun s p => s.atTurn p false) s

/-- Bytes that the home of a peer's line has answered, as a number. -/
def Op.answer (o : Op) : Nat := ofBytes (o.data.map fun n => BitVec.ofNat 8 n)

/-- Asks the home of a peer's line for bytes of it (R302, R408). -/
def State.askWork (s : State) (o : Op) (l : Loc) (n : Nat) : State :=
  (s.request o.id 0 (s.coreOf o.who) (s.worldOf o.who) flRead l n []).setOp o.id fun y => { y with phase := .remote, data := [] }

/-- The rest of the checks once the header is known: the set comes into use and the control line is translated (R302, R305).
The control line of a WPUT or WTAKE takes no RMW in host memory (R144). -/
def State.enterWork (s : State) (o : Op) (l : Loc) (h : Nat) : State :=
  let ends := fun (s : State) => s.settleIssue o (faultedWord o.instr)
  match listHeader h with
  | none => ends s
  | some (n, cap) =>
    match s.nameSet o l n cap with
    | none => ends s
    | some s =>
      let i := s.listOf o
      let ctl := BitVec.ofNat 64 o.a + BitVec.ofNat 64 (128 * (1 + i))
      let enter := fun (s : State) (ls : List Loc) (k : Loc) =>
        let s := s.setOp o.id fun y => { y with phase := .pending, locs := ls, data := [] }
        if s.deterministic (s.team o.who.team).launch then s.turnWork { o with locs := ls, data := [] } k else s
      let once := match o.instr with | .qidle _ | .qtest _ => true | _ => false
      if once || n ≤ i || !canonical ctl then enter s [l] l
      else
        match s.translate (s.opCtx o) .rmw ctl with
        | (.ok k, s) =>
          let s := s.openLines [k] ctl
          if k.host then s.trapOp o trapAccessViolation 0 ctl
          else if s.poisoned k then s.trapOp o trapPoison 0 ctl
          else enter s [l, k] k
        | (x, s) => s.faultOp o x .rmw ctl ctl

/-- The checks of an instruction of a work list (R302, R305). A header that an engine owns is read when the engine has written
it, and one of a peer is asked for (R22, R302, R408); until then the operation names no place. -/
def State.launchWork (s : State) (o : Op) : State :=
  let w := BitVec.ofNat 64 o.a
  if !canonical w || w.toNat % 128 ≠ 0 then s.settleIssue o (faultedWord o.instr)
  else
    match s.translate (s.opCtx o) .read w with
    | (.ok l, s) =>
      if l.isPeer then (if o.data.isEmpty then s.askWork o l 128 else s.enterWork o l o.answer)
      else if s.ownedLine l.line then s
      else
        let s := s.openLines [l] w
        if s.poisonedFor (s.coreOf o.who) l then s.trapOp o trapPoison 0 w
        else s.enterWork o l (ofBytes ((List.range 128).map fun i => s.seenByte (s.coreOf o.who) (l.add i)))
    | (x, s) => s.faultOp o x .read w w

/-- WPUT (R303). -/
def execWput (f : SpawnF) (s : State) : Out :=
  .next (s.forIssue (.wput f) f.toCommon fun t s =>
    let (a, b, c) := (s.opnd64 t f.a, s.opnd32 t f.b, s.opnd64 t f.c)
    let (o, s) := s.start t (.wput f) f.toCommon a b c 0
    s.launchWork o)

/-- WTAKE (R304). -/
def execWtake (f : SpawnF) (s : State) : Out :=
  .next (s.forIssue (.wtake f) f.toCommon fun t s =>
    let a := s.opnd64 t f.a
    let (o, s) := s.start t (.wtake f) f.toCommon a 0 0 0
    s.launchWork o)

/-- Issues QIDLE or QTEST: performed once per issue, with the operands of the lowest active lane (R305, R306). -/
def State.issueOnce (s : State) (i : Instr) (f : SpawnF) : State :=
  match s.activeLanes i f.toCommon with
  | [] => s.forIssue i f.toCommon fun _ s => s
  | l :: _ =>
    let a := s.opnd64 l f.a
    let s := s.forIssue i f.toCommon fun t s => (s.start t i f.toCommon a 0 0 0).2
    match s.ops.find? fun o => o.iss = s.issue.id && o.who = l with
    | none => s
    | some o =>
      let s := { s with ops := s.ops.map fun (y : Op) => if y.iss = o.iss then { y with lead := o.id } else y }
      s.launchWork { o with lead := o.id }

/-- QIDLE (R305). -/
def execQidle (f : SpawnF) (s : State) : Out := .next (s.issueOnce (.qidle f) f)

/-- QTEST (R306). -/
def execQtest (f : SpawnF) (s : State) : Out := .next (s.issueOnce (.qtest f) f)

/-- Items ever taken and ever appended of a list on this device (R302). -/
def State.listState (s : State) (k : Loc) : Nat × Nat := (s.memNat k 8, s.memNat (k.add 8) 8)

def itemCount (head tail : Nat) : Nat := wrapN (tail - head) 64

/-- Address of item p of list i (R302). -/
def itemAddr (w : W64) (n cap i p : Nat) : W64 := w + BitVec.ofNat 64 (128 * (1 + n) + 8 * cap * i + 8 * (p % cap))

/-- A write to some bytes that carries no release mark (R86). -/
def State.writePlain (s : State) (l : Loc) (n v : Nat) : State :=
  (s.writeNat l n v).unmark ((List.range n).map l.add)

/-- Clears the idle bit of a list (R303, R304). -/
def State.clearIdle (s : State) (n i : Nat) : State :=
  { s with sets := s.sets.map fun (x : WorkSet) => if x.id = n then { x with idle := x.idle.filter (· ≠ i), heard := [] } else x }

/-! A list at a peer. Its control line is read, and a request then takes or appends the item if the list still stands as it was
read; if not, the answer says how it stands and the request is made again (R144, R302; DESIGN CHOICE, log entry 58). -/

/-- What such a request carries: operation 20 for WPUT and 21 for WTAKE, the list as it was read, and the item with its place. -/
def workPayload (op head tail : Nat) (l : Loc) (item : Nat) : List Byte :=
  toBytes op 1 ++ toBytes 0 7 ++ toBytes head 8 ++ toBytes tail 8 ++ toBytes (l.addr % 2 ^ 40) 8 ++ toBytes item 8

/-- The item's place in a payload of such a request; none in another's. -/
def workItem (bs : List Byte) : Option Loc :=
  let k := ofBytes (bs.take 1)
  if k = 20 ∨ k = 21 then some ⟨false, ofBytes ((bs.drop 24).take 8)⟩ else none

/-- Serves such a request at the home of the control line: the list as it stood, and the item that is taken. -/
def State.homeWork (s : State) (k it : Loc) (bs : List Byte) : Nat × State :=
  let (head, tail) := s.listState k
  let was := head + tail * 2 ^ 64
  if was ≠ ofBytes ((bs.drop 8).take 16) then (was, s)
  else if ofBytes (bs.take 1) = 20 then
    (was, (s.writePlain it 8 (ofBytes ((bs.drop 32).take 8))).writeNat (k.add 8) 8 (tail + 1))
  else (was + s.memNat it 8 * 2 ^ 128, s.writeNat k 8 (head + 1))

def State.askHome (s : State) (o : Op) (k l : Loc) (op head tail item : Nat) : State :=
  (s.request o.id 0 (s.coreOf o.who) (s.worldOf o.who) flRmw k 16 (workPayload op head tail l item)).setOp o.id
    fun y => { y with phase := .remote, data := [head + tail * 2 ^ 64] }

/-- Words of WPUT and WTAKE (R303, R304). -/
def wputWord (head tail : Nat) : Nat := stOk + min (itemCount head (tail + 1)) 0xFFFF * 2 ^ 16
def wtakeWord (st left : Nat) : Nat := (st + min left 0xFFFF * 2 ^ 16) * 2 ^ 64

/-- Performs a WPUT on its list (R303): its status, or the state in which it waits for a fault, a line or a peer. -/
def State.putItem (s : State) (o : Op) (x : WorkSet) (k : Loc) (head tail : Nat) : Nat × State ⊕ State :=
  let a := itemAddr (BitVec.ofNat 64 o.a) x.lists x.cap o.b tail
  if x.cap ≤ itemCount head tail then .inl (stCancelled, s)
  else if !canonical a then .inl (stFaulted, s)
  else
    match s.translate (s.opCtx o) .write a with
    | (.ok l, s) =>
      if k.isPeer || l.isPeer then
        if k.isPeer && l.isPeer && l.device = k.device then .inr (s.askHome o k l 20 head tail o.c) else .inl (stFaulted, s)
      else if s.ownedLine l.line then .inr s
      else
        .inl (wputWord head tail,
          ((s.writePlain l 8 o.c).writeNat (k.add 8) 8 (tail + 1)).clearIdle x.id o.b)
    | (e, s) => .inr (s.faultOp o e .write a a)

/-- Performs a WTAKE on its list (R304). -/
def State.takeItem (s : State) (o : Op) (x : WorkSet) (k : Loc) (head tail : Nat) : Nat × State ⊕ State :=
  let i := s.listOf o
  let a := itemAddr (BitVec.ofNat 64 o.a) x.lists x.cap i head
  if itemCount head tail = 0 then .inl (wtakeWord stCancelled 0, s)
  else if !canonical a then .inl (wtakeWord stFaulted 0, s)
  else
    match s.translate (s.opCtx o) .read a with
    | (.ok l, s) =>
      if k.isPeer || l.isPeer then
        if k.isPeer && l.isPeer && l.device = k.device then .inr (s.askHome o k l 21 head tail 0)
        else .inl (wtakeWord stFaulted 0, s)
      else if s.ownedLine l.line then .inr s
      else
        let s := s.openLines [l] a
        if s.poisoned l then .inr (s.trapOp o trapPoison 0 a)
        else
          .inl (s.memNat l 8 + wtakeWord stOk (itemCount (head + 1) tail), (s.writeNat k 8 (head + 1)).clearIdle x.id i)
    | (e, s) => .inr (s.faultOp o e .read a a)

/-- Performs a WPUT or a WTAKE (R303, R304); the control line of a peer is read first. -/
def State.performList (s : State) (o : Op) (act : Loc → Nat → Nat → Nat × State ⊕ State) :
    Nat × State ⊕ State :=
  match o.locs with
  | [_, k] =>
    if !k.isPeer then act k (s.listState k).1 (s.listState k).2
    else if o.data.isEmpty then .inr (s.askWork o k 16)
    else act k (o.answer % 2 ^ 64) (o.answer / 2 ^ 64)
  | _ => .inl (faultedWord o.instr, s)

/-- The home of a list has answered the request of a WPUT or WTAKE: it is done, or the list stood otherwise and the request is
made again. -/
def State.workAnswer (s : State) (o : Op) (v : Nat) : State :=
  let was := v % 2 ^ 128
  let (head, tail) := (was % 2 ^ 64, was / 2 ^ 64)
  if o.data ≠ [was] then
    s.setOp o.id fun y => { y with phase := .pending, data := (toBytes was 16).map (·.toNat) }
  else
    let (i, word) := match o.instr with
      | .wput _ => (o.b, wputWord head tail)
      | _ => (s.listOf o, v / 2 ^ 128 + wtakeWord stOk (itemCount (head + 1) tail))
    let s := match (o.locs.head?).bind s.setAt with
      | some x => s.clearIdle x.id i
      | none => s
    s.completeWith o word

/-- Performs a QIDLE (R305). -/
def State.performQidle (s : State) (o : Op) (x : WorkSet) : Nat × State :=
  let i := s.listOf o
  if x.closed then (stQuiescent, s)
  else if x.lists ≤ i then (stFaulted, s)
  else (stOk, { s with sets := s.sets.map fun (y : WorkSet) =>
      if y.id = x.id ∧ !y.idle.contains i then { y with idle := y.idle ++ [i] } else y })

/-- Status of a QTEST (R306). -/
def qtestWord (x : WorkSet) : Nat :=
  if x.closed then stQuiescent else stOk + min (x.lists - x.idle.length) 0xFFFF * 2 ^ 16

/-- Performs an instruction of a work list: result, or the state in which it waits for a fault. -/
def State.performWork (s : State) (o : Op) : Nat × State ⊕ State :=
  match (o.locs.head?).bind s.setAt with
  | none => .inl (faultedWord o.instr, s)
  | some x =>
    match o.instr with
    | .wput _ => if x.closed then .inl (stFaulted, s) else s.performList o (s.putItem o x)
    | .wtake _ => if x.closed then .inl (wtakeWord stQuiescent 0, s) else s.performList o (s.takeItem o x)
    | .qidle _ => .inl (s.performQidle o x)
    | _ => .inl (qtestWord x, s)

/-- The control line of a list of a set. -/
def State.ctlOf (s : State) (x : WorkSet) (i : Nat) : Option Loc :=
  match (s.translate { core := 512, lane := none, world := x.world, domain := x.domain } .read
      (x.vaddr + BitVec.ofNat 64 (128 * (1 + i)))).1 with
  | .ok k => some k
  | _ => none

/-- Every list of a set is empty and no WPUT to it is on its way (R306). The home of a list at a peer has said so. -/
def State.listsEmpty (s : State) (x : WorkSet) : Bool :=
  !(s.ops.any fun o => o.locs.head? = some x.addr && (match o.instr with | .wput _ => true | _ => false)) &&
    (List.range x.lists).all fun i => (s.ctlOf x i).any fun k =>
      if k.isPeer then x.heard.contains i else let (head, tail) := s.listState k; head = tail

def WorkSet.allIdle (x : WorkSet) : Bool := !x.closed && (List.range x.lists).all x.idle.contains

/-- The conditions of R306 hold for a set. -/
def State.setQuiet (s : State) (x : WorkSet) : Bool := x.allIdle && s.listsEmpty x

/-- The next list of an idle set whose home, a peer, has to be asked whether it is empty (R306). -/
def State.listToAsk (s : State) (x : WorkSet) : Option (Nat × Loc) :=
  if !x.allIdle || s.remotes.any (fun r => !r.done && (match r.use with | .list n _ => n = x.id | _ => false)) then none
  else (List.range x.lists).findSome? fun i =>
    match s.ctlOf x i with
    | some k => if k.isPeer && !x.heard.contains i then some (i, k) else none
    | none => none

/-- The home of a list says how it stands (R306). -/
def State.listAnswer (s : State) (n i v : Nat) : State :=
  { s with sets := s.sets.map fun (x : WorkSet) =>
      if x.id = n ∧ x.allIdle ∧ v % 2 ^ 64 = v / 2 ^ 64 % 2 ^ 64 then { x with heard := x.heard ++ [i] } else x }

def State.closeSet (s : State) (n : Nat) : State :=
  { s with sets := s.sets.map fun (x : WorkSet) => if x.id = n then { x with closed := true } else x }

/-- QUIESCENCE_CLOSE (R306): the detector closes a set, or asks a peer about a list of it. A set of a deterministic launch
closes at the end of a turn only (R361). -/
def execQuiescenceClose (n : Nat) (s : State) : Out :=
  .next (match s.sets.find? (·.id = n) with
    | none => s
    | some x =>
      if s.setQuiet x then (if s.deterministic x.launch then s else s.closeSet n)
      else
        match s.listToAsk x with
        | some (i, k) => s.request 0 0 512 x.world flRead k 16 [] none (.list n i)
        | none => s)

end Sys2Proof.Machine
end

