-- ==== Sys2Proof/Machine/Causeway.lean ====
section
/-! DEFINITION. The Causeway engine: group 0xB, fabric barriers and their relay tree, and the flits that arrive (R407 to
R430). -/

namespace Sys2Proof.Machine

/-! ### RPUT and RGET (R415) -/

/-- A transfer at its issue. -/
def State.newTransfer (s : State) (o : Op) (f : CwF) (kind : CopyKind) (tile : Nat) : Copy :=
  { id := s.ids, op := o.id, team := o.who.team, ch := f.ch, kind := kind, st := kind = .rput, tile := tile, hs := [f.h],
    record := 0, coords := [], count := o.b, tbyte := o.c, addr := BitVec.ofNat 64 o.a, bar := none, domain := o.domain,
    world := s.worldOf o.who, done := 0, units := [], part := 0, seen := [], base := [], bad := [], skipped := [],
    own := [], oob := false, poisoned := false, barVa := 0, entry := 0,
    reason := 0, failAddr := 0, cancelled := false, status := none, fault := none,
    tag := if f.ten then some f.tag else none, group := 0, share := 0, members := 0, target := 0, pages := [],
    stopped := false }

/-- The checks of RPUT and RGET, the translation of their pages and their place in the channel's queue (R415, R416). -/
def State.launchTransfer (f : CwF) (kind : CopyKind) (s : State) (o : Op) : State :=
  match s.tileOf o.who.team f.h with
  | .error e => s.trapOp o trapTileHandle e 0
  | .ok t =>
    if s.issueBehind o f.ch then s.waitAtIssue o [t.id] none
    else
    let s := s.setOp o.id fun y => { y with phase := .queued, tiles := [t.id] }
    if !t.rowWhole || t.rows * t.rowBytes < o.c + o.b then s.refuseCopy o f.ch 2 0
    else if o.b = 0 then s.completeWith o (statusWord stOk f.ch.toNat 0)
    else
      let c := s.newTransfer o f kind t.id
      (({ s with ids := s.ids + 1 } : State).enqueue c).openTransfer c

def State.transferIssue (s : State) (i : Instr) (f : CwF) (kind : CopyKind) : State :=
  s.forIssue i f.toCommon fun t s =>
    if s.queueFull t.team f.ch then s
    else
      let (o, s) := s.start t i f.toCommon (s.opnd64 t f.a) (s.opnd32 t f.b) (s.opnd32 t f.c) (2 ^ t.lane)
      s.launchTransfer f kind o

/-- RPUT (R415). -/
def execRput (f : CwF) (s : State) : Out := .next (s.transferIssue (.rput f) f .rput)

/-- RGET (R415). -/
def execRget (f : CwF) (s : State) : Out := .next (s.transferIssue (.rget f) f .rget)

/-! ### FEVT (R419) -/

/-- Sets or removes an entry of the event map: the state, and whether there was one before. -/
def State.setEvent (s : State) (w : Nat) (tag : BitVec 8) (v : Option (BarRef × Nat)) : Bool × State :=
  let had := (s.world w).events.any (·.1 = tag)
  (had, s.setWorld w fun x => { x with events :=
    (x.events.filter fun e => e.1 ≠ tag) ++ (match v with | some r => [(tag, r)] | none => []) })

/-- The checks of FEVT and its effect (R225, R419). -/
def State.launchFevt (f : CwF) (s : State) (o : Op) : State :=
  let w := s.worldOf o.who
  let put := fun (s : State) (v : Option (BarRef × Nat)) =>
    let (had, s) := s.setEvent w f.tag v
    s.completeWith o (stOk + bitAt had 16)
  match f.c with
  | .imm v =>
    if v = 0x3FF then put s none
    else
      match s.tileObject o.who.team f.h o.c with
      | .ok r => put s (some (r, o.who.team))
      | .trap code info addr => s.trapOp o code info addr
      | .fault x va => s.faultOp o x .rmw va va
  | c =>
    if c.bits = 64 then
      let a := BitVec.ofNat 64 o.c
      match memObjectTrap a with
      | some code => s.trapOp o code 0 a
      | none =>
        match s.memObject (s.opCtx o) .rmw a with
        | (.ok (.mem l), s) => if l.isLocal then put s (some (.mem l, 0)) else s.completeWith o stFaulted
        | (.ok r, s) => put s (some (r, 0))
        | (.trap code info addr, s) => s.trapOp o code info addr
        | (.fault x va, s) => s.faultOp o x .rmw va va
    else
      match s.tileObject o.who.team f.h o.c with
      | .ok r => put s (some (r, o.who.team))
      | .trap code info addr => s.trapOp o code info addr
      | .fault x va => s.faultOp o x .rmw va va

/-- FEVT (R419). -/
def execFevt (f : CwF) (s : State) : Out :=
  .next (s.forIssue (.fevt f) f.toCommon fun t s =>
    let (o, s) := s.start t (.fevt f) f.toCommon 0 0 (if f.c.bits = 64 then s.opnd64 t f.c else s.opnd32 t f.c) 0
    s.launchFevt f o)

/-! ### Fabric barriers (R412, R420) -/

def World.bar (x : World) (pod : Bool) (n : Nat) : FabBar :=
  (x.fab.find? fun b => b.pod = pod && b.n = n).getD (FabBar.init pod n)

def State.bar (s : State) (w : Nat) (pod : Bool) (n : Nat) : FabBar := (s.world w).bar pod n

def State.setBar (s : State) (w : Nat) (pod : Bool) (n : Nat) (f : FabBar → FabBar) : State :=
  s.setWorld w fun x => { x with fab := (x.fab.filter fun b => !(b.pod = pod && b.n = n)) ++ [f (x.bar pod n)] }

/-- The value of local; 0 reads as 1. -/
def FabBar.localCount (b : FabBar) : Nat := max 1 (bits b.cfg.toNat 0 32)

/-- Takes local and en from the register: at the first use after the world is bound (DEDUCED, log entry 66), and at each phase
completion (R412, R420). -/
def FabBar.sample (b : FabBar) : FabBar := { b with reload := b.localCount, enNow := bit b.cfg.toNat 32 }

def FabBar.use (b : FabBar) : FabBar :=
  if b.used then b else { b.sample with count := b.localCount, used := true }

/-- The barrier as it will be when it is first used. -/
def State.barNow (s : State) (w : Nat) (pod : Bool) (n : Nat) : FabBar := (s.bar w pod n).use

/-! ### The relay tree (R421). Devices are numbers 512 × domain + device. -/

def insertNat (x : Nat) : List Nat → List Nat
  | [] => [x]
  | y :: ys => if x ≤ y then x :: y :: ys else y :: insertNat x ys

def sortNats (l : List Nat) : List Nat := l.foldr insertNat []

def State.selfId (s : State) : Nat := 512 * s.domainNum + s.deviceNum

/-- Members of a barrier (R407, R420): only this device where the world has no spans. -/
def State.members (s : State) (w : Nat) (pod : Bool) : List Nat :=
  let x := s.world w
  let span := if pod then (if x.pspan.isEmpty then x.dspan.map (512 * s.domainNum + ·) else x.pspan)
    else x.dspan.map (512 * s.domainNum + ·)
  if span.isEmpty then [s.selfId] else sortNats span

/-- The parent and the children of this device in the relay tree. -/
def State.relay (s : State) (w : Nat) (pod : Bool) : Option Nat × List Nat :=
  let all := s.members w pod
  let mine := all.filter fun m => m / 512 = s.domainNum
  match (List.range mine.length).find? fun i => mine.getD i 0 = s.selfId with
  | none => (none, [])
  | some p =>
    let kids := (List.range 8).filterMap fun i => mine[8 * p + 1 + i]?
    if 0 < p then (mine[(p - 1) / 8]?, kids)
    else
      let doms := (all.map (· / 512)).eraseDups
      let rootOf := fun (d : Nat) => all.find? fun m => m / 512 = d
      match doms with
      | [] => (none, kids)
      | low :: rest => if low = s.domainNum then (none, kids ++ rest.filterMap rootOf) else (rootOf low, kids)

/-- Sends a flit of a barrier to a member; its tag is the sender's domain (DESIGN CHOICE, log entry 20). -/
def State.sendBar (s : State) (w : Nat) (pod : Bool) (n : Nat) (kind : BitVec 4) (dst : Nat) (payload : List Byte) : State :=
  let x := mkFlit kind w (dst % 512) 0 1 0 payload
  s.sendFlit { x with line := BitVec.ofNat 45 (n + (if pod then 512 else 0)), last := 0, first := 0,
                      tag := BitVec.ofNat 8 s.domainNum }

/-! ### Contributions (R422, R424, R425) -/

/-- Kind codes: 0 FBAR; 1 to 128 CRED with op and type; 2^16 + E a CREDB of E elements. -/
def credKind (op tycode : Nat) : Nat := 1 + op + 8 * tycode

/-- Result of CRED over its contributions (R424). -/
def credResult (kind : Nat) (vs : List Nat) : Nat :=
  let op := (kind - 1) % 8
  let ty := (Ty.ofCode ((kind - 1) / 8)).getD .n32
  match vs with
  | [] => 0
  | v :: r => r.foldl (fun a b => atomNew ty op a b) v

/-- floor(log2 |x|) of a finite nonzero value. -/
def FVal.top : FVal → Option Int
  | .fin _ m e => some (log2 m + e)
  | _ => none

/-- One element of CREDB (R425, phase 2). -/
def credbElem (xs : List FVal) (top : Int) : Nat :=
  let infs := fun (n : Bool) => xs.any (· = .inf n)
  if xs.any (·.isNan) || (infs true && infs false) then fmtF32.nan
  else if infs true then fmtF32.infBits true
  else if infs false then fmtF32.infBits false
  else if xs.all fun x => x = .zero true || x = .zero false then
    fmtF32.signBit (xs.all (· = .zero true))
  else
    let sum : Int := xs.foldl (fun (a : Int) x => match x with
      | .fin neg m e =>
        let sh := e + 80 - top
        let q : Nat := if 0 ≤ sh then m * 2 ^ sh.toNat else m / 2 ^ (-sh).toNat
        if neg then a - q else a + q
      | _ => a) 0
    if sum = 0 then 0 else (fmtF32.round .rne false (sum < 0) sum.natAbs (top - 80) false).1

/-- CREDB over tiles of E elements (R425): blocks of 256 elements agree on the largest binade. -/
def credbResult (e : Nat) (tiles : List (List Nat)) : List Nat :=
  let vals := tiles.map fun t => t.map fmtF32.decode
  (List.range e).map fun i =>
    let b := i / 256 * 256
    let tops := vals.flatMap fun t => ((t.drop b).take 256).filterMap FVal.top
    let top := tops.foldl max (tops.headD 0)
    credbElem (vals.map fun t => t.getD i (.zero false)) top

/-- Status and result of a phase (R422, R424 to R426). -/
def phaseResult (mixed : Bool) (cs : List (Nat × List Nat)) : Nat × List Nat :=
  if mixed then (stKeygen, [])
  else
    match cs with
    | [] => (stOk, [])
    | (k, _) :: _ =>
      if cs.any fun c => c.1 ≠ k then (stFaulted, [])
      else if k = 0 then (stOk, [])
      else if k < 2 ^ 16 then (stOk, [credResult k (cs.map fun c => c.2.headD 0)])
      else if 16384 < cs.length then (stFaulted, [])
      else (stOk, credbResult (k - 2 ^ 16) (cs.map (·.2)))

/-- Contributions as a payload (DESIGN CHOICE, log entry 20). -/
def contribBytes (mixed : Bool) (cs : List (Nat × List Nat)) : List Byte :=
  toBytes (if mixed then 1 else 0) 1 ++
    cs.flatMap fun c => toBytes c.1 8 ++ toBytes c.2.length 4 ++ c.2.flatMap (toBytes · 8)

def readValues : Nat → List Byte → List Nat × List Byte
  | 0, bs => ([], bs)
  | n + 1, bs =>
    let (vs, rest) := readValues n (bs.drop 8)
    (ofBytes (bs.take 8) :: vs, rest)

def readContribs : Nat → List Byte → List (Nat × List Nat)
  | 0, _ => []
  | fuel + 1, bs =>
    if bs.length < 12 then []
    else
      let (vs, rest) := readValues (min (ofBytes ((bs.drop 8).take 4)) (bs.length / 8)) (bs.drop 12)
      (ofBytes (bs.take 8), vs) :: readContribs fuel rest

/-! ### Phases (R420, R421) -/

/-- Writes what a CRED or CREDB of a finished phase has: its status, the number of contributions and the result (R424,
R425). -/
def State.finishRed (s : State) (o : Op) : State :=
  match o.data with
  | st :: n :: vs =>
    (match o.instr with
     | .cred _ => s.completeWith o ((if st = stOk then vs.headD 0 else 0) + statusWord st 0 n * 2 ^ 64)
     | _ =>
       let s := if st = stOk then
           s.setTile (o.tiles.headD 0) fun t =>
             let t := (List.range vs.length).foldl (fun t i =>
               t.setElem (i / max 1 t.cols) (i % max 1 t.cols) (vs.getD i 0)) t
             { t with poison := [] }
         else s
       s.completeWith o (statusWord st 0 n))
  | _ => s.complete o

/-- The CREDs and CREDBs of a barrier whose arrival has joined a phase. -/
def State.redsOf (s : State) (w : Nat) (pod : Bool) (n : Nat) (p : Option Bool) : List Op :=
  s.ops.filter fun o => o.phase = .remote && s.worldOf o.who = w &&
    (match o.instr with | .cred _ | .credb _ => true | _ => false) &&
    (match o.data with | [q, m, r] => q = (if pod then 1 else 0) && m = n && p.all fun b => r = (if b then 1 else 0)
                       | _ => false)

/-- Ends CREDs and CREDBs with an outcome; those of a saved team are written after the restore (R428). -/
def State.endReds (s : State) (os : List Op) (st n : Nat) (vs : List Nat) : State :=
  os.foldl (fun s o =>
    let o' := { o with phase := .result, data := st :: n :: vs }
    let s := s.setOp o.id fun _ => o'
    if s.resident o.who.team then s.finishRed o' else s) s

/-- A sign to the neighbours in the tree that a phase is under way (DESIGN CHOICE, log entry 20). -/
def State.wakeBar (s : State) (w : Nat) (pod : Bool) (n : Nat) (but : Option Nat) : State :=
  if (s.bar w pod n).awake then s
  else
    let s := s.setBar w pod n fun b => { b.use with awake := true }
    let (up, kids) := s.relay w pod
    let s := match up with
      | some p => if but = some p then s else s.sendBar w pod n flContribution p []
      | none => s
    (kids.filter fun k => but ≠ some k).foldl (fun s k => s.sendBar w pod n flReleased k []) s

/-- The release of the open phase reaches this device (R420). -/
def State.releasePhase (s : State) (w : Nat) (pod : Bool) (n st count : Nat) (vs : List Nat) : State :=
  let b := s.barNow w pod n
  let s := (s.relay w pod).2.foldl (fun s k =>
    s.sendBar w pod n flReleased k (toBytes st 1 ++ toBytes count 8 ++ vs.flatMap (toBytes · 8))) s
  let s := s.endReds (s.redsOf w pod n (some b.phase)) st count vs
  s.setBar w pod n fun b =>
    { b.use.sample with
      phase := !b.phase, sent := b.held, held := false, status := st, current := b.next, next := [], awake := false,
      sentUp := false, heard := [] }

/-- Whether this device and all below it have arrived in the open phase. -/
def State.phaseReady (s : State) (w : Nat) (pod : Bool) (n : Nat) : Bool :=
  let b := s.bar w pod n
  b.awake && !b.sentUp && !b.brk && (b.sent || !b.enNow) &&
    (s.relay w pod).2.all fun k => b.heard.any (·.1 = k)

/-- Sends on the contribution of this device and of those below it, or ends the phase at the root; again where a held
contribution follows (R420, R421). -/
def State.runBar (w : Nat) (pod : Bool) (n : Nat) : Nat → State → State
  | 0, s => s
  | fuel + 1, s =>
    if !s.phaseReady w pod n then s
    else
      let b := s.bar w pod n
      let cs := (if b.enNow then b.current else []) ++ b.heard.flatMap (·.2.2)
      let mixed := b.heard.any (·.2.1)
      match (s.relay w pod).1 with
      | some p =>
        (s.sendBar w pod n flContribution p (contribBytes mixed cs)).setBar w pod n fun b => { b with sentUp := true }
      | none =>
        let (st, vs) := phaseResult mixed cs
        let s := s.releasePhase w pod n st cs.length vs
        let s := if (s.bar w pod n).sent || !(s.bar w pod n).current.isEmpty then s.wakeBar w pod n none else s
        State.runBar w pod n fuel s

/-- The steps after a barrier has changed. -/
def State.settleBar (s : State) (w : Nat) (pod : Bool) (n : Nat) : State :=
  let b := s.bar w pod n
  let s := if b.sent || !b.current.isEmpty then s.wakeBar w pod n none else s
  State.runBar w pod n 3 s

/-- arrive of R420: the parity of the phase joined. -/
def State.arrive (s : State) (w : Nat) (pod : Bool) (n k kind : Nat) (vs : List Nat) : Bool × State :=
  let b := s.barNow w pod n
  let p := b.phase != b.sent
  let b := if b.sent then { b with next := b.next ++ [(kind, vs)] } else { b with current := b.current ++ [(kind, vs)] }
  let b := if b.count < k then { b with count := 0, ovr := true } else { b with count := b.count - k }
  let b := if b.count = 0 then
      (if b.sent then { b with count := b.reload, held := true } else { b with count := b.reload, sent := true })
    else b
  (p, s.setBar w pod n fun _ => b)

/-! ### FBAR, CRED, CREDB and FBWAIT (R423 to R425) -/

def cwFields : Instr → Option CwF
  | .cred f | .credb f | .fbar f | .fbwait f => some f
  | _ => none

def fabLimit (pod : Bool) : Nat := if pod then 8 else 32

/-- FBAR's word (R423). -/
def fbarWord (st : Nat) (ovr p : Bool) : Nat := st + bitAt p 8 + bitAt ovr 9

/-- An arrival completes FAULTED at once (R413, R420, R427). -/
def State.faultArrival (s : State) (o : Op) : State :=
  let pod : Bool := o.x = 1
  let n := o.b
  match o.instr with
  | .cred _ => s.completeWith o (stFaulted * 2 ^ 64)
  | .fbar _ => s.completeWith o
      (if n < fabLimit pod then fbarWord stFaulted (s.bar (s.worldOf o.who) pod n).ovr false else stFaulted)
  | _ => s.completeWith o stFaulted

/-- This device takes no arrival: number out of range, en = 0 or brk = 1. -/
def State.barRefuses (s : State) (w : Nat) (pod : Bool) (n : Nat) : Bool :=
  fabLimit pod ≤ n || !(s.barNow w pod n).enNow || (s.bar w pod n).brk

/-- Starts an arrival; it is made when its release is performed (R423 to R425). -/
def State.launchArrival (s : State) (o : Op) : State :=
  if s.barRefuses (s.worldOf o.who) (o.x = 1) o.b then s.faultArrival o else s.setOp o.id fun y => { y with phase := .pending }

/-- FBAR (R423). -/
def execFbar (f : CwF) (s : State) : Out :=
  .next (s.forIssue (.fbar f) f.toCommon fun t s =>
    let (o, s) := s.start t (.fbar f) f.toCommon (s.opnd32 t f.a) (s.opnd32 t f.b) 0 (if f.pod then 1 else 0)
    s.launchArrival o)

/-- CRED (R424). -/
def execCred (f : CwF) (s : State) : Out :=
  .next (s.forIssue (.cred f) f.toCommon fun t s =>
    let (o, s) := s.start t (.cred f) f.toCommon (s.opnd t f.a f.ty) (s.opnd32 t f.b) 0 0
    s.launchArrival o)

/-- The checks of CREDB (R425). -/
def State.launchCredb (f : CwF) (s : State) (o : Op) : State :=
  match s.tileOf o.who.team f.h with
  | .error e => s.trapOp o trapTileHandle e 0
  | .ok t =>
    if t.ew ≠ 32 then s.trapOp o trapTileHandle 9 0
    else (s.setOp o.id fun y => { y with tiles := [t.id] }).launchArrival o

/-- CREDB (R425). -/
def execCredb (f : CwF) (s : State) : Out :=
  .next (s.forIssue (.credb f) f.toCommon fun t s =>
    let (o, s) := s.start t (.credb f) f.toCommon 0 (s.opnd32 t f.b) 0 0
    s.launchCredb f o)

/-- An FBWAIT stands: its phase has not completed (R157, R423). -/
def State.fbwaitStands (s : State) (t : TRef) (f : CwF) : Bool :=
  let n := s.opnd32 t f.b
  let b := s.barNow (s.worldOf t) f.pod n
  n < fabLimit f.pod && !b.brk && b.phase = bit (s.opnd32 t f.a) 8

/-- FBWAIT (R423). -/
def execFbwait (f : CwF) (s : State) : Out :=
  .next (s.forIssue (.fbwait f) f.toCommon fun t s =>
    if s.fbwaitStands t f then s
    else
      let n := s.opnd32 t f.b
      let b := s.barNow (s.worldOf t) f.pod n
      let (o, s) := s.start t (.fbwait f) f.toCommon 0 n 0 (if f.pod then 1 else 0)
      if fabLimit f.pod ≤ n then s.completeWith o stFaulted
      else
        let st := if b.brk then stFaulted else b.status
        let s := s.completeWith o (st + bitAt b.phase 8 + bitAt b.ovr 9 + 2 ^ 10)
        if st = stFaulted then
          s.raiseAfter t trapFabricError (BitVec.ofNat 8 (n + (if f.pod then 128 else 0))) o.pc
        else s)

/-- The elements of a tile as a CREDB reads them; those of poisoned lines are free (DESIGN CHOICE, log entry 15). -/
def State.tileWords (s : State) (t : Tile) : List Nat :=
  (List.range (t.rows * t.cols)).map fun i =>
    let (r, c) := (i / max 1 t.cols, i % max 1 t.cols)
    if (t.linesAt r (32 * c) 32).any t.poison.contains then Config.unstated (s.free + i) 32 % 2 ^ 32 else t.elem r c

/-- An arrival may be made: its release is performed, and no arrival is held (R420, R423), in ascending home lane
(R413). -/
def State.arrivalDue (s : State) (o : Op) : Bool :=
  match o.phase with
  | .result => (match o.instr with | .cred _ | .credb _ => s.resident o.who.team | _ => false)
  | .pending =>
    (match o.instr with
     | .fbar _ | .cred _ | .credb _ =>
       s.resident o.who.team && s.released o .domain &&
         !(s.ops.any fun p => p.iss = o.iss && p.who.lane < o.who.lane && p.phase = .pending) &&
         (s.barRefuses (s.worldOf o.who) (o.x = 1) o.b || !(s.barNow (s.worldOf o.who) (o.x = 1) o.b).held)
     | _ => false)
  | _ => false

/-- FABRIC_BARRIER_ARRIVAL (R420, R423 to R425, R428). -/
def execFabricBarrierArrival (n : Nat) (s : State) : Out :=
  .next (match s.op? n with
    | none => s
    | some o =>
      let w := s.worldOf o.who
      let pod : Bool := o.x = 1
      if !s.arrivalDue o then s
      else if o.phase = .result then s.finishRed o
      else if s.barRefuses w pod o.b then s.faultArrival o
      else
        let wait := fun (s : State) (p : Bool) => s.setOp o.id fun y =>
          { y with phase := .remote, data := [if pod then 1 else 0, o.b, if p then 1 else 0] }
        match o.instr with
        | .fbar _ =>
          let (p, s) := s.arrive w pod o.b o.a 0 []
          (s.completeWith o (fbarWord stOk (s.bar w pod o.b).ovr p)).settleBar w pod o.b
        | .cred f =>
          let (p, s) := s.arrive w pod o.b 1 (credKind f.op.toNat f.ty.code) [o.a]
          (wait s p).settleBar w pod o.b
        | _ =>
          match s.tile? (o.tiles.headD 0) with
          | none => s.faultArrival o
          | some t =>
            let (p, s) := s.arrive w pod o.b 1 (2 ^ 16 + t.rows * t.cols) (s.tileWords t)
            (wait s p).settleBar w pod o.b)

/-! ### Broken barriers and the register page (R412, R427) -/

/-- The open phase of a barrier ends FAULTED, and what waits on the barrier with it (R427). -/
def State.breakBar (s : State) (w : Nat) (pod : Bool) (n : Nat) : State :=
  (s.endReds (s.redsOf w pod n none) stFaulted 0 []).setBar w pod n fun b =>
    { b.use.sample with
      phase := !b.phase, sent := b.held, held := false, status := stFaulted, current := b.next, next := [],
      awake := false, sentUp := false, heard := [], brk := true }

/-- A phase is open at a barrier: something of it has arrived here or in the tree around (R427). -/
def FabBar.opened (b : FabBar) : Bool := b.awake || b.sent || !b.current.isEmpty

/-- The spans of a world change: a barrier whose open phase loses a member is broken (R407, R427). -/
def State.setSpan (s : State) (w : Nat) (dom pod : List Nat) : State :=
  let t := s.setWorld w fun x => { x with dspan := dom, pspan := pod }
  ((s.world w).fab.filter fun b => b.opened && !((s.members w b.pod).all (t.members w b.pod).contains)).foldl
    (fun s b => s.breakBar w b.pod b.n) t

/-- BARRIER_BROKEN (R427). -/
def execBarrierBroken (w : Nat) (pod : Bool) (n : Nat) (s : State) : Out :=
  .next (if fabLimit pod ≤ n then s else s.breakBar w pod n)

/-- FBCFG_BRK_CLEAR: brk is cleared and a fresh gathering starts (R412). -/
def State.clearBroken (s : State) (w : Nat) (pod : Bool) (n : Nat) : State :=
  s.setBar w pod n fun b =>
    { b.use with brk := false, count := b.use.reload, sent := false, held := false, current := [], next := [],
                 awake := false, sentUp := false, heard := [] }

def execFbcfgBrkClear (w : Nat) (pod : Bool) (n : Nat) (s : State) : Out :=
  s.powered fun s => (if n < fabLimit pod then s.clearBroken w pod n else s)

/-- FBCFG_OVR_CLEAR (R412). -/
def execFbcfgOvrClear (w : Nat) (pod : Bool) (n : Nat) (s : State) : Out :=
  s.powered fun s => (if n < fabLimit pod then s.setBar w pod n fun b => { b with ovr := false } else s)

/-! ### Lost targets (R409) -/

/-- The address of an instruction's element in a line: its own address where it has no elements (R145). -/
def Op.elemIn (o : Op) (line : Nat) : W64 :=
  let i := (o.locs.findIdx? fun l => l.line = line).getD 0
  let size := match o.instr with
    | .ld f => f.ty.bits / 8
    | .ldk _ => 4
    | _ => 1
  let base := match o.instr with
    | .fill f => BitVec.ofInt 64 (State.spillBytes f (BitVec.ofNat 64 o.x)).1
    | _ => BitVec.ofNat 64 o.a
  base + BitVec.ofNat 64 (i / max 1 size * size)

/-- The address that a trap of an instruction over a line of a peer records. -/
def Op.trapAddr (o : Op) (line : Nat) : W64 :=
  match o.instr with
  | .binit _ | .barr _ | .bexp _ | .bwait _ | .btest _ => BitVec.ofNat 64 o.c
  | .cpy f | .cpys f | .cpya f => if f.claim && !o.data.isEmpty then BitVec.ofNat 64 o.c else BitVec.ofNat 64 o.a
  | _ => if isLoad o.instr then o.elemIn line else BitVec.ofNat 64 o.a

/-- An instruction whose request to a peer has no answer traps in its thread, or in every thread of its group (R409). -/
def State.refuseRemote (s : State) (o : Op) (code : BitVec 8) (line : Nat) : State :=
  match o.instr with
  | .ldk _ | .cpym _ => if o.lead = o.id then s.groupTrap o code 0 (o.trapAddr line) else s
  | _ => s.trapOp o code 0 (o.trapAddr line)

/-- The operations that wait for the answer of a request: the loads of its issue that read its line, or its own. -/
def State.askers (s : State) (r : Remote) : List Op :=
  match s.op? r.op with
  | none => []
  | some o =>
    if isLoad o.instr then
      s.ops.filter fun p => p.reads o.iss (Loc.line ⟨false, r.addr⟩) && p.phase = .remote
    else [o]

/-- The armed copy whose trigger a request reads (R231). -/
def State.armedOf (s : State) (n : Nat) : Option Armed := s.armed.find? fun a => a.copy.id = n && n ≠ 0

/-- An armed copy whose trigger is lost ends FAULTED (R409, R416). -/
def State.failArmed (s : State) (a : Armed) : State :=
  let s := { s with armed := s.armed.filter fun (b : Armed) => b ≠ a }
  let word := BitVec.ofNat 64 (fieldAt 0x0C 57 7 + bits a.copy.barVa.toNat 0 57)
  let s := s.setChannel a.team a.ch fun c => { c with fault := word }
  match s.op? a.copy.op with
  | some o => s.completeWith o (statusWord stFaulted a.ch.toNat 0)
  | none => s

/-- The address that the BWAIT names at which a thread waits. -/
def State.bwaitAddr (s : State) (t : TRef) : W64 :=
  match s.nextInstr t with
  | some (.ok (.bwait f)) => BitVec.ofNat 64 (s.barOpnd t f)
  | _ => 0

/-- A line of code that a peer was asked for does not come: its prefetches stop, and the thread traps where it waits for the line
at its pc (R164, R165, R409). -/
def State.codeFails (s : State) (t : TRef) (l : FetchLine) (code : BitVec 8) : State :=
  let x := s.thread t
  let s := s.setThread t fun x => { x with prefetch := (List.range 8).foldl (fun (b : BitVec 8) m =>
    let n := (x.waymark (BitVec.ofNat 3 m)).line
    if n = l.line ∨ n + 1 = l.line then b &&& ~~~(1#8 <<< m) else b) x.prefetch }
  if x.live && s.resident t.team && x.trap.isNone && x.pc.toNat / 128 = l.line && s.domainOf t = l.domain && (s.nextWord t).isNone then
    s.raise t code 0 x.pc
  else s

/-- A request ends without its answer (R409, R416, R426): `st` is the status that a transfer gets. -/
def State.failRemote (s : State) (r : Remote) (st reason : Nat) : State :=
  let os := s.askers r
  let s := { s with remotes := s.remotes.filter fun (x : Remote) => x.id ≠ r.id }
  match r.use with
  | .code t l => s.codeFails t l trapAccessViolation
  | .list _ _ => s
  | .bwait t =>
    if ((s.thread t).bwait.map (·.asked)) = some true && (s.bwaitOf t).isSome then
      (s.setThread t fun x => { x with bwait := none }).raise t (if reason = 0x0A then trapPoison else trapAccessViolation) 0
        (s.bwaitAddr t)
    else s
  | .own =>
    if r.copy ≠ 0 then
      match s.armedOf r.copy with
      | some a => s.failArmed a
      | none =>
        { s.setCopy r.copy fun c => if c.status.isSome then c else
            { c with status := some st, reason := reason, failAddr := c.addr + BitVec.ofNat 64 c.done } with
          remotes := s.remotes.filter fun (x : Remote) => x.copy ≠ r.copy }
    else
      match s.op? r.op with
      | none => s
      | some o =>
        if o.phase = .remote then
          let line := Loc.line ⟨false, r.addr⟩
          os.foldl (fun s p =>
            { s.refuseRemote p trapAccessViolation line with
              remotes := s.remotes.filter fun (x : Remote) => x.op ≠ p.id }) s
        else s.tryFinish o.id
/-- The limit of a world's remote requests in cycles (R412). -/
def State.remoteLimit (s : State) (w : Nat) : Nat :=
  let n := bits (s.world w).cwto.toNat 0 16
  (if n = 0 then 100 else n) * cyclesPerUs

def State.remoteLate (s : State) (r : Remote) : Bool := !r.done && r.since + s.remoteLimit r.world < s.clock

/-- First address of a request that failed. -/
def State.remoteAddr (s : State) (r : Remote) : W64 :=
  match s.copy? r.copy with
  | some c => c.addr + BitVec.ofNat 64 c.done
  | none =>
    match s.op? r.op with
    | some o => o.trapAddr (Loc.line ⟨false, r.addr⟩)
    | none => BitVec.ofNat 64 r.addr

/-- REMOTE_TIMEOUT: the requests of a world to a target that have been outstanding for longer than its limit end, with
one notice (R409). -/
def execRemoteTimeout (n : Nat) (s : State) : Out :=
  .next (match s.remotes.find? fun (r : Remote) => r.id = n with
    | none => s
    | some r =>
      if !s.remoteLate r then s
      else
        let late := s.remotes.filter fun x => x.world = r.world && x.target = r.target && s.remoteLate x
        late.foldl (fun s x => s.failRemote x stFaulted 0x0C) (s.lostNotice r.world (s.remoteAddr r)))

/-! ### Flits that arrive (R411) -/

/-- Generations that a world accepts (R426, R448). -/
def World.accepts (x : World) (gen : BitVec 16) : Bool := x.fcur.any (·.1 = gen) || x.fprev.any (·.1 = gen)

/-- Takes a flit from the link: one that is addressed elsewhere or is not the next of its link is discarded; one that
cannot be served yet waits (R22, R411). -/
def State.receive (s : State) (x : Flit) (can : Bool) (act : State → State) : State :=
  if s.inbox.contains x then (if can then act { s with inbox := s.inbox.filter (· ≠ x) } else s)
  else
    let row := (s.links.find? (·.1 = 0)).getD (0, 0, 0)
    if x.seq ≠ row.2.2 || x.dst.toNat ≠ s.deviceNum || !s.power || s.halted then s
    else
      let s := { s with links := s.links.filter (·.1 ≠ 0) ++ [(0, row.2.1, row.2.2 + 1)] }
      if can then act s else { s with inbox := s.inbox ++ [x] }

/-- First place and number of bytes of a flit. -/
def flitPlace (x : Flit) : Loc := ⟨false, 128 * x.line.toNat + x.first.toNat⟩
def flitCount (x : Flit) : Nat := x.last.toNat + 1 - x.first.toNat

/-- Answers of a target: 0 done, 1 poisoned, 2 refused, 3 key generation not accepted (DESIGN CHOICE, log entry 20). -/
def State.answer (s : State) (x : Flit) (kind : BitVec 4) (st : Nat) (payload : List Byte) : State :=
  s.sendFlit { x with kind := kind, dst := x.src, ev := false, tag := 0, payload := toBytes st 1 ++ payload }

/-- The status with which a target refuses a flit, if it does. -/
def State.refusal (s : State) (x : Flit) (acc : Acc) : Option Nat :=
  if !(s.world x.world.toNat).accepts x.gen then some 3
  else if !s.ownMemory x.world.toNat (flitPlace x) (flitCount x) acc then some 2
  else none

/-- Counts the event of a tagged transfer and acknowledges it; it waits while the object's team is saved (R417). -/
def State.finishArrived (s : State) (x : Flit) (total : Nat) : State :=
  if !x.ev then s.answer x flAck 0 []
  else
    match s.countEvent x.world.toNat x.tag total with
    | some s => s.answer x flAck 0 []
    | none => { s with inbox := s.inbox ++ [{ x with first := 127, last := 0, payload := toBytes total 8 }] }

/-- The event of a transfer whose bytes are performed can be counted. -/
def State.eventReady (s : State) (x : Flit) : Bool := (s.countEvent x.world.toNat x.tag 0).isSome

/-- A write flit whose bytes are performed already: only its event waits. -/
def flitCountOnly (x : Flit) : Bool := x.last < x.first

/-- FLIT_WRITE (R408, R411, R417). -/
def execFlitWrite (x : Flit) (s : State) : Out :=
  .next (
    let total := if x.ev then ofBytes (x.payload.drop (x.payload.length - 8)) else 0
    let body := if x.ev then x.payload.take (x.payload.length - 8) else x.payload
    if (flitCountOnly x) then s.receive x (s.eventReady x) (·.finishArrived x total)
    else
      match s.refusal x .write with
      | some st => s.receive x true fun s => s.answer x flAck st []
      | none =>
        s.receive x (!s.ownedLine (flitPlace x).line) fun s =>
          let s := s.unmark ((List.range (flitCount x)).map (flitPlace x).add)
          let s := if body.isEmpty then s.setPoison (flitPlace x).line
            else
              let s := s.writeRun (flitPlace x) (body.take (flitCount x))
              if (flitCount x) = 128 then s.clearPoison (flitPlace x).line else s
          s.finishArrived x total)

/-- FLIT_READ_REQUEST (R408, R411). -/
def execFlitReadRequest (x : Flit) (s : State) : Out :=
  .next (match s.refusal x .read with
    | some st => s.receive x true fun s => s.answer x flData st []
    | none =>
      s.receive x (!s.ownedLine (flitPlace x).line) fun s =>
        let s := s.openLines [flitPlace x]
        if s.poisoned (flitPlace x) then s.answer x flData 1 [] else s.answer x flData 0 (s.memBytes (flitPlace x) (flitCount x)))

/-- The operation of a request on a barrier object (DESIGN CHOICE, log entry 20). -/
def barOpOfCode (k : Nat) : Option BarOp :=
  if k = 16 then some .init else if k = 17 then some .arrive else if k = 18 then some .expect
  else if k = 19 then some .pay else none

/-- Performs a peer's RMW at its home: the value for the peer, and the state (R144, R408). -/
def State.remoteRmw (s : State) (x : Flit) : Nat × State :=
  let k := ofBytes (x.payload.take 1)
  let a := ofBytes ((x.payload.drop 8).take 8)
  let b := ofBytes ((x.payload.drop 16).take 8)
  let l := (flitPlace x)
  match workItem x.payload, barOpOfCode k with
  | some it, _ => s.homeWork l it x.payload
  | none, some op =>
    let (v, ovf, s) := s.barrierUpdate op (.mem l) a b
    (v + bitAt ovf 32, s)
  | none, none =>
    let m := s.memNat l (flitCount x)
    let ty := (Ty.ofCode (ofBytes ((x.payload.drop 1).take 1))).getD .n32
    if k = 15 then (m, if m = a then s.writeNat l (flitCount x) b else s)
    else (m, s.writeNat l (flitCount x) (atomNew ty k m a))

/-- FLIT_RMW_REQUEST (R144, R408, R411). -/
def execFlitRmwRequest (x : Flit) (s : State) : Out :=
  .next (match s.refusal x .rmw with
    | some st => s.receive x true fun s => s.answer x flResult st []
    | none =>
      s.receive x (!s.ownedLine (flitPlace x).line && (workItem x.payload).all fun l => !s.ownedLine l.line) fun s =>
        let item := workItem x.payload
        let s := s.openLines ([flitPlace x] ++ item.toList)
        if item.any fun l => !s.ownMemory x.world.toNat l 8 .rmw then s.answer x flResult 2 []
        else if s.poisoned (flitPlace x) || item.any s.poisoned then s.answer x flResult 1 []
        else
          let (v, s) := s.remoteRmw x
          s.answer x flResult 0 (toBytes v 24))

/-- The request that a flit answers. -/
def State.asked (s : State) (x : Flit) (kind : BitVec 4) : Option Remote :=
  s.remotes.find? fun r => r.id % 2 ^ 22 = x.xfer.toNat && r.kind = kind && r.target = x.src.toNat && !r.done

/-- The request is answered: it and its flit are gone. -/
def State.answered (s : State) (r : Remote) : State :=
  { s with
    remotes := s.remotes.filter fun (x : Remote) => x.id ≠ r.id
    flits := s.flits.filter fun f => !(f.2.xfer.toNat = r.id % 2 ^ 22 && f.2.dst.toNat = r.target && f.2.kind = r.kind) }

/-- A refusal for a key generation or of memory, as its request ends (R409, R416, R426). -/
def State.endRefused (s : State) (r : Remote) (st : Nat) : State :=
  let s := if st = 3 && r.copy = 0 && r.kind = flWrite then s.lostNotice r.world (s.remoteAddr r) else s
  if st = 3 then s.failRemote r stKeygen 0 else s.failRemote r stFaulted 4

/-- Bytes of an RGET arrive and are written into its tile (R415). -/
def State.rgetBytes (s : State) (c : Copy) (r : Remote) (bs : List Byte) (poisoned : Bool) : State :=
  match s.tile? c.tile with
  | none => s
  | some t =>
    let places := c.nextBytes t
    let s := if poisoned then s.setCopy c.id fun y =>
        { y.meetsPoison (c.addr + BitVec.ofNat 64 c.done) with
          skipped := y.skipped ++ (places.filter fun p => r.addr ≤ p.1.addr && p.1.addr < r.addr + r.bytes).map fun p =>
            (p.2 / max 1 t.rowBytes, 8 * (p.2 % max 1 t.rowBytes)) }
      else s.setTile c.tile fun t =>
        (List.range bs.length).foldl (fun t i =>
          match places.find? fun p => p.1.addr = r.addr + i with
          | some p => t.setByte p.2 (bs.getD i 0)
          | none => t) t
    match s.copy? c.id with
    | some c => if s.awaitsCopy c.id || c.status.isSome then s else s.unitDone c (c.done / 64)
    | none => s

/-- A line of a peer arrives for a copy (R140, R223): it goes on with the unit that needs it. -/
def State.copyLine (s : State) (c : Copy) (r : Remote) (bs : List Byte) (poisoned : Bool) : State :=
  let line := Loc.line ⟨false, r.addr⟩
  let v := BitVec.ofNat 1024 (ofBytes bs)
  s.setCopy c.id fun y =>
    if poisoned then { y with bad := y.bad ++ [line] }
    else if y.st then { y with base := y.base ++ [(line, v)] }
    else { y with seen := y.seen ++ [(line, v)] }

/-- A peer's object as a BWAIT or an armed copy reads it: the wait is over, or the object is read once more (R231, R236). -/
def State.pollAnswer (s : State) (r : Remote) (v : Nat) : State :=
  match r.use with
  | .bwait t => s.setThread t fun x => { x with bwait := x.bwait.map fun b =>
      { b with asked := false, value := v, released := b.released || waitOver v b.parity } }
  | .list n i => s.listAnswer n i v
  | _ =>
    match s.armedOf r.copy with
    | none => s
    | some a =>
      if (objOf v).phase = a.parity then
        ({ s with armed := s.armed.filter fun (b : Armed) => b ≠ a } : State).enqueue
          { a.copy with stopped := !s.resident a.team }
      else s.askTrigger a

/-- What a thread that reads peer memory gets: the loads of the issue take their bytes of the line, and another instruction
goes on with what it has asked for (R136, R145, R408). -/
def State.opAnswer (s : State) (r : Remote) (bs : List Byte) (poisoned : Bool) : State :=
  let line := Loc.line ⟨false, r.addr⟩
  (s.askers r).foldl (fun s p =>
    if poisoned then s.refuseRemote p trapPoison line
    else
      let got := (List.range (min r.bytes bs.length)).map fun i => 256 * (r.addr + i) + (bs.getD i 0).toNat
      s.setOp p.id fun y =>
        { y with
          data := y.data ++ (if isLoad y.instr then got.filter fun n => y.locs.any fun l => l.key = n / 256 else got)
          phase := if (copyChannel y.instr).isSome then .recall else .pending }) s

/-- FLIT_READ_DATA (R408, R411, R415). -/
def execFlitReadData (x : Flit) (s : State) : Out :=
  .next (s.receive x true fun s =>
    match s.asked x flRead with
    | none => s
    | some r =>
      let st := ofBytes (x.payload.take 1)
      let bs := x.payload.drop 1
      if 2 ≤ st then s.endRefused r st
      else if let .code t l := r.use then
        if st = 1 then (s.answered r).codeFails t l trapPoison
        else (s.answered r).addFetchLine { l with bits := lineBits (bs.take 128) }
      else if r.use ≠ .own || (s.armedOf r.copy).isSome then
        if st = 1 then (s.answered r).failRemote r stFaulted 0x0A
        else (s.answered r).pollAnswer r (ofBytes (bs.take 16))
      else
        match s.copy? r.copy with
        | some c =>
          if c.kind = .rget then (s.answered r).rgetBytes c r (bs.take r.bytes) (st = 1)
          else (s.answered r).copyLine c r bs (st = 1)
        | none => { s.opAnswer r bs (st = 1) with
            remotes := (s.answered r).remotes, flits := (s.answered r).flits })

/-- A peer's answer to a request of a copy: a payment that finds the object malformed ends the copy (R222, R233). -/
def State.payAnswer (s : State) (n word : Nat) : State :=
  if word % 256 = stFaulted && (s.copy? n).any (·.status.isNone) then s.badObject n else s

/-- FLIT_RMW_RESULT (R144, R228, R233, R408). -/
def execFlitRmwResult (x : Flit) (s : State) : Out :=
  .next (s.receive x true fun s =>
    match s.asked x flRmw with
    | none => s
    | some r =>
      let st := ofBytes (x.payload.take 1)
      let v := ofBytes ((x.payload.drop 1).take 24)
      if 2 ≤ st then s.endRefused r st
      else
        let s := s.answered r
        if r.copy ≠ 0 then s.payAnswer r.copy (if st = 1 then stFaulted else v)
        else
        match s.op? r.op with
        | none => s
        | some o =>
          if st = 1 then s.refuseRemote o trapPoison (Loc.line ⟨false, r.addr⟩)
          else if (copyChannel o.instr).isSome then
            s.setOp o.id fun y =>
              { y with data := y.data ++ [256 * claimKey + (if v % 256 = stFaulted then 0 else 1)], phase := .recall }
          else
            match o.instr, memFields o.instr with
            | .wput _, _ | .wtake _, _ => s.workAnswer o v
            | _, some f => s.finishRmw o f (v % 2 ^ f.ty.bits)
            | _, none => s.finishBarrier o (v % 2 ^ 32) (bit v 32))

/-- FLIT_ACKNOWLEDGEMENT (R73, R93, R415, R416). -/
def execFlitAcknowledgement (x : Flit) (s : State) : Out :=
  .next (s.receive x true fun s =>
    match s.asked x flWrite with
    | none => s
    | some r =>
      let st := ofBytes (x.payload.take 1)
      if 2 ≤ st then s.endRefused r st
      else
        let s := s.answered r
        match s.copy? r.copy with
        | some c => if s.awaitsCopy c.id || c.status.isSome || c.kind ≠ .rput then s else s.unitDone c (c.done / 64)
        | none => s.tryFinish r.op)

/-- The barrier that a flit of kind 6 or 7 names. -/
def flitPod (x : Flit) : Bool := bit x.line.toNat 9
def flitBar (x : Flit) : Nat := bits x.line.toNat 0 9
def flitSender (x : Flit) : Nat := 512 * x.tag.toNat + x.src.toNat

/-- FLIT_CONTRIBUTION: a member below contributes, or tells that the phase is under way (R421, R426). -/
def execFlitContribution (x : Flit) (s : State) : Out :=
  .next (s.receive x true fun s =>
    let (w, pod, n) := (x.world.toNat, (flitPod x), (flitBar x))
    if fabLimit pod ≤ n || !(s.relay w pod).2.contains (flitSender x) then s
    else
      let s := s.wakeBar w pod n (some (flitSender x))
      let s := if x.payload.isEmpty then s
        else
          let mixed := x.gen ≠ (s.world w).fsend || x.payload.headD 0 ≠ 0
          let cs := readContribs x.payload.length (x.payload.drop 1)
          s.setBar w pod n fun b =>
            { b with heard := b.heard.filter (·.1 ≠ (flitSender x)) ++ [((flitSender x), mixed, if mixed then [] else cs)] }
      State.runBar w pod n 3 s)

/-- FLIT_RELEASE: the release of a phase comes down the tree, or a sign that the phase is under way (R420, R421). -/
def execFlitRelease (x : Flit) (s : State) : Out :=
  .next (s.receive x true fun s =>
    let (w, pod, n) := (x.world.toNat, (flitPod x), (flitBar x))
    if fabLimit pod ≤ n || (s.relay w pod).1 ≠ some (flitSender x) then s
    else if x.payload.isEmpty then State.runBar w pod n 3 (s.wakeBar w pod n (some (flitSender x)))
    else
      let vs := (readValues ((x.payload.length - 9) / 8) (x.payload.drop 9)).1
      (s.releasePhase w pod n (ofBytes (x.payload.take 1)) (ofBytes ((x.payload.drop 1).take 8)) vs).settleBar w pod n)

/-- FLIT_RETRANSMIT: the link of a port sends its unacknowledged flits again; only time passes (R411). -/
def execFlitRetransmit (_port : Nat) (s : State) : Out := .next s

end Sys2Proof.Machine
end

