-- ==== Sys2Proof/Machine/LaneFp.lean ====
section
/-! DEFINITION. The instructions of group 0x1: floating arithmetic on fixed formats and on slot elements (R104,
R111 to R119). -/

namespace Sys2Proof.Machine

/-- A lane operation on slot elements (R119, R270, R467). FORMAT_SLOT where the sheet does not offer the form or
the rounding mode; a residue class takes rm 00 only. -/
def State.slotArith (s : State) (t : TRef) (f : LaneF) (srcs : List Opnd) (op : SlotOp) : State :=
  let offered := fun (x : Slot) =>
    bit x.form.lanes op.bit && (if x.form.cls = 3 then f.rm = .rne else x.form.offers (x.effRm f.rm))
  s.slotUse t f.slot srcs (some f.d) offered fun x s =>
    let y := s.thread t
    let e := fun (n : Nat) => match srcs[n]? with
      | some o => s.slotOpnd t x o
      | none => 0
    let (v, fl) := x.form.laneOp op (x.effRm f.rm) x.ob (y.ifl .slot) (y.rfl .slot) (e 0) (e 1) (e 2)
    s.withFlags t fl fun s => s.writeElem t f.d x.form.ew v

/-- Flags of inputs that were flushed. -/
def inputFlags (ins : List (FVal × Nat)) : Nat := ins.foldl (fun n x => n ||| x.2) 0

/-- The result of a floating operation with its flags: the flags are set, and the result is written where none
of them traps (R102, R105). -/
def State.writeFloat (s : State) (t : TRef) (f : LaneF) (r : Nat × Nat) : State :=
  s.withFlags t r.2 fun s => s.writeDest t f.d f.ty r.1

/-- A floating lane instruction on exact inputs (R104): the operation takes the format, the effective rounding
mode, the result-flush bit and the inputs. -/
def State.laneFloat (s : State) (i : Instr) (f : LaneF) (srcs : List Opnd) (op : Option SlotOp)
    (g : Fmt → Rm → Bool → List FVal → Nat × Nat) : State :=
  s.forLanes i f.toCommon fun t s =>
    match f.ty, op with
    | .slot, some o => s.slotArith t f srcs o
    | _, _ =>
      let x := s.thread t
      let ins := srcs.map fun o => s.fopnd t o f.ty
      let r := g (fmtOf f.ty) (x.effRm f.rm) (x.rfl f.ty) (ins.map (·.1))
      s.writeFloat t f (r.1, r.2 ||| inputFlags ins)

/-- The n-th input. -/
def input (l : List FVal) (n : Nat) : FVal := l.getD n (.zero false)

def execFadd (f : LaneF) (s : State) : Out :=
  .next (s.laneFloat (.fadd f) f [f.a, f.b] (some .add) fun F rm rfl l => F.add rm rfl (input l 0) (input l 1))

/-- FSUB (R111): the sum with b negated; a NaN stays a NaN. -/
def execFsub (f : LaneF) (s : State) : Out :=
  .next (s.laneFloat (.fsub f) f [f.a, f.b] (some .sub) fun F rm rfl l => F.add rm rfl (input l 0) (input l 1).neg)

def execFmul (f : LaneF) (s : State) : Out :=
  .next (s.laneFloat (.fmul f) f [f.a, f.b] (some .mul) fun F rm rfl l => F.mul rm rfl (input l 0) (input l 1))

def execFma (f : LaneF) (s : State) : Out :=
  .next (s.laneFloat (.fma f) f [f.a, f.b, f.c] (some .fma) fun F rm rfl l =>
    F.fma rm rfl (input l 0) (input l 1) (input l 2))

/-- FMIN and FMAX (R112): an input value after flush_in. -/
def State.laneMinMax (s : State) (i : Instr) (f : LaneF) (max : Bool) : State :=
  s.forLanes i f.toCommon fun t s =>
    if f.ty = .slot then s.slotArith t f [f.a, f.b] (if max then .max else .min)
    else
      let a := s.fopnd t f.a f.ty
      let b := s.fopnd t f.b f.ty
      let r := (fmtOf f.ty).minMax max a.1 b.1 (s.operand t f.a f.ty) (s.operand t f.b f.ty)
      s.writeFloat t f (r.1, r.2 ||| a.2 ||| b.2)

def execFmin (f : LaneF) (s : State) : Out := .next (s.laneMinMax (.fmin f) f false)

def execFmax (f : LaneF) (s : State) : Out := .next (s.laneMinMax (.fmax f) f true)

/-- FCMP (R113). -/
def execFcmp (f : LaneF) (s : State) : Out :=
  .next (s.forLanes (.fcmp f) f.toCommon fun t s =>
    let compare := fun (s : State) (a b : FVal × Nat) =>
      let (c, nv) := fcmpCond f.subop.toNat a.1 b.1
      s.withFlags t (nv ||| a.2 ||| b.2) fun s => s.writePred t f.pd (c && s.srcPred t f)
    if f.ty = .slot then
      s.slotUse t f.slot [f.a, f.b] none (fun x => bit x.form.lanes 4) fun x s =>
        let e := fun o => x.form.input ((s.thread t).ifl .slot) (s.slotOpnd t x o)
        compare s (e f.a) (e f.b)
    else compare s (s.fopnd t f.a f.ty) (s.fopnd t f.b f.ty))

def execFrcp (f : LaneF) (s : State) : Out :=
  .next (s.laneFloat (.frcp f) f [f.a] none fun F rm rfl l => F.rcp rm rfl (input l 0))

def execFrsq (f : LaneF) (s : State) : Out :=
  .next (s.laneFloat (.frsq f) f [f.a] none fun F rm rfl l => F.rsq rm rfl (input l 0))

def execFsqrt (f : LaneF) (s : State) : Out :=
  .next (s.laneFloat (.fsqrt f) f [f.a] none fun F rm rfl l => F.sqrt rm rfl (input l 0))

def execFdiv (f : LaneF) (s : State) : Out :=
  .next (s.laneFloat (.fdiv f) f [f.a, f.b] none fun F rm rfl l => F.div rm rfl (input l 0) (input l 1))

def execFexp2 (f : LaneF) (s : State) : Out :=
  .next (s.laneFloat (.fexp2 f) f [f.a] none fun F rm rfl l => F.exp2 rm rfl (input l 0))

def execFlog2 (f : LaneF) (s : State) : Out :=
  .next (s.laneFloat (.flog2 f) f [f.a] none fun F rm rfl l => F.log2 rm rfl (input l 0))

def execFsin (f : LaneF) (s : State) : Out :=
  .next (s.laneFloat (.fsin f) f [f.a] none fun F rm rfl l => F.sin rm rfl (input l 0))

def execFcos (f : LaneF) (s : State) : Out :=
  .next (s.laneFloat (.fcos f) f [f.a] none fun F rm rfl l => F.cos rm rfl (input l 0))

def execFtanh (f : LaneF) (s : State) : Out :=
  .next (s.laneFloat (.ftanh f) f [f.a] none fun F rm rfl l => F.tanh rm rfl (input l 0))

/-- FCLASS (R115): no flush, no flag. -/
def execFclass (f : LaneF) (s : State) : Out :=
  .next (s.forLanes (.fclass f) f.toCommon fun t s =>
    s.writeDest t f.d f.ty ((fmtOf f.ty).classMask (s.operand t f.a f.ty)))

/-- FRND (R116). -/
def execFrnd (f : LaneF) (s : State) : Out :=
  .next (s.laneFloat (.frnd f) f [f.a] none fun F rm _ l => F.rnd rm (f.subop = 1) (input l 0))

/-- CVT (R117). -/
def execCvt (f : LaneF) (s : State) : Out :=
  .next (s.forLanes (.cvt f) f.toCommon fun t s =>
    let x := s.thread t
    let t2 := cvtFrom f
    let rm := x.effRm f.rm
    if t2.isFloat then
      let a := s.fopnd t f.a t2
      let r := if f.ty.isFloat then (fmtOf f.ty).finish rm (x.rfl f.ty) [a.1] (some a.1)
        else toInteger rm f.ty.bits f.ty.isSigned a.1
      s.writeFloat t f (r.1, r.2 ||| a.2)
    else s.writeFloat t f ((fmtOf f.ty).ofInt rm (x.rfl f.ty) (intOf t2 (s.opnd t f.a t2))))

/-- FSCALE (R118): B is read as s32. -/
def execFscale (f : LaneF) (s : State) : Out :=
  .next (s.forLanes (.fscale f) f.toCommon fun t s =>
    let x := s.thread t
    let a := s.fopnd t f.a f.ty
    let b := sextN (s.opnd t f.b .s32) 32
    let r := (fmtOf f.ty).scale (x.effRm f.rm) (x.rfl f.ty) a.1 b
    s.writeFloat t f (r.1, r.2 ||| a.2))

end Sys2Proof.Machine
end

