-- ==== Sys2Proof/Machine/CrossLane.lean ====
section
/-! DEFINITION. The instructions of group 0x2: cross-lane instructions of a group, special registers and the clock
(R120 to R128). -/

namespace Sys2Proof.Machine

/-- The value that each active lane gives, by home lane (R120): read before any lane is written. -/
def State.laneValues (s : State) (act : List TRef) (f : LaneF) : List (Nat × Nat) :=
  act.map fun t => (t.lane, s.operand t f.a f.ty)

def lookup (l : List (Nat × Nat)) (j : Nat) : Option Nat := (l.find? (·.1 = j)).map (·.2)

/-- The source lane of SHFL; none when it is outside 0 to 31 (R121). -/
def State.shflSource (s : State) (t : TRef) (f : LaneF) : Option Nat :=
  let j := t.lane
  let d := f.aux1.toNat
  match f.subop.toNat with
  | 0 => some (s.rawOpnd t f.b % 32)
  | 1 =>
    let k : Int := j + sextN d 6
    if 0 ≤ k ∧ k ≤ 31 then some k.toNat else none
  | 2 => some ((j + d) % 32)
  | 3 => some (j ^^^ d)
  | _ => some (j / 2 ^ f.aux2.toNat * 2 ^ f.aux2.toNat + d % 2 ^ f.aux2.toNat)

/-- SHFL (R121). -/
def execShfl (f : LaneF) (s : State) : Out :=
  let act := s.activeLanes (.shfl f) f.toCommon
  let vals := s.laneValues act f
  let src := act.map fun t => (t, (s.shflSource t f).bind (lookup vals))
  .next (s.forLanes (.shfl f) f.toCommon fun t s' =>
    let r := ((src.find? (·.1 = t)).map (·.2)).join
    (s'.writeDest t f.d f.ty (r.getD ((lookup vals t.lane).getD 0))).writePred t f.pd r.isSome)

/-- VOTE (R122). -/
def execVote (f : LaneF) (s : State) : Out :=
  let act := s.activeLanes (.vote f) f.toCommon
  let ps := act.map fun t => (t.lane, s.srcPred t f)
  let ones := (ps.filter (·.2)).length
  .next (s.forLanes (.vote f) f.toCommon fun t s =>
    match f.subop.toNat with
    | 0 => s.writePred t f.pd (ones = ps.length)
    | 1 => s.writePred t f.pd (ones ≠ 0)
    | 2 => s.writePred t f.pd (ones % 2 = 1)
    | 3 => s.writePred t f.pd (ones = 0 || ones = ps.length)
    | 4 => s.writeSlices t f.d.start.toNat 32 (ps.foldl (fun n x => n + bitAt x.2 x.1) 0)
    | _ => s.writeSlices t f.d.start.toNat 32 ones)

/-! ### Trees -/

/-- The fixed tree of R123 over 2^d lanes from lane lo: the value and flags of the lanes that are present. -/
def tree (combine : Nat → Nat → Nat × Nat) (v : Nat → Option (Nat × Nat)) : Nat → Nat → Option (Nat × Nat)
  | 0, lo => v lo
  | d + 1, lo =>
    match tree combine v d lo, tree combine v d (lo + 2 ^ d) with
    | some x, some y =>
      let z := combine x.1 y.1
      some (z.1, x.2 ||| y.2 ||| z.2)
    | some x, none => some x
    | none, y => y

/-- The combination of two values (R123): integer, or floating in a rounding mode and result flush. -/
def treeCombine (op : Nat) (ty : Ty) (rm : Rm) (rfl : Bool) (x y : Nat) : Nat × Nat :=
  if ty.isFloat then
    let F := fmtOf ty
    let a := F.decode x
    let b := F.decode y
    match op with
    | 0 => F.add rm rfl a b
    | 1 => F.minMax false a b x y
    | _ => F.minMax true a b x y
  else
    let a := intOf ty x
    let b := intOf ty y
    let w := ty.bits
    (match op with
      | 0 => wrapN (a + b) w
      | 1 => wrapN (min a b) w
      | 2 => wrapN (max a b) w
      | 3 => x &&& y
      | 4 => x ||| y
      | _ => x ^^^ y, 0)

/-- The leaf of a lane: its value after flush_in, and fl where it was flushed (R123). -/
def State.treeLeaf (s : State) (t : TRef) (f : LaneF) : Nat × Nat :=
  let x := s.operand t f.a f.ty
  if f.ty.isFloat then
    let (v, fl) := (fmtOf f.ty).input ((s.thread t).ifl f.ty) x
    if fl = 0 then (x, 0) else (((fmtOf f.ty).encode .rne false v).1, fl)
  else (x, 0)

/-- The identity of an operation (R124). -/
def treeIdentity (op : Nat) (ty : Ty) : Nat :=
  if ty.isFloat then
    match op with
    | 0 => 0
    | 1 => (fmtOf ty).infBits false
    | _ => (fmtOf ty).infBits true
  else
    let w := ty.bits
    match op with
    | 1 => if ty.isSigned then 2 ^ (w - 1) - 1 else 2 ^ w - 1
    | 2 => if ty.isSigned then 2 ^ (w - 1) else 0
    | 3 => 2 ^ w - 1
    | _ => 0

/-- The reduction over the lanes that satisfy a condition. The rounding mode and the result flush are those of
the lowest active lane (R123, R124). -/
def State.reduce (s : State) (act : List TRef) (f : LaneF) (keep : Nat → Bool) : Nat × Nat :=
  let leaves := act.map fun t => (t.lane, s.treeLeaf t f)
  let x := (act.head?.map s.thread).getD Thread.absent
  let op := f.subop.toNat % 8
  let v := fun j => if keep j then (leaves.find? (·.1 = j)).map (·.2) else none
  (tree (treeCombine op f.ty (x.effRm f.rm) (x.rfl f.ty)) v 5 0).getD (treeIdentity op f.ty, 0)

/-- GRED (R123). -/
def execGred (f : LaneF) (s : State) : Out :=
  let r := s.reduce (s.activeLanes (.gred f) f.toCommon) f fun _ => true
  .next (s.forLanes (.gred f) f.toCommon fun t s => s.writeFloat t f r)

/-- GSCAN (R124). -/
def execGscan (f : LaneF) (s : State) : Out :=
  let act := s.activeLanes (.gscan f) f.toCommon
  let excl := f.subop.getLsbD 3
  let rs := act.map fun t => (t, s.reduce act f fun j => if excl then j < t.lane else j ≤ t.lane)
  .next (s.forLanes (.gscan f) f.toCommon fun t s =>
    s.writeFloat t f (((rs.find? (·.1 = t)).map (·.2)).getD (0, 0)))

/-! ### Special registers -/

/-- GETS (R127). -/
def execGets (f : LaneF) (s : State) : Out :=
  .next (s.forLanes (.gets f) f.toCommon fun t s =>
    s.writeSlices t f.d.start.toNat f.d.w.bits (s.rawOpnd t f.a))

/-- SETS (R127): %fmode, %fpflags or %sp. Reserved fields ignore what is written (R3, R100, R101). -/
def execSets (f : LaneF) (s : State) : Out :=
  .next (s.forLanes (.sets f) f.toCommon fun t s =>
    let v := s.opnd t f.a f.ty
    s.setThread t fun x =>
      match SReg.ofNum f.d.start.toNat with
      | some .fmode => { x with fmode := BitVec.ofNat 32 (bits v 0 11) }
      | some .fpflags => { x with fpflags := BitVec.ofNat 32 (v &&& 0x3F3F) }
      | some .sp => { x with sp := BitVec.ofNat 64 v }
      | _ => x)

/-- The value that KMOV writes (R126): an immediate is extended by t's signedness and not narrowed by t (DEDUCED, log
entry 26). -/
def State.kmovValue (s : State) (t : TRef) (f : LaneF) : Nat :=
  match f.a with
  | .imm v => if f.ty.isSigned then wrapN (sextN v.toNat 10) (kmovBits f) else v.toNat
  | o => s.rawOpnd t o

/-- KMOV (R126): the value of the lowest active lane, for the group. -/
def execKmov (f : LaneF) (s : State) : Out :=
  let s' := match s.activeLanes (.kmov f) f.toCommon with
    | [] => s
    | t :: _ => s.writeUni t f.aux1.toNat (kmovBits f) (s.kmovValue t f)
  .next (s'.forLanes (.kmov f) f.toCommon fun _ s => s)

/-- MATCH (R125). -/
def execMatchLanes (f : LaneF) (s : State) : Out :=
  let act := s.activeLanes (.matchLanes f) f.toCommon
  let vals := s.laneValues act f
  .next (s.forLanes (.matchLanes f) f.toCommon fun t s =>
    let mine := vals.filter fun x => some x.2 = lookup vals t.lane
    let lead := mine.all fun x => t.lane ≤ x.1
    (s.writeSlices t f.d.start.toNat 32 (mine.foldl (fun n x => n + 2 ^ x.1) 0)).writePred t f.pd
      (if f.subop = 1 then mine.length = vals.length else lead))

/-- ELECT (R125). -/
def execElect (f : LaneF) (s : State) : Out :=
  let lanes := (s.activeLanes (.elect f) f.toCommon).map (·.lane)
  let chosen := if f.subop = 1 then lanes.foldl max 0 else lanes.foldl min 31
  .next (s.forLanes (.elect f) f.toCommon fun t s =>
    (s.writeSlices t f.d.start.toNat 32 chosen).writePred t f.pd (t.lane = chosen))

/-- RDCLK (R128). With .drain the thread stands until its incomplete instructions have completed. -/
def execRdclk (f : LaneF) (s : State) : Out :=
  .next (s.forIssue (.rdclk f) f.toCommon fun t s =>
    if f.subop = 1 && !(s.opsOf t).isEmpty then s
    else (s.writeSlices t f.d.start.toNat 64 (s.clock % 2 ^ 64)).advance t f.ctl)

end Sys2Proof.Machine
end

