-- ==== Sys2Proof/Machine/Sha.lean ====
section
/-! DEFINITION. SHA-512, by which format images are named (R265, PRESUMED, log entry 21). -/

namespace Sys2Proof.Machine

/-- Integer cube root, one bit at a time from a bit downward. -/
def icbrtFrom (n : Nat) : Nat → Nat → Nat
  | 0, r => r
  | k + 1, r => let r' := r + 2 ^ k; icbrtFrom n k (if r' * r' * r' ≤ n then r' else r)

/-- The first primes. -/
def primes (n : Nat) : List Nat :=
  ((List.range 420).filter fun p => 2 ≤ p && (List.range p).all fun d => d < 2 || p % d ≠ 0).take n

/-- The round constants: 64 fraction bits of the cube roots of the first 80 primes. -/
def shaRound : List W64 := (primes 80).map fun p => BitVec.ofNat 64 (icbrtFrom (p * 2 ^ 192) 68 0)

/-- The initial words: 64 fraction bits of the square roots of the first 8 primes. -/
def shaInit : List W64 := (primes 8).map fun p => BitVec.ofNat 64 (isqrtFrom (p * 2 ^ 128) 70 0)

/-- A big-endian number from bytes. -/
def ofBytesBig (bs : List Byte) : Nat := bs.foldl (fun n b => 256 * n + b.toNat) 0

/-- The message with its padding. -/
def shaPad (m : List Byte) : List Byte :=
  let z := (239 - m.length % 128) % 128
  m ++ [0x80] ++ List.replicate z 0 ++ (toBytes (8 * m.length) 16).reverse

/-- The schedule of a block, newest word first: 16 words of the block and n more. -/
def shaSchedule (block : List Byte) : Nat → List W64
  | 0 => ((List.range 16).map fun i => BitVec.ofNat 64 (ofBytesBig ((block.drop (8 * i)).take 8))).reverse
  | n + 1 =>
    let w := shaSchedule block n
    let x := w.getD 1 0
    let y := w.getD 14 0
    let s1 := x.rotateRight 19 ^^^ x.rotateRight 61 ^^^ (x >>> 6)
    let s0 := y.rotateRight 1 ^^^ y.rotateRight 8 ^^^ (y >>> 7)
    (s1 + w.getD 6 0 + s0 + w.getD 15 0) :: w

/-- One round on the eight working words. -/
def shaStep (v : List W64) (kw : W64) : List W64 :=
  match v with
  | [a, b, c, d, e, f, g, h] =>
    let t1 := h + (e.rotateRight 14 ^^^ e.rotateRight 18 ^^^ e.rotateRight 41) + ((e &&& f) ^^^ (~~~e &&& g)) + kw
    let t2 := (a.rotateRight 28 ^^^ a.rotateRight 34 ^^^ a.rotateRight 39) + ((a &&& b) ^^^ (a &&& c) ^^^ (b &&& c))
    [t1 + t2, a, b, c, d + t1, e, f, g]
  | v => v

def shaBlock (h : List W64) (block : List Byte) : List W64 :=
  let w := (shaSchedule block 64).reverse
  let v := (List.zipWith (· + ·) shaRound w).foldl shaStep h
  List.zipWith (· + ·) h v

/-- The digest; byte i of it is bits [8i+7:8i]. -/
def sha512 (m : List Byte) : BitVec 512 :=
  let p := shaPad m
  let h := (List.range (p.length / 128)).foldl (fun h i => shaBlock h ((p.drop (128 * i)).take 128)) shaInit
  BitVec.ofNat 512 (ofBytes (h.flatMap fun w => (toBytes w.toNat 8).reverse))

end Sys2Proof.Machine
end

