-- ==== Sys2Proof/Machine/Images.lean ====
section
/-! DEFINITION. Format images: their verification and the bitstream cache (R265, R274, R278, R287). -/

namespace Sys2Proof.Machine

/-- A field of an image's bytes. -/
def imageField (bs : List Byte) (off n : Nat) : Nat := ofBytes ((bs.drop off).take n)

/-- The length of an image that its header states. -/
def imageLength (bs : List Byte) : Nat := imageField bs 8 4

/-- The stated length is one that R265 allows. -/
def imageLengthOk (n : Nat) : Bool := n % 128 = 0 && 1152 ≤ n && n ≤ 263168

/-- The header and the sheet of an image are well formed (R265, R267). -/
def imageOk (bs : List Byte) : Bool :=
  imageField bs 0 4 = 0x3149464A && imageField bs 4 2 = 1 && imageField bs 6 2 = 0 && imageLengthOk (imageLength bs) &&
    imageField bs 16 112 = 0 && sheetOk (imageField bs 0x80 128) && imageField bs 0x100 256 = 0

def imageSigned (bs : List Byte) : List Byte := bs.take (imageLength bs - 512)

def imageDigest (bs : List Byte) : BitVec 512 := sha512 (imageSigned bs)

def imageSheet (bs : List Byte) : List Byte := (bs.drop 0x80).take 128

/-- A world has an image's digest bound to one of its slots, or a load of it is verified and not over (R275, R278). -/
def State.imageInUse (s : State) (d : BitVec 512) : Bool :=
  (s.slots.any fun x => x.digest = d && x.state ≠ .empty) || s.slotQ.any fun j => j.digest = d && 1 ≤ j.stage && j.stage ≤ 3

/-- The cache holds some images within its bounds (R278): 256 images and 64 MiB. -/
def imagesFit (l : List Image) : Bool :=
  l.length ≤ 256 && (l.map (·.bytes.length)).sum ≤ 64 * 2 ^ 20

/-- Makes room for a new image: images that no slot is bound to are dropped, the first of them first, until the new one
fits (R278). -/
def State.dropImages (s : State) (new : Image) : List Image → List Image → List Image
  | kept, [] => kept
  | kept, x :: r =>
    if imagesFit (kept ++ x :: r ++ [new]) then kept ++ x :: r
    else if s.imageInUse x.digest then s.dropImages new (kept ++ [x]) r
    else s.dropImages new kept r

/-- Result of a verification: a digest, or a status and its reason. -/
inductive Verified where
  | ok (digest : BitVec 512)
  | refused (status reason : Nat)
deriving DecidableEq, Repr

/-- Verifies an image for a world and keeps it in the cache (R274). -/
def State.verifyImage (s : State) (w : Nat) (bs : List Byte) : Verified × State :=
  let signer := imageField bs 12 4
  let key := s.regKeys.find? (·.1 = signer)
  let foreign := signer ≠ 0 && key.any fun k => k.2.1 ≠ w
  if !imageOk bs then (.refused stFaulted 1, s)
  else
    let d := imageDigest bs
    let cached := s.images.find? fun x => x.digest = d
    if cached.any fun x => x.worlds.contains w then
      if foreign || (signer ≠ 0 && key.isNone) then (.refused stBadsig 3, s) else (.ok d, s)
    else
      let verifies := if signer = 0 then Config.signatureOk 0 bs
        else key.any fun k => Config.signatureOk (k.2.2 + 1) bs
      if !verifies then (.refused stBadsig 2, s)
      else if foreign then (.refused stBadsig 3, s)
      else
        match cached with
        | some _ => (.ok d, { s with images := s.images.map fun (x : Image) =>
            if x.digest = d then { x with worlds := x.worlds ++ [w] } else x })
        | none =>
          let new : Image := ⟨d, bs, [w], s.clock⟩
          let kept := s.dropImages new [] s.images ++ [new]
          if imagesFit kept then (.ok d, { s with images := kept }) else (.refused stFaulted 6, s)

/-- A strip of an image has the function that its sheet states, in every quad (R275). -/
def State.stripsOk (s : State) (d : BitVec 512) : Bool :=
  (s.images.find? fun x => x.digest = d).any fun x => Config.stripOk x.bytes

end Sys2Proof.Machine
end

