-- ==== Sys2Proof/Machine/Matrix.lean ====
section
/-! DEFINITION. The matrix engine: the value of a product, MMA, TMMA, TMMAC and MFIN (R240 to R262). -/

namespace Sys2Proof.Machine

/-! ### MMA (R248 to R251) -/

/-- The slice bits of an operand's fragment. -/
def State.fragment (s : State) (t : TRef) (o : Opnd) (w : Nat) : Nat := s.readSlices t o.start w

/-- The operations of a team MMA. -/
def State.mmaOps (s : State) (g : TeamMma) : List Op :=
  s.ops.filter fun o => o.lead = g.id && (match o.instr with | .mma _ => true | _ => false)

/-- The team MMA at which a thread stands: it has not issued its MMA. -/
def State.mmaOf (s : State) (t : TRef) : Option TeamMma :=
  s.mmas.find? fun x => (x.members.any fun m => m.1 = t) && !((s.mmaOps x).any fun o => o.who = t)

def State.setMma (s : State) (n : Nat) (f : TeamMma → TeamMma) : State :=
  { s with mmas := s.mmas.map fun (x : TeamMma) => if x.id = n then f x else x }

/-- A thread enters the team MMA that its convergence register will release, or one of its own where the phase that it
signed is complete already. -/
def State.enterMma (s : State) (t : TRef) (f : MatF) : State :=
  let wait := s.phaseOpen t f.cr
  match s.mmas.find? fun x => wait && x.team = t.team && x.cr = f.cr && !x.released with
  | some x => s.setMma x.id fun x => { x with members := x.members ++ [(t, .mma f)] }
  | none =>
    { s with ids := s.ids + 1, mmas := s.mmas ++ [(⟨s.ids, t.team, f.cr, [(t, .mma f)], !wait, false⟩ : TeamMma)] }

/-- Two threads of a team MMA agree (R249 step 3). -/
def mmaAgrees (f : MatF) : Instr → Bool
  | .mma g => f.ty = g.ty && f.fa = g.fa && f.fb = g.fb && f.b = g.b
  | _ => false

/-- The JOIN of an MMA or TMMAC (R249 step 1): a trap, or the signature where the thread has not signed. -/
def State.matJoin (s : State) (t : TRef) (c : BitVec 4) : State :=
  let r := (s.team t.team).creg c
  if (s.thread t).await.getLsbD c.toNat || r.signed.getLsbD (signIndex t) then s else s.signPhase t c

/-- The thread's group is in the set of the register. -/
def State.inSet (s : State) (t : TRef) (c : BitVec 4) : Bool := ((s.team t.team).creg c).set.getLsbD t.gid

def Thread.dropAwait (x : Thread) (c : BitVec 4) : Thread := { x with await := x.await &&& ~~~(1#16 <<< c.toNat) }

/-- Every thread of a team MMA traps and none has effect (R249 step 3). -/
def State.mmaMismatch (s : State) (g : TeamMma) : State :=
  let s := { s with mmas := s.mmas.filter fun (x : TeamMma) => x.id ≠ g.id }
  g.members.foldl (fun s m =>
    (s.setThread m.1 fun x => x.dropAwait g.cr).raise m.1 trapConvergenceMismatch (BitVec.ofNat 8 g.cr.toNat)) s

/-- The issue of an MMA in a released thread (R243, R249, R251). -/
def State.issueMma (s : State) (t : TRef) (f : MatF) (g : TeamMma) : State :=
  if !g.started && s.matHeld (s.worldOf t) f then s
  else
    match s.matPair (s.worldOf t) f with
    | none => s.raise t trapFormatSlot
    | some p =>
      if !mmaOverlapOk f (8 * p.ea) (4 * p.eb) then s.raise t trapIllegalEncoding
      else if (s.groupOf t).budget < mmaTop f p.ea p.eb then s.raise t trapSliceRange
      else if !g.started && !(g.members.all fun m => mmaAgrees f m.2) then s.mmaMismatch g
      else
        let (o, s) := s.start t (.mma f) f.toCommon (s.fragment t f.a (32 * p.ea)) (s.fragment t f.b (16 * p.eb))
          (s.fragment t f.c 512) (s.thread t).fmode.toNat
        let s := (s.setOp o.id fun y => { y with lead := g.id, phase := .queued }).setThread t fun x => x.dropAwait f.cr
        s.setMma g.id fun x => { x with started := true }

/-- MMA (R249): JOIN on its register; once the phase is complete, the issue. -/
def execMma (f : MatF) (s : State) : Out :=
  .next (s.forIssue (.mma f) f.toCommon fun t s =>
    if (s.thread t).trap.isSome then s
    else
      let s' :=
        match s.mmaOf t with
        | some _ => s
        | none =>
          if !s.inSet t f.cr && !(s.thread t).joins then s.raise t trapConvergenceMismatch (BitVec.ofNat 8 f.cr.toNat)
          else if !(s.thread t).await.getLsbD f.cr.toNat &&
              ((s.team t.team).creg f.cr).signed.getLsbD (signIndex t) then s.beginJoin t
          else if (s.thread t).await.getLsbD f.cr.toNat then s.enterMma t f
          else
            -- it signs, and stands in the team MMA before its own signature may release it
            let s := s.setThread t fun x => { x with
              sphase := if ((s.team t.team).creg f.cr).phase then x.sphase ||| (1#16 <<< f.cr.toNat)
                else x.sphase &&& ~~~(1#16 <<< f.cr.toNat) }
            (s.enterMma t f).matJoin t f.cr
      match s'.mmaOf t with
      | some g => if g.released then s'.issueMma t f g else s'
      | none => s')

/-- Every thread of the team MMA has issued (R249 step 5). -/
def State.mmaDue (s : State) (g : TeamMma) : Bool :=
  g.released && g.started && g.members.all fun m => (s.mmaOps g).any fun o => o.who = m.1

/-- The D fragment and the flags of one thread (R249). -/
def mmaRow (p : MatPair) (brows : List (Option Nat)) (o : Op) : Nat × Nat :=
  (List.range 16).foldl (fun r j =>
    let ts := (List.range 32).map fun k =>
      (⟨bits o.a (k * p.ea) p.ea, (brows.getD k none).map fun b => bits b (j * p.eb) p.eb, []⟩ : Term)
    let (v, fl) := p.accumulate o.x (bits o.c (32 * j) 32) ts
    (r.1 + v * 2 ^ (32 * j), r.2 ||| fl)) (0, 0)

/-- MMA_TEAM_COMPLETE: the product of a team MMA, in all of its threads at once (R247, R249). -/
def execMmaTeamComplete (n : Nat) (s : State) : Out :=
  .next (match s.mmas.find? (·.id = n) with
    | none => s
    | some g =>
      if !s.mmaDue g then s
      else
        let os := s.mmaOps g
        let src := os.foldl (fun m o => min m o.who.gid) 32
        let brows := (List.range 32).map fun l =>
          (os.find? fun o => o.who.gid = src && o.who.lane = l).map (·.b)
        let done := { s with mmas := s.mmas.filter fun (x : TeamMma) => x.id ≠ n }
        os.foldl (fun s o =>
          match o.instr with
          | .mma f =>
            match s.matPair (s.worldOf o.who) f with
            | none => s.complete o
            | some p =>
              let (d, fl) := mmaRow p brows o
              ((s.setThread o.who fun x => x.withFlags fl).writeLate o f.d.start.toNat 512 d).complete o
          | _ => s) done)

/-! ### Tile products (R252 to R254) -/

/-- A scale tile fits its data tile (R253). -/
def scaleFits (data scale : Tile) : Bool :=
  scale.ew = 8 && 2 ≤ scale.rows && max data.rows data.cols ≤ scale.cols

/-- The scale tile that one side of a selector names: 0 none; the reason of a TILE_HANDLE. -/
def State.scaleTile (s : State) (team sel enBit lo : Nat) (data : Tile) : Except (BitVec 8) (Option Tile) :=
  let h := bits sel lo 8
  if !bit sel enBit then (if h = 0 then .ok none else .error 9)
  else
    match s.tileOf team (BitVec.ofNat 8 h) with
    | .error e => .error e
    | .ok x => if scaleFits data x then .ok (some x) else .error 9

/-- Resolves the tiles of TMMA and TMMAC under R202, R252 and R253; `shape` is what the form asks of the shapes. -/
def State.product (s : State) (team : Nat) (f : MatF) (p : MatPair) (sel : Nat)
    (shape : Tile → Tile → Tile → Bool) : Except (BitVec 8) Product := do
  let a ← s.tileOf team f.ha
  let b ← s.tileOf team f.hb
  let c ← s.tileOf team f.hc
  if bits sel 18 14 ≠ 0 then throw 9
  let sa ← s.scaleTile team sel 16 0 a
  let sb ← s.scaleTile team sel 17 8 b
  let used := [a.id, b.id] ++ (sa.map (·.id)).toList ++ (sb.map (·.id)).toList
  if a.ew ≠ p.ea ∨ b.ew ≠ p.eb ∨ c.ew ≠ 32 ∨ !shape a b c ∨ used.contains c.id then throw 9
  return ⟨a, b, c, sa, sb, [], 0⟩

/-- Status word of a tile product (R254). -/
def productStatus (st rows cols : Nat) : Nat := statusWord st 0 (ceilDiv (4 * rows * cols) 64)

/-- The first status of an earlier product that an MFIN reports (R259): CANCELLED, FAULTED, POISONED, OK. -/
def worseStatus (a b : Nat) : Nat :=
  if a = stCancelled ∨ b = stCancelled then stCancelled
  else if a = stFaulted ∨ b = stFaulted then stFaulted
  else if a = stPoisoned ∨ b = stPoisoned then stPoisoned
  else stOk

/-- Tells the MFINs that wait for an operation how it completed; one that waits for no other completes (R259). -/
def State.tellMfin (s : State) (o : Op) (st : Nat) : State :=
  let waits := fun (y : Op) => (match y.instr with | .mfin _ => true | _ => false) && y.data.contains o.id
  let last := fun (y : Op) => waits y && y.data.all (· = o.id)
  let ended := s.ops.filter last
  let told := s.ops.map fun (y : Op) =>
      if waits y then { y with data := y.data.filter (· ≠ o.id), x := worseStatus y.x st } else y
  ended.foldl (fun s y => s.completeWith y (worseStatus y.x st)) { s with ops := told }

/-- TMMA: its checks and its place behind earlier operations (R243, R252, R254). -/
def execTmma (f : MatF) (s : State) : Out :=
  .next (s.forIssue (.tmma f) f.toCommon fun t s =>
    if s.matHeld (s.worldOf t) f then s
    else
      match s.matPair (s.worldOf t) f with
      | none => s.raise t trapFormatSlot
      | some p =>
        let sel := s.opnd32 t f.a
        if p.kind ≠ .real && sel ≠ 0 then s.raise t trapFormatSlot
        else
          match s.product t.team f p sel fun a b c => a.cols = b.rows && a.rows = c.rows && b.cols = c.cols with
          | .error e => s.tileTrap t e
          | .ok x =>
            let (o, s) := s.start t (.tmma f) f.toCommon sel 0 0 (s.thread t).fmode.toNat
            s.setOp o.id fun y => { y with phase := .queued, tiles := x.ids })

/-- TMMA_COMPLETE (R244 to R247, R254). -/
def execTmmaComplete (n : Nat) (s : State) : Out :=
  .next (match s.op? n with
    | none => s
    | some o =>
      match o.instr with
      | .tmma f =>
        if !o.isProduct || s.productBehind o || !s.resident o.who.team then s
        else
          match s.productNow o, s.matPair (s.worldOf o.who) f with
          | some x, some p =>
            let (c, fl, left) := x.multiply p o.x x.terms x.poisonedAt
            let st := if left then stPoisoned else stOk
            let s := (s.setTile c.id fun _ => c).setThread o.who fun y => y.withFlags fl
            (s.tellMfin o st).completeWith o (productStatus st c.rows c.cols)
          | _, _ => s.complete o
      | _ => s)

/-! ### TMMAC (R255 to R258) -/

/-- The shapes of a member's tiles (R255). -/
def tmmacShape (a b c : Tile) : Bool :=
  a.rows = 128 && b.cols = 128 && c.rows = 128 && c.cols = 128 && a.cols = b.rows && a.cols % 32 = 0 &&
    32 ≤ a.cols && a.cols ≤ 1024

/-- The digest of a rendezvous (R256): type, sheet hashes, shapes, scale enables and Kb. -/
def State.tmmacDigest (s : State) (w : Nat) (f : MatF) (sel : Nat) (x : Product) : List Nat :=
  let hash := fun (n : BitVec 3) => if f.ty = .slot then (s.slot w n).digest.toNat else 0
  [f.ty.bits, if f.ty = .b16 then 1 else 0, if f.ty = .slot then 1 else 0, hash f.fa, hash f.fb,
    x.a.rows, x.a.cols, x.b.rows, x.b.cols, x.c.rows, x.c.cols, bits sel 16 2, x.a.cols]

/-- Places a group's TMMAC into the rendezvous of its grid, or ends it with FAULTED where there is none (R256). -/
def State.launchTmmac (f : MatF) (x : Product) (s : State) (o : Op) : State :=
  let w := s.worldOf o.who
  let s := s.setOp o.id fun y => { y with phase := .queued, tiles := x.ids }
  if (s.team o.who.team).cgrid ≠ 64 then
    (s.tellMfin o stFaulted).completeGroup o (statusWord stFaulted 0 1024)
  else
    { s with ids := s.ids + 1, tmmacs := s.tmmacs ++
      [(⟨s.ids, o.id, o.who.team, BitVec.ofNat 64 o.x, s.tmmacDigest w f o.a x, none⟩ : Tmmac)] }

/-- The checks of a TMMAC whose group has joined, and its entry into the rendezvous (R243, R255, R256). -/
def State.issueTmmac (s : State) (f : MatF) (l : TRef) : State :=
  let i : Instr := .tmmac f
  let sel := s.opnd32 l f.a
  let all := fun (code info : BitVec 8) => s.forIssue i f.toCommon fun t s => s.raise t code info
  match s.matPair (s.worldOf l) f with
  | none => all trapFormatSlot 0
  | some p =>
    if p.kind ≠ .real && sel ≠ 0 then all trapFormatSlot 0
    else
      match s.product l.team f p sel tmmacShape with
      | .error e => all trapTileHandle e
      | .ok x =>
        let s := s.issue.threads.foldl (fun s t => s.setThread t fun y => y.dropAwait f.cr) s
        s.groupIssue i f.toCommon (fun s t => (s.opnd32 t f.a, (s.thread t).fmode.toNat, 0)) (State.launchTmmac f x) false

/-- TMMAC (R256): every live thread of the group JOINs its register; when the phase is complete, it is issued once for the
group. With no active lane it has no effect (R120). -/
def execTmmac (f : MatF) (s : State) : Out :=
  .next (match s.activeLanes (.tmmac f) f.toCommon with
    | [] => s.forIssue (.tmmac f) f.toCommon fun _ s => s
    | l :: _ =>
      let ts := s.issue.threads
      if !s.inSet l f.cr && !(s.thread l).joins then
        ts.foldl (fun s t => s.raise t trapConvergenceMismatch (BitVec.ofNat 8 f.cr.toNat)) s
      else
        let s := ts.foldl (fun s t => s.matJoin t f.cr) s
        let waits := fun (t : TRef) => !(s.thread t).await.getLsbD f.cr.toNat || s.phaseOpen t f.cr
        if ts.any waits then (ts.filter waits).foldl State.beginJoin s
        else if s.matHeld (s.worldOf l) f then s
        else s.issueTmmac f l)

/-- The waiting TMMAC of a team that is first in its queue. -/
def State.tmmacOf (s : State) (team : Nat) : Option Tmmac := s.tmmacs.find? fun x => x.team = team && x.met.isNone

/-- The ranks of the cluster grid of a waiting member. -/
def State.tmmacGrid (s : State) (x : Tmmac) : List (Option Team) :=
  (List.range 64).map fun r => s.rankTeam (s.team x.team) r

/-- Ends waiting members with a status (R256). -/
def State.endTmmacs (s : State) (st : Nat) (l : List Tmmac) : State :=
  l.foldl (fun s x =>
    let s := { s with tmmacs := s.tmmacs.filter fun (y : Tmmac) => y.id ≠ x.id }
    match s.op? x.op with
    | some o => (s.tellMfin o st).completeGroup o (statusWord st 0 1024)
    | none => s) s

/-- A member's team has ended without a TMMAC that waits (R256). -/
def State.tmmacGone (s : State) (m : Option Team) : Bool :=
  m.any fun m => (s.liveOfTeam m.id).isEmpty && m.started ≠ 0 && (s.tmmacOf m.id).isNone

/-- A member of a rendezvous has arrived, and what its core had written before is performed at cluster scope (R256, R258). -/
def State.tmmacHere (s : State) (m : Team) : Bool :=
  s.resident m.id && (s.tmmacOf m.id).any fun y => (s.op? y.op).all fun o => !s.earlierBuffered o

/-- Whether the rendezvous of a waiting member can be decided: all 64 members wait, or one has ended. -/
def State.tmmacMeets (s : State) (x : Tmmac) : Bool :=
  let grid := s.tmmacGrid x
  x.met.isNone && s.tmmacOf x.team = some x && (grid.any s.tmmacGone || grid.all fun m => m.any s.tmmacHere)

/-- TMMAC_RENDEZVOUS: the members meet, or complete with CANCELLED or FAULTED (R256). -/
def execTmmacRendezvous (n : Nat) (s : State) : Out :=
  .next (match s.tmmacs.find? (·.id = n) with
    | none => s
    | some x =>
      if !s.tmmacMeets x then s
      else
        let grid := s.tmmacGrid x
        let ms := grid.filterMap fun m => m.bind fun m => s.tmmacOf m.id
        if grid.any s.tmmacGone then s.endTmmacs stCancelled ms
        else if ms.any fun y => y.digest ≠ x.digest then s.endTmmacs stFaulted ms
        else
          { s with ids := s.ids + 1, tmmacs := s.tmmacs.map fun (y : Tmmac) =>
              if ms.any fun z => z.id = y.id then { y with met := some s.ids } else y })

/-- The product of member n of a rendezvous (R257): terms and poison of output (i, j). -/
def memberTerms (ps : List Product) (n i j : Nat) : List Term :=
  (List.range 8).flatMap fun l =>
    match ps[8 * (n / 8) + l]?, ps[8 * l + n % 8]? with
    | some pa, some pb =>
      (List.range pa.a.cols).map fun k => termOf pa pb i j k (1024 * l + k)
    | _, _ => []

def memberPoison (ps : List Product) (n i j : Nat) : Bool :=
  (List.range 8).any fun l =>
    match ps[8 * (n / 8) + l]?, ps[8 * l + n % 8]? with
    | some pa, some pb => ({ pa with b := pb.b, sb := pb.sb } : Product).poisonedAt i j
    | _, _ => false

/-- The members of a rendezvous that has met, by rank. -/
def State.metMembers (s : State) (g : Nat) : List Tmmac :=
  let ms := s.tmmacs.filter (·.met = some g)
  (List.range 64).filterMap fun r => ms.find? fun x => (s.team x.team).index % 64 = r

/-- A rendezvous that has met may complete: no earlier product has one of its accumulator tiles (R254). -/
def State.tmmacDue (s : State) (g : Nat) : Bool :=
  let ms := s.metMembers g
  ms.length = 64 && ms.all fun x => (s.op? x.op).any fun o => !s.productBehind o

/-- TMMAC_COMPLETE: every member's block at once (R257, R258). -/
def execTmmacComplete (g : Nat) (s : State) : Out :=
  .next (if !s.tmmacDue g then s
    else
      let os := (s.metMembers g).filterMap fun x => s.op? x.op
      let ps := os.filterMap s.productNow
      let results := os.zipIdx.map fun (o, n) =>
        match o.instr, ps[n]? with
        | .tmmac f, some x =>
          match s.matPair (s.worldOf o.who) f with
          | some p => some (x.multiply p o.b (memberTerms ps n) (memberPoison ps n))
          | none => none
        | _, _ => none
      let st := if results.any fun r => r.any fun r => r.2.2 then stPoisoned else stOk
      let s := { s with tmmacs := s.tmmacs.filter fun (x : Tmmac) => x.met ≠ some g }
      (os.zip results).foldl (fun s (o, r) =>
        match r with
        | some (c, fl, _) =>
          let s := s.setTile c.id fun _ => c
          let s := (s.ops.filter fun p => p.lead = o.id).foldl (fun s p =>
            if bit o.x p.who.lane then s.setThread p.who fun y => y.withFlags fl else s) s
          (s.tellMfin o st).completeGroup o (statusWord st 0 1024)
        | none => s.complete o) s)

/-! ### MFIN (R259) -/

/-- MFIN: it waits for the operations that have reached the engine, and completes at once where there are none. -/
def execMfin (f : MatF) (s : State) : Out :=
  .next (s.forIssue (.mfin f) f.toCommon fun t s =>
    match s.tileOf t.team f.hc with
    | .error e => s.tileTrap t e
    | .ok c =>
      let q := (s.ops.filter fun o => o.isProduct && o.who.team = t.team && o.tiles.getD 2 0 = c.id).map (·.id)
      let (o, s) := s.start t (.mfin f) f.toCommon 0 0 0 stOk
      if q.isEmpty then s.completeWith o stOk
      else s.setOp o.id fun y => { y with phase := .result, tiles := [c.id], data := q })

end Sys2Proof.Machine
end

