-- ==== Sys2Proof/Machine/Format.lean ====
section
/-! DEFINITION. The format engine: group 0x8, slot swaps and the quantiser (R263 to R293). -/

namespace Sys2Proof.Machine

/-! ### Uses and queues (R264, R275, R276) -/

/-- The slots that an instruction is a use of (R264). -/
def slotsUsed : Instr → List (BitVec 3)
  | .mov f | .sel f | .fadd f | .fsub f | .fmul f | .fma f | .fmin f | .fmax f | .fcmp f => if f.ty = .slot then [f.slot] else []
  | .fcvti f | .fcvto f | .fqnt f | .fdqnt f => [f.f]
  | .mma f | .tmma f | .tmmac f => if f.ty = .slot then [f.fa, f.fb] else []
  | _ => []

/-- A use of a slot is incomplete: an operation, or a team MMA whose first thread has issued (R251, R276). -/
def State.slotInUse (s : State) (w : Nat) (f : BitVec 3) : Bool :=
  (s.ops.any fun o => s.worldOf o.who = w && (slotsUsed o.instr).contains f) ||
    s.mmas.any fun g => g.started && (s.team g.team).world = w && g.members.any fun m => (slotsUsed m.2).contains f

/-- The queue of a slot. -/
def State.slotJobs (s : State) (w : Nat) (f : BitVec 3) : List SlotJob :=
  s.slotQ.filter fun j => j.world = w && j.f = f

def State.setJob (s : State) (n : Nat) (g : SlotJob → SlotJob) : State :=
  { s with slotQ := s.slotQ.map fun (j : SlotJob) => if j.id = n then g j else j }

/-- The status word of FLOAD and FMODE (R287). -/
def slotStatus (st : Nat) (f : BitVec 3) (gen : BitVec 32) : Nat :=
  st + f.toNat * 2 ^ 8 + gen.toNat % 2 ^ 16 * 2 ^ 16

/-- Ends the head of a slot's queue with a status and a reason, 0 for none (R275, R287). -/
def State.endJob (s : State) (j : SlotJob) (st why : Nat) : State :=
  let s := { s with slotQ := s.slotQ.filter fun (x : SlotJob) => x.id ≠ j.id }
  let s := if why = 0 then s else s.setSlot j.world j.f fun x => { x with reason := BitVec.ofNat 8 why }
  match s.op? j.op with
  | some o => s.completeWith o (slotStatus st j.f (s.slot j.world j.f).gen)
  | none => s

/-- The status of a refusal by its reason (R287). -/
def reasonStatus (why : Nat) : Nat :=
  if why = 2 ∨ why = 3 then stBadsig else if why = 8 then stPoisoned else stFaulted

/-- An option word is valid for a sheet (R290). -/
def optionsOk (h : Sheet) (x : Nat) : Bool := bits x 3 29 = 0 && bit h.rms (bits x 0 2) && bit h.ovf (bits x 2 1)

/-- A swap becomes pending: an open TMMAC rendezvous with a member that names the slot is closed (R276). -/
def State.startDrain (s : State) (j : SlotJob) : State :=
  let names := fun (x : Tmmac) => x.met.isNone && (s.team x.team).world = j.world &&
    (s.op? x.op).any fun o => (slotsUsed o.instr).contains j.f
  let same := fun (x y : Tmmac) =>
    (s.team x.team).launch = (s.team y.team).launch && (s.team x.team).index / 64 = (s.team y.team).index / 64
  let closed := s.tmmacs.filter fun x => x.met.isNone && s.tmmacs.any fun y => names y && same x y
  let s := s.endTmmacs stCancelled closed
  (s.setSlot j.world j.f fun x => { x with state := .draining }).setJob j.id fun y => { y with stage := 2 }

/-- Acts on the head of a slot's queue while it can be ended or its drain begun (R275). -/
def State.advanceSlot (s : State) (w : Nat) (f : BitVec 3) : Nat → State
  | 0 => s
  | n + 1 =>
    match s.slotJobs w f with
    | [] => s
    | j :: _ =>
      let x := s.slot w f
      if x.pending || !s.worldHere w then s
      else
        match j.kind, j.stage with
        | 0, 4 => (s.endJob j (reasonStatus j.why) j.why).advanceSlot w f n
        | 0, 1 =>
          let h := Sheet.ofNat (ofBytes j.sheet)
          if x.state = .stable ∧ x.digest = j.digest ∧ x.drm.toNat = h.drm ∧ x.ob = (h.dovf = 1) then
            (s.endJob j stOk 0).advanceSlot w f n
          else s.startDrain j
        | 0, _ => s
        | 1, _ => if x.state = .empty then (s.endJob j stOk 0).advanceSlot w f n else s.startDrain j
        | _, _ =>
          if x.state = .empty || !optionsOk x.form j.word then (s.endJob j stFaulted 5).advanceSlot w f n
          else s.startDrain j

def State.advance! (s : State) (w : Nat) (f : BitVec 3) : State := s.advanceSlot w f (s.slotQ.length + 1)

/-- Queues an operation on a slot (R275, R286). -/
def State.queueSlot (s : State) (o : Op) (f : BitVec 3) (kind : Nat) : State :=
  let w := s.worldOf o.who
  let j : SlotJob := ⟨s.ids, w, f, o.id, s.coreOf o.who, kind, BitVec.ofNat 64 o.a, o.domain, o.a, 0, 0, [], 0, none⟩
  let s := s.setOp o.id fun y => { y with phase := .queued }
  ({ s with ids := s.ids + 1, slotQ := s.slotQ ++ [j] } : State).advance! w f

/-! ### FLOAD, FMODE, FSTAT and FSYNC -/

/-- FLOAD (R281, R286). -/
def execFload (f : FmtF) (s : State) : Out :=
  .next (s.forIssue (.fload f) f.toCommon fun t s =>
    let a := BitVec.ofNat 64 (s.opnd64 t f.a)
    if a.toNat % 128 ≠ 0 then s.raise t trapMisaligned 0 a
    else if !canonical a then s.raise t trapAccessViolation 0 a
    else
      let (o, s) := s.start t (.fload f) f.toCommon a.toNat 0 0 0
      s.queueSlot o f.f 0)

/-- FLOAD.clr (R286). -/
def execFloadClr (f : FmtF) (s : State) : Out :=
  .next (s.forIssue (.floadClr f) f.toCommon fun t s =>
    let (o, s) := s.start t (.floadClr f) f.toCommon 0 0 0 0
    s.queueSlot o f.f 1)

/-- FMODE (R290). -/
def execFmode (f : FmtF) (s : State) : Out :=
  .next (s.forIssue (.fmode f) f.toCommon fun t s =>
    let (o, s) := s.start t (.fmode f) f.toCommon (s.opnd32 t f.a) 0 0 0
    s.queueSlot o f.f 2)

def SlotState.code : SlotState → Nat
  | .empty => 0 | .stable => 1 | .draining => 2 | .reconfiguring => 3

/-- The word of FSTAT (R288). -/
def Slot.stat (x : Slot) : Nat :=
  let h := x.form
  let empty := x.sheet.isEmpty
  x.gen.toNat * 2 ^ 32 + x.reason.toNat * 2 ^ 24 + bitAt x.ob 18 + x.drm.toNat * 2 ^ 16 + x.state.code * 2 ^ 14 +
    (if empty then 15 else fieldAt h.ew 8 6 + fieldAt h.rate 4 4 + fieldAt h.cls 0 4)

/-- FSTAT (R288, R291). -/
def execFstat (f : FmtF) (s : State) : Out :=
  .next (s.forIssue (.fstat f) f.toCommon fun t s =>
    let (o, s) := s.start t (.fstat f) f.toCommon 0 0 0 0
    s.settleOp o (s.slot (s.worldOf t) f.f).stat)

/-- FSTAT.hash (R288). -/
def execFstatHash (f : FmtF) (s : State) : Out :=
  .next (s.forIssue (.fstatHash f) f.toCommon fun t s =>
    let (o, s) := s.start t (.fstatHash f) f.toCommon 0 0 0 0
    s.settleOp o ((s.slot (s.worldOf t) f.f).digest.toNat % 2 ^ 64))

/-- FSYNC: it names the operations in the slot's queue (R289). -/
def execFsync (f : FmtF) (s : State) : Out :=
  .next (s.forIssue (.fsync f) f.toCommon fun t s =>
    let (o, s) := s.start t (.fsync f) f.toCommon 0 0 0 0
    let q := (s.slotJobs (s.worldOf t) f.f).map (·.id)
    s.setOp o.id fun y => { y with data := q })

/-! ### Conversions (R281, R283, R284) -/

/-- A conversion is computed at its issue and written at its completion. -/
def State.convert (s : State) (t : TRef) (i : Instr) (c : Common) (v fl : Nat) : State :=
  let (o, s) := s.start t i c 0 0 0 0
  s.setOp o.id fun y => { y with phase := .result, data := [v, fl] }

/-- The value and flags of FCVTI (R283). -/
def fcvtiValue (h : Sheet) (x : Thread) (ty : Ty) (rm : Rm) (a : Nat) : Nat × Nat :=
  let (v, fl) := h.input (x.ifl .slot) a
  let (r, f1) := if ty.isFloat then
      (match v with
       | .nan _ => ((fmtOf ty).nan, 0)
       | v => (fmtOf ty).encode rm (x.rfl ty) v)
    else toInteger rm ty.bits ty.isSigned v
  (r, fl ||| f1)

/-- FCVTI (R281, R283). -/
def execFcvti (f : FmtF) (s : State) : Out :=
  .next (s.forIssue (.fcvti f) f.toCommon fun t s =>
    s.slotUse t f.f [f.a] none (fun _ => true) fun x s =>
      let th := s.thread t
      let (v, fl) := fcvtiValue x.form th f.ty (th.effRm f.rm) (s.slotOpnd t x f.a)
      s.convert t (.fcvti f) f.toCommon v fl)

/-- The value and flags of FCVTO (R284). -/
def fcvtoValue (x : Slot) (th : Thread) (ty : Ty) (rm : Rm) (a : Nat) : Nat × Nat :=
  let (v, fl) := if ty.isFloat then (fmtOf ty).input (th.ifl ty) a
    else (FVal.ofInt (if ty.isSigned then sextN a ty.bits else a), 0)
  let (r, f1) := x.form.encode (x.effRm rm) x.ob (th.rfl .slot) v
  (r, fl ||| f1)

/-- FCVTO (R281, R284). -/
def execFcvto (f : FmtF) (s : State) : Out :=
  .next (s.forIssue (.fcvto f) f.toCommon fun t s =>
    s.slotUse t f.f [] (some f.d) (fun x => x.form.offers (x.effRm f.rm)) fun x s =>
      let (v, fl) := fcvtoValue x (s.thread t) f.ty f.rm (s.operand t f.a f.ty)
      s.convert t (.fcvto f) f.toCommon v fl)

/-! ### The quantiser (R279, R280, R285) -/

/-- The tiles of FQNT and FDQNT: source, destination and scale tile. -/
def State.quantTiles (s : State) (team : Nat) (f : FmtF) (ew : Nat) (quant : Bool) (a : Nat) :
    Except (BitVec 8) (Tile × Tile × Option Tile) := do
  let src ← s.tileOf team f.ha
  let dst ← s.tileOf team f.hb
  let sc ← if f.subop = 2 then (if a = 0 then .ok none else .error 9)
    else if 256 ≤ a then .error 1
    else (s.tileOf team (BitVec.ofNat 8 a)).map some
  let (slotTile, fixed) := if quant then (dst, src) else (src, dst)
  if src.rows ≠ dst.rows ∨ src.cols ≠ dst.cols ∨ slotTile.ew ≠ ew ∨ fixed.ew ≠ f.ty.bits ∨ src.id = dst.id ∨
      sc.any (fun t => t.id = src.id || t.id = dst.id || !scaleFits src t) then throw 9
  if quant && 262144 < src.footprint then throw 10
  return (src, dst, sc)

/-- The issue of FQNT and FDQNT (R281, R285). -/
def State.launchQuant (s : State) (t : TRef) (i : Instr) (f : FmtF) (quant : Bool) (offered : Slot → Bool) : State :=
  let x := s.slot (s.worldOf t) f.f
  if x.none? || !offered x then s.raise t trapFormatSlot
  else
    let a := s.opnd32 t f.a
    match s.quantTiles t.team f x.form.ew quant a with
    | .error e => s.tileTrap t e
    | .ok (src, dst, sc) =>
      let (o, s) := s.start t i f.toCommon a 0 0 (s.thread t).fmode.toNat
      s.setOp o.id fun y =>
        { y with phase := .queued, tiles := [src.id, dst.id] ++ (sc.map (·.id)).toList }

/-- FQNT (R279). -/
def execFqnt (f : FmtF) (s : State) : Out :=
  .next (s.forIssue (.fqnt f) f.toCommon fun t s =>
    s.launchQuant t (.fqnt f) f true fun x => x.form.offers (x.effRm f.rm))

/-- FDQNT (R280). -/
def execFdqnt (f : FmtF) (s : State) : Out :=
  .next (s.forIssue (.fdqnt f) f.toCommon fun t s => s.launchQuant t (.fdqnt f) f false fun _ => true)

/-- A finite value times a power of two. -/
def FVal.scaleBy (v : FVal) (e : Int) : FVal :=
  match v with
  | .fin n m k => .fin n m (k + e)
  | v => v

def clampInt (lo hi x : Int) : Int := max lo (min hi x)

/-- The largest exponent of some values; none where every one is zero, infinite or a NaN. -/
def maxExponent (vs : List FVal) : Option Int :=
  match vs.filterMap FVal.exponent with
  | [] => none
  | x :: xs => some (xs.foldl max x)

/-- Row code of a row of values (R279, pass 1). -/
def rowCode (emax : Int) (vs : List FVal) : Nat :=
  let er : Int := match maxExponent vs with
    | some e => e - emax
    | none => 0
  (clampInt 0 254 (er + 127)).toNat

/-- Column code of row-scaled values (R279, pass 2). -/
def colCode (emax : Int) (vs : List FVal) : Nat :=
  let ec : Int := match maxExponent vs with
    | some e => min (e - emax) 0
    | none => 0
  (max 0 (ec + 127)).toNat

/-- Some bits of a tile's row lie in a poisoned line. -/
def Tile.bad (t : Tile) (row col n : Nat) : Bool :=
  !t.poison.isEmpty && (t.linesAt row (col * t.ew) (n * t.ew)).any t.poison.contains

/-- Writes elements (row, column, value) into a tile, and clears the poison of lines that they cover (R469). -/
def Tile.putElems (t : Tile) (es : List (Nat × Nat × Nat)) : Tile :=
  let t' := es.foldl (fun t e => t.setElem e.1 e.2.1 e.2.2) t
  if t.poison.isEmpty then t' else t'.cleanse (t.cleansed (es.map fun e => (e.1, e.2.1 * t.ew, t.ew)))

/-- Status of a quantiser operation (R287). -/
def quantStatus (poisoned : Bool) (f : BitVec 3) (dst : Tile) : Nat :=
  statusWord (if poisoned then stPoisoned else stOk) f.toNat (ceilDiv dst.footprint 64)

/-- The three passes of FQNT (R279): destination, scale tile, flags, and whether an element was left unwritten. -/
def quantise (x : Slot) (f : FmtF) (fmode : Nat) (src dst : Tile) (sc : Option Tile) :
    Tile × Option Tile × Nat × Bool :=
  let h := x.form
  let val := fun (p : Nat × Nat) => (fmtOf f.ty).input (bit fmode (flushBit f.ty)) (src.elem p.1 p.2)
  let cells := src.cells
  let rowScaled := f.subop ≠ 2
  let colScaled := f.subop = 0
  let rowsBad := (List.range src.rows).map fun i => src.bad i 0 src.cols
  let allBad := rowsBad.any id
  let row := fun i => (List.range src.cols).map fun j => (val (i, j)).1
  let rcodes := (List.range src.rows).map fun i => if rowScaled then rowCode h.emax (row i) else 127
  let y := fun (p : Nat × Nat) => (val p).1.scaleBy (127 - (rcodes.getD p.1 127 : Int))
  let ccodes := (List.range src.cols).map fun j =>
    if colScaled then colCode h.emax ((List.range src.rows).map fun i => y (i, j)) else 127
  let cellBad := fun (p : Nat × Nat) =>
    if colScaled then allBad else if rowScaled then rowsBad.getD p.1 false else src.bad p.1 p.2 1
  let out := (cells.filter fun p => !cellBad p).map fun p =>
    let (v, fl) := h.encode (x.effRm f.rm) x.ob (bit fmode (flushBit .slot + 1))
      ((y p).scaleBy (127 - (ccodes.getD p.2 127 : Int)))
    ((p.1, p.2, v), fl ||| (val p).2)
  let scales := ((List.range src.rows).filter fun i => !rowsBad.getD i false).map (fun i => (0, i, rcodes.getD i 127)) ++
    ((List.range src.cols).filter fun _ => !(colScaled && allBad)).map fun j => (1, j, ccodes.getD j 127)
  (dst.putElems (out.map (·.1)), sc.map fun t => t.putElems scales, out.foldl (fun n e => n ||| e.2) 0, allBad)

/-- FDQNT (R280): destination, flags, and whether an element was left unwritten. -/
def dequantise (x : Slot) (f : FmtF) (fmode : Nat) (src dst : Tile) (sc : Option Tile) : Tile × Nat × Bool :=
  let h := x.form
  let scale := fun (row i : Nat) => match sc with
    | some t => t.elem row i
    | none => 127
  let cellBad := fun (p : Nat × Nat) => src.bad p.1 p.2 1 ||
    sc.any fun t => t.bad 0 p.1 1 || (f.subop = 0 && t.bad 1 p.2 1)
  let cells := src.cells
  let out := (cells.filter fun p => !cellBad p).map fun p =>
    let r := scale 0 p.1
    let c := if f.subop = 0 then scale 1 p.2 else 127
    let v := h.decode (src.elem p.1 p.2)
    let (b, fl) := if r = 255 || c = 255 then ((fmtOf f.ty).nan, 0)
      else match v with
        | .nan _ => ((fmtOf f.ty).nan, 0)
        | v => (fmtOf f.ty).encode f.rm (bit fmode (flushBit f.ty + 1)) (v.scaleBy ((r : Int) - 127 + ((c : Int) - 127)))
    ((p.1, p.2, b), fl)
  (dst.putElems (out.map (·.1)), out.foldl (fun n e => n ||| e.2) 0, cells.any cellBad)

/-! ### Completion -/

/-- An operation of the format engine may complete (R289, R291). -/
def State.formatDue (s : State) (o : Op) : Bool :=
  match o.instr with
  | .fcvti _ | .fcvto _ | .fstat _ | .fstatHash _ => o.phase = .result
  | .fqnt _ | .fdqnt _ => o.phase = .queued
  | .fsync _ => o.phase = .pending && !(s.slotQ.any fun j => o.data.contains j.id)
  | _ => false

/-- FORMAT_OP_COMPLETE (R279, R280, R283 to R285, R288, R289, R291). -/
def execFormatOpComplete (n : Nat) (s : State) : Out :=
  .next (match s.op? n with
    | none => s
    | some o =>
      if !s.formatDue o then s
      else
        let w := s.worldOf o.who
        match o.instr with
        | .fcvti _ | .fcvto _ => s.opFlags o (o.data.getD 1 0) fun s => s.completeWith o (o.data.headD 0)
        | .fstat _ | .fstatHash _ => s.completeWith o (o.data.headD 0)
        | .fsync f => s.completeWith o (s.slot w f.f).gen.toNat
        | .fqnt f =>
          match s.tile? (o.tiles.getD 0 0), s.tile? (o.tiles.getD 1 0) with
          | some src, some dst =>
            let sc := (o.tiles[2]?).bind s.tile?
            let (d, c, fl, bad) := quantise (s.slot w f.f) f o.x (src.mixed (s.oldTiles n) s.free) dst sc
            let s := s.setTile d.id fun _ => d
            let s := match c with | some c => s.setTile c.id fun _ => c | none => s
            (s.setThread o.who fun x => x.withFlags fl).completeWith o (quantStatus bad f.f d)
          | _, _ => s.complete o
        | .fdqnt f =>
          match s.tile? (o.tiles.getD 0 0), s.tile? (o.tiles.getD 1 0) with
          | some src, some dst =>
            let sc := ((o.tiles[2]?).bind s.tile?).map fun t => t.mixed (s.oldTiles n) s.free
            let (d, fl, bad) := dequantise (s.slot w f.f) f o.x (src.mixed (s.oldTiles n) s.free) dst sc
            ((s.setTile d.id fun _ => d).setThread o.who fun x => x.withFlags fl).completeWith o (quantStatus bad f.f d)
          | _, _ => s.complete o
        | _ => s)

/-! ### Steps of a swap (R274, R275) -/

/-- The result of a verification, kept with the job. -/
def State.verified (s : State) (j : SlotJob) (why : Nat) (sheet : List Byte) (d : BitVec 512) : State :=
  (s.setJob j.id fun y => { y with stage := if why = 0 then 1 else 4, why := why, sheet := sheet, digest := d }).advance!
    j.world j.f

/-- The loader waits for no fault. -/
def State.verifyDue (_s : State) (j : SlotJob) : Bool := j.kind = 0 && j.stage = 0 && j.fault.isNone

/-- The loader's read fails: it waits for the fault's disposition, or the load is refused (R286). -/
def State.loaderFault (s : State) (j : SlotJob) (x : Xl) (a : W64) : State :=
  match s.openFault (.loader j.id) j.world j.domain x .read a 0 0 with
  | (.wait n, s) => s.setJob j.id fun y => { y with fault := some n }
  | (.deny _, s) => s.verified j 7 [] 0

/-- IMAGE_VERIFY_DONE: the loader has read the image as a snapshot and verified it (R274, R286). -/
def execImageVerifyDone (n : Nat) (s : State) : Out :=
  .next (match s.slotQ.find? (·.id = n) with
    | none => s
    | some j =>
      if !s.verifyDue j then s
      else
        let ctx : XCtx := { core := j.core, lane := none, world := j.world, domain := j.domain }
        match s.translateRun ctx .read j.addr 128 [] with
        | (.inr (x, i), s) => s.loaderFault j x (j.addr + BitVec.ofNat 64 i)
        | (.inl ls, s) =>
          let head := ls.map (s.seenByte j.core)
          let len := if imageLengthOk (imageLength head) then imageLength head else 128
          if !canonical (j.addr + BitVec.ofNat 64 (len - 1)) then s.verified j 7 [] 0
          else
            match s.translateRun ctx .read j.addr (len - 128) ls.reverse with
            | (.inr (x, i), s) => s.loaderFault j x (j.addr + BitVec.ofNat 64 i)
            | (.inl ls, s) =>
              let s := s.openLines ls j.addr
              if ls.any (s.poisonedFor j.core) then s.verified j 8 [] 0
              else
                let bs := ls.map (s.seenByte j.core)
                match s.verifyImage j.world bs with
                | (.refused _ why, s) => s.verified j why [] 0
                | (.ok d, s) => s.verified j 0 (imageSheet bs) d)

/-- The head of a slot's queue at a stage. -/
def State.headAt (s : State) (w : Nat) (f : BitVec 3) (stage : Nat) : Option SlotJob :=
  match s.slotJobs w f with
  | j :: _ => if j.stage = stage then some j else none
  | [] => none

/-- Commits a swap (R263, R275). -/
def State.commitSlot (s : State) (w : Nat) (f : BitVec 3) (g : Slot → Slot) : State :=
  s.setSlot w f fun x => { g x with gen := x.gen + 1 }

def Slot.emptied (x : Slot) : Slot := { x with state := .empty, sheet := [], digest := 0, drm := 0, ob := false }

/-- The drain of a slot has ended (R275): no use under the old generation is incomplete. -/
def State.drainDue (s : State) (w : Nat) (f : BitVec 3) : Bool :=
  (s.slot w f).state = .draining && (s.headAt w f 2).isSome && s.worldHere w && !s.slotInUse w f

/-- SLOT_DRAIN_DONE (R275). -/
def execSlotDrainDone (w f : Nat) (s : State) : Out :=
  let f := BitVec.ofNat 3 f
  .next (match s.headAt w f 2 with
    | none => s
    | some j =>
      if !s.drainDue w f then s
      else if j.kind = 0 then
        (s.setSlot w f fun x => { x with state := .reconfiguring }).setJob j.id fun y => { y with stage := 3 }
      else if j.kind = 1 then ((s.commitSlot w f Slot.emptied).endJob j stOk 0).advance! w f
      else
        ((s.commitSlot w f fun x => { x with
          state := .stable, drm := BitVec.ofNat 2 (bits j.word 0 2), ob := bit j.word 2 }).endJob j stOk 0).advance! w f)

/-- The strips of every quad are configured and checked: the swap commits (R275). -/
def State.reconfigured (s : State) (w : Nat) (f : BitVec 3) : State :=
  match s.headAt w f 3 with
  | none => s
  | some j =>
    if (s.slot w f).state ≠ .reconfiguring then s
    else if s.stripsOk j.digest then
      let h := Sheet.ofNat (ofBytes j.sheet)
      ((s.commitSlot w f fun x => { x with
        state := .stable, sheet := j.sheet, digest := j.digest, drm := BitVec.ofNat 2 h.drm, ob := h.dovf = 1
        }).endJob j stOk 0).advance! w f
    else ((s.commitSlot w f Slot.emptied).endJob j stFaulted 4).advance! w f

/-- SLOT_RECONFIG_DONE (R275). -/
def execSlotReconfigDone (w f : Nat) (s : State) : Out := .next (s.reconfigured w (BitVec.ofNat 3 f))

/-- A slot that a world switch or a restore has brought back waits to be reloaded (R278). -/
def State.reloadDue (s : State) (w : Nat) (f : BitVec 3) : Bool :=
  (s.slot w f).state = .reconfiguring && (s.headAt w f 3).isNone && s.worldHere w

/-- A world's slots are not all reloaded, so that none of its instructions issues (R29, R278). -/
def State.reloading (s : State) (w : Nat) : Bool :=
  s.slots.any fun x => x.world = w && x.state = .reconfiguring && (s.headAt w x.f 3).isNone

/-- A slot whose strips fail the check at its reload is emptied as R275 empties it, and a swap that was draining is verified
anew (R278; DEDUCED, log entry 119). -/
def State.reloadFails (s : State) (w : Nat) (f : BitVec 3) : State :=
  let s := s.commitSlot w f Slot.emptied
  match s.headAt w f 2 with
  | some j => (s.setJob j.id fun y => { y with stage := 1 }).advance! w f
  | none => s.advance! w f

/-- SLOT_RELOAD: a restored slot is reloaded from the cache with the check of R275, with generation and options unchanged; a swap
that was draining goes on (R278). -/
def execSlotReload (w f : Nat) (s : State) : Out :=
  let f := BitVec.ofNat 3 f
  .next (if !s.reloadDue w f then s
    else if !s.stripsOk (s.slot w f).digest then s.reloadFails w f
    else
      (s.setSlot w f fun x => { x with state := if (s.headAt w f 2).isSome then .draining else .stable }).advance! w f)

end Sys2Proof.Machine
end

