-- ==== Sys2Proof/Machine/Gate.lean ====
section
/-! DEFINITION. The gate engine: GATE and GRET, call slots and frames, the unwinding of a call, and the release of the
slots that a group leaves (R336 to R352). -/

namespace Sys2Proof.Machine

/-! ### Gate table entries (R337) -/

def entZs (e : Nat) : Nat := bits e 288 16
def entSbase (e : Nat) : Nat := bits e 384 64
def entSlim (e : Nat) : Nat := bits e 320 64
def entWcnt (e : Nat) : Nat := bits e 253 11
def entWstart (e : Nat) : Nat := bits e 243 10
def entDom (e : Nat) : BitVec 4 := BitVec.ofNat 4 (bits e 236 4)
def entScrub (e : Nat) : Nat := bits e 264 8

/-- Number of call slots of a stack region (R339). -/
def entSlots (e : Nat) : Nat := min 4096 ((entSbase e - 512 - entSlim e) / (4096 * entZs e))

/-- A malformed entry (R337). -/
def entMalformed (e : Nat) : Bool :=
  let pc := bits e 0 64
  let hdl := bits e 448 64
  bits e 304 16 ≠ 0 || bits e 240 3 ≠ 0 || bits e 226 6 ≠ 0 || bits e 232 4 ≠ 0 || bits e 168 56 ≠ 0 ||
    bits e 64 64 ≠ 0 || bits e 269 3 ≠ 0 ||
    pc % 16 ≠ 0 || !codeCanonical (BitVec.ofNat 64 pc) || hdl % 16 ≠ 0 ||
    entSbase e % 4096 ≠ 0 || entSlim e % 4096 ≠ 0 || entZs e < 4 || 4096 < entZs e ||
    1024 < entWstart e + entWcnt e || entSlots e < 1

/-! ### Frames (R340) -/

/-- T of R340: bytes of a thread's data stack in a slot of z bytes. -/
def frameStack (z : Nat) : Nat := 16 * ((z - 8192) / 512)

/-- The frame header of a call. -/
def gateHeader (ent e slot sdest live : Nat) (cdom : BitVec 4) (root : Nat) (chdl prev retpc : W64) : Nat :=
  retpc.toNat + prev.toNat * 2 ^ 64 + fieldAt root 128 40 + fieldAt cdom.toNat 168 4 + fieldAt e 172 8 +
    fieldAt sdest 180 13 + fieldAt slot 193 12 + fieldAt (entScrub ent) 205 8 + fieldAt (entWstart ent) 213 10 +
    fieldAt (entWcnt ent) 223 11 + bitAt (bit ent 225) 234 + fieldAt live 256 32 + chdl.toNat * 2 ^ 320 +
    fieldAt (entSbase ent) 384 64 + fieldAt (entZs ent) 448 16

def Waymark.word (w : Waymark) : Nat := w.target.toNat + w.domain.toNat * 2 ^ 48 + bitAt w.valid 52

/-- The frame record of a thread. -/
def Thread.gateRecord (x : Thread) : Nat :=
  ((List.range 8).map fun k => (x.wm.getD k Waymark.none).word * 2 ^ (64 * k)).sum +
    ((List.range 4).map fun j => (x.ret.getD j 0).toNat * 2 ^ (512 + 64 * j)).sum +
    x.sp.toNat * 2 ^ 768 + x.base.toNat * 2 ^ 832 + x.stklim.toNat * 2 ^ 896 + x.retbase.toNat * 2 ^ 960 +
    x.retlim.toNat * 2 ^ 1024 + fieldAt x.n 1088 16 + fieldAt x.fmode.toNat 1104 11 + fieldAt x.fpflags.toNat 1115 14 +
    fieldAt x.preds.toNat 1129 7 + fieldAt (min 4 x.ret.length) 1136 3 + bitAt x.handler 1139

/-- A waymark from its record: a valid one is stale (R346). -/
def Waymark.ofWord (n : Nat) : Waymark :=
  ⟨bit n 52, BitVec.ofNat 4 (bits n 48 4), BitVec.ofNat 48 n, if bit n 52 then 3 else 0⟩

/-- The thread's state from its record; `ff` as in R341. -/
def Thread.fromGate (x : Thread) (r : Nat) (ff : Bool) : Thread :=
  let fp := BitVec.ofNat 32 (bits r 1115 14)
  { x with
    wm := (List.range 8).map fun k => Waymark.ofWord (bits r (64 * k) 64)
    ret := (List.range (min 4 (bits r 1136 3))).map fun j => w64 r (512 + 64 * j)
    sp := w64 r 768, base := w64 r 832, stklim := w64 r 896, retbase := w64 r 960, retlim := w64 r 1024
    n := bits r 1088 16
    fmode := BitVec.ofNat 32 (bits r 1104 11)
    fpflags := if ff then fp else fp ||| x.fpflags
    preds := BitVec.ofNat 7 (bits r 1129 7)
    handler := bit r 1139 }

/-- The thread's state at the entry of a callee (R344); GATE and GRET are fences at team scope (R77, R86). -/
def Thread.enterGate (x : Thread) (ent : Nat) (f : W64) : Thread :=
  let z := 4096 * entZs ent
  let t := frameStack z
  let rb := f + BitVec.ofNat 64 (5248 + 64 * x.id.lane)
  let lim := f + BitVec.ofNat 64 (8192 + t * x.id.lane)
  let top := lim + BitVec.ofNat 64 t
  { x with
    preds := if bit (entScrub ent) 1 then 0 else x.preds
    ret := [], n := 0, retbase := rb, retlim := rb + 64, stklim := lim, base := top, sp := top, handler := false,
    reuse := false, marking := true }

/-- Slices outside a window cleared (R344, R346). -/
def keepWindow (sl : BitVec 4096) (start count : Nat) : BitVec 4096 :=
  sl &&& (BitVec.ofNat 4096 (2 ^ (4 * count) - 1) <<< (4 * start))

/-- k8 to k63 cleared (R341). -/
def keepPassed (k : BitVec 2048) (clear : Bool) : BitVec 2048 := if clear then k &&& BitVec.ofNat 2048 (2 ^ 256 - 1) else k

/-! ### Memory of a call -/

/-- The context of an access of a group's thread in a domain. -/
def State.gateCtx (s : State) (t : TRef) (d : BitVec 4) : XCtx :=
  { core := s.coreOf t, lane := none, world := s.worldOf t, domain := d }

/-- A fatal trap ends the launch, unless one already does (R178). -/
def State.makeFatal (s : State) (t : TRef) (r : Trap) : State :=
  s.setLaunch (s.team t.team).launch fun l => if l.fatal.isSome then l else { l with fatal := some (r, t) }

/-- A GATE or GRET waits for a fault and is executed again afterwards, or is refused (R321, R344). -/
def State.gateFault (s : State) (o : Op) (d : BitVec 4) (x : Xl) (acc : Acc) (va : W64) (deny : State → State) : State :=
  let (r, s) := s.openFault (.thread o.who) (s.worldOf o.who) d x acc va o.pc 0
  match r with
  | .wait n => s.awaitFault o n va
  | .deny _ => deny s

/-- Writes bytes at their home at once, as a release at device scope leaves them (R74, R147). -/
def State.writeHome (s : State) (t : TRef) (bs : List (Loc × Byte)) : State :=
  let lines := (bs.map (·.1.line)).eraseDups
  let whole := lines.filter fun n => (bs.filter fun x => x.1.line = n).length = 128
  ({ s with ids := s.ids + 1 } : State).performEntry ⟨s.ids, s.coreOf t, t, 0, 0, s.worldOf t, bs, false, s.ids, whole⟩

/-- Stores bytes at thread scope in units of 8 (R344). -/
def State.storeRun (s : State) (t : TRef) (seq : Nat) (bs : List (Loc × Byte)) (whole : List Nat) : State :=
  let iss := s.issue.id
  (List.range (bs.length / 8)).foldl (fun s j =>
    s.buffer t seq 0 ((bs.drop (8 * j)).take 8) false iss whole) s

/-- Lowest clear bit among the first n of a bitmap (R339). -/
def lowestClear (bm n : Nat) : Option Nat := (List.range n).find? fun i => !bit bm i

/-! ### GATE -/

def State.gateDenied (s : State) (o : Op) (info : BitVec 8) : State := s.groupTrap o trapGateDenied info 0

/-- The group is in a call whose frame has nog = 1 (R345, check 6). -/
def State.insideNog (s : State) (o : Op) : Bool :=
  let g := s.groupOf o.who
  if g.gfp = 0 then false
  else
    match (s.translate (s.gateCtx o.who g.domain) .read (g.gfp + 29)).1 with
    | .ok l => bit (s.seenByte (s.coreOf o.who) l).toNat 2
    | _ => true

/-- Checks 3 to 8 of R345: the info of the first that fails. -/
def State.gateCheck (s : State) (o : Op) (ent : Nat) : Option (BitVec 8) :=
  let g := s.groupOf o.who
  let root := ((s.world (s.worldOf o.who)).droot.getD (entDom ent).toNat 0).toNat
  if bit ent 224 && entMalformed ent then some 3
  else if !bit ent 224 then some 4
  else if !bit ent (272 + g.domain.toNat) then some 5
  else if s.insideNog o then some 6
  else if !bit root 0 || bits root 12 40 ≠ bits ent 128 40 then some 7
  else if g.budget < entWstart ent + entWcnt ent then some 8
  else none

/-- Reads the entry of an issued GATE and makes the first checks (R338, R345). A line that an engine owns is recalled first
(R22). -/
def State.launchGate (s : State) (o : Op) : State :=
  let w := s.worldOf o.who
  let gt := (s.world w).gtbase.toNat
  if !bit gt 0 || bits gt 1 8 < o.a then s.gateDenied o 1
  else
    let ipa := bits gt 12 40 * 4096 + 64 * o.a
    let wait := fun (x : Xl) => s.gateFault o (s.domainOf o.who) x .read 0 (·.gateDenied o 2)
    match s.stage2 w ipa .read with
    | .fault => wait (.s2 ipa true)
    | .pull => wait (.pull ipa)
    | .ok pa =>
      if s.anyOwned [⟨false, pa⟩] then s.setOp o.id fun y => { y with locs := [⟨false, pa⟩], phase := .recall } else
      let s := s.openLines [⟨false, pa⟩]
      if s.poisoned ⟨false, pa⟩ then s.gateDenied o 2
      else
        let ent := s.memNat ⟨false, pa⟩ 64
        match s.gateCheck o ent with
        | some info => s.gateDenied o info
        | none => s.setOp o.id fun y => { y with data := [ent], phase := .pending }

/-- Issues GATE or GRET: it falls through where no lane is active, and traps where some are not (R343); then it stalls
(R44). -/
def State.gateIssue (s : State) (i : Instr) (c : Common) (go : State → State) : State :=
  let ts := s.issue.threads
  let act := ts.filter fun t => s.guard t c.ctl
  if act.isEmpty || !ts.all (s.slicesOk · i) then s.forIssue i c fun _ s => s
  else if act.length ≠ ts.length then ts.foldl (fun s t => s.raise t trapGateMismatch 1) s
  else if !ts.all s.stalled then s
  else go s

/-- GATE (R343, R344). -/
def execGate (f : SysF) (s : State) : Out :=
  .next (s.gateIssue (.gate f) f.toCommon fun s =>
    let e := fun (t : TRef) => (f.entry.toNat + s.opnd32 t f.a) % 256
    let ts := s.issue.threads
    let n := (ts.head?.map e).getD 0
    if ts.any fun t => e t ≠ n then ts.foldl (fun s t => s.raise t trapGateMismatch 2) s
    else s.groupIssue (.gate f) f.toCommon (fun _ _ => (n, 0, 0)) State.launchGate)

/-- GRET (R343, R346). -/
def execGret (f : SysF) (s : State) : Out :=
  .next (s.gateIssue (.gret f) f.toCommon fun s =>
    match s.issue.threads with
    | [] => s
    | t :: _ =>
      if (s.groupOf t).gfp = 0 then s.issue.threads.foldl (fun s t => s.raise t trapReturnUnderflow) s
      else s.groupIssue (.gret f) f.toCommon (fun _ _ => (0, 0, 0)) fun s _ => s)

/-- The incomplete instructions of a group, GATE and GRET apart, write inside a window only (R343). -/
def State.windowFree (s : State) (team gid start count : Nat) : Bool :=
  s.ops.all fun o => o.who.team ≠ team || o.who.gid ≠ gid ||
    (match o.instr with
     | .gate _ | .gret _ => true
     | i => (destSlices i).all fun r => r.2 = 0 || (start ≤ r.1 && r.1 + r.2 ≤ start + count))

/-- No thread of a group has more than four return entries on chip: spills are over (R169). -/
def State.spillsOver (s : State) (ts : List TRef) : Bool := ts.all fun t => (s.thread t).ret.length ≤ 4

/-- The D field of a GATE's word, as its frame keeps it (R36, R340). -/
def Dst.field (d : Dst) : Nat := d.start.toNat + (Wd.code d.w).toNat * 2 ^ 10

/-- Enters the callee once the translations of the frame are there (R344). -/
def State.enterCallee (s : State) (o : Op) (f : SysF) (ent slot : Nat) (bm : Loc) (frame : W64) (hdr : List Loc)
    (recs : List (TRef × List Loc)) : State :=
  let g := s.groupOf o.who
  let ts := recs.map (·.1)
  let byte := bm.add (slot / 8)
  let s := s.flush fun (e : BufEntry) => e.core = s.coreOf o.who && e.bytes.any fun x => x.1 = byte
  let s := s.writeHome o.who [(byte, s.memByte byte ||| BitVec.ofNat 8 (2 ^ (slot % 8)))]
  let live := (ts.map fun t => 2 ^ t.lane).sum
  let root := bits ((s.world (s.worldOf o.who)).droot.getD g.domain.toNat 0).toNat 12 40
  let h := gateHeader ent o.a slot (Dst.field f.d) live g.domain root g.hdl g.gfp (o.pc + 16)
  let places := hdr ++ recs.flatMap (·.2)
  let whole := ((places.map (·.line)).eraseDups).filter fun n => (places.filter fun l => l.line = n).length = 128
  let s := s.storeRun o.who o.seq (hdr.zip (toBytes h 128)) whole
  let s := recs.foldl (fun s r =>
    s.storeRun r.1 (s.thread r.1).seq (r.2.zip (toBytes (s.thread r.1).gateRecord 160)) whole) s
  let s := (s.ops.filter fun p => p.lead = o.id).foldl (fun s p => s.complete p) s
  let s := s.setGroup o.who.team o.who.gid fun x => { x with
    k := keepPassed x.k (bit (entScrub ent) 2)
    hdl := w64 ent 448
    domain := entDom ent
    gfp := frame }
  ts.foldl (fun s t => (s.setThread t fun x =>
    { x.enterGate ent frame with slices := keepWindow x.slices (entWstart ent) (entWcnt ent) }).setPc t (w64 ent 0)) s

/-- Translates the records of the live threads for an access (R340). -/
def State.frameRecords (s : State) (d : BitVec 4) (acc : Acc) (frame : W64) : List TRef →
    ((List (TRef × List Loc)) ⊕ (Xl × W64)) × State
  | [] => (.inl [], s)
  | t :: ts =>
    let a := frame + BitVec.ofNat 64 (128 + 160 * t.lane)
    match s.translateRun (s.gateCtx t d) acc a 160 [] with
    | (.inr (x, i), s) => (.inr (x, a + BitVec.ofNat 64 i), s)
    | (.inl ls, s) =>
      match s.frameRecords d acc frame ts with
      | (.inl r, s) => (.inl ((t, ls) :: r), s)
      | (.inr e, s) => (.inr e, s)

/-- Takes a slot and enters the callee (R339, R344, R345). -/
def State.takeSlot (s : State) (o : Op) (f : SysF) (ent : Nat) : State :=
  let d := entDom ent
  let bma := BitVec.ofNat 64 (entSbase ent) - 512
  let bad := fun (s : State) => s.gateDenied o 0x0A
  if !canonical bma then bad s
  else
    match s.translate (s.gateCtx o.who d) .rmw bma with
    | (.ok bm, s) =>
      let ls := (List.range 4).map fun i => bm.add (128 * i)
      if s.anyOwned ls then s
      else
        let s := s.openLines ls bma
        if ls.any s.poisoned then bad s
        else
        match lowestClear (ofBytes ((List.range 512).map fun i => s.seenByte (s.coreOf o.who) (bm.add i))) (entSlots ent) with
        | none => s.gateDenied o 9
        | some i =>
          let frame := BitVec.ofNat 64 (entSbase ent - 512 - (i + 1) * (4096 * entZs ent))
          if !canonical frame then bad s
          else
            match s.translateRun (s.gateCtx o.who d) .write frame 128 [] with
            | (.inr (x, k), s) => s.gateFault o d x .write (frame + BitVec.ofNat 64 k) bad
            | (.inl hdr, s) =>
              match s.frameRecords d .write frame (s.liveOfGroup o.who.team o.who.gid) with
              | (.inr (x, va), s) => s.gateFault o d x .write va bad
              | (.inl recs, s) => s.enterCallee o f ent i bm frame hdr recs
    | (x, s) => s.gateFault o d x .rmw bma bad

/-! ### GRET -/

/-- Restores the caller from its frame (R346). -/
def State.leaveCallee (s : State) (t : TRef) (h : Nat) (recs : List (TRef × Nat)) (sl : Bool) (status : Nat) : State :=
  let scrub := bits h 205 8
  let s := s.setGroup t.team t.gid fun x => { x with
    k := keepPassed x.k (bit scrub 2)
    hdl := w64 h 320
    domain := BitVec.ofNat 4 (bits h 168 4)
    gfp := w64 h 64
    unwind := none }
  recs.foldl (fun s r =>
    let s := s.setThread r.1 fun x =>
      let y := x.fromGate r.2 (bit scrub 3)
      { y with
        slices := if sl then keepWindow x.slices (bits h 213 10) (bits h 223 11) else x.slices
        reuse := false
        marking := true }
    (s.writeSlices r.1 (bits h 180 10) 32 (status + bits h 172 8 * 2 ^ 24)).setPc r.1 (w64 h 0)) s

/-- Reads a frame: its header and the records of the live threads (R346). -/
def State.readFrame (s : State) (t : TRef) (frame : W64) : Option (Nat × List (TRef × Nat)) × State :=
  let d := s.domainOf t
  let read := fun (s : State) (ls : List Loc) => ofBytes (ls.map (s.seenByte (s.coreOf t)))
  let bad := fun (s : State) (ls : List Loc) => ls.any (s.poisonedFor (s.coreOf t))
  if !canonical frame then (none, s)
  else
    match s.translateRun (s.gateCtx t d) .read frame 128 [] with
    | (.inr _, s) => (none, s)
    | (.inl hdr, s) =>
      match s.frameRecords d .read frame (s.liveOfGroup t.team t.gid) with
      | (.inr _, s) => (none, s)
      | (.inl recs, s) =>
        let s := s.openLines (hdr ++ recs.flatMap (·.2)) frame
        if bad s hdr || recs.any fun r => bad s r.2 then (none, s)
        else (some (read s hdr, recs.map fun r => (r.1, read s r.2)), s)

/-- How a GRET or an unwinding ends. -/
inductive Gret where
  | done (s : State)
  | waits (s : State)       -- an engine owns a line, or a slice is still to be written
  | fault (x : Xl) (acc : Acc) (va : W64) (s : State)
  | fatal (s : State)
deriving Repr

/-- Performs GRET for a group (R346): with `force` the slices outside the window are cleared whatever the mask says
(R349). -/
def State.performGret (s : State) (t : TRef) (force : Bool) (status : Nat) : Gret :=
  let g := s.groupOf t
  let d := g.domain
  match s.readFrame t g.gfp with
  | (none, s) => .fatal s
  | (some (h, recs), s) =>
    let scrub := bits h 205 8
    let sl := force || bit scrub 0
    let slot := bits h 193 12
    let z := 4096 * bits h 448 16
    let zeros := if bit scrub 4 then z - 5248 else 0
    let zat := g.gfp + 5248
    let bma := w64 h 384 - 512 + BitVec.ofNat 64 (slot / 8)
    if sl && !s.windowFree t.team t.gid (bits h 213 10) (bits h 223 11) then .waits s
    else if !canonical bma || !canonical zat || !canonical (zat + BitVec.ofNat 64 zeros) then .fatal s
    else
      match s.translateRun (s.gateCtx t d) .write zat zeros [] with
      | (.inr (x, i), s) => .fault x .write (zat + BitVec.ofNat 64 i) s
      | (.inl zs, s) =>
        match s.translate (s.gateCtx t d) .rmw bma with
        | (.ok b, s) =>
          if s.anyOwned (b :: zs) then .waits s
          else
            let s := s.openLines [b] bma
            if s.poisoned b then .fatal s
            else
              let s := s.writeHome t (zs.map fun l => (l, 0))
              let s := s.writeHome t [(b, s.memByte b &&& ~~~BitVec.ofNat 8 (2 ^ (slot % 8)))]
              .done (s.leaveCallee t h recs sl status)
        | (x, s) => .fault x .rmw bma s

/-- Writes that a release made for a group waits for are still in its core's write buffer (R74). -/
def State.groupBuffered (s : State) (team gid : Nat) : Bool :=
  s.wbuf.any fun e => e.core = s.coreOf ⟨team, gid, 0⟩

/-! ### Completion and unwinding -/

/-- The GATE or GRET of a group that has issued. -/
def State.gateOp (s : State) (team gid : Nat) : Option Op :=
  s.ops.find? fun o => o.who.team = team && o.who.gid = gid && o.lead = o.id && o.phase = .pending &&
    (match o.instr with | .gate _ | .gret _ => true | _ => false)

/-- A call of a group is to be unwound, and its threads have stalled (R349). -/
def State.unwindDue (s : State) (team gid : Nat) : Bool :=
  (s.group team gid).unwind.isSome && (s.liveOfGroup team gid).all fun t =>
    s.stalled t && (s.thread t).fault.isNone && (s.thread t).shed.isNone && (s.thread t).turn.isNone

/-- The gate engine may finish a call, a return or an unwinding of a group. The slot is cleared by a release (R339); the
fence of R77 is at team scope, where writes are performed when they are buffered. -/
def State.gateDue (s : State) (team gid : Nat) : Bool :=
  let ts := s.liveOfGroup team gid
  s.resident team && !ts.isEmpty && s.spillsOver ts &&
    (match s.gateOp team gid with
     | some o => (match o.instr with
       | .gate _ => let e := o.data.headD 0; s.windowFree team gid (entWstart e) (entWcnt e)
       | _ => !s.earlierBuffered o)
     | none => s.unwindDue team gid && !s.groupBuffered team gid)

/-- Unwinds the innermost call of a group (R349). -/
def State.unwindCall (s : State) (t : TRef) (code : BitVec 8) : State :=
  match s.performGret t true (stFaulted + 0x1E * 2 ^ 8 + code.toNat * 2 ^ 16) with
  | .waits s => s
  | .fault .. | .fatal _ =>
    (s.setGroup t.team t.gid fun g => { g with unwind := none }).makeFatal t ⟨code, 0, (s.thread t).pc, (s.thread t).pc, 0, false⟩
  | .done s =>
    (s.liveOfGroup t.team t.gid).foldl (fun s u =>
      (s.leaveMma u).setThread u fun x =>
        { x with trap := none, sleep := none, bwait := none, joins := false, landing := none }) s

/-- GATE_CALL_COMPLETE: a GATE enters its callee, a GRET returns to the caller, or a call is unwound (R344, R346,
R349). -/
def execGateCallComplete (team gid : Nat) (s : State) : Out :=
  .next (if !s.gateDue team gid then s
  else
    match s.gateOp team gid with
    | some o =>
      (match o.instr with
       | .gate f => s.takeSlot o f (o.data.headD 0)
       | _ =>
         let fatal := fun (s : State) => s.makeFatal o.who ⟨trapGateFault, 0, o.pc, o.pc, 0, false⟩
         match s.performGret o.who false stOk with
         | .done s => (s.ops.filter fun p => p.lead = o.id).foldl (fun s p => s.complete p) s
         | .waits s => s
         | .fault x acc va s => s.gateFault o (s.domainOf o.who) x acc va fatal
         | .fatal s => fatal s)
    | none =>
      match s.liveOfGroup team gid, (s.group team gid).unwind with
      | t :: _, some code => s.unwindCall t code
      | _, _ => s)

/-! ### Slots of a group that has ended (R347) -/

/-- The group's next slot to release: its frame. -/
def State.nextRelease (s : State) (team gid : Nat) : Option W64 :=
  ((s.team team).releases.find? (·.1 = gid)).map (·.2)

def State.releaseDue (s : State) (team gid : Nat) : Bool :=
  (s.nextRelease team gid).isSome && !s.groupBuffered team gid &&
    !s.faults.any fun f => f.source = Source.slotRelease team gid && !f.notice

/-- The release of a slot is over: the enclosing frame is next. -/
def State.releaseNext (s : State) (team gid : Nat) (prev : W64) (cdom : BitVec 4) : State :=
  (s.setTeam team fun m => { m with releases :=
      (m.releases.filter fun r => r.1 ≠ gid) ++ (if prev = 0 then [] else [(gid, prev)]) }).setGroup team gid
    fun g => { g with domain := cdom, gfp := prev }

/-- Notice 0x15: a slot that could not be released. -/
def State.slotLost (s : State) (team gid : Nat) (va frame : W64) : State :=
  let l := s.launch? (s.team team).launch
  let s' := s.notice { id := s.ids, world := (s.team team).world, source := .slotRelease team gid, kind := 0x15,
                       access := 2, level := 0, domain := (s.group team gid).domain, entry := frame, va := va, pc := 0,
                       channel := 0, queue := (l.map (·.queue)).getD 0, ticket := (l.map (·.ticket)).getD 0,
                       num := none, notice := true, pri := false, pull := false, ipa := 0, deadline := 0 }
  { s' with ids := s.ids + 1 }

/-- An access of a release meets a fault: it waits, or the release fails. -/
def State.releaseFault (s : State) (team gid : Nat) (x : Xl) (acc : Acc) (va : W64) (fails : State → State) : State :=
  match s.openFault (.slotRelease team gid) (s.team team).world (s.group team gid).domain x acc va 0 0 with
  | (.wait _, s) => s
  | (.deny _, s) => fails s

/-- GATE_SLOT_RELEASE: releases the slot of the innermost frame of an ended group, without scrubbing (R347). -/
def execGateSlotRelease (team gid : Nat) (s : State) : Out :=
  .next (match s.nextRelease team gid with
    | none => s
    | some frame =>
      if !s.releaseDue team gid then s
      else
        let t : TRef := ⟨team, gid, 0⟩
        let ctx := s.gateCtx t (s.group team gid).domain
        let lost := fun (s : State) => (s.slotLost team gid 0 frame).releaseNext team gid 0 0
        if !canonical frame then lost s
        else
          match s.translateRun ctx .read frame 128 [] with
          | (.inr (x, i), s) => s.releaseFault team gid x .read (frame + BitVec.ofNat 64 i) lost
          | (.inl ls, s) =>
            let s := s.openLines ls frame
            if ls.any s.poisoned then lost s
            else
              let h := ofBytes (ls.map s.memByte)
              let bma := w64 h 384 - 512 + BitVec.ofNat 64 (bits h 193 12 / 8)
              let next := fun (s : State) => s.releaseNext team gid (w64 h 64) (BitVec.ofNat 4 (bits h 168 4))
              let fails := fun (s : State) => next (s.slotLost team gid bma frame)
              if !canonical bma then fails s
              else
                match s.translate ctx .rmw bma with
                | (.ok b, s) =>
                  if s.ownedLine b.line then s
                  else
                    let s := s.openLines [b] bma
                    if s.poisoned b then fails s
                    else
                      let v := s.memByte b &&& ~~~BitVec.ofNat 8 (2 ^ (bits h 193 12 % 8))
                      next (s.writeHome t [(b, v)])
                | (x, s) => s.releaseFault team gid x .rmw bma fails)

end Sys2Proof.Machine
end

