-- ==== Sys2Proof/Machine/Spawn.lean ====
section
/-! DEFINITION. The spawn engine: SPAWN, lay-bys and the former, LAUNCH and LWAIT, and the completion of group 0x9 (R294 to
R310). -/

namespace Sys2Proof.Machine

/-! ### SPAWN (R301) -/

/-- SPAWN: its checks and its argument bytes (R301). In a deterministic launch, and where the launch has no stack slots
for spawned groups, it completes FAULTED (R361, R383). -/
def execSpawn (f : SpawnF) (s : State) : Out :=
  .next (s.forIssue (.spawn f) f.toCommon fun t s =>
    let x := BitVec.ofNat 64 (s.opnd64 t f.a)
    let c := 2 * f.nargs.toNat
    if x.toNat % 16 ≠ 0 then s.raise t trapMisaligned
    else if !codeCanonical x then s.raise t trapAccessViolation
    else if (s.groupOf t).budget < f.b.start + c then s.raise t trapSliceRange
    else
      let bytes := (List.range c).map fun i => s.readSlices t (f.b.start + i) 4
      let launch := (s.team t.team).launch
      let (o, s) := s.start t (.spawn f) f.toCommon x.toNat 0 0 0
      if s.deterministic launch || bits (s.launchRec launch) 672 16 = 0 then s.settleOp o stFaulted
      else s.setOp o.id fun y => { y with data := bytes })

/-- The entry that a SPAWN places. -/
def spawnEntry (o : Op) (f : SpawnF) : Placement :=
  ⟨BitVec.ofNat 64 o.a, f.b.start, 2 * f.nargs.toNat, packNibbles o.data, o.iss⟩

/-- A SPAWN is placed: its status names its place (R301). -/
def State.spawnPlaced (s : State) (o : Op) (r : Nat × Nat) : State := s.completeWith o (stOk + (32 * r.1 + r.2) * 2 ^ 16)

/-- A SPAWN reaches the spawn engine: its entry is placed, or it waits for a lay-by (R295, R301). -/
def State.placeSpawn (s : State) (o : Op) (f : SpawnF) : State :=
  match (s.setOp o.id fun y => { y with phase := .queued }).placeNow o.who o.domain (spawnEntry o f) (.spawn o.id) with
  | (some r, s) => s.spawnPlaced o r
  | (none, s) => s

/-- LAYBY_TIMER_EXPIRY: the former forms the lay-by's entries (R296). -/
def State.timerDue (s : State) (l : Layby) : Bool := !l.saved && l.number.isSome && l.deadline ≤ s.clock

def execLaybyTimerExpiry (cluster n : Nat) (s : State) : Out :=
  .next (match s.laybys.find? fun l => l.cluster = cluster && l.number = some n && !l.saved with
    | some l => if s.timerDue l then s.form l else s
    | none => s)

/-- The stack slot of a formed group is still used by an earlier group (R386). -/
def State.slotTaken (s : State) (l : Launch) (f : Formed) : Bool :=
  let slot := fun (n : Nat) => n % l.rec_ 672 16
  (s.teams.any fun m => m.launch = l.id && m.formed && m.form < f.form && slot m.form = slot f.form &&
      !(s.liveOfTeam m.id).isEmpty) ||
    s.formed.any fun g => g.launch = l.id && g.form < f.form && slot g.form = slot f.form

/-- A formed group may be placed as far as its launch goes (R296, R386, R394). -/
def State.formedReady (s : State) (f : Formed) (l : Launch) : Bool :=
  l.state = .running && l.fatal.isNone && s.worldHere f.world && !s.slotTaken l f && s.frameRoom f.world l.formedFrame

/-- A core of the group's cluster has room for it, and its launch may dispatch (R296, R386, R394). -/
def State.formedRoom (s : State) (f : Formed) (core : Nat) : Option (Launch × Nat) :=
  match s.launch? f.launch, s.partOf f.world with
  | some l, some p =>
    if s.formedReady f l && core / 64 = f.cluster && (s.usable p).contains core && !p.capped && p.switching.isNone then
      match s.roomFor core [l.budgetC] 0 0 with
      | some (q :: _) => some (l, q)
      | _ => none
    else none
  | _, _ => none

/-- FORMED_GROUP_START: a formed group starts on a core with room (R296, R297). -/
def execFormedGroupStart (n core : Nat) (s : State) : Out :=
  .next (match s.formed.find? (·.id = n) with
    | none => s
    | some f =>
      match s.formedRoom f core with
      | some (l, q) => s.startFormed l f core q
      | none => s)

/-- The next shed thread of a cluster that reaches the spawn engine. -/
def State.shedNext (s : State) (cluster : Nat) : Option TRef :=
  (s.threads.find? fun x => s.clusterOf x.id = cluster && s.shedArrives x.id).map (·.id)

/-- A placement finds a lay-by now (R295). -/
def State.canPlace (s : State) (t : TRef) (d : BitVec 4) (entry : W64) : Bool :=
  !(s.freeLaybys (s.clusterOf t)).isEmpty || s.laybys.any fun l => l.cluster = s.clusterOf t && l.world = s.worldOf t &&
    l.domain = d && l.launch = (s.team t.team).launch && l.entry = entry && l.number.isSome && !l.saved && l.waiting.length < 32

/-- A placement that waits can be made. -/
def State.arrivalFits (s : State) : Arrival → Bool
  | .spawn n => (s.op? n).any fun o => s.canPlace o.who o.domain (BitVec.ofNat 64 o.a)
  | .shed t => (s.thread t).shed.any fun p => s.canPlace t (s.domainOf t) p.entry
  | .layby n => s.laybys.any fun l => l.id = n && !(s.freeLaybys l.cluster).isEmpty

/-- The spawn engine of a cluster has a placement to make: a shed thread reaches it, or the first of those that wait fits. -/
def State.placementDue (s : State) (cluster : Nat) : Bool :=
  (s.shedNext cluster).isSome || (s.waitingIn cluster).head?.any s.arrivalFits

/-- Makes a placement that has waited (R295, R298, R301). -/
def State.serveArrival (s : State) : Arrival → State
  | .spawn n =>
    match s.op? n with
    | none => s
    | some o =>
      match o.instr with
      | .spawn f =>
        (match s.place (s.clusterOf o.who) (s.worldOf o.who) o.domain (s.team o.who.team).launch (spawnEntry o f) with
         | (some r, s) => s.spawnPlaced o r
         | (none, s) => s)
      | _ => s
  | .shed t =>
    match (s.thread t).shed with
    | none => s
    | some p =>
      match s.place (s.clusterOf t) (s.worldOf t) (s.domainOf t) (s.team t.team).launch p with
      | (some _, s) => (s.setThread t fun x => { x with shed := none }).endThread t
      | (none, s) => s
  | .layby n =>
    match s.laybys.find? fun (l : Layby) => l.id = n with
    | some l => s.placeLayby l
    | none => s

/-- SPAWN_PLACEMENT: a shed thread reaches the spawn engine, or the first placement that waits there gets its lay-by; none
overtakes another (R295, R298). -/
def execSpawnPlacement (cluster : Nat) (s : State) : Out :=
  .next (
    match s.shedNext cluster with
    | some t => s.shedArrive t
    | none =>
      match s.waitingIn cluster with
      | [] => s
      | a :: _ =>
        let r := s.serveArrival a
        if (r.standsIn a).isNone then { r with arrivals := r.arrivals.filter (· ≠ a) } else r)

/-! ### LAUNCH and LWAIT (R307, R308) -/

/-- The snapshot of a launch record that LAUNCH has taken (R307). -/
def State.recordRead (s : State) (o : Op) (r : Nat) : State :=
  if (Launch.of 0 0 0 0 (BitVec.ofNat 1024 r)).recordOk then s.setOp o.id fun y => { y with data := [r] } else s.settleOp o stFaulted

/-- LAUNCH: its checks, and the snapshot of its record (R307). A record that an engine owns is read when the engine has written
it, and one of a peer is asked for (R22, R408). -/
def State.launchLaunch (s : State) (o : Op) : State :=
  let a := BitVec.ofNat 64 o.a
  if a.toNat % 128 ≠ 0 then s.trapOp o trapMisaligned 0 a
  else if !canonical a then s.trapOp o trapAccessViolation 0 a
  else
    match s.translate (s.opCtx o) .read a with
    | (.ok l, s) =>
      if l.isPeer then (if o.data.isEmpty then s.askWork o l 128 else s.recordRead o o.answer)
      else if s.ownedLine l.line then s
      else
        let s := s.openLines [l] a
        if s.poisonedFor (s.coreOf o.who) l then s.trapOp o trapPoison 0 a
        else s.recordRead o (ofBytes ((List.range 128).map fun i => s.seenByte (s.coreOf o.who) (l.add i)))
    | (x, s) => s.faultOp o x .read a a

/-- LAUNCH (R307). -/
def execLaunch (f : SpawnF) (s : State) : Out :=
  .next (s.forIssue (.launch f) f.toCommon fun t s =>
    let a := s.opnd64 t f.a
    let (o, s) := s.start t (.launch f) f.toCommon a 0 0 0
    s.launchLaunch o)

/-- Enqueues the record of a LAUNCH (R307, R381). -/
def State.performLaunch (s : State) (o : Op) (f : SpawnF) : State :=
  let w := s.worldOf o.who
  let q := f.queue.toNat
  let x := s.queue w q
  if !x.enabled || !x.dev || 64 ≤ s.devPending w q then s.completeWith o stCancelled
  else
    (s.enqueueRecord w q false (BitVec.ofNat 1024 (o.data.headD 0)) o.domain).completeWith o
      (stOk + x.ticket.toNat * 2 ^ 16)

/-- What an LWAIT of a ticket answers now (R308); none while the launch has not ended. -/
def State.lwaitStatus (s : State) (t : TRef) (q : Nat) (ticket : BitVec 16) : Option Nat :=
  let w := s.worldOf t
  let x := s.queue w q
  let own := (s.launch? (s.team t.team).launch).any fun l => l.world = w && l.queue = q && l.ticket = ticket
  if !x.recent ticket || own then some stFaulted
  else (x.ended.find? fun e => e.1 = ticket).map (·.2)

/-- The ticket that an LWAIT names. -/
def State.lwaitTicket (s : State) (t : TRef) (f : SpawnF) : BitVec 16 := BitVec.ofNat 16 (bits (s.opnd32 t f.a) 16 16)

/-- LWAIT (R308): it issues when its launch has ended, and stands until then. -/
def execLwait (f : SpawnF) (s : State) : Out :=
  .next (s.forIssue (.lwait f) f.toCommon fun t s =>
    let ticket := s.lwaitTicket t f
    match s.lwaitStatus t f.queue.toNat ticket with
    | none => s
    | some st =>
      let (o, s) := s.start t (.lwait f) f.toCommon 0 0 0 0
      s.settleOp o (st + ticket.toNat * 2 ^ 16))

/-! ### Completion -/

/-- A lower home lane of the same issue has not been served yet (R295, R299, R303). -/
def State.laneBehind (s : State) (o : Op) : Bool :=
  s.ops.any fun p => p.iss = o.iss && p.who.lane < o.who.lane && (p.phase = .pending || p.phase = .hold || p.phase = .remote)

/-- The line that an instruction of a work list or a LAUNCH still has to read is not owned, or its home has answered (R22, R302,
R307). -/
def State.headerFree (s : State) (o : Op) : Bool :=
  match (s.translate (s.opCtx o) .read (BitVec.ofNat 64 o.a)).1 with
  | .ok l => !s.ownedLine l.line
  | _ => true

/-- An instruction of group 0x9 may go on at the spawn engine: its release condition holds and no engine owns its
line. -/
def State.spawnDue (s : State) (o : Op) : Bool :=
  let free := !s.anyOwned o.locs && !s.bufferedAt (s.coreOf o.who) ((List.range 128).flatMap fun i => o.locs.map (·.add i))
  match o.phase, o.instr with
  | .pending, .spawn _ => s.released o .device && !s.laneBehind o
  | .pending, .launch _ => if o.data.length = 1 then s.released o .device && !s.laneBehind o else s.headerFree o
  | .pending, .wput _ | .pending, .wtake _ | .pending, .qidle _ | .pending, .qtest _ =>
    if o.locs.isEmpty then o.lead = o.id && s.headerFree o else
    match o.instr with
    | .wput _ => s.released o .device && free && !s.laneBehind o
    | .wtake _ => free && !s.laneBehind o
    | .qidle _ => o.lead = o.id && (s.ops.all fun p => p.lead ≠ o.id || s.released p .device)
    | _ => o.lead = o.id
  | .result, .spawn _ | .result, .wput _ | .result, .wtake _ | .result, .qidle _ | .result, .qtest _
  | .result, .launch _ | .result, .lwait _ => true
  | _, _ => false

/-- Completes an instruction of a work list in every thread that it is performed for. -/
def State.completeWork (s : State) (o : Op) (v : Nat) : State :=
  (s.ops.filter fun p => p.lead = o.id).foldl (fun s p => s.completeWith p v) s

/-- WPUT and WTAKE pass the tollgate of a record or replay launch at the home of their control line (R373, R374). -/
def State.tollWork (s : State) (o : Op) : State :=
  let act := fun (s : State) => match s.performWork o with
    | .inl (v, s) => s.completeWork o v
    | .inr s => s
  match o.instr, o.locs with
  | .wput _, [_, k] | .wtake _, [_, k] =>
    if k.isPeer then act s
    else
      match s.tollgate o.who k with
      | .hold => s.setOp o.id fun y => { y with phase := .hold, since := s.clock }
      | .pass s => act s
  | _, _ => act s

/-- SPAWN_ENGINE_COMPLETE (R301, R303 to R308). -/
def execSpawnEngineComplete (n : Nat) (s : State) : Out :=
  .next (match s.op? n with
    | none => s
    | some o =>
      if !s.spawnDue o then s
      else
        match o.phase, o.instr with
        | .result, _ => s.completeWith o (o.data.headD 0)
        | _, .spawn f => s.placeSpawn o f
        | _, .launch f => if o.data.length = 1 then s.performLaunch o f else s.launchLaunch o
        | _, _ => if o.locs.isEmpty then s.launchWork o else s.tollWork o)

end Sys2Proof.Machine
end

