-- ==== Sys2Proof/Machine/Wait.lean ====
section
/-! DEFINITION. The waits in which a thread stands at an instruction that it has not issued (R157). -/

namespace Sys2Proof.Machine

/-- A wait that an entry of the manual defines (R157, R172). -/
inductive Wait where
  /-- JOIN, a repeated SIGN, or an MMA or TMMAC at its convergence register -/
  | phase (c : BitVec 4)
  /-- BWAIT for the phase of an object -/
  | barrier
  | other
deriving DecidableEq, Repr

/-- The grace stage of the ladder is pending for a team's launch (R394, R399). -/
def State.inGrace (s : State) (team : Nat) : Bool := (s.launch? (s.team team).launch).any (·.state = .grace)

/-- A background fault of the group is open (R153). -/
def State.backgroundWait (s : State) (team gid : Nat) : Bool :=
  s.faults.any fun f => f.source = .background team gid && !f.notice

/-- A slot that the instruction uses is draining or reconfiguring (R276). -/
def State.slotHeld (s : State) (t : TRef) (i : Instr) : Bool :=
  (slotsUsed i).any fun f => (s.slot (s.worldOf t) f).pending

/-- The phase that the thread has signed at its instruction's register, and for which it waits there, is open (R186). -/
def State.joinStands (s : State) (t : TRef) (c : BitVec 4) : Bool := (s.thread t).joins && s.phaseOpen t c

/-- Some of a group's writes that count for its hash are not folded (R375, R378). Staged entries are complete. -/
def State.unfolded (s : State) (team gid : Nat) : Bool :=
  (s.folds.any fun f => f.team = team && f.gid = gid &&
      !(s.staging.any fun e => e.iss = f.iss && e.rmw.isSome && e.team = team && e.gid = gid)) ||
    s.ops.any fun o => o.who.team = team && o.who.gid = gid && (match o.instr with
      | .st _ | .atom _ | .atomr _ | .cas _ => true
      | _ => false)

/-- A group has a thread whose guard is 1 at the instruction. -/
def State.anyActive (s : State) (t : TRef) (c : Ctl) : Bool := (s.liveOfGroup t.team t.gid).any fun u => s.guard u c

/-- A return-stack transfer that the instruction has to wait for is not over (R168, R169). -/
def State.stackStands (s : State) (t : TRef) : Bool :=
  let x := s.thread t
  4 < x.ret.length || (x.ret.isEmpty && 0 < x.n)

/-- The wait of a thread whose guard is 1. -/
def State.waitAt (s : State) (t : TRef) (i : Instr) : Option Wait :=
  let hold := fun (b : Bool) (w : Wait) => if b then some w else none
  match i with
  | .join f | .sign f => hold (s.joinStands t f.cr) (.phase f.cr)
  | .mma f =>
    (match s.mmaOf t with
     | some g => if !g.released then some (.phase f.cr) else hold (!g.started && s.slotHeld t i) .other
     | none => hold (s.joinStands t f.cr) (.phase f.cr))
  | .tmmac f =>
    if s.joinStands t f.cr then some (.phase f.cr)
    else hold ((s.thread t).await.getLsbD f.cr.toNat && !s.phaseOpen t f.cr && s.slotHeld t i) .other
  | .exit _ => hold (!s.stalled t || 4 < (s.thread t).ret.length) .other
  | .hret _ => hold ((s.thread t).handler && !s.stalled t) .other
  | .gate _ | .gret _ => hold (!s.stalled t) .other
  | .ret _ => hold (s.stackStands t) .other
  | .xcall _ => hold (4 < (s.thread t).ret.length) .other
  | .bwait f => hold (s.bwaitStands t f) .barrier
  | .fbwait f => hold (s.fbwaitStands t f) .other
  | .lwait f => hold (s.lwaitStatus t f.queue.toNat (s.lwaitTicket t f)).isNone .other
  | .cpy f | .cpys f | .cpya f | .cpym f => hold (s.queueFull t.team f.ch) .other
  | .rput f | .rget f => hold (s.queueFull t.team f.ch) .other
  | .rdclk f => hold (f.subop = 1 && !(s.opsOf t).isEmpty) .other
  | .ordmark _ | .hashrd _ => hold (s.unfolded t.team t.gid) .other
  | i => hold (s.slotHeld t i) .other

/-- The wait in which a thread stands at its next instruction. A guard of 0 passes the instruction, but the members of a
group park together (R399). -/
def State.standing (s : State) (t : TRef) (i : Instr) : Option Wait :=
  match i.common with
  | none => none
  | some c =>
    match i with
    | .psaved _ => if s.inGrace t.team && s.anyActive t c.ctl && !s.stalled t then some .other else none
    | .ordmark _ | .hashrd _ | .tmmac _ => if s.anyActive t c.ctl then s.waitAt t i else none
    | _ => if s.guard t c.ctl then s.waitAt t i else none

/-- The thread stands in a wait at the instruction (R157). -/
def State.blocked (s : State) (t : TRef) (i : Instr) : Bool := (s.standing t i).isSome

end Sys2Proof.Machine
end

