-- ==== Sys2Proof/Machine/Pick.lean ====
section
/-! DEFINITION. Which threads are ready and which of them an issue gathers (R43, R75, R76, R120, R141, R148,
R157, R159). -/

namespace Sys2Proof.Machine

/-- An incomplete instruction holds a later access of its thread at issue (R75 rules 2 and 4, R148). -/
def holdsLater (o i : Instr) : Bool :=
  match o with
  | .ld f => f.order = .acquire && isAccess i
  | .ldk f => f.order = .acquire && isAccess i
  | .atom f | .atomr f | .cas f => (f.order = .acquire || f.order = .acqRel) && isAccess i
  | .mile _ | .mfin _ | .wtake _ | .qidle _ | .qtest _ | .lwait _ => isAccess i
  | .fence f => if f.order = .release then isWriting i else isAccess i
  | _ => false

/-- The thread's next instruction lies in the window of each of its incomplete ones (R43). -/
def State.windowsOpen (s : State) (t : TRef) : Bool :=
  (s.opsOf t).all fun o => o.la = 15 || (s.thread t).seq - o.seq ≤ o.la.toNat

/-- The scoreboard slots that an instruction waits for, and the one that it sets, are free (R43). -/
def State.slotsFree (s : State) (t : TRef) (c : Ctl) : Bool :=
  ((s.thread t).sb &&& c.wait) = 0 && !(c.setEn && (s.thread t).sb.getLsbD c.setSlot.toNat)

/-- ready(t, w) of R43, with the holds of acquires and fences. -/
def State.ready (s : State) (t : TRef) (i : Instr) : Bool :=
  s.windowsOpen t &&
  (match i.common with
   | none => true
   | some c => s.slotsFree t c.ctl && (!s.guard t c.ctl || (s.opsOf t).all fun o => !holdsLater o.instr i))

/-- Instructions that the picker issues for one whole group or for one group only (R120, R159): true when every
live thread of the group has to stand at it. -/
def collective : Instr → Option Bool
  | .shfl _ | .vote _ | .gred _ | .gscan _ | .matchLanes _ | .elect _ | .kmov _ | .ldk _ | .cset _ | .sethdl _
  | .cpym _ | .tmmac _ | .gate _ | .gret _ | .ordmark _ | .hashrd _ | .psaved _ => some true
  | _ => none

/-- The thread may issue as far as its own state goes: it is live and resident and stands in no trap, fault,
sleep, turn or placement (R157). -/
def State.mayIssue (s : State) (t : TRef) : Bool :=
  let x := s.thread t
  let m := s.team t.team
  !s.backgroundWait t.team t.gid && !s.reloading m.world && x.live && s.power && !s.halted && s.resident t.team &&
    x.trap.isNone && x.fault.isNone && x.sleep.isNone &&
    x.turn.isNone && x.shed.isNone && (s.groupOf t).parked.isNone && (s.groupOf t).unwind.isNone &&
    (x.async.isEmpty || x.handler) &&
    ((s.launch? m.launch).any fun l =>
      l.fatal.isNone && (l.state = .running || l.state = .soft || l.state = .grace)) &&
    !(s.opsOf t).any (·.phase = .again) && !x.isLanding

/-- A thread is ready (R157). A word that does not decode is ready to raise its trap. -/
def State.isReady (s : State) (t : TRef) : Bool :=
  s.mayIssue t &&
    (match s.nextInstr t with
     | none => false
     | some (.error _) => s.windowsOpen t && s.slotsFree t (decodeCtl ((s.nextWord t).getD 0))
     | some (.ok i) => s.ready t i && !s.blocked t i &&
        (match collective i with
         | some true => (s.liveOfGroup t.team t.gid).all fun u =>
             (s.thread u).pc = (s.thread t).pc && s.mayIssue u && s.ready u i && !s.blocked u i
         | _ => true))

/-- The functional class of an opcode (R129, R158): integer, floating, function, cross-lane, memory, control, engine. -/
def opClass (op : Nat) : Nat :=
  if op < 0x40 ∨ op = 0x84 ∨ op = 0x85 ∨ op = 0x88 then 0
  else if op < 0x80 then (if 0x47 ≤ op ∧ op < 0x50 then 2 else 1)
  else if op < 0xC0 then 3
  else if op < 0x100 then 4
  else if op < 0x140 then 5
  else 6

/-- The class of a thread's next instruction. -/
def State.classOf (s : State) (t : TRef) : Nat := opClass (((s.nextWord t).getD 0).toNat % 1024)

/-- The key by which the picker gathers (R159). -/
structure Key where
  team : Nat
  producer : Bool
  domain : BitVec 4
  pc : W64
deriving DecidableEq, Repr

def State.keyOf (s : State) (t : TRef) : Key :=
  ⟨t.team, (s.groupOf t).producer, s.domainOf t, (s.thread t).pc⟩

/-- The ready threads of a quad in a cycle in which some classes cannot accept an issue (R157). -/
def State.readyIn (s : State) (core quad : Nat) (closed : BitVec 7) : List TRef :=
  (s.threads.filter fun x => s.coreOf x.id = core && (s.groupOf x.id).quad = quad && s.isReady x.id &&
    !closed.getLsbD (s.classOf x.id)).map (·.id)

def distinctLanes (ts : List TRef) : Nat := (ts.map (·.lane)).eraseDups.length

/-- The better of two threads under R159, for an aged quad: larger wait count, then lower lane, then lower
%gid. -/
def State.agedBefore (s : State) (a b : TRef) : Bool :=
  let wa := (s.thread a).wait
  let wb := (s.thread b).wait
  wa > wb || (wa = wb && (a.lane < b.lane || (a.lane = b.lane && a.gid < b.gid)))

/-- The better of two keys under R159: more distinct lanes, then lower pc, then the team resident longest, then
producer first. Of two keys that are equal in all of this, the one of the thread that stands first in the state's table
(DESIGN CHOICE, log entry 116). -/
def State.keyBefore (s : State) (c : List TRef) (a b : TRef) : Bool :=
  let n := fun (t : TRef) => distinctLanes (c.filter fun u => s.keyOf u = s.keyOf t)
  let pa := (s.thread a).pc
  let pb := (s.thread b).pc
  let ta := (s.team a.team).started
  let tb := (s.team b.team).started
  n a > n b || (n a = n b && (pa < pb || (pa = pb && (ta < tb || (ta = tb &&
    ((s.groupOf a).producer && !(s.groupOf b).producer))))))

def bestBy (before : TRef → TRef → Bool) : List TRef → Option TRef
  | [] => none
  | t :: ts => some (ts.foldl (fun b u => if before u b then u else b) t)

/-- pick of R159: the threads of one issue, in ascending home lane. -/
def State.pick (s : State) (c : List TRef) : List TRef :=
  let aged := c.filter fun t => 3584 ≤ (s.thread t).wait
  let k := if aged.isEmpty then bestBy (s.keyBefore c) c else bestBy s.agedBefore aged
  match k with
  | none => []
  | some k =>
    let g := c.filter fun t => s.keyOf t = s.keyOf k
    let g := match s.nextInstr k with
      | some (.ok i) => if (collective i).isSome then g.filter fun (u : TRef) => u.gid = k.gid else g
      | _ => g
    (List.range 32).filterMap fun l =>
      bestBy (fun a b => (s.thread a).wait > (s.thread b).wait ||
        ((s.thread a).wait = (s.thread b).wait && a.gid < b.gid)) (g.filter (·.lane = l))

/-- The threads of the second issue of a cycle: the pick among the ready threads outside the first issue whose instruction is of
another class (R158, R159). -/
def State.pickSecond (s : State) (c ts : List TRef) : List TRef :=
  match ts with
  | [] => []
  | t :: _ => s.pick (c.filter fun u => !ts.contains u && s.classOf u ≠ s.classOf t)

end Sys2Proof.Machine
end

