-- ==== Sys2Proof/Machine/Reissue.lean ====
section
/-! DEFINITION. Executing an instruction again that a fault or a save has withdrawn (R146, R321, R363, R374). -/

namespace Sys2Proof.Machine

/-- Performs the checks of an issued instruction again with its operands as it sampled them. -/
def State.relaunch (s : State) (o : Op) : State :=
  match o.instr with
  | .ld f => s.launchLd f o
  | .st f => s.launchSt f o
  | .ldk f => s.launchLdk f o
  | .atom f | .atomr f | .cas f => s.launchRmw f o
  | .spill f => s.launchSpill f .write o
  | .fill f => s.launchSpill f .read o
  | .cmo f => s.launchCmo f o
  | .talloc f => s.launchTalloc f o
  | .tbind f => s.launchTbind f o
  | .cpy f => s.launchCopy f f.b .box false o
  | .cpys f => s.launchCopy f f.b .bytes false o
  | .cpya f => s.launchCopy f f.b .box true o
  | .cpym f => s.launchCpym f o
  | .rput f => State.launchTransfer f .rput s o
  | .rget f => State.launchTransfer f .rget s o
  | .binit f | .barr f | .bexp f => s.launchBarrier f o
  | .bwait f | .btest f => s.launchTest f o
  | .wput _ | .wtake _ | .qidle _ | .qtest _ => s.launchWork o
  | .launch _ => s.launchLaunch o
  | .gate _ => s.launchGate o
  | .fevt f => s.launchFevt f o
  | .tktTurn _ => s.atTurn o false
  | .tktLap _ => s.atTurn o (s.persistent o.who.team)
  | _ => s

/-- Withdrawn instructions are executed again: a collective one once, by its lead. A SPAWN keeps its bytes, which it
sampled at its issue (R299). -/
def State.reissue (s : State) (o : Op) : State :=
  let keep := match o.instr with | .spawn _ => true | _ => false
  let fresh := fun (y : Op) =>
    { y with phase := .pending, locs := [], data := if keep then y.data else [], fault := none, elem := 0, since := s.clock }
  let s := { s with ops := s.ops.map fun (y : Op) => if y.lead = o.id ∨ y.id = o.id then fresh y else y }
  if o.lead = o.id then s.relaunch (fresh o) else s

/-! ### Recalls (R22, R86, R88) -/

/-- A copy that waits at its issue may be checked again: no copy of its channel stands before it, and no engine owns the line
of its record (R22, R218, R219). -/
def State.copyRecallDue (s : State) (o : Op) (ch : BitVec 4) : Bool :=
  o.lead = o.id && s.resident o.who.team && !s.issueBehind o ch &&
    (match o.instr, (s.translate (s.opCtx o) .read (BitVec.ofNat 64 o.a)).1 with
     | .cpy _, .ok l | .cpya _, .ok l | .cpym _, .ok l => !s.ownedLine l.line
     | _, _ => true)

def Op.isGate (o : Op) : Bool := match o.instr with
  | .gate _ => true
  | _ => false

/-- A recall can finish: the lines are not owned, and the marked cores can drain. -/
def State.recallDue (s : State) (o : Op) : Bool :=
  o.phase = .recall &&
    (match copyChannel o.instr with
     | some ch => s.copyRecallDue o ch
     | none => !s.anyOwned o.locs && (o.isGate || match recallKind o.instr with
        | some f => s.markDrainable (s.acquireMarks o f)
        | none => false))

/-- RECALL_COMPLETE: the recalled line is home, the releasing core has drained its older entries, and the access is
performed on the line as it stands (R22, R86, R144). A copy or a GATE that waited at its issue is checked again. -/
def execRecallComplete (n : Nat) (s : State) : Out :=
  .next (match s.op? n with
    | none => s
    | some o =>
      if !s.recallDue o then s
      else if (copyChannel o.instr).isSome || o.isGate then s.relaunch o
      else
        let s := match recallKind o.instr with
          | some f =>
            let ms := s.acquireMarks o f
            s.flush fun e => ms.any (·.covers e)
          | none => s
        let s := s.setOp n fun y => { y with phase := .pending }
        match s.op? n with
        | some o => if s.accessDue o then s.performAccess o else s
        | none => s)

end Sys2Proof.Machine
end

