-- ==== Sys2Proof/Machine/Order.lean ====
section
/-! DEFINITION. The order engine: TKT, ORDMARK and HASHRD, the turnpike of deterministic launches, and RMWs that the
tollgate of a replay holds (R353 to R379). -/

namespace Sys2Proof.Machine

/-! ### Instructions (R376 to R378) -/

/-- The status word of TKT after a turn (R377). -/
def tktWord (lap : Nat) : Nat := stOk + lap % 2 ^ 16 * 2 ^ 16

/-- TKT: a turn point of a deterministic launch; anywhere else it completes at once (R377). -/
def State.issueTkt (s : State) (i : Instr) (f : SysF) (lap : Bool) : State :=
  s.forIssue i f.toCommon fun t s =>
    let (o, s) := s.start t i f.toCommon 0 0 0 0
    if s.deterministic (s.team t.team).launch then s.atTurn o (lap && s.persistent t.team) else s.completeWith o stOk

/-- TKT.turn (R377). -/
def execTktTurn (f : SysF) (s : State) : Out := .next (s.issueTkt (.tktTurn f) f false)

/-- TKT.lap (R377). -/
def execTktLap (f : SysF) (s : State) : Out := .next (s.issueTkt (.tktLap f) f true)

/-- A checkpoint entry (R372). -/
def checkpoint (hash : W64) (mark gid team : Nat) : Nat :=
  fieldAt team 0 32 + fieldAt gid 32 5 + fieldAt mark 48 16 + hash.toNat * 2 ^ 64

/-- The first unconsumed checkpoint of a group with a mark, by number and entry (R378). An entry with reserved bits set is
no checkpoint of any group (R3; DEDUCED, log entry 118). -/
def State.findCheckpoint (s : State) (g : OrderLog) (mark gid team : Nat) : Option (Nat × Nat) :=
  ((List.range g.ckused).map fun k => (k, s.logRead g (g.ckptOff k) 16)).find? fun e =>
    !g.used.contains e.1 && bits e.2 37 11 = 0 && bits e.2 0 32 = team && bits e.2 32 5 = gid && bits e.2 48 16 = mark

/-- The effect of ORDMARK on its launch's log: the state, and the info of a REPLAY_DIVERGED (R373, R378). -/
def State.mark (s : State) (t : TRef) (mark : Nat) : Option (BitVec 8) × State :=
  let m := s.team t.team
  let h := (s.groupOf t).hash
  match s.log? m.launch with
  | none => (none, s)
  | some g =>
    if !g.replay then
      if g.stopped then (none, s)
      else if g.ckused < g.ckpt then
        (none, (s.logWrite g (g.ckptOff g.ckused) 16 (checkpoint h mark t.gid m.index)).setLog g.launch
          fun x => { x with ckused := x.ckused + 1 })
      else (none, s.stopLog g)
    else if g.diverged then (some 2, s)
    else
      match s.findCheckpoint g mark t.gid m.index with
      | none => (some 3, s)
      | some (k, e) =>
        let s := s.setLog g.launch fun x => { x with used := k :: x.used }
        (if w64 e 64 = h then none else some 1, s)

/-- ORDMARK: once for the group (R378). -/
def execOrdmark (f : SysF) (s : State) : Out :=
  .next (
    let act := s.activeLanes (.ordmark f) f.toCommon
    match act with
    | [] => s.forIssue (.ordmark f) f.toCommon fun _ s => s
    | l :: _ =>
      let (info, s) := s.mark l f.mark.toNat
      s.forIssue (.ordmark f) f.toCommon fun t s =>
        let (o, s) := s.start t (.ordmark f) f.toCommon 0 0 0 0
        let s := s.complete o
        match info with
        | some n => s.raiseAfter t trapReplayDiverged n o.pc
        | none => s)

/-- HASHRD: once for the group (R378). -/
def execHashrd (f : SysF) (s : State) : Out :=
  .next (
    let act := s.activeLanes (.hashrd f) f.toCommon
    match act with
    | [] => s.forIssue (.hashrd f) f.toCommon fun _ s => s
    | l :: _ =>
      let h := (s.groupOf l).hash
      let s := s.forIssue (.hashrd f) f.toCommon fun t s =>
        let (o, s) := s.start t (.hashrd f) f.toCommon 0 0 0 0
        s.completeWith o h.toNat
      if f.subop = 1 then s.setGroup l.team l.gid fun g => { g with hash := 0 } else s)

/-! ### Arrival and turns (R357 to R361) -/

/-- A thread stands in wait 1 or wait 2 of R172: at a convergence register, or at a collective instruction or a GATE
that waits for members of its group. -/
def State.waitsOneOrTwo (s : State) (t : TRef) : Bool :=
  s.mayIssue t &&
    (match s.nextInstr t with
     | some (.ok i) =>
       (match s.standing t i with
        | some (.phase _) => true
        | some _ => false
        | none => collective i = some true && s.ready t i && !s.isReady t)
     | _ => false)

/-- The team has arrived at the turnpike (R358). -/
def State.arrived (s : State) (team : Nat) : Bool :=
  let ts := s.liveOfTeam team
  (s.team team).finalTurn ||
    (ts.any (fun t => (s.thread t).turn.isSome) && ts.all fun t => (s.thread t).turn.isSome || s.waitsOneOrTwo t)

/-- A team of a deterministic launch has left a lap (R359). -/
def Team.left (m : Team) (lap : Nat) (ended : Bool) : Bool := lap < m.lap || (ended && !m.finalTurn)

/-- Every team of a launch that R359 asks for has left the laps before a turn: those of every team below the turn's lap,
and the turn's lap by the teams of lower index. -/
def State.turnNext (s : State) (m : Team) : Bool :=
  match s.launch? m.launch with
  | none => false
  | some l =>
    let ts := s.teams.filter fun x => x.launch = l.id && !x.formed && x.id ≠ m.id
    (m.lap = 0 || l.teamCount ≤ l.next) &&
      ts.all fun x =>
        let ended := (s.liveOfTeam x.id).isEmpty
        (x.left m.lap ended || m.index < x.index) && (m.lap = 0 || x.left (m.lap - 1) ended)

/-- The places that a turn writes. -/
def State.turnPlaces (s : State) (team : Nat) : List Loc :=
  (s.staging.filter (·.team = team)).flatMap fun e => match e.rmw with
    | none => e.bytes.map (·.1)
    | some _ => (List.range e.size).map e.at_.add

/-- The turnpike may start a team's turn: it has arrived, the turns before it are over, and no engine owns a line of it
(R359, R360). -/
def State.turnDue (s : State) (team : Nat) : Bool :=
  let m := s.team team
  s.power && s.resident team && !m.formed && s.deterministic m.launch && s.arrived team && s.turnNext m &&
    (s.launch? m.launch).any (fun l => l.fatal.isNone && l.state ≠ .ended) && !s.anyOwned (s.turnPlaces team)

/-- The team's entries that come from one issue and cover a line whole (R147). -/
def State.turnWhole (s : State) (team iss : Nat) : List Nat :=
  let ls := (s.staging.filter fun e => e.team = team && e.iss = iss && e.rmw.isNone).flatMap fun e => e.bytes.map (·.1)
  ((ls.map (·.line)).eraseDups).filter fun n => 128 ≤ ((ls.filter (·.line = n)).eraseDups).length

/-- Applies a staged RMW (R143, R360): what the waiting instruction gets is kept with it. -/
def State.applyRmw (s : State) (e : Stage) (i : Instr) : State :=
  let t : TRef := ⟨e.team, e.gid, e.lane⟩
  let core := s.coreOf t
  let keep := fun (s : State) (l : List Nat) => s.setOp e.op fun y => { y with data := l }
  let away := fun (s : State) (payload : List Byte) =>
    (s.request e.op 0 core (s.worldOf t) flRmw e.at_ e.size payload).setOp e.op fun y => { y with phase := .remote }
  match i with
  | .atom _ | .atomr _ | .cas _ =>
    if e.at_.isPeer then
      let s := away s (rmwPayload i e.b e.c)
      if (s.op? e.op).isSome then s else s.addFold t e.iss [(e.va, Config.unstated (s.free + e.id) (8 * e.size), e.size)]
    else
      let ls := (List.range e.size).map e.at_.add
      let m := ofBytes (ls.map s.memByte)
      let v := rmwNew i m e.b e.c
      let s := s.rmwWrite ls v false core
      let s := match v with
        | some v => s.addFold t e.iss [(e.va, v, e.size)]
        | none => s
      keep s [m]
  | .wput _ | .wtake _ =>
    (match s.op? e.op with
     | none => s
     | some o => match s.performWork o with
       | .inl (v, s) => keep s [v]
       | .inr s => s.setOp e.op fun y => if y.phase = .turn then { y with phase := .pending } else y)
  | i =>
    match barOpOf i with
    | none => s
    | some op =>
      if e.at_.isPeer then away s (barPayload op e.b e.c)
      else
        let (w, x, s) := s.barrierUpdate op (.mem e.at_) e.b e.c
        keep s [w, if x then 1 else 0]

/-- Applies an entry at a turn (R360). -/
def State.applyStage (s : State) (e : Stage) : State :=
  let t : TRef := ⟨e.team, e.gid, e.lane⟩
  match e.rmw with
  | some i => s.applyRmw e i
  | none => s.performEntry ⟨e.id, s.coreOf t, t, 0, 0, s.worldOf t, e.bytes, false, e.iss, s.turnWhole e.team e.iss⟩

/-- What becomes after a turn of an instruction that waited for it: it completes with its value or status, or is staged
now where its thread's quota was full (R357, R360). -/
def State.afterTurn (s : State) (o : Op) : State :=
  match o.instr with
  | .tktTurn _ | .tktLap _ => s.completeWith o (tktWord (s.team o.who.team).lap)
  | .ld _ | .ldk _ =>
    { s with ops := s.ops.map fun (y : Op) => if y.lead = o.lead then { y with phase := .pending } else y }
  | .st _ => s.stageStore o (o.locs.zip (o.data.map fun n => BitVec.ofNat 8 n))
  | .atom f | .atomr f | .cas f =>
    if o.x = 1 then s.stageAtomic o f (o.locs.headD ⟨false, 0⟩)
    else
      (s.writeLate o f.d.start.toNat f.d.w.bits (destValue f.d f.ty.bits f.ty.isSigned (o.data.headD 0))).complete o
  | .binit _ | .bexp _ => s.stageBarrier o
  | .barr _ => if o.x = 1 then s.stageBarrier o else s.finishBarrier o (o.data.headD 0) (o.data.getD 1 0 = 1)
  | .wput _ | .wtake _ =>
    if o.x = 1 then s.turnWork o (o.locs.getLastD ⟨false, 0⟩) else s.completeWork o (o.data.headD 0)
  | .qidle _ | .qtest _ =>
    if o.lead ≠ o.id then s
    else
      match s.performWork o with
      | .inl (v, s) => s.completeWork o v
      | .inr s => s
  | _ => s

/-- Orders operations by thread and issue. -/
def Op.before (x y : Op) : Bool :=
  let i := 32 * x.who.gid + x.who.lane
  let j := 32 * y.who.gid + y.who.lane
  i < j || (i = j && x.id < y.id)

def insertOp (x : Op) : List Op → List Op
  | [] => [x]
  | y :: ys => if x.before y then x :: y :: ys else y :: insertOp x ys

/-- The instructions of a team that wait at turn points, in ascending thread linear index. -/
def State.turnOps (s : State) (team : Nat) : List Op :=
  (s.ops.filter fun o => o.who.team = team && o.phase = .turn).foldl (fun l o => insertOp o l) []

/-- The lap and turn counts after a turn: it is lap-ending where no thread stands at an intra-lap point (R358, R359). -/
def Team.turned (m : Team) (intra : Bool) : Team :=
  if intra then { m with turns := m.turns + 1, finalTurn := false }
  else { m with lap := m.lap + 1, turns := 0, finalTurn := false }

/-- Closes the quiet work list sets of a deterministic launch (R361). -/
def State.closeQuiet (s : State) (launch : Nat) : State :=
  { s with sets := s.sets.map fun (x : WorkSet) => if x.launch = launch ∧ s.setQuiet x then { x with closed := true } else x }

/-- A turn of a team (R360, R361). -/
def State.takeTurn (s : State) (team : Nat) : State :=
  let es := s.teamStages team
  let intra := (s.liveOfTeam team).any fun t => (s.thread t).turn = some false
  let core := (s.team team).core
  let ls := s.turnPlaces team
  let s := s.flush fun (e : BufEntry) => e.core = core && e.bytes.any fun x => ls.contains x.1
  let s := es.foldl (fun s e => s.applyStage e) s
  let s := { s with
    staging := s.staging.filter fun (e : Stage) => e.team ≠ team
    threads := s.threads.map fun (x : Thread) => if x.id.team = team then { x with turn := none } else x }
  let s := s.setTeam team (·.turned intra)
  let s := (s.turnOps team).foldl (fun s o => s.afterTurn ((s.op? o.id).getD o)) s
  let s := (s.groupsOf team).foldl (fun s g => s.settle team g.gid) s
  s.closeQuiet (s.team team).launch

/-- TURN_START (R359 to R361). -/
def execTurnStart (team : Nat) (s : State) : Out := .next (if s.turnDue team then s.takeTurn team else s)

/-! ### RMWs held by a replay (R374) -/

/-- The place whose bank an RMW of R373 goes to. -/
def Op.homePlace (o : Op) : Loc :=
  match o.instr with
  | .wput _ | .wtake _ => o.locs.getLastD ⟨false, 0⟩
  | _ => o.locs.headD ⟨false, 0⟩

/-- Time is counted for a launch's held RMWs: its world is resident and none of its teams is saved. -/
def State.timeCounts (s : State) (launch : Nat) : Bool :=
  (s.launch? launch).any (fun l => s.worldHere l.world) && !(s.teams.any fun m => m.launch = launch && m.place = .frame)

/-- An RMW has been held for 100 µs while its bank made no progress. -/
def State.heldLong (s : State) (o : Op) : Bool :=
  let launch := (s.team o.who.team).launch
  match s.log? launch with
  | some g =>
    let bank := bankOf (s.ipaOf (s.worldOf o.who) o.homePlace)
    o.phase = .hold && g.replay && !g.abandoned.contains bank && s.timeCounts launch &&
      max o.since (g.bank bank).2.2.1 + 100 * cyclesPerUs ≤ s.clock
  | none => false

/-- REPLAY_HOLD_TIMEOUT: the launch diverges and the bank's log is abandoned (R374). -/
def execReplayHoldTimeout (n : Nat) (s : State) : Out :=
  .next (match s.op? n with
    | some o =>
      if !s.heldLong o then s
      else
        match s.log? (s.team o.who.team).launch with
        | some g => s.abandon g (bankOf (s.ipaOf (s.worldOf o.who) o.homePlace))
        | none => s
    | none => s)

/-- A held RMW may pass now. -/
def State.tollDue (s : State) (o : Op) : Bool :=
  o.phase = .hold && s.resident o.who.team && !s.anyOwned o.locs && !s.bufferedAt (s.coreOf o.who) o.locs &&
    (match s.tollgate o.who o.homePlace with
     | .pass _ => true
     | .hold => false)

/-- TOLLGATE_PASS: a held RMW is performed (R374). -/
def execTollgatePass (n : Nat) (s : State) : Out :=
  .next (match s.op? n with
    | some o =>
      if !s.tollDue o then s
      else
        let s := s.setOp n fun y => { y with phase := .pending }
        let o := { o with phase := .pending }
        match o.instr with
        | .atom f | .atomr f | .cas f => s.performRmw o f
        | .wput _ | .wtake _ => s.tollWork o
        | i => match barOpOf i with
          | some op => s.performBarrier o op
          | none => s
    | none => s)

end Sys2Proof.Machine
end

