-- ==== Sys2Proof/Machine/Deadlock.lean ====
section
/-! DEFINITION. Detection of a team whose threads wait for one another (R172). -/

namespace Sys2Proof.Machine

/-- No handle to an object in a team's tile store is bound on another core, no copy counted on it is pending in the team, and
no armed copy names it there (R172, wait 3). -/
def State.unpaid (s : State) (team : Nat) (r : BarRef) (tile : Nat) : Bool :=
  !(s.handles.any fun h => h.state = .view tile && (s.team h.team).core ≠ (s.team team).core) &&
    !(s.copies.any fun c => c.team = team && c.bar = some r) &&
    !(s.armed.any fun a => a.team = team && (a.trigger = r || a.copy.bar = some r))

/-- A BWAIT on an object in the team's own tile store that nobody can pay into any more (R172, wait 3). -/
def State.deadBarrier (s : State) (t : TRef) (i : Instr) : Bool :=
  match i with
  | .bwait f =>
    (match (s.nameObject (s.xctx t) t.team f .read (s.barOpnd t f)).1 with
     | .ok (.tile n b) => (s.tile? n).any (fun x => x.team = t.team) && s.unpaid t.team (.tile n b) n
     | _ => false)
  | _ => false

/-- The spawn engine reports that the lay-bys of a cluster cannot be launched: a formed group waits and no core has room for it
(R172, R296). -/
def State.noLaunch (s : State) (cluster : Nat) : Bool :=
  s.formed.any fun f => f.cluster = cluster && (List.range 512).all fun c => (s.formedRoom f c).isNone

/-- A SPAWN that waits for a lay-by (R301). -/
def Op.waitsSpawn (o : Op) : Bool := o.phase = .queued && (match o.instr with | .spawn _ => true | _ => false)

/-- The window or the wait mask of the thread's SPAWNs that wait for a lay-by holds its next instruction (R43, R172). -/
def State.heldBySpawn (s : State) (t : TRef) (i : Instr) : Bool :=
  let os := (s.opsOf t).filter (·.waitsSpawn)
  !(os.all fun o => o.la = 15 || (s.thread t).seq - o.seq ≤ o.la.toNat) ||
    i.common.any fun c => os.any fun o => o.slot.any fun n => c.ctl.wait.getLsbD n.toNat

/-- The wait of R172 in which a thread stands, as the trap record's info field gives it. -/
def State.deadWait (s : State) (t : TRef) : Option (BitVec 8) :=
  let x := s.thread t
  if x.live && x.shed.isSome && s.arrivals.contains (.shed t) then (if s.noLaunch (s.clusterOf t) then some 0xFF else none)
  else if !s.mayIssue t then none
  else
    match s.nextInstr t with
    | some (.ok i) =>
      if s.heldBySpawn t i then (if s.noLaunch (s.clusterOf t) then some 0xFF else none)
      else
        (match s.standing t i with
         | some (.phase c) => some (BitVec.ofNat 8 c.toNat)
         | some .barrier => if s.deadBarrier t i then some 0xFF else none
         | some .other => none
         | none => if collective i = some true && s.ready t i && !s.isReady t then some 0xFF else none)
    | _ => none

/-- The team is deadlocked (R172). -/
def State.deadlocked (s : State) (team : Nat) : Bool :=
  let ts := s.liveOfTeam team
  !ts.isEmpty && s.resident team && (s.ops.all fun o => o.who.team ≠ team || o.waitsSpawn) && ts.all fun t => (s.deadWait t).isSome

/-- Ends the wait of a thread for a placement, with no further effect (R172). -/
def State.endPlacements (s : State) (t : TRef) : State :=
  let s := s.setThread t fun x => { x with shed := none }
  ((s.opsOf t).filter (·.waitsSpawn)).foldl (fun s o => s.complete o) s

/-- CONVERGENCE_DEADLOCK: the trap in every live thread of the team; its waits end with no further effect (R172). -/
def execConvergenceDeadlock (team : Nat) (s : State) : Out :=
  .next (if s.deadlocked team then
    let ts := (s.liveOfTeam team).map fun t => (t, (s.deadWait t).getD 0xFF)
    ts.foldl (fun s x => ((s.endPlacements x.1).leaveMma x.1).raise x.1 trapConvergenceDeadlock x.2) s
  else s)

end Sys2Proof.Machine
end

