-- ==== Sys2Proof/Machine/Launches.lean ====
section
/-! DEFINITION. The dispatcher: taking launch records, the checks of a launch, dependences, the residence of its teams, and
its end (R167, R178, R370 to R373, R381 to R390, R398). -/

namespace Sys2Proof.Machine

/-! ### Reading for a launch (R381, R384) -/

/-- What a read in a launch's domain gives. -/
inductive LaunchRead where
  | ok (bs : List Byte) (s : State)
  | wait (s : State)
  | fail (s : State)
deriving Repr

/-- Reads bytes in a launch's domain as a snapshot; a fault is recorded and waited for (R320, R384 reason 0x03). -/
def State.launchRead (s : State) (l : Launch) (va : W64) (n : Nat) : LaunchRead :=
  if n = 0 then .ok [] s
  else if !canonical va || !canonical (va + BitVec.ofNat 64 (n - 1)) then .fail s
  else
    match s.translateRun { core := 512, lane := none, world := l.world, domain := l.dom } .read va n [] with
    | (.inr (x, i), s) =>
      (match s.openFault (.launch l.id) l.world l.dom x .read (va + BitVec.ofNat 64 i) 0 0 with
       | (.wait f, s) => .wait (s.setLaunch l.id fun y => { y with fault := some f })
       | (.deny _, s) => .fail s)
    | (.inl ls, s) =>
      let s := s.openLines ls va
      if ls.any s.poisoned || s.hostLost ls then .fail s else .ok (ls.map s.memByte) s

/-- The header of a launch's log, where it can be read (R371). -/
def State.logHeader (s : State) (l : Launch) : Option Nat :=
  let va := BitVec.ofNat 64 (l.rec_ 448 64)
  if !canonical va then none
  else
    match (s.translateRun { core := 512, lane := none, world := l.world, domain := l.dom } .read va 128 []).1 with
    | .inl ls => if ls.any s.poisoned then none else some (ofBytes (ls.map s.memByte))
    | .inr _ => none

/-! ### Start and dependences (R370 to R373, R388) -/

/-- The log that a record or replay launch starts with; recording sets the header's state (R371). -/
def State.openLog (s : State) (l : Launch) : State :=
  if l.rec_ 276 2 = 0 then s
  else
    let h := (s.logHeader l).getD 0
    let replay := l.rec_ 276 2 = 2
    let g : OrderLog :=
      { launch := l.id, replay := replay, addr := BitVec.ofNat 64 (l.rec_ 448 64), seg := bits h 64 32,
        ckpt := bits h 96 32, ckused := if replay then bits h 128 32 else 0, stopped := false, diverged := false,
        banks := [], abandoned := [], used := [] }
    let s := { s with logs := s.logs ++ [g] }
    if replay then s else s.logWrite g 5 1 1

/-- A launch starts (R382, R387). -/
def State.startLaunch (s : State) (l : Launch) : State :=
  (s.setLaunch l.id fun x => { x with state := .running, started := s.clock }).openLog l

/-- A dependence as it stands. -/
inductive DepTest where
  | met (s : State)
  | open (s : State)
  | wait (s : State)
  | fail (s : State)
deriving Repr

/-- Tests a dependence (R388). -/
def State.testDep (s : State) (l : Launch) (i : Nat) : DepTest :=
  let d := l.dep i
  match bits d 62 2 with
  | 1 =>
    (match s.launchRead l (BitVec.ofNat 64 (wrapN (sextN (bits d 0 57) 57) 64)) 16 with
     | .ok bs s => if (objOf (ofBytes bs)).phase ≠ bit d 61 then .met s else .open s
     | .wait s => .wait s
     | .fail s => .fail s)
  | 2 =>
    let x := s.queue l.world (bits d 57 4)
    let ticket := BitVec.ofNat 16 (bits d 0 16)
    if !x.recent ticket || x.ended.any (·.1 = ticket) then .met s else .open s
  | _ => .met s

/-- Tests a dependence of a waiting launch; the launch starts when all are met (R388). -/
def State.meetDep (s : State) (n i : Nat) : State :=
  match s.launch? n with
  | none => s
  | some l =>
    if l.state ≠ .waiting || l.fault.isSome || l.deps.getD i true then s
    else
      match s.testDep l i with
      | .met s =>
        let l := { l with deps := l.deps.set i true }
        let s := s.setLaunch n fun _ => l
        if l.deps.all id then s.startLaunch l else s
      | .open s | .wait s => s
      | .fail s => s.refuseLaunch l stFaulted 3

/-- A dependence of a waiting launch can be settled now. -/
def State.depDue (s : State) (n i : Nat) : Bool :=
  (s.launch? n).any fun l => l.state = .waiting && l.fault.isNone && !l.deps.getD i true && s.power &&
    (match s.testDep l i with
     | .open _ => false
     | _ => true)

/-- DEPENDENCE_MET (R388). -/
def execDependenceMet (launch dep : Nat) (s : State) : Out :=
  .next (if s.depDue launch dep then s.meetDep launch dep else s)

/-! ### The checks (R384) -/

/-- The order fields of a record break R370, or the log's header does (R371). -/
def State.orderBad (s : State) (l : Launch) : Bool :=
  l.rec_ 276 2 ≠ 0 && (l.rec_ 273 1 = 1 || !(s.logHeader l).any l.logOk)

/-- Checks 0x02 and 0x04 to 0x06 and the form of the dependences; a launch that passes waits for them or starts (R384,
R388). -/
def State.checkLaunch (s : State) (l : Launch) : State :=
  if !l.descOk || !l.agrees then s.refuseLaunch l stFaulted 2
  else if (l.cgrid ≠ 0 && l.teamCount % l.cgrid ≠ 0) || s.orderBad l then s.refuseLaunch l stFaulted 4
  else if s.shapeReason l = 5 then s.refuseLaunch l stNoResidence 5
  else if s.shapeReason l = 6 then s.refuseLaunch l stShape 6
  else if !(List.range 4).all fun i => depOk (l.dep i) then s.refuseLaunch l stFaulted 3
  else
    let deps := (List.range 4).map fun i => decide (bits (l.dep i) 62 2 = 0)
    let s := s.setLaunch l.id fun _ => { l with state := .waiting, deps := deps }
    if deps.all id then s.startLaunch l else (List.range 4).foldl (fun s i => s.meetDep l.id i) s

/-- Reads the descriptor and the argument block (R384 reason 0x03, R386). -/
def State.readLaunch (s : State) (l : Launch) : State :=
  match s.launchRead l (BitVec.ofNat 64 (l.rec_ 0 64)) 128 with
  | .wait s => s
  | .fail s => s.refuseLaunch l stFaulted 3
  | .ok kd s =>
    match s.launchRead l (BitVec.ofNat 64 (l.rec_ 64 64)) (4 * l.rec_ 306 7 + l.rec_ 313 9) with
    | .wait s => s
    | .fail s => s.refuseLaunch l stFaulted 3
    | .ok args s => s.checkLaunch { l with kd := BitVec.ofNat 1024 (ofBytes kd), args := args }

/-- Checks 0x01 and 0x0A; `d` is the domain of the thread that enqueued a device-side record (R384). -/
def State.beginLaunch (s : State) (l : Launch) (d : Option (BitVec 4)) : State :=
  if !l.recordOk then s.refuseLaunch l stFaulted 1
  else if !bit ((s.world l.world).droot.getD l.dom.toNat 0).toNat 0 || d.any (· ≠ l.dom) then
    s.refuseLaunch l stFaulted 0x0A
  else s.readLaunch l

/-! ### Taking a record (R381) -/

/-- Reads the next host record of a queue for a launch whose record has not been read (R381, R437). -/
def State.readRecord (s : State) (l : Launch) : State :=
  let x := s.queue l.world l.queue
  let ipa := x.base + 128 * (x.head.toNat % 2 ^ x.lgn)
  let wait := fun (e : Xl) =>
    match s.openFault (.launch l.id) l.world 0 e .read 0 0 0 with
    | (.wait f, s) => s.setLaunch l.id fun y => { y with fault := some f }
    | (.deny _, s) => s.refuseLaunch l stFaulted 3
  match s.stage2 l.world ipa .read with
  | .ok pa =>
    let p : Loc := ⟨false, pa⟩
    let s := s.openLines [p]
    if s.poisoned p then s.refuseLaunch l stFaulted 3
    else
      let l := { l with taken := true, record := BitVec.ofNat 1024 (s.memNat p 128) }
      let s := (s.setLaunch l.id fun _ => l).setQueue l.world l.queue fun x => { x with head := x.head + 1 }
      s.beginLaunch l none
  | .fault => wait (.s2 ipa true)
  | .pull => wait (.pull ipa)

/-- Takes the next record of a queue (R381). -/
def State.takeNext (s : State) (w q : Nat) : State :=
  match s.pendingIn w q with
  | [] => s
  | e :: _ =>
    let l := Launch.of s.ids w q e.ticket (if e.host then 0 else e.record)
    let l := { l with taken := !e.host }
    let s := { s with ids := s.ids + 1, queued := s.queued.erase e, launches := s.launches ++ [l] }
    if e.host then s.readRecord l else s.beginLaunch l (some e.domain)

/-- The launch of a queue that has not ended (R382). -/
def State.activeIn (s : State) (w q : Nat) : Option Launch :=
  s.launches.find? fun l => l.world = w && l.queue = q && l.state ≠ .ended

/-- The queues of a world are served: it is resident and runs, and its partition neither waits for its next period nor switches
(R387, R401, R403, R431). -/
def State.serves (s : State) (w : Nat) : Bool :=
  s.power && !s.halted && s.link && s.worldHere w && (s.world w).bound && (s.world w).tdi = .run &&
    (s.partOf w).any fun p => !p.capped && p.switching.isNone

/-- The dispatcher takes a record of the queue, or goes on with the launch whose record or memory it is reading. -/
def State.takeDue (s : State) (w q : Nat) : Bool :=
  s.serves w &&
    (match s.activeIn w q with
     | some l => l.state = .checking && l.fault.isNone
     | none => (s.queue w q).enabled && !(s.pendingIn w q).isEmpty)

/-! ### Residence (R386, R387, R389) -/

/-- Cores in order of preference: one first, then those with fewer teams first. -/
def State.coreOrder (s : State) (cores : List Nat) (first : Nat) : List Nat :=
  cores.filter (· = first) ++
    (List.range 65).flatMap fun n => cores.filter fun c => c ≠ first && (s.slotsOn c).length = n

/-- Starts team j of a launch on a core with room for it and its frame (R389, R391). The fetch buffers of the world on a
core that the launch comes to are discarded (R167). -/
def State.placeTeam (s : State) (l : Launch) (j core : Nat) : Option State :=
  if !s.frameRoom l.world l.frame then none
  else
    (s.roomFor core ((List.range l.teamGroups).map l.budgetOf) l.granules l.stageEntries).map fun qs =>
      let s := if s.teams.any fun m => m.launch = l.id && m.core = core then s else s.discardFetch core l.world
      s.startTeam l j core qs

/-- Places teams on different cores of a list, up to a number: the state and how many are left. -/
def State.spreadTeams (s : State) (l : Launch) (j : Nat) : List Nat → Nat → State × Nat
  | [], n => (s, n)
  | c :: cs, n =>
    if n = 0 then (s, 0)
    else
      match s.placeTeam l j c with
      | some s => s.spreadTeams l (j + 1) cs (n - 1)
      | none => s.spreadTeams l j cs n

/-- Places the next team of a launch on a core, or its next cluster grid on the core's cluster (R389). -/
def State.placeNext (s : State) (p : Partition) (l : Launch) (core : Nat) : Option State :=
  let next := fun (s : State) => s.setLaunch l.id fun x => { x with next := x.next + max 1 l.cgrid }
  if !(s.usable p).contains core then none
  else if l.cgrid = 0 then (s.placeTeam l l.next core).map next
  else
    let cores := s.coreOrder ((s.usable p).filter fun c => c / 64 = core / 64) core
    match s.spreadTeams l l.next cores l.cgrid with
    | (s, 0) => some (next s)
    | _ => none

/-- Places all the remaining teams of a persistent launch, the first ones at a core (R389). -/
def State.placeAll (p : Partition) (core : Nat) : Nat → State → Launch → Option State
  | 0, _, _ => none
  | fuel + 1, s, l =>
    if l.teamCount ≤ l.next then some s
    else
      match (s.coreOrder (s.usable p) core).findSome? fun c => s.placeNext p l c with
      | none => none
      | some s => State.placeAll p core fuel s { l with next := l.next + max 1 l.cgrid }

/-- Places what can be placed of a launch at a core (R389). -/
def State.placeAt (s : State) (l : Launch) (core : Nat) : Option State :=
  (s.partOf l.world).bind fun p =>
    if l.persistent then
      (if (s.usable p).contains core then State.placeAll p core 32768 s l else none)
    else s.placeNext p l core

/-- Somewhere in the partition the launch can be placed. -/
def State.placeable (s : State) (l : Launch) : Bool :=
  (s.partOf l.world).any fun p => (s.usable p).any fun c => (s.placeAt l c).isSome

/-- Faults of a team's threads that are open (R321). -/
def State.teamFaulted (s : State) (team : Nat) : Bool :=
  s.faults.any fun f => !f.notice && (match f.source with
    | .thread t => t.team = team
    | _ => false)

/-- Saved teams of a launch that wait for no fault. -/
def State.savedTeams (s : State) (l : Launch) : List Team :=
  s.teams.filter fun m => m.launch = l.id && m.place = .frame && !(s.liveOfTeam m.id).isEmpty && !s.teamFaulted m.id

def State.prioOf (s : State) (l : Launch) : Nat := (s.queue l.world l.queue).prio

/-- The launch may dispatch teams: it runs, and its saved teams come first (R387, R394). -/
def State.dispatches (s : State) (l : Launch) : Bool :=
  l.state = .running && l.fatal.isNone && s.serves l.world && l.next < l.teamCount && (s.savedTeams l).isEmpty

/-- Saved launches come before an unstarted launch of equal or lower priority (R390). -/
def State.savedFirst (s : State) (l : Launch) : Bool :=
  l.next = 0 && s.launches.any fun x => x.world = l.world && x.id ≠ l.id && s.prioOf l ≤ s.prioOf x &&
    (x.state = .parked || x.state = .running) && !(s.savedTeams x).isEmpty

/-- Place of a queue in the round that begins after the queue served last (R387). -/
def Partition.round (p : Partition) (w q : Nat) : Nat :=
  (q + 1024 * 16 + 16 * w - (16 * p.served.1 + p.served.2 + 1)) % 1024

/-- A launch is served before another (R387). -/
def State.servedBefore (s : State) (p : Partition) (x l : Launch) : Bool :=
  s.prioOf l < s.prioOf x ||
    (s.prioOf l = s.prioOf x && p.round x.world x.queue < p.round l.world l.queue)

/-- A formed group that waits goes ahead of a launch's teams of equal or lower priority (R296; DEDUCED, log entry 126). -/
def State.formedFirst (s : State) (l : Launch) : Bool :=
  s.formed.any fun f => f.world = l.world && (s.launch? f.launch).any fun x => s.formedReady f x && s.prioOf l ≤ s.prioOf x

/-- The launch is the next one that the dispatcher serves. -/
def State.turnOf (s : State) (l : Launch) : Bool :=
  (s.partOf l.world).any fun p => s.dispatches l && !s.savedFirst l && !s.formedFirst l &&
    !(s.launches.any fun x => x.id ≠ l.id && x.world = l.world && s.dispatches x && !s.savedFirst x &&
      s.servedBefore p x l && s.placeable x)

/-- TEAM_RESIDENCE: the next team of a launch, its next cluster grid, or all its teams become resident (R387, R389). -/
def execTeamResidence (launch core : Nat) (s : State) : Out :=
  .next (match s.launch? launch with
    | none => s
    | some l =>
      if !s.turnOf l then s
      else
        match s.placeAt l core with
        | some s => s.setPart (s.world l.world).part fun p => { p with served := (l.world, l.queue) }
        | none => s)

/-! ### End (R178, R298, R373, R385, R398) -/

/-- A launch's grid is over: every thread has ended, nothing of them is in flight, no lay-by holds an entry (R79, R298,
R385). -/
def State.launchOver (s : State) (l : Launch) : Bool :=
  (l.state = .running || l.state = .soft || l.state = .grace || l.state = .parked) && l.teamCount ≤ l.next &&
    (s.teams.all fun m => m.launch ≠ l.id ||
      ((s.liveOfTeam m.id).isEmpty && !m.finalTurn && m.releases.isEmpty && !(s.ops.any fun o => o.who.team = m.id) &&
        !(s.copies.any fun c => c.team = m.id) && !(s.staging.any fun e => e.team = m.id) &&
        !(s.wbuf.any fun e => e.who.team = m.id))) &&
    !(s.laybys.any fun x => x.launch = l.id) && !(s.formed.any fun x => x.launch = l.id) &&
    !(s.remotes.any fun r => r.world = l.world && r.kind = flWrite && !r.done)

/-- Ends a launch with a fatal trap: its notice, and what R178 does (R384 reason 0x08, R398). -/
def State.endFatal (s : State) (l : Launch) (r : Trap) (t : TRef) : State :=
  let entry := BitVec.ofNat 64 (r.record (s.thread t))
  (s.launchNotice l 0x10 entry r.addr r.pc).cutLaunch l stFaulted 8

def State.endDue (s : State) (n : Nat) : Bool :=
  s.power && (s.launch? n).any fun l => l.state ≠ .ended &&
    (if l.state = .stopped then s.written l else l.fatal.isSome || s.launchOver l)

/-- LAUNCH_END (R178, R373, R385). -/
def execLaunchEnd (n : Nat) (s : State) : Out :=
  .next (match s.launch? n with
    | none => s
    | some l =>
      if !s.endDue n then s
      else if l.state = .stopped then s.endLaunch l l.status l.reason
      else
        match l.fatal with
        | some (r, t) => s.endFatal l r t
        | none => s.endLaunch l stOk 0)

end Sys2Proof.Machine
end

