-- ==== Sys2Proof/Machine/Traps.lean ====
section
/-! DEFINITION. The delivery of traps: which of a thread's traps is delivered, the order among the threads of a group,
fatal traps, and the parking of a group that has no handler for PREEMPT (R173, R177, R178, R349, R396). -/

namespace Sys2Proof.Machine

/-- The lower code of two traps; the first stands when they are equal (R177). -/
def Trap.lower (a b : Trap) : Trap := if b.code < a.code then b else a

/-- A PREEMPT that no handler takes: it parks the group (R396). -/
def State.parks (s : State) (t : TRef) (r : Trap) : Bool := r.code = trapPreempt && (s.groupOf t).hdl = 0

/-- The trap that is delivered next: the lowest code among the thread's own and the pending ones, which are held while
the thread is in handler mode (R177); a PREEMPT that parks the group is never delivered (R178). -/
def State.candidate (s : State) (t : TRef) : Option Trap :=
  let x := s.thread t
  match x.trap.toList ++ (if x.handler then [] else x.async.filter fun r => !s.parks t r) with
  | [] => none
  | r :: rs => some (rs.foldl Trap.lower r)

/-- A trap that is fatal ends the launch, or unwinds the innermost call of its group with the lowest code (R178,
R349). -/
def State.fatalTrap (s : State) (t : TRef) (r : Trap) : State :=
  if (s.groupOf t).gfp = 0 then s.makeFatal t r
  else s.setGroup t.team t.gid fun g =>
    { g with unwind := some (match g.unwind with
      | some c => if r.code < c then r.code else c
      | none => r.code) }

/-- The instruction with which a thread waits at a turn point, where PREEMPT may take it out of that wait: the wait of one
thread only (R357, R396). -/
def State.turnOp (s : State) (t : TRef) : Option Op :=
  if (s.thread t).turn.isNone then none
  else (s.opsOf t).find? fun o => o.phase = .turn && (match o.instr with
    | .ldk _ | .qidle _ | .qtest _ => false
    | _ => true)

/-- The thread has stalled for a trap, but for an instruction at a turn point that PREEMPT withdraws (R44, R173 step 1,
R396). -/
def State.stalledFor (s : State) (t : TRef) (r : Trap) : Bool :=
  match s.turnOp t with
  | some o => r.code = trapPreempt && (s.opsOf t).all fun p => p.id = o.id || p.la = 15
  | none => s.stalled t && (s.thread t).turn.isNone

/-- Nothing but a trap holds the thread. -/
def State.trapFree (s : State) (t : TRef) : Bool :=
  let x := s.thread t
  let m := s.team t.team
  x.live && s.power && s.resident t.team && x.fault.isNone && x.shed.isNone && (s.groupOf t).unwind.isNone &&
    (s.groupOf t).parked.isNone &&
    (s.launch? m.launch).any fun l => l.fatal.isNone && (l.state = .running || l.state = .soft || l.state = .grace)

/-- A trap of a thread may be delivered; of several threads of a group, the lowest code and then the lowest home lane
comes first (R177). -/
def State.deliverable (s : State) (t : TRef) : Option Trap :=
  if !s.trapFree t then none
  else (s.candidate t).bind fun r => if s.stalledFor t r then some r else none

/-- Takes a thread out of its wait at a turn point: the instruction and its entry are withdrawn, and the thread stands at
it again (R363, R396). -/
def State.leaveTurn (s : State) (t : TRef) : State :=
  match s.turnOp t with
  | none => s
  | some o =>
    let s := { s.complete o with staging := s.staging.filter fun (e : Stage) => !(e.op = o.id && e.rmw.isSome) }
    s.setThread t fun x => { x with turn := none, pc := o.pc }

def State.trapDue (s : State) (t : TRef) : Bool :=
  match s.deliverable t with
  | none => false
  | some r => (s.liveOfGroup t.team t.gid).all fun u =>
      match s.deliverable u with
      | none => true
      | some q => r.code < q.code || (r.code = q.code && t.lane ≤ u.lane)

/-- A group without a handler parks when a PREEMPT is pending in each of its threads and they have stalled; threads that
wait for a turn or a lay-by stay in that wait (R396). -/
def State.parkDue (s : State) (team gid : Nat) : Bool :=
  let ts := (s.liveOfGroup team gid).filter fun u => (s.thread u).shed.isNone
  (s.group team gid).hdl = 0 && (s.group team gid).parked.isNone && (s.group team gid).unwind.isNone && s.resident team &&
    !ts.isEmpty && ts.all fun u =>
      let x := s.thread u
      !x.handler && x.trap.isNone && x.fault.isNone && (x.async.any (·.code = trapPreempt)) &&
        (s.stalled u || x.turn.isSome)

def State.parkGroup (s : State) (team gid : Nat) : State :=
  let s := { s with threads := s.threads.map fun (x : Thread) =>
               if x.id.team = team ∧ x.id.gid = gid then { x with async := x.async.filter (·.code ≠ trapPreempt) } else x }
  s.setGroup team gid fun g => { g with parked := some (0, 1023) }

/-- The record of a trap that belongs to the thread's next instruction names it now (R176). -/
def Trap.at (r : Trap) (pc : W64) : Trap := if r.next then { r with pc := pc, resume := pc } else r

/-- A delivered trap leaves the pending ones; the thread's own one waits with them when another came first (R177). It
ends a sleep, a wait at a convergence register or a barrier object, and the wait for a waymark's lines (R165, R262, R396). -/
def Thread.delivered (x : Thread) (r : Trap) : Thread :=
  { x with
    trap := none
    async := if x.trap = some r then x.async else x.async.erase r ++ x.trap.toList
    sleep := none, bwait := none, joins := false, landing := none }

/-- TRAP_DELIVERY: delivers the thread's next trap (R173, R177, R178), or parks its group (R396). -/
def execTrapDelivery (t : TRef) (s : State) : Out :=
  .next (if s.trapDue t then
    match s.candidate t with
    | none => s
    | some r =>
      let s := s.leaveTurn t
      match s.takeTrap t (r.at (s.thread t).pc) with
      | .waits s => s
      | .fatal s => ((s.setThread t (·.delivered r)).leaveMma t).fatalTrap t (r.at (s.thread t).pc)
      | .entered s => (s.setThread t (·.delivered r)).leaveMma t fun x => !x.released
  else if s.parkDue t.team t.gid then s.parkGroup t.team t.gid
  else s)

end Sys2Proof.Machine
end

