-- ==== Sys2Proof/Machine/Translate.lean ====
section
/-! DEFINITION. The translation engine: TLBI and XLATE, fault records and their dispositions, host pages, post-copy pulls
and the dirty bitmaps' registers (R311 to R335). -/

namespace Sys2Proof.Machine

/-! ### TLBI (R330 to R332) -/

/-- Operand values of TLBI and XLATE: address, domain and page count. -/
def State.sysSample (s : State) (t : TRef) (f : SysF) : Nat × Nat × Nat :=
  (s.opnd64 t f.a, s.opnd32 t f.b, s.opnd32 t f.c)

/-- The forms of TLBI: which operands they have. -/
inductive Sweep where
  | va | range | dom | world
deriving DecidableEq, Repr

def sweepOf : Instr → Option Sweep
  | .tlbiVa _ => some .va
  | .tlbiRange _ => some .range
  | .tlbiDom _ => some .dom
  | .tlbiWorld _ => some .world
  | _ => none

/-- The trap of a TLBI's operands (R330). -/
def sweepTrap (k : Sweep) (a : W64) (d : Nat) : Option W64 :=
  if (k = .va || k = .range) && !canonical a then some a
  else if k ≠ .world && 15 < d then some 0
  else none

/-- A TLBI covers the addresses from lo to hi of a domain (R332). -/
def coversRange (k : Sweep) (a d c : Nat) (dom : BitVec 4) (lo hi : Nat) : Bool :=
  let start := a % 2 ^ 57 / 4096 * 4096
  match k with
  | .world => true
  | .dom => dom.toNat = d
  | .va => dom.toNat = d && lo ≤ a % 2 ^ 57 && a % 2 ^ 57 < hi
  | .range => dom.toNat = d && (1048576 < c || (lo < start + 4096 * c && start < hi))

/-- A TLBI covers a cached translation: by the page that it comes from, of any size (R332). -/
def covers (k : Sweep) (a d c : Nat) (x : Xlat) : Bool :=
  let leaf := 2 ^ pageShift x.leaf
  let lo := x.vpage * 2 ^ x.shift / leaf * leaf
  coversRange k a d c x.domain lo (lo + leaf)

/-- An entry of a walk cache lies on a covered path (R332). -/
def coversWalk (k : Sweep) (a d c : Nat) (x : WalkEntry) : Bool :=
  let n := 2 ^ (12 + 9 * x.level)
  coversRange k a d c x.domain (x.pre * n) ((x.pre + 1) * n)

def State.sweepIssue (s : State) (i : Instr) (f : SysF) (k : Sweep) : State :=
  s.forIssue i f.toCommon fun t s =>
    let (a, d, c) := s.sysSample t f
    match sweepTrap k (BitVec.ofNat 64 a) d with
    | some addr => s.raise t trapAccessViolation 0 addr
    | none => (s.start t i f.toCommon a d c 0).2

/-- TLBI.va (R330, R332). -/
def execTlbiVa (f : SysF) (s : State) : Out := .next (s.sweepIssue (.tlbiVa f) f .va)

/-- TLBI.range (R330, R332). -/
def execTlbiRange (f : SysF) (s : State) : Out := .next (s.sweepIssue (.tlbiRange f) f .range)

/-- TLBI.dom (R330, R332). -/
def execTlbiDom (f : SysF) (s : State) : Out := .next (s.sweepIssue (.tlbiDom f) f .dom)

/-- TLBI.world (R330, R332). -/
def execTlbiWorld (f : SysF) (s : State) : Out := .next (s.sweepIssue (.tlbiWorld f) f .world)

/-- Makes the waymarks of a world and of one domain, or of every domain, stale (R166). -/
def State.staleWorld (s : State) (w : Nat) (d : Option (BitVec 4)) : State :=
  { s with threads := s.threads.map fun (x : Thread) =>
             if s.resident x.id.team ∧ s.worldOf x.id = w then
               { x with wm := x.wm.map fun m => if m.valid && d.all (· = m.domain) then { m with pstate := 3 } else m }
             else x }

/-- The accesses in flight that may have used a translation that a TLBI discards: the operations of the world that have
translated, in one of its domains. Of its own thread's later ones those that wait for the TLBI itself, since they are ordered
after it, have not to be complete (R75). -/
def State.usersOf (s : State) (o : Op) (d : Option (BitVec 4)) : List Nat :=
  (s.ops.filter fun p => p.id ≠ o.id && !(p.who = o.who && waitsEarlier p.instr) && s.worldOf p.who = s.worldOf o.who &&
    d.all (· = p.domain) && !p.locs.isEmpty && p.phase ≠ .turn && p.phase ≠ .again).map (·.id)

/-- Begins the sweep of a TLBI (R332): it discards the translations, and names what it still waits for. -/
def State.beginSweep (s : State) (o : Op) (k : Sweep) : State :=
  let w := s.worldOf o.who
  let d := if k = .world then none else some (BitVec.ofNat 4 o.b)
  let users := s.usersOf o d
  let writes := (s.wbuf.filter (·.world = w)).map (·.id)
  if k = .range ∧ o.c = 0 then s.complete o
  else
    let s := s.sweep fun x => x.world = w && covers k o.a o.b o.c x
    let s := s.sweepWalks fun x => x.world = w && coversWalk k o.a o.b o.c x
    let s := { s with lastPage := s.lastPage.filter fun (p : LastPage) =>
      !(p.page.world = w && d.all (· = p.page.domain)) }
    (s.staleWorld w d).setOp o.id fun y => { y with phase := .result, data := users, tiles := writes }

/-! ### XLATE (R333) -/

/-- The access kind that a subop names. -/
def xlateAcc (n : Nat) : Acc := if n = 0 then .read else if n = 1 then .write else .fetch

/-- The result word from a leaf: its level, size code and entry. -/
def xlateWord (acc : Acc) (va lvl : Nat) (e : Nat) : Nat :=
  let size := (leafSize lvl (pteC e)).toNat
  let flags := size * 2 ^ 5 + bitAt (pteH e) 4 + bitAt (pteD e) 3 + bitAt (pteX e) 2 + bitAt (pteW e) 1
  let kind := if acc.writes && !pteW e then 2 else if acc = .fetch && !pteX e then 3 else 0
  if kind = 0 then fieldAt lvl 52 4 + fieldAt (leafOut ⟨e, lvl, 0⟩ va / 4096) 12 40 + flags + 1
  else fieldAt lvl 52 4 + fieldAt kind 8 4 + flags

/-- The level of a cached page size. -/
def sizeLevel (n : BitVec 2) : Nat := if n.toNat < 2 then 0 else n.toNat - 1

/-- The walk of XLATE (R315, R333); a table entry that stage 2 does not map ends it as not present. -/
def State.xlateWalk (s : State) (c : XCtx) (acc : Acc) (va : Nat) : Nat :=
  let stop := fun (k lvl : Nat) => fieldAt lvl 52 4 + fieldAt k 8 4
  match (s.walkWith (s.walkCached c va) c.world c.domain .read va).1 with
  | .leaf l => let l := s.blockLeaf c.world va l; xlateWord acc va l.level l.entry
  | .fault k lvl _ => stop k lvl
  | .s2 _ | .pull _ => stop 1 0

/-- The word of an XLATE: a cached translation of the page may be used (R318, R333). -/
def State.xlateResult (s : State) (o : Op) (acc : Acc) : Nat :=
  let va := o.a
  let c : XCtx := ⟨s.coreOf o.who, none, s.worldOf o.who, BitVec.ofNat 4 o.b⟩
  if !canonical (BitVec.ofNat 64 va) then fieldAt 9 8 4
  else
    match s.tlb.find? fun (x : Xlat) => x.core = c.core && x.world = c.world && x.domain = c.domain && x.inLeaf va with
    | some x =>
      if Config.useCached s.free (BitVec.ofNat 64 va) then xlateWord acc va (sizeLevel x.leaf) x.entry.toNat
      else s.xlateWalk c acc va
    | none => s.xlateWalk c acc va

/-- XLATE (R330, R333). -/
def execXlate (f : SysF) (s : State) : Out :=
  .next (s.forIssue (.xlate f) f.toCommon fun t s =>
    let (a, d, _) := s.sysSample t f
    if 15 < d then s.raise t trapAccessViolation 0 0
    else (s.start t (.xlate f) f.toCommon a d 0 0).2)

/-- TLBI or XLATE may go on: its release is performed; a sweep is over when what used a discarded translation is. -/
def State.translationDue (s : State) (o : Op) : Bool :=
  match o.phase, o.instr with
  | .pending, .xlate _ => true
  | .pending, i => (sweepOf i).isSome && s.released o .device
  | .result, i => (sweepOf i).isSome && !(s.ops.any fun p => o.data.contains p.id && p.phase ≠ .again) &&
      !(s.wbuf.any fun e => o.tiles.contains e.id)
  | _, _ => false

/-- TRANSLATION_OP_COMPLETE (R332, R333). -/
def execTranslationOpComplete (n : Nat) (s : State) : Out :=
  .next (match s.op? n with
    | none => s
    | some o =>
      if !s.translationDue o then s
      else
        match o.phase, o.instr with
        | .pending, .xlate f => s.completeWith o (s.xlateResult o (xlateAcc f.subop.toNat))
        | .pending, i => (match sweepOf i with
          | some k => s.beginSweep o k
          | none => s)
        | _, _ => s.complete o)

/-! ### Fault records (R320 to R323) -/

/-- The 64 bytes of a record or event with a number (R322, R437); the notices 0x10 and 0x11 set no source (R398). -/
def State.faultRecord (s : State) (f : FaultRec) (id : Nat) : Nat :=
  let src := if f.kind = 0x10 || f.kind = 0x11 then 0 else s.sourceCode f.source
  f.va.toNat + fieldAt id 64 32 + fieldAt f.kind 96 8 + fieldAt f.level 104 4 + fieldAt f.domain.toNat 108 4 +
    fieldAt f.world 112 6 + fieldAt f.access 118 2 + fieldAt src 120 4 + f.pc.toNat * 2 ^ 128 +
    fieldAt f.channel 192 8 + fieldAt f.ticket.toNat 224 16 + fieldAt f.queue 240 4 + f.entry.toNat * 2 ^ 256

/-- A fault of a thread is recorded once its team is saved (R321). -/
def State.sourceReady (s : State) (f : FaultRec) : Bool :=
  match f.source with
  | .thread t => f.notice || !s.resident t.team
  | _ => true

/-- The next record of a world's fault ring (R323). -/
def State.nextRecord (s : State) (w : Nat) : Option FaultRec :=
  s.faults.find? fun f => f.world = w && f.num.isNone && !f.pri && !f.pull && f.kind ≠ 0x14 && s.sourceReady f

/-- Two faults name one page: a stage-1 page of a domain, a page that is pulled, or one of an event. -/
def FaultRec.samePage (f g : FaultRec) : Bool :=
  decide (f.kind = 0x14) = decide (g.kind = 0x14) && f.pri = g.pri && f.pull = g.pull && f.world = g.world && f.domain = g.domain &&
    (if f.kind = 0x14 || f.pull then f.ipa = g.ipa else f.va.toNat / 4096 = g.va.toNat / 4096)

/-- Two faults share one record: they are one, or faults of threads of one team on one page (R321). -/
def FaultRec.twin (f g : FaultRec) : Bool :=
  f.id = g.id || (!f.notice && !g.notice && f.num = g.num && f.samePage g &&
    (match f.source, g.source with
     | .thread t, .thread u => t.team = u.team
     | _, _ => false))

/-- Records held because a world's ring is full (R316, R323). -/
def State.recordsHeld (s : State) (w : Nat) : Nat :=
  (s.faults.filter fun f => f.world = w && f.num.isNone && !f.pri && !f.pull && f.kind ≠ 0x14 && s.sourceReady f).length

/-- The ring of a world has room (R323). -/
def World.ringRoom (x : World) : Bool :=
  (x.frtail - BitVec.ofNat 32 (x.frhead.toNat)).toNat < 2 ^ bits x.frbase.toNat 0 5

/-- The place of the ring's next record. -/
def State.ringPlace (s : State) (w : Nat) : S2Res :=
  let x := s.world w
  s.stage2 w (bits x.frbase.toNat 12 40 * 4096 + 64 * (x.frtail.toNat % 2 ^ bits x.frbase.toNat 0 5)) .write

/-! ### Dispositions (R320, R323, R329) -/

/-- The threads that wait for a fault look to the next one of their instructions, if any. -/
def State.unwait (s : State) (n : Nat) : State :=
  { s with threads := s.threads.map fun (x : Thread) =>
             if x.fault = some n then { x with fault := (s.opsOf x.id).findSome? (·.fault) } else x }

/-- An instruction whose fault is not resolved raises a trap, in each of its threads where it is collective, or is
refused (R320, R345, R346). -/
def State.denyOp (s : State) (o : Op) (code : BitVec 8) : State :=
  match o.instr with
  | .gate _ => s.gateDenied o (if o.data.isEmpty then 2 else 0x0A)
  | .gret _ => s.makeFatal o.who ⟨trapGateFault, 0, o.pc, o.pc, 0, false⟩
  | .ldk _ | .cpym _ => s.groupTrap o code 0 o.elem
  | .qidle _ | .qtest _ => (s.ops.filter fun p => p.lead = o.id).foldl (fun s p => s.trapOp p code 0 o.elem) s
  | _ => s.trapOp o code 0 o.elem

/-- What a thread without a waiting instruction does when its fault is not resolved: a fetch traps, and a trap record
that cannot be written is fatal (R165, R173). -/
def State.denyThread (s : State) (f : FaultRec) (x : Thread) (code : BitVec 8) : State :=
  if f.access = 3 then s.raiseAt x.id code 0 x.pc x.pc
  else
    match s.candidate x.id with
    | some r => (s.setThread x.id (·.delivered r)).fatalTrap x.id (r.at x.pc)
    | none => s

/-- The spill at an address of a group's return stack is given up. -/
def State.dropSpill (s : State) (team gid : Nat) (va : W64) : State :=
  { s with threads := s.threads.map fun (x : Thread) =>
             let a := x.retbase + BitVec.ofNat 64 (8 * x.n)
             if x.id.team = team ∧ x.id.gid = gid ∧ 4 < x.ret.length ∧ va - a < 8 then
                { x with ret := x.ret.drop 1, n := x.n + 1 }
             else x }

/-- Ends the wait of a fault's source with a trap code and a copy's reason (R320, R321, R329). -/
def State.denyFault (s : State) (f : FaultRec) (code : BitVec 8) (reason : Nat) : State :=
  let s := { s with faults := s.faults.filter fun (x : FaultRec) => x.id ≠ f.id }
  match f.source with
  | .thread _ =>
    let os := s.ops.filter fun o => o.fault = some f.id
    let ts := s.threads.filter fun x => x.fault = some f.id && !(os.any fun o => o.who = x.id)
    let s := os.foldl (fun s o => s.denyOp o code) s
    (ts.foldl (fun s x => s.denyThread f x code) s).unwait f.id
  | .copy n =>
    (match s.copy? n with
     | some c =>
       let s := s.setCopy n fun c =>
         { c with fault := none, reason := reason, failAddr := f.va,
                  status := if c.kind = .multi then none else some stFaulted }
       s.settleCpym c.group
     | none => s)
  | .loader n => (match s.slotQ.find? fun (j : SlotJob) => j.id = n with
    | some j => (s.setJob n fun y => { y with fault := none }).verified { j with fault := none } 7 [] 0
    | none => s)
  | .background team gid =>
    (s.liveOfGroup team gid).foldl (fun s t => s.raiseAsync t trapAccessViolation f.va) (s.dropSpill team gid f.va)
  | .slotRelease team gid =>
    (match s.nextRelease team gid with
     | some frame => (s.slotLost team gid f.va frame).releaseNext team gid 0 0
     | none => s)
  | .fabric => s
  | .launch n => (match s.launch? n with
    | some l => s.refuseLaunch { l with fault := none } stFaulted 3
    | none => s)

/-- Ends the wait of a fault's source with disposition 0: what waited goes on, instructions of a resident team at once
(R320). -/
def State.retryFault (s : State) (f : FaultRec) : State :=
  let s := { s with faults := s.faults.filter fun (x : FaultRec) => x.id ≠ f.id }
  match f.source with
  | .thread _ =>
    let os := s.ops.filter fun o => o.fault = some f.id
    let s := { s with ops := s.ops.map fun (o : Op) => if o.fault = some f.id then { o with fault := none } else o }
    let s := s.unwait f.id
    os.foldl (fun s o => if s.resident o.who.team then s.reissue { o with fault := none } else s) s
  | .copy n => s.setCopy n fun c => { c with fault := none }
  | .loader n => s.setJob n fun j => { j with fault := none }
  | .launch n => s.setLaunch n fun l => { l with fault := none }
  | .background _ _ | .slotRelease _ _ | .fabric => s

/-- A disposition: 0 resolved, 1 PAGE_FAULT, 2 ACCESS_VIOLATION (R316, R320). -/
def State.dispose (s : State) (f : FaultRec) (disp : Nat) : State :=
  if disp = 0 then s.retryFault f
  else if disp = 1 then s.denyFault f trapPageFault 3
  else s.denyFault f trapAccessViolation 4

/-- FAULT_RECORD_WRITE: the next record or notice of a world goes to its fault ring; where the ring is disabled, the
fault takes disposition 1 and a notice is discarded (R322, R323). -/
def execFaultRecordWrite (w : Nat) (s : State) : Out :=
  .next (match s.nextRecord w with
    | none => s
    | some f =>
      let gone := { s with faults := s.faults.filter fun (x : FaultRec) => x.id ≠ f.id }
      if !(s.world w).ringOn then (if f.notice then gone else s.dispose f 1)
      else if !(s.world w).ringRoom then s
      else
        match s.ringPlace w with
        | .ok pa =>
          let id := (s.world w).frnext
          let s' := if f.notice then gone
            else { s with faults := s.faults.map fun (x : FaultRec) => if x.twin f then { x with num := some id } else x }
          let s' := if f.notice then s' else s'.sweepPage w f.domain f.va.toNat
          let s' := s'.writeNat ⟨false, pa⟩ 64 (s.faultRecord f id.toNat)
          let s' := s'.setWorld w fun x => { x with frtail := x.frtail + 1, frnext := x.frnext + 1 }
          (s'.perf w 8 1).signal w 0
        | _ => s)

/-- The open fault of a world with a record's number (R323). -/
def State.openRecord (s : State) (w : Nat) (id : BitVec 32) : Option FaultRec :=
  s.faults.find? fun f => f.world = w && !f.notice && f.kind ≠ 0x14 && f.num = some id

/-- A NOTIFY write that the device ignores is counted (R323). -/
def World.ignored (x : World) : World :=
  { x with frignored := if x.frignored = BitVec.allOnes 32 then x.frignored else x.frignored + 1 }

/-- Applies a NOTIFY write of a world that is resident, to every fault of the record (R321, R323). -/
def State.applyNotify (s : State) (w : Nat) (v : W64) : State :=
  match s.openRecord w (BitVec.ofNat 32 v.toNat), bits v.toNat 32 2 with
  | some _, 3 | none, _ => s.setWorld w World.ignored
  | some f, d => (s.faults.filter fun g => g.twin f && g.id ≠ f.id).foldl (fun s g => s.dispose g d) (s.dispose f d)

/-- NOTIFY: a write to the register, applied when its world is resident (R316, R323). -/
def execNotify (w : Nat) (v : W64) (s : State) : Out :=
  s.powered fun s => (if s.worldHere w then s.applyNotify w v else s.setWorld w fun x => { x with notes := x.notes ++ [v] })

/-! ### Notices -/

/-- Adds a notice about a fault's access. -/
def State.noticeOf (s : State) (f : FaultRec) (kind : Nat) : State :=
  let s' := s.notice { f with id := s.ids, kind := kind, num := none, pri := false, pull := false }
  { s' with ids := s.ids + 1 }

/-- PRI_RESPONSE: the host answers a page request of a fault (R324). -/
def execPriResponse (n : Nat) (ok : Bool) (s : State) : Out :=
  .next (match s.fault? n with
    | some f =>
      if !f.pri then s
      else if ok then s.retryFault f
      else (s.noticeOf f 0x06).dispose f 1
    | none => s)

/-- ATS_INVALIDATION: the host invalidates a range of host addresses of a world (R324). -/
def execAtsInvalidation (w : Nat) (host : W64) (n : Nat) (s : State) : Out :=
  .next (s.sweep fun x => x.world = w && x.out.host && x.out.addr < host.toNat + n && host.toNat < x.out.addr + 2 ^ x.shift)

/-! ### Live migration (R327 to R329) -/

/-- DBMCTL_SWAP: a write to DBMCTL with swap set (R327, R328). -/
def execDbmctlSwap (w : Nat) (v : W64) (s : State) : Out :=
  s.powered fun s => (s.setWorld w fun x =>
    let keep := x.dbmctl.toNat
    let new := v.toNat / 2 ^ 32 * 2 ^ 32 + bitAt (bit v.toNat 2 || bit keep 3) 3 + bitAt (bit keep 1) 1 + bitAt (bit v.toNat 0) 0
    { x with dbmctl := BitVec.ofNat 64 new })

/-- A swap of the dirty bitmaps is in progress. -/
def State.swapBusy (s : State) (w : Nat) : Bool := bit (s.world w).dbmctl.toNat 3

/-- DBM_SWAP_DONE: the recording moves to the other buffer (R328). -/
def execDbmSwapDone (w : Nat) (s : State) : Out :=
  .next (if s.swapBusy w then
    s.setWorld w fun x => { x with dbmctl := (x.dbmctl &&& ~~~8) ^^^ 2 }
  else s)

/-- The part of a mapping inside a range of IPAs. -/
def S2Map.inside (m : S2Map) (lo hi : Nat) : List S2Map :=
  let a := max m.ipa lo
  let b := min (m.ipa + m.bytes) hi
  if a < b then [{ m with ipa := a, bytes := b - a, pa := m.pa + (a - m.ipa) }] else []

/-- The parts of a mapping outside a range of IPAs. -/
def S2Map.outside (m : S2Map) (lo hi : Nat) : List S2Map := m.inside 0 lo ++ m.inside hi (2 ^ 53)

/-- Changes the mappings of a world inside a range of IPAs. -/
def State.remap (s : State) (w lo hi : Nat) (f : S2Map → S2Map) : State :=
  { s with s2 := s.s2.flatMap fun (m : S2Map) =>
      if m.world = w then m.outside lo hi ++ (m.inside lo hi).map f else [m] }

/-- The page of a world that waits for its pull: its physical address. -/
def State.pullPage (s : State) (w : Nat) (ipa : W64) : Option Nat :=
  (s.s2Find w ipa.toNat).bind fun m => if m.pull && ipa.toNat % 4096 = 0 then some (m.pa + (ipa.toNat - m.ipa)) else none

/-- The faults that wait for the pull of a page. -/
def State.pullFaults (s : State) (w : Nat) (ipa : W64) : List FaultRec :=
  s.faults.filter fun f => f.pull && f.world = w && f.ipa = ipa.toNat

/-- The pull of a page has not completed within its limit (R329). -/
def State.pullLate (s : State) (w : Nat) (ipa : W64) : Bool :=
  (s.pullPage w ipa).isSome && (s.pullFaults w ipa).any fun f => f.deadline ≤ s.clock

/-- PULL_TIMEOUT: the page is poisoned, its waiting sources end, and a notice goes to the ring (R329). -/
def execPullTimeout (w : Nat) (ipa : W64) (s : State) : Out :=
  .next (match s.pullPage w ipa with
    | none => s
    | some pa =>
      if !s.pullLate w ipa then s
      else
        let fs := s.pullFaults w ipa
        let s := s.remap w ipa.toNat (ipa.toNat + 4096) fun m => { m with pull := false }
        let s := (List.range 32).foldl (fun s i => s.setPoison (Loc.line ⟨false, pa + 128 * i⟩)) s
        let s := match fs with
          | f :: _ => s.noticeOf f 0x07
          | [] => s
        fs.foldl (fun s f => s.denyFault f trapMigrationLost 5) s)

/-- PULL_COMPLETE: the bytes of a page arrive from the source device, and what waited for it goes on (R329). -/
def execPullComplete (w : Nat) (ipa : W64) (bs : List Byte) (s : State) : Out :=
  .next (match s.pullPage w ipa with
    | none => s
    | some pa =>
      let fs := s.pullFaults w ipa
      let s := s.remap w ipa.toNat (ipa.toNat + 4096) fun m => { m with pull := false }
      let s := s.writeRun ⟨false, pa⟩ (bs.take 4096)
      let s := (List.range 32).foldl (fun s i => s.clearPoison (Loc.line ⟨false, pa + 128 * i⟩)) s
      fs.foldl (fun s f => s.retryFault f) s)

end Sys2Proof.Machine
end

