-- ==== Sys2Proof/Machine/Ladder.lean ====
section
/-! DEFINITION. The pre-emption ladder, PSAVED, and the saves of teams into context frames (R321, R392, R394 to R399). -/

namespace Sys2Proof.Machine

/-! ### The ladder (R394, R398, R400) -/

/-- G1 and G2 of a partition in cycles (R400). -/
def Partition.g1 (p : Partition) : Nat :=
  (if bits p.desc.toNat 976 16 = 0 then 50 else bits p.desc.toNat 976 16) * cyclesPerUs
def Partition.g2 (p : Partition) : Nat :=
  (if bits p.desc.toNat 992 16 = 0 then 2000 else bits p.desc.toNat 992 16) * cyclesPerUs

/-- Teams of a launch that are resident and have a live thread. -/
def State.residentTeams (s : State) (l : Nat) : List Team :=
  s.teams.filter fun m => m.launch = l && m.place = .resident && !(s.liveOfTeam m.id).isEmpty

/-- The launch is on the ladder. -/
def Launch.onLadder (l : Launch) : Bool := l.state = .soft || l.state = .grace

/-- A launch on the ladder is Parked when no team of it is resident any more; teams in fault frames count as saved (R394). -/
def State.parkLaunch (s : State) (n : Nat) : State :=
  match s.launch? n with
  | none => s
  | some l =>
    if l.onLadder && (s.residentTeams n).isEmpty then
      { s.setLaunch n fun x => { x with state := .parked, g1 := none, g2 := none } with
        teams := s.teams.map fun (m : Team) => if m.launch = n then { m with swapped := false } else m }
    else s

/-- The ladder starts on a running launch (R394): 1 room, 2 quantum, 3 time cap, 4 host. -/
def State.startLadder (s : State) (l : Launch) (cause : Nat) : State :=
  if l.state = .running then
    let g1 := ((s.partOf l.world).map (·.g1)).getD 0
    (s.setLaunch l.id fun x => { x with state := .soft, cause := cause, g1 := some (s.clock + g1), g2 := none }).parkLaunch
      l.id
  else if l.onLadder && cause = 4 then s.setLaunch l.id fun x => { x with cause := 4 }
  else s

/-- The ladder starts on every running launch of a world. -/
def State.ladderWorld (s : State) (w cause : Nat) : State :=
  (s.launches.filter fun l => l.world = w).foldl (fun s l => s.startLadder l cause) s

/-- A launch of priority 3 of which no team is resident, and which cannot be placed (R390). -/
def State.starved (s : State) (l : Launch) : Bool :=
  s.prioOf l = 3 && l.next < l.teamCount && (s.residentTeams l.id).isEmpty && l.state = .running && l.fatal.isNone &&
    s.serves l.world && !s.placeable l

/-- The launches that may give room, and the victim among them: the lowest priority, then the one that started last
(R390). -/
def State.victim (s : State) (w : Nat) : Option Launch :=
  match s.launches.filter fun l => l.world = w && l.state = .running && s.prioOf l < 3 && !(s.residentTeams l.id).isEmpty with
  | [] => none
  | l :: ls => some (ls.foldl (fun b x =>
      if s.prioOf x < s.prioOf b || (s.prioOf x = s.prioOf b && b.started < x.started) then x else b) l)

/-- A starved launch of a queue takes a victim: one at a time (R390). -/
def State.victimDue (s : State) (w q : Nat) : Bool :=
  (s.activeIn w q).any s.starved && (s.victim w).isSome && !(s.launches.any fun l => l.world = w && l.onLadder && l.cause = 1)

/-- DISPATCH_LAUNCH: the dispatcher takes a record of a queue and checks it (R381, R384), or its launch of priority 3
starts the ladder on a victim (R390). -/
def execDispatchLaunch (w q : Nat) (s : State) : Out :=
  .next (if s.takeDue w q then
    match s.activeIn w q with
    | some l => if l.taken then s.readLaunch l else s.readRecord l
    | none => s.takeNext w q
  else if s.victimDue w q then
    match s.victim w with
    | some l => s.startLadder l 1
    | none => s
  else s)

def State.g1Due (s : State) (n : Nat) : Bool :=
  s.power && (s.launch? n).any fun l => l.state = .soft && l.g1.any (· ≤ s.clock)

/-- G1_EXPIRY: PREEMPT is raised in every live thread of the victim's resident teams (R394, R396). -/
def execG1Expiry (n : Nat) (s : State) : Out :=
  .next (match s.launch? n with
    | none => s
    | some l =>
      if !s.g1Due n then s
      else
        let g2 := ((s.partOf l.world).map (·.g2)).getD 0
        let ts := (s.residentTeams n).flatMap fun m => s.liveOfTeam m.id
        let s := s.setLaunch n fun x => { x with state := .grace, g1 := none, g2 := some (s.clock + g2) }
        ts.foldl (fun s t => s.raiseAsync t trapPreempt 0) s)

/-- A launch is killed by the ladder (R398). -/
def State.killLaunch (s : State) (l : Launch) : State :=
  (s.launchNotice l 0x11 0 0 0).cutLaunch l stCancelled 7

def State.g2Due (s : State) (n : Nat) : Bool :=
  s.power && (s.launch? n).any fun l => l.state = .grace && l.g2.any (· ≤ s.clock)

/-- G2_EXPIRY (R398). -/
def execG2Expiry (n : Nat) (s : State) : Out :=
  .next (match s.launch? n with
    | some l => if s.g2Due n then s.killLaunch l else s
    | none => s)

/-! ### What keeps the ladder going (R390, R400, R403) -/

/-- A world has ready or saved work (R403): a record to take, a launch that goes on, or a saved team. -/
def State.hasWork (s : State) (w : Nat) : Bool :=
  (s.world w).bound && (s.world w).tdi = .run &&
    ((List.range 16).any (fun q => (s.activeIn w q).isNone && (s.queue w q).enabled && !(s.pendingIn w q).isEmpty) ||
      s.launches.any fun l => l.world = w && l.state ≠ .ended &&
        (l.state = .running || l.onLadder || l.state = .parked || (l.state = .checking && l.fault.isNone)))

/-- The reason for a launch's ladder holds. -/
def State.ladderStands (s : State) (l : Launch) : Bool :=
  l.cause = 4 || (l.cause = 1 && s.launches.any fun x => x.world = l.world && s.starved x) ||
    (s.partOf l.world).any fun p => p.capped || p.switching.any s.hasWork

def State.lapseDue (s : State) (n : Nat) : Bool := s.power && (s.launch? n).any fun l => l.onLadder && !s.ladderStands l

/-- PREEMPT that is raised and not delivered is withdrawn, and parked groups go on (R394, R397). -/
def State.resumeTeam (s : State) (team : Nat) : State :=
  let ps := s.ops.filter fun o => o.who.team = team && o.lead = o.id && (match o.instr with | .psaved _ => true | _ => false)
  let s := { s with
    threads := s.threads.map fun (x : Thread) =>
      if x.id.team = team then { x with async := x.async.filter (·.code ≠ trapPreempt) } else x
    groups := s.groups.map fun (g : Group) => if g.team = team then { g with parked := none } else g }
  ps.foldl (fun s o => s.completeGroup o stCancelled) s

/-- LADDER_LAPSE (R394, R397). -/
def execLadderLapse (n : Nat) (s : State) : Out :=
  .next (if !s.lapseDue n then s
    else
      let ms := (s.residentTeams n).map (·.id)
      let s := s.setLaunch n fun x => { x with state := .running, g1 := none, g2 := none, cause := 0 }
      ms.foldl (fun s m => s.resumeTeam m) s)

/-! ### PSAVED (R399) -/

/-- The first slice of a range operand. -/
def rangeSlice : Opnd → Nat
  | .slice _ st => st.toNat
  | _ => 0

/-- The effect of PSAVED once its group has stalled. -/
def State.launchPsaved (s : State) (o : Op) : State :=
  if !s.inGrace o.who.team then s.completeGroup o stCancelled
  else
    let s := { s with ops := s.ops.map fun (y : Op) => if y.lead = o.id then { y with phase := .queued } else y }
    s.setGroup o.who.team o.who.gid fun g => { g with parked := some (o.a, o.b) }

/-- PSAVED (R399). -/
def execPsaved (f : SysF) (s : State) : Out :=
  .next (s.groupIssue (.psaved f) f.toCommon (fun _ _ => (rangeSlice f.a, rangeSlice f.b, 0)) State.launchPsaved)

/-! ### What a save does with an incomplete instruction (R392) -/

/-- How an incomplete instruction is settled: it completes before the save, it stays as it is, or it is withdrawn. -/
inductive Fate where
  | first | stays | withdrawn
deriving DecidableEq, Repr

/-- How a save settles an instruction, TFREE apart (R213, R238, R261, R301, R344, R363, R374, R428). -/
def State.fateOf (s : State) (o : Op) : Fate :=
  match o.phase with
  | .again => .stays
  | .turn | .hold => .withdrawn
  | .recall | .remote => .first
  | ph =>
    match o.instr with
    | .talloc _ => if s.tileQ.contains o.id then .withdrawn else .first
    | .spawn _ | .tbind _ => if ph = .queued then .withdrawn else .first
    | .fbar _ | .cred _ | .credb _ => if ph = .pending then .withdrawn else .stays
    | .cpy _ | .cpys _ | .cpya _ | .rput _ | .rget _ => .stays
    | .cpym _ => if s.copies.any fun c => c.op = (o.lead) && c.group ≠ 0 then .first else .stays
    | .tmma _ | .fload _ | .floadClr _ | .fmode _ | .fsync _ | .psaved _ | .mfin _ => .stays
    | .tmmac _ => if s.tmmacs.any fun x => x.op = o.lead && x.met.isSome then .first else .stays
    | .mma _ => if s.mmas.any fun g => g.id = o.lead && s.mmaDue g then .first else .stays
    | _ => .first

/-- The threads of one issue are served in ascending home lane (R295, R299, R303). -/
def laneOrdered : Instr → Bool
  | .spawn _ | .wput _ | .wtake _ | .launch _ => true
  | _ => false

/-- An instruction that cannot complete before the save, since an access before it does not: one that it is ordered behind, of
its thread, or one of a lower home lane of its issue on the same bytes (R136). Every other instruction completes normally
(R146). -/
def State.standsBehind (s : State) (o : Op) : Bool :=
  o.phase = .pending && s.ops.any fun p => s.fateOf p ≠ .first &&
    ((waitsEarlier o.instr && p.who = o.who && p.seq < o.seq) ||
      (p.iss = o.iss && p.who.team = o.who.team && p.who.lane < o.who.lane &&
        (laneOrdered o.instr || p.locs.any o.locs.contains)))

/-- How a save settles an instruction: a TFREE stays where an instruction that stays names its tile, and what stands
behind one that stays or is withdrawn is withdrawn with it. -/
def State.fate (s : State) (o : Op) : Fate :=
  match o.instr, o.phase with
  | .tfree _, .again => .stays
  | .tfree _, _ =>
    if o.tiles.any fun n => s.tileBusy n fun p => s.fateOf p ≠ .first then .stays else .first
  | _, _ =>
    let x := s.fateOf o
    if x = .first && s.ops.any (fun q => q.lead = o.lead && s.standsBehind q) then .withdrawn else x

/-- What a core has written can be performed at system scope at once, as the save of a team asks (R72, R74): no entry of its
buffer goes to a peer or to a line that another team's copy owns, and peers have acknowledged what went there. -/
def State.drainable (s : State) (core team : Nat) : Bool :=
  (s.wbuf.all fun e => e.core ≠ core || e.bytes.all fun x => !x.1.isPeer &&
    !(s.owned.any fun y => y.1 = x.1.line && (s.copy? y.2).all (·.team ≠ team))) &&
  !(s.remotes.any fun r => r.core = core && r.kind = flWrite && !r.done)

/-- Nothing holds the save of a team (R72, R392): its instructions are settled, its core's writes can be performed, its
transfers are at a flit's end. -/
def State.saveReady (s : State) (team : Nat) : Bool :=
  s.power && !s.halted && s.resident team && !(s.liveOfTeam team).isEmpty &&
    (s.ops.all fun o => o.who.team ≠ team || s.fate o ≠ .first) &&
    (s.copies.all fun c => c.team ≠ team || !s.awaitsCopy c.id) &&
    s.drainable (s.team team).core team && !(s.groups.any fun g => g.team = team && g.unwind.isSome)

/-! ### The save (R72, R135, R238, R392) -/

/-- Withdraws an instruction: it is executed again after the restore (R146). -/
def State.withdraw (s : State) (o : Op) : State :=
  let s := match o.instr with
    | .talloc f => { s.setHandle o.who.team f.h none with tileQ := s.tileQ.filter (· ≠ o.id) }
    | .tbind f => (s.setHandle o.who.team f.h none).setOp o.id fun y => { y with tiles := [] }
    | _ => s
  let s := { s with staging := s.staging.filter fun (e : Stage) => !(e.op = o.id && e.rmw.isSome) }
  let s := if o.phase = .turn then s.setThread o.who fun x => { x with turn := none } else s
  s.setOp o.id fun y => { y with phase := .again }

/-- A thread as its frame holds it: the remainder of a sleep, and only the slices that PSAVED keeps (R189, R392, R399). -/
def Thread.toFrame (x : Thread) (clock : Nat) (kept : Option (Nat × Nat)) : Thread :=
  let mask := match kept with
    | none => BitVec.allOnes 4096
    | some (lo, hi) => BitVec.ofNat 4096 (2 ^ (4 * (hi + 1 - lo)) - 1) <<< (4 * lo)
  { x with
    slices := x.slices &&& mask
    sleep := x.sleep.map fun (z : Sleep) => { z with deadline := z.deadline - clock }
    reuse := false, wait := 0 }

/-- Saves a team into its frame (R72, R238, R392): withdrawn instructions wait, copies stop at the boundary of a unit and give
up their lines, the core's writes are performed, and what the core held for its threads is dropped. -/
def State.saveTeam (s : State) (team : Nat) (swap : Bool) : State :=
  let m := s.team team
  let s := (s.ops.filter fun o => o.who.team = team && s.fate o = .withdrawn).foldl (fun s o => s.withdraw o) s
  let copies := (s.copies.filter fun c => c.team = team).map (·.id)
  let quads := (s.liveOfTeam team).map fun t => ((s.groupOf t).quad, t.lane)
  let s := { s with
    copies := s.copies.map fun (c : Copy) => if c.team = team then { c with stopped := true, own := [], part := 0, base := [] } else c
    owned := s.owned.filter fun x => !copies.contains x.2
    arrivals := s.arrivals.filter fun a => match a with
      | .shed t => t.team ≠ team
      | _ => true
    lastPage := s.lastPage.filter fun (p : LastPage) => !(p.core = m.core && quads.contains (p.quad, p.lane))
    threads := s.threads.map fun (x : Thread) =>
      if x.id.team = team then x.toFrame s.clock (s.groupOf x.id).parked else x }
  let s := s.flush fun (e : BufEntry) => e.core = m.core
  let s := (s.freeWindows fun n _ => n = team).setTeam team fun m => { m with place := .frame, swapped := swap }
  (s.perf m.world 7 1).parkLaunch m.launch

/-! ### When a team is saved -/

/-- The grace stage saves a team when each of its groups has parked or has ended (R397). -/
def State.graceSave (s : State) (team : Nat) : Bool :=
  s.inGrace team && s.saveReady team && (s.groupsOf team).all fun g =>
    (s.liveOfGroup team g.gid).isEmpty || g.parked.isSome

/-- A victim without a resident team is still to be parked (R394). -/
def State.parkOpen (s : State) (team : Nat) : Bool :=
  (s.launch? (s.team team).launch).any fun l => l.onLadder && (s.residentTeams l.id).isEmpty

/-- CONTEXT_SAVE: the grace stage saves a team (R392, R397), or its launch is Parked since its last team has ended
(R394). -/
def execContextSave (team : Nat) (s : State) : Out :=
  .next (if s.graceSave team then s.saveTeam team false
    else if s.parkOpen team then s.parkLaunch (s.team team).launch
    else s)

/-- The instruction at which a thread waits makes a quiet point (R395). -/
def State.quietAt (s : State) (t : TRef) : Bool :=
  (s.thread t).sleep.isSome ||
    (match s.nextInstr t with
     | some (.ok i) =>
       (match i with
        | .join _ | .bwait _ | .fbwait _ | .mma _ => s.blocked t i
        | i => collective i = some true && !s.isReady t)
     | _ => false)

/-- Quiet point of a team (R395). -/
def State.quietPoint (s : State) (team : Nat) : Bool :=
  let ts := s.liveOfTeam team
  (ts.all fun t => s.quietAt t && (s.thread t).fault.isNone && (s.thread t).turn.isNone) &&
    ts.any fun t => (s.thread t).sleep.any (·.yield)

def State.quietDue (s : State) (team : Nat) : Bool :=
  ((s.launch? (s.team team).launch).any fun l => l.state = .soft) && s.saveReady team && s.quietPoint team

/-- QUIET_POINT_SAVE (R395). -/
def execQuietPointSave (team : Nat) (s : State) : Out :=
  .next (if s.quietDue team then s.saveTeam team false else s)

/-- A fault of a thread of a team. -/
def FaultRec.ofTeam (f : FaultRec) (team : Nat) : Bool :=
  !f.notice && (match f.source with | .thread t => t.team = team | _ => false)

/-- Joins the faults of a team that name one page for the same kind of access into the first of them; those of several kinds
share a record (R321). -/
def State.mergeFaults (s : State) (team : Nat) : State :=
  let fs := s.faults.filter fun f => f.ofTeam team && f.num.isNone
  let first := fun (n : Nat) => match s.fault? n with
    | none => n
    | some f => if !fs.contains f then n else ((fs.find? fun g => g.samePage f && g.access = f.access).map (·.id)).getD n
  { s with
    faults := s.faults.filter fun (f : FaultRec) => first f.id = f.id
    threads := s.threads.map fun (x : Thread) => if x.id.team = team then { x with fault := x.fault.map first } else x
    ops := s.ops.map fun (o : Op) => if o.who.team = team then { o with fault := o.fault.map first } else o }

/-- The team's core is fenced (R33, R466). -/
def State.onFenced (s : State) (team : Nat) : Bool := s.mgmt.cores.contains (s.team team).core

def State.swapDue (s : State) (team : Nat) : Bool := (s.teamFaulted team || s.onFenced team) && s.saveReady team

/-- FAULT_SWAP: a team with a fault of its threads is saved; one record is left for each page (R321). A team on a core that
has been fenced is saved in the same way, for another core (R466). -/
def execFaultSwap (team : Nat) (s : State) : Out :=
  .next (if s.swapDue team then (s.saveTeam team (!s.onFenced team)).mergeFaults team else s)

end Sys2Proof.Machine
end

