-- ==== Sys2Proof/Machine/Restore.lean ====
section
/-! DEFINITION. The restore of teams from their context frames (R72, R146, R321, R392 to R394, R428). -/

namespace Sys2Proof.Machine

/-! ### The team's state comes back (R393) -/

/-- A thread as a restore brings it back: stale waymarks, and a sleep that counts its remainder down again (R189, R393). -/
def Thread.fromFrame (x : Thread) (clock : Nat) : Thread :=
  { x with
    prefetch := 0, landing := none
    wm := x.wm.map fun (m : Waymark) => if m.valid then { m with pstate := 3 } else m
    sleep := x.sleep.map fun (z : Sleep) => { z with deadline := z.deadline + clock }
    bwait := x.bwait.filter (·.released) }

/-- Puts the state of a saved team onto a core; unfinished transfers translate their pages again (R393, R428). What the core
has fetched for the world before is fetched again, since its threads may have executed ICINV elsewhere (R167). -/
def State.bringBack (s : State) (team core : Nat) : State :=
  let s := (s.discardFetch core (s.team team).world).setTeam team fun m =>
    { m with place := .resident, swapped := false, core := core, started := s.clock + 1 }
  { s with
    threads := s.threads.map fun (x : Thread) => if x.id.team = team then x.fromFrame s.clock else x
    groups := s.groups.map fun (g : Group) => if g.team = team then { g with parked := none } else g
    tiles := s.tiles.map fun (t : Tile) => if t.team = team then { t with core := core } else t
    copies := s.copies.map fun (c : Copy) =>
      if c.team = team then
        { c with
          stopped := false
          pages := if (c.kind = .rput || c.kind = .rget) && c.done < c.total then [] else c.pages }
      else c }

/-- What goes on after the restore: copies take their lines again in queue order, PSAVED completes, results that waited
are written, and withdrawn instructions issue again (R146, R238, R399, R428). -/
def State.goOn (s : State) (team : Nat) : State :=
  let mine := fun (o : Op) => o.who.team = team
  let queue := (s.channels.filter (·.team = team)).flatMap (·.queue)
  let s := queue.foldl (fun s n => match s.copy? n with
    | some c => s.takeOwnership c
    | none => s) s
  let s := (s.ops.filter fun o => mine o && o.lead = o.id && (match o.instr with | .psaved _ => true | _ => false)).foldl
    (fun s o => s.completeGroup o stOk) s
  let s := (s.ops.filter fun o => mine o && o.phase = .result && (match o.instr with | .cred _ | .credb _ => true | _ => false)).foldl
    (fun s o => s.finishRed o) s
  (s.ops.filter fun o => mine o && o.phase = .again && o.fault.isNone).foldl (fun s o => s.reissue o) s

/-! ### Room (R389, R393) -/

/-- Quads and budgets of the groups of a team that hold slices (R24). -/
def State.liveBudgets (s : State) (team : Nat) : List (Nat × Nat) :=
  ((s.groupsOf team).filter s.groupInUse).map fun g => (g.quad, g.budget)

/-- Granules that a saved team needs at level 0: its reservation and what its tiles hold beyond it; and at level 1. -/
def State.neededGranules (s : State) (m : Team) : Nat × Nat :=
  let ts := s.tiles.filter fun t => t.team = m.id
  (m.reserve + ((ts.filter (!·.level)).map fun t => t.granules - t.fromReserve).sum,
    ((ts.filter (·.level)).map (·.granules)).sum)

/-- A core has room for a saved team, whose groups keep their quads (R23, R389); a team of a persistent launch that a fault has
swapped out kept its slot and its registers (R321). -/
def State.restoreRoom (s : State) (m : Team) (core : Nat) : Bool :=
  let (g0, g1) := s.neededGranules m
  let hs := (s.handles.filter fun h => h.team = m.id).length
  let stage := ((s.launch? m.launch).map fun l => if m.formed then 0 else l.stageEntries).getD 0
  g0 + s.unreservedUsed core ≤ s.unreserved core && s.level1Used core + g1 ≤ 128 && s.tableUsed core + hs ≤ 1024 &&
    (if s.holdsSlot m then core = m.core
     else s.coreRoom core g0 stage && quadsFit ((List.range 4).map (s.quadUse core)) (s.liveBudgets m.id))

/-- Brings a saved team back to a core. -/
def State.restoreTeam (s : State) (m : Team) (core : Nat) : Option State :=
  if s.restoreRoom m core then some (s.bringBack m.id core) else none

/-- Brings saved teams back to different cores of a list. -/
def State.spreadBack (s : State) : List Nat → List Team → Option State
  | _, [] => some s
  | [], _ :: _ => none
  | c :: cs, m :: ms =>
    match s.restoreTeam m c with
    | some s => s.spreadBack cs ms
    | none => s.spreadBack cs (m :: ms)

/-- The saved members of a team's cluster grid, and the cores of those that are resident (R393). -/
def State.gridOf (s : State) (m : Team) : List Team × List Nat :=
  let all := s.teams.filter fun x => x.launch = m.launch && !x.formed && x.cgrid ≠ 0 && x.index / m.cgrid = m.index / m.cgrid &&
    !(s.liveOfTeam x.id).isEmpty
  (all.filter fun x => x.place = .frame, (all.filter fun x => x.place = .resident).map (·.core))

/-- Brings back a team, or the saved members of its cluster grid together, at a core (R393). -/
def State.restoreUnit (s : State) (p : Partition) (m : Team) (core : Nat) : Option State :=
  if !(s.usable p).contains core then none
  else if m.cgrid = 0 || m.formed then s.restoreTeam m core
  else
    let (saved, cores) := s.gridOf m
    if saved.any (fun x => s.teamFaulted x.id) || cores.any (fun c => c / 64 ≠ core / 64) then none
    else
      let free := (s.usable p).filter fun c => c / 64 = core / 64 && !cores.contains c
      s.spreadBack (s.coreOrder free core) (m :: saved.filter fun x => x.id ≠ m.id)

/-- Brings back every saved team of a persistent launch (R393, R394). -/
def State.restoreAll (p : Partition) (core : Nat) : Nat → State → List Team → Option State
  | 0, _, _ => none
  | fuel + 1, s, ms =>
    match ms.filter fun m => !s.resident m.id with
    | [] => some s
    | m :: rest =>
      match (s.coreOrder (s.usable p) core).findSome? fun c => s.restoreUnit p m c with
      | some s => State.restoreAll p core fuel s rest
      | none => none

/-! ### The step -/

/-- A launch whose saved teams may come back: it runs, or it is Parked and nothing of higher priority needs its room (R390,
R394). -/
def State.mayReturn (s : State) (l : Launch) : Bool :=
  l.fatal.isNone && s.serves l.world &&
    (l.state = .running || (l.state = .parked &&
      !(s.launches.any fun x => x.world = l.world && s.prioOf l < s.prioOf x && s.dispatches x &&
        (s.residentTeams x.id).isEmpty)))

/-- The images of the slots of a world are in the cache and bound to the world (R278, R369). -/
def State.slotsHere (s : State) (w : Nat) : Bool :=
  s.slots.all fun x => x.world ≠ w || x.state = .empty || s.images.any fun i => i.digest = x.digest && i.worlds.contains w

/-- A saved launch cannot come back to its partition as that now stands: its shape does not fit there, or an image of a slot is
gone (R34, R278, R369). -/
def State.unfit (s : State) (l : Launch) : Bool := s.shapeReason l ≠ 0 || !s.slotsHere l.world

/-- The restore of a saved team is refused. -/
def State.refusedRestore (s : State) (m : Team) : Bool :=
  m.place = .frame && !(s.liveOfTeam m.id).isEmpty && (s.launch? m.launch).any fun l =>
    s.mayReturn l && s.unfit l && l.restore ≠ stShape

/-- The teams that come back with a team at a core: the state with them, none where there is no room. -/
def State.restored (s : State) (m : Team) (core : Nat) : Option State :=
  match s.launch? m.launch with
  | none => none
  | some l =>
    if m.place ≠ .frame || (s.liveOfTeam m.id).isEmpty || s.teamFaulted m.id || !s.mayReturn l || !s.slotsHere m.world then none
    else
      (s.partOf m.world).bind fun p =>
        if l.persistent && !m.swapped then
          let saved := s.teams.filter fun x => x.launch = l.id && x.place = .frame && !x.swapped && !(s.liveOfTeam x.id).isEmpty
          if saved.any fun x => s.teamFaulted x.id then none
          else if !(s.usable p).contains core then none
          else State.restoreAll p core (saved.length + 1) s (m :: saved.filter fun x => x.id ≠ m.id)
        else if m.swapped && l.persistent then s.restoreTeam m core
        else s.restoreUnit p m core

def State.restoreDue (s : State) (team core : Nat) : Bool :=
  (s.restored (s.team team) core).isSome || s.refusedRestore (s.team team)

/-- CONTEXT_RESTORE: teams come back from their frames (R393, R394). A frame that fails its integrity check ends the
launch (R384 reason 0x09, R393). A restore that the partition cannot hold completes with SHAPE_UNAVAILABLE and leaves the
frames as they are (R34, R369); the launch keeps the status of its last restore (DESIGN CHOICE, log entry 117). -/
def execContextRestore (team core : Nat) (intact : Bool) (s : State) : Out :=
  .next (match s.restored (s.team team) core, s.launch? (s.team team).launch with
    | some r, some l =>
      if !intact then s.cutLaunch l stFaulted 9
      else
        let back := (r.teams.filter fun m => m.place = .resident && !s.resident m.id).map (·.id)
        let r := r.setLaunch l.id fun x => { x with state := .running, g1 := none, g2 := none, cause := 0, restore := stOk }
        let r := { r with ops := r.ops.map fun (o : Op) =>
          if o.phase = .hold ∧ (s.team o.who.team).launch = l.id then { o with since := s.clock } else o }
        back.foldl (fun s m => s.goOn m) r
    | none, some l => if s.refusedRestore (s.team team) then s.setLaunch l.id fun x => { x with restore := stShape } else s
    | _, _ => s)

end Sys2Proof.Machine
end

