-- ==== Sys2Proof/Machine/Worlds.lean ====
section
/-! DEFINITION. Partitions in time: quanta, the switch between the worlds of a partition, and the time cap (R29, R139,
R278, R298, R400 to R403). -/

namespace Sys2Proof.Machine

/-! ### Times of a partition (R400, R401) -/

def Partition.quantum (p : Partition) : Nat :=
  (if bits p.desc.toNat 960 16 = 0 then 1000 else bits p.desc.toNat 960 16) * cyclesPerUs

/-- A period is 16 quanta. -/
def Partition.periodLength (p : Partition) : Nat := 16 * p.quantum

/-- Cycles of a period in which the partition's worlds may be resident. -/
def Partition.capCycles (p : Partition) : Nat :=
  let t := bits p.desc.toNat 952 8
  p.periodLength * (if t = 0 then 256 else t) / 256

/-- Cycles of the period in which a world was resident so far. -/
def Partition.usedAt (p : Partition) (clock : Nat) : Nat := p.used + (if p.resident.isSome then clock - p.since else 0)

/-- The worlds bound to a partition that have work, in ascending function number after a world (R402, R403). -/
def State.nextWorld (s : State) (p : Partition) : Option Nat :=
  let from' := (p.resident.map (· + 1)).getD 0
  ((List.range 64).map fun i => (from' + i) % 64).find? fun w =>
    p.resident ≠ some w && (s.world w).bound && (s.world w).part = p.id && s.hasWork w

/-! ### Quanta (R403) -/

/-- A quantum has ended, and no switch to a world with work is under way. -/
def State.quantumDue (s : State) (n : Nat) : Bool :=
  s.power && (s.part? n).any fun p => p.resident.isSome && p.quantumEnd ≤ s.clock && !p.capped && !p.switching.any s.hasWork

/-- QUANTUM_EXPIRY: the ladder runs on the launches of the resident world, or the quantum restarts (R394, R403). -/
def execQuantumExpiry (n : Nat) (s : State) : Out :=
  .next (match s.part? n with
    | none => s
    | some p =>
      if !s.quantumDue n then s
      else
        match s.nextWorld p with
        | none => s.setPart n fun x => { x with switching := none, quantumEnd := s.clock + p.quantum }
        | some w => (s.setPart n fun x => { x with switching := some w }).ladderWorld (p.resident.getD 0) 2)

/-! ### The switch (R278, R298, R403) -/

/-- The outgoing world's lay-bys are saved with their remaining timers (R298). -/
def State.saveLaybys (s : State) (w : Nat) : State :=
  { s with laybys := s.laybys.map fun (l : Layby) =>
      if l.world = w ∧ !l.saved then
        { l with saved := true, deadline := if l.number.isSome then l.deadline - s.clock else l.deadline, number := none }
      else l }

/-- The incoming world's lay-bys are placed in free ones of their clusters, or wait for one behind the placements that wait
there (R298). -/
def State.restoreLaybys (s : State) (w : Nat) : State :=
  (s.laybys.filter fun l => l.world = w && l.saved).foldl (fun s l =>
    let waits := !(s.waitingIn l.cluster).isEmpty
    let s := { s with laybys := s.laybys.map fun (x : Layby) => if x.id = l.id ∧ x.world = w then { x with saved := false } else x }
    if waits || (s.freeLaybys l.cluster).isEmpty then s.await (.layby l.id) else s.placeLayby l) s

/-- A swap in Reconfiguring commits, and each slot that is loaded is to be reloaded at the world's return (R278). -/
def State.saveSlots (s : State) (w : Nat) : State :=
  let s := (List.range 8).foldl (fun s f => s.reconfigured w (BitVec.ofNat 3 f)) s
  { s with slots := s.slots.map fun (x : Slot) =>
      if x.world = w ∧ (x.state = .stable ∨ x.state = .draining) then { x with state := .reconfiguring } else x }

/-- The outgoing world leaves (R139, R403). -/
def State.worldOut (s : State) (w : Nat) : State :=
  let s := (s.saveSlots w).saveLaybys w
  { s with
    prot := s.prot.filter fun (x : Prot) => !(x.world = w && x.code = 7)
    fetch := s.fetch.filter fun (x : FetchLine) => x.world ≠ w }

/-- The incoming world is resident (R403); NOTIFY writes that waited for it are applied (R323). -/
def State.worldIn (s : State) (n w : Nat) : State :=
  let s := s.setPart n fun x =>
    { x with used := x.usedAt s.clock, since := s.clock, resident := some w, switching := none,
             quantumEnd := s.clock + x.quantum }
  let notes := (s.world w).notes
  let s := (s.restoreLaybys w).setWorld w fun x => { x with notes := [] }
  notes.foldl (fun s v => s.applyNotify w v) s

/-- The world to switch to: every launch of the outgoing world is Parked (R403), or no world is resident yet. -/
def State.switchTo (s : State) (n : Nat) : Option Nat :=
  (s.part? n).bind fun p =>
    match p.resident with
    | none => s.nextWorld p
    | some w =>
      if s.launches.any fun l => l.world = w && (l.onLadder || !(s.residentTeams l.id).isEmpty) then none
      else p.switching.bind fun v => if s.hasWork v then some v else none

def State.switchDue (s : State) (n : Nat) : Bool := s.power && (s.switchTo n).isSome

/-- WORLD_SWITCH (R29, R403). -/
def execWorldSwitch (n : Nat) (s : State) : Out :=
  .next (match s.part? n, s.switchTo n with
    | some p, some w =>
      if !s.power then s
      else
        let s := match p.resident with
          | some v => s.worldOut v
          | none => s
        s.worldIn n w
    | _, _ => s)

/-! ### The time cap (R401) -/

def State.capDue (s : State) (n : Nat) : Bool :=
  s.power && (s.part? n).any fun p => !p.capped && p.resident.isSome && p.capCycles < p.periodLength &&
    p.capCycles ≤ p.usedAt s.clock

/-- TIME_CAP_REACHED: the ladder runs on the resident world, and the cores stay idle until the next period (R401). -/
def execTimeCapReached (n : Nat) (s : State) : Out :=
  .next (match s.part? n with
    | none => s
    | some p =>
      if !s.capDue n then s
      else (s.setPart n fun x => { x with capped := true }).ladderWorld (p.resident.getD 0) 3)

def State.periodDue (s : State) (n : Nat) : Bool :=
  s.power && (s.part? n).any fun p => p.period + p.periodLength ≤ s.clock

/-- PERIOD_START (R401). -/
def execPeriodStart (n : Nat) (s : State) : Out :=
  .next (if s.periodDue n then
    s.setPart n fun p =>
      let start := p.period + (s.clock - p.period) / p.periodLength * p.periodLength
      { p with period := start, used := 0, since := max p.since start, capped := false }
  else s)

end Sys2Proof.Machine
end

