-- ==== Sys2Proof/Machine/Kraord.lean ====
section
/-! DEFINITION. The Kraord security core: the binding of worlds, stage 2 and its events, the tensor table, registered keys,
fabric generations, and the command rings (R400, R431 to R453). -/

namespace Sys2Proof.Machine

/-! ### Worlds in ERROR and the end of a binding (R432, R433) -/

/-- Every launch of a world ends as a kill ends it (R398, R432). -/
def State.killWorld (s : State) (w : Nat) : State :=
  (s.launches.filter fun l => l.world = w && l.state ≠ .ended && l.state ≠ .stopped).foldl (fun s l => s.killLaunch l) s

/-- The slots of a world are cleared without a drain, and what waits in their queues ends (R432). -/
def State.clearSlots (s : State) (w : Nat) : State :=
  let s := (s.slotQ.filter fun j => j.world = w).foldl (fun s j => s.endJob j stCancelled 0) s
  { s with slots := s.slots.filter fun (x : Slot) => x.world ≠ w }

/-- What R432 stops of a world: its launches, lay-bys, staging entries and slots. -/
def State.stopWorld (s : State) (w : Nat) : State :=
  let s := s.killWorld w
  let s := (s.queued.filter fun e => e.world = w).foldl (fun s e => s.recordEnd w e.queue e.ticket stCancelled) s
  let s := { s with queues := s.queues.map fun (x : Queue) => if x.world = w then { x with head := x.tail } else x }
  ({ s with
    laybys := s.laybys.filter fun (l : Layby) => l.world ≠ w
    formed := s.formed.filter fun (f : Formed) => f.world ≠ w
    queued := s.queued.filter fun (e : QEntry) => e.world ≠ w } : State).clearSlots w

/-- A world enters ERROR (R432). World 0 never leaves RUN (R431). -/
def State.failWorld (s : State) (w : Nat) : State :=
  if w = 0 then s else (s.stopWorld w).setWorld w fun x => { x with tdi := .error }

/-- The lines of the local pages that a world maps. -/
def State.worldLines (s : State) (w : Nat) : List Nat :=
  (s.s2.filter fun m => m.world = w && m.pa < 2 ^ 51).flatMap fun m => (List.range (m.bytes / 128)).map fun i => m.pa / 128 + i

/-- Discards the stage-2 results of a world, and its walk entries (R135, R317, R436). -/
def State.dropS2 (s : State) (w : Nat) : State :=
  (s.sweep fun (x : Xlat) => x.world = w).sweepWalks fun (x : WalkEntry) => x.world = w

/-- The end of a binding (R433): launches, stage 2, tensor entries, registered keys and slot bindings go, cached lines are
written back, the keys are destroyed, and the pages read as poison from then on. -/
def State.unbindWorld (s : State) (w : Nat) : State :=
  let s := s.stopWorld w
  let s := s.flush fun (e : BufEntry) => e.world = w
  let s := (s.launches.filter fun l => l.world = w && l.state = .stopped).foldl (fun s l => s.endLaunch l l.status l.reason) s
  let lines := s.worldLines w
  let s := s.dropS2 w
  let s := { s with
    s2 := s.s2.filter fun (m : S2Map) => m.world ≠ w
    tensors := s.tensors.filter fun (t : Tensor) => t.world ≠ w
    regKeys := s.regKeys.filter fun k => k.2.1 ≠ w
    images := s.images.map fun (x : Image) => { x with worlds := x.worlds.filter (· ≠ w) }
    fetch := s.fetch.filter fun (x : FetchLine) => x.world ≠ w
    prot := s.prot.filter fun (x : Prot) => x.world ≠ w
    faults := s.faults.filter fun (f : FaultRec) => f.world ≠ w
    poison := s.poison ++ lines.filter fun n => !s.poison.contains n
    parts := s.parts.map fun (p : Partition) =>
      let p := if p.switching = some w then { p with switching := none } else p
      if p.resident = some w then { p with resident := none, used := p.usedAt s.clock } else p }
  s.setWorld w fun x =>
    { x with bound := false, memKey := none, frameKey := none, fcur := none, fprev := none, fsend := 0, events := [],
             fab := [], notes := [] }

/-! ### Command rings (R449 to R452) -/

/-- The ring has a size (R449). -/
def Ring.sized (r : Ring) : Bool := 4 ≤ bits r.base.toNat 0 4 && bits r.base.toNat 0 4 ≤ 12

/-- The state that KRSTAT shows: a ring without a size is Off (R449). -/
def Ring.shown (r : Ring) : RingState := if r.sized then r.state else .off

/-- Host address of the record at the head (R449). -/
def Ring.place (r : Ring) : Loc :=
  ⟨true, bits r.base.toNat 12 40 * 4096 + 128 * (r.head.toNat % 2 ^ bits r.base.toNat 0 4)⟩

def State.setRing (s : State) (w : Nat) (f : Ring → Ring) : State := s.setWorld w fun x => { x with ring := f x.ring }

/-- The record at the head of a ring as a number of 128 bytes (R450). -/
def State.ringRecord (s : State) (w : Nat) : Nat := s.memNat (s.world w).ring.place 128

def recSeq (r : Nat) : Nat := bits r 0 64
def recOp (r : Nat) : Nat := bits r 64 8
def recWorld (r : Nat) : Nat := bits r 72 8
def recDone (r : Nat) : Nat := bits r 128 64

/-- The record's reserved bytes are zero and its op is defined (R452, R453). -/
def recFormed (r : Nat) : Bool :=
  bits r 80 48 = 0 && recDone r % 16 = 0 &&
    ((1 ≤ recOp r && recOp r ≤ 16) || (0x20 ≤ recOp r && recOp r ≤ 0x22))

/-- Kraord takes records of a ring now. -/
def State.ringOpen (s : State) (w : Nat) : Bool :=
  let r := (s.world w).ring
  s.power && s.link && s.mgmt.boot = 2 && r.shown = .run && r.head ≠ r.tail

def Ring.drop (r : Ring) : Ring := { r with head := r.head + 1, passed := none }

/-- A count of 16 bits that saturates. -/
def satInc (n : BitVec 16) : BitVec 16 := if n = BitVec.allOnes 16 then n else n + 1

/-- A count of 32 bits that saturates. -/
def sat32 (n : BitVec 32) : BitVec 32 := if n = BitVec.allOnes 32 then n else n + 1

/-- Writes the completion record of a command and signals the physical function's vector 2 (R450, R456). -/
def State.completion (s : State) (seq done : Nat) (st reason : Nat) : State :=
  (s.writeNat ⟨true, done⟩ 16 (seq + st * 2 ^ 64 + reason * 2 ^ 72)).signal 0 2

/-- A gap halts the ring; the third of a session moves the world to ERROR (R451, R452). -/
def State.ringGap (s : State) (w : Nat) : State :=
  let s := s.setRing w fun r => { r with state := .halted, gaps := r.gaps + 1 }
  if 3 ≤ (s.world w).ring.gaps then s.failWorld w else s

/-- Tests the records of a ring from its head on, up to the next one that is executed (R451, R452): what has passed is executed as
it was read. -/
def State.testRing (w : Nat) : Nat → State → State
  | 0, s => s
  | fuel + 1, s =>
    if !s.ringOpen w then s
    else
      let r := (s.world w).ring
      let x := s.ringRecord w
      let seq := BitVec.ofNat 64 (recSeq x)
      if !Config.macOk r.key (BitVec.ofNat 64 (recSeq x)) (toBytes x 128) || recWorld x ≠ w then
        State.testRing w fuel (s.setRing w fun r => { r.drop with macfail := satInc r.macfail })
      else if seq < r.seq then State.testRing w fuel (s.setRing w fun r => { r.drop with repeats := sat32 r.repeats })
      else if r.seq < seq then s.ringGap w
      else if r.seq = r.wrap then s.setRing w fun r => { r with state := .disabled }
      else if recFormed x then s.setRing w fun r => { r with passed := some x }
      else
        let s := s.setRing w fun r => { r.drop with seq := r.seq + 1 }
        State.testRing w fuel (s.completion (recSeq x) (recDone x) stFaulted 1)

/-- Tests every record that a ring can hold, unless one that has passed is not executed yet. -/
def State.testAll (s : State) (w : Nat) : State :=
  if (s.world w).ring.passed.isSome then s else State.testRing w 4097 s

/-- KRTAIL_DOORBELL (R449, R451). -/
def execKrtailDoorbell (w : Nat) (tail : W64) (s : State) : Out :=
  s.whenUp fun s => ((s.setRing w fun r => { r with tail := tail.setWidth 32 }).testAll w)

/-- KRSYNCT_CHECK: a Halted ring resumes at the proposed number when the tag of the proposal is right (R451). -/
def execKrsynctCheck (w : Nat) (tag : W64) (s : State) : Out :=
  s.whenUp fun s => (
    let r := (s.world w).ring
    if r.shown ≠ .halted then s
    else if Config.macOk r.key r.sync (toBytes r.sync.toNat 8 ++ toBytes w 1 ++ toBytes tag.toNat 8) then
      (s.setRing w fun r => { r with seq := r.sync, state := .run }).testAll w
    else s.setRing w fun r => { r with macfail := satInc r.macfail })

/-- The record at the head of a ring has passed its tests and is the command (R19, R450, R451): the ring runs, the record's number
is the expected one, and its op, world and completion address are the command's. -/
def State.takes (s : State) (c : Cmd) (op : Nat) : Bool :=
  let r := (s.world c.ring).ring
  s.ringOpen c.ring && r.seq = c.seq && r.passed.any fun x => recFormed x && recSeq x = c.seq.toNat && recOp x = op &&
    recWorld x = c.ring && recDone x = c.done.toNat

/-- Status and reason of a command, and the state with its effect. -/
abbrev Answer := Nat × Nat × State

/-- A refusal changes nothing (R453). -/
def State.refuse (s : State) (reason : Nat) : Answer := (stFaulted, reason, s)

/-- A command has its effect, completes, and the next record is tested (R450, R451). -/
def State.finishCommand (_s : State) (c : Cmd) (a : Answer) : State :=
  let s := a.2.2.setRing c.ring fun r => { r.drop with seq := r.seq + 1 }
  ((s.completion c.seq.toNat c.done.toNat a.1 a.2.1).testAll c.ring)

/-- Executes the command at a ring's head (R451, R453). -/
def State.command (s : State) (c : Cmd) (op : Nat) (f : State → Answer) : Out :=
  .next (if s.takes c op then s.finishCommand c (f s) else s)

/-- A command of a world is accepted while the world is bound and locked or running (R431); device-wide ones on ring 0
only (R453). -/
def State.accepts (s : State) (w : Nat) : Bool :=
  let x := s.world w
  x.bound && (x.tdi = .locked || x.tdi = .run)

def State.forWorld (s : State) (c : Cmd) (op : Nat) (f : State → Answer) : Out :=
  s.command c op fun s => if s.accepts c.ring then f s else s.refuse 2

def State.forDevice (s : State) (c : Cmd) (op : Nat) (f : State → Answer) : Out :=
  s.command c op fun s => if c.ring = 0 then f s else s.refuse 5

/-! ### BIND and UNBIND (R402, R433) -/

/-- A partition in use without children (R402). -/
def State.leaf (s : State) (n : Nat) : Bool :=
  ((s.part? n).any fun p => bit p.desc.toNat 512) &&
    !(n % 32 = 0 && s.parts.any fun p => p.id / 32 = n / 32 && p.id % 32 ≠ 0 && bit p.desc.toNat 512)

/-- New keys for a world, which no world has had before (R433; DEDUCED, log entry 14). -/
def State.newKeys (s : State) (w : Nat) : State :=
  ({ s with ids := s.ids + 2 } : State).setWorld w fun x => { x with memKey := some s.ids, frameKey := some (s.ids + 1) }

/-- BIND (R431, R433). A slot's reason returns to 0 (R287). -/
def execBind (c : Cmd) (part : Nat) (s : State) : Out :=
  s.command c 0x01 fun s =>
    let x := s.world c.ring
    if x.tdi ≠ .locked || x.bound || !s.leaf part then s.refuse 2
    else
      let s := { s with slots := s.slots.filter fun (y : Slot) => y.world ≠ c.ring }
      (stOk, 0, (s.newKeys c.ring).setWorld c.ring fun x => { x with bound := true, part := part, fcur := none, fprev := none })

/-- UNBIND (R433). World 0 stays bound (R431). -/
def execUnbind (c : Cmd) (s : State) : Out :=
  s.command c 0x02 fun s =>
    if c.ring = 0 || !(s.world c.ring).bound then s.refuse 2 else (stOk, 0, s.unbindWorld c.ring)

/-! ### Stage 2 (R434 to R437) -/

/-- Bytes of a page size code (R434). -/
def s2Bytes (size : Nat) : Nat := if size = 0 then 4096 else if size = 1 then 2 ^ 21 else 2 ^ 30

/-- An IPA range of a command is well formed. -/
def s2RangeOk (ipa : W64) (size : Nat) : Bool := size ≤ 2 && ipa.toNat < 2 ^ 52 && ipa.toNat % s2Bytes size = 0

/-- Some accesses have used a stage-2 result of a range of IPAs of a world, and are not over (R436). -/
def State.s2InUse (s : State) (w lo hi : Nat) : Bool :=
  let ms := (s.s2.filter fun m => m.world = w).flatMap fun m => m.inside lo hi
  let hit := fun (l : Loc) => !l.host && ms.any fun m => m.pa ≤ l.addr && l.addr < m.pa + m.bytes
  (s.ops.any fun o => s.worldOf o.who = w && o.phase ≠ .turn && o.phase ≠ .again && o.locs.any hit) ||
    (s.wbuf.any fun e => e.world = w && e.bytes.any fun x => hit x.1) ||
    s.copies.any fun c => c.world = w && c.done < c.total && !c.stopped && c.pages.any hit

/-- A local page that another world maps, a retired page, or a peer outside the world's span (R435). -/
def State.s2Conflict (s : State) (w pa n : Nat) : Bool :=
  if pa < 2 ^ 51 then
    (s.s2.any fun m => m.world ≠ w && m.pa < 2 ^ 51 && m.pa < pa + n && pa < m.pa + m.bytes) ||
      s.mgmt.pages.any fun g => pa ≤ 4096 * g && 4096 * g < pa + n
  else !((s.world w).dspan.contains (pa / 2 ^ 42 % 512))

/-- The access of a fault is allowed by a mapping. -/
def S2Map.serves (m : S2Map) (f : FaultRec) : Bool :=
  m.ipa ≤ f.ipa && f.ipa < m.ipa + m.bytes && !m.pull &&
    (if f.access = 0 then m.r else if f.access = 1 then m.w else if f.access = 2 then m.r && m.w else m.x)

/-- The open stage-2 faults of a world. -/
def State.s2Faults (s : State) (w : Nat) : List FaultRec :=
  s.faults.filter fun f => f.world = w && f.kind = 0x14 && !f.notice

/-- The stage-2 faults that an event stands for: those of its page (R437). -/
def State.eventFaults (s : State) (f : FaultRec) : List FaultRec := (s.s2Faults f.world).filter fun g => g.ipa = f.ipa

/-- The fault whose event a fault has joined: the recorded one of its page, or the first (R437). -/
def State.eventOf (s : State) (f : FaultRec) : FaultRec :=
  let fs := s.eventFaults f
  ((fs.find? fun g => g.num.isSome).or fs.head?).getD f

/-- S2MAP (R434 to R437): the page's event closes where its access is now allowed, and every source held on it tries again. A
local address that the device does not have is refused as malformed (R11, R434; DESIGN CHOICE, log entry 105). -/
def execS2map (c : Cmd) (ipa : W64) (size : Nat) (pa : W64) (r w x : Bool) (tensor : Nat) (pull : Bool) (s : State) : Out :=
  let n := s2Bytes size
  if s.takes c 0x03 && s.s2InUse c.ring ipa.toNat (ipa.toNat + n) then .next s
  else
    s.forWorld c 0x03 fun s =>
      if !s2RangeOk ipa size || pa.toNat % n ≠ 0 || 2 ^ 52 ≤ pa.toNat ||
          (pa.toNat < 2 ^ 51 && localBytes < pa.toNat + n) || 65536 ≤ tensor then
        s.refuse 1
      else if s.s2Conflict c.ring pa.toNat n then s.refuse 3
      else
        let m : S2Map := ⟨c.ring, ipa.toNat, n, pa.toNat, r, w, x, tensor, pull, 0⟩
        let rest := s.s2.flatMap fun (y : S2Map) => if y.world = c.ring then y.outside ipa.toNat (ipa.toNat + n) else [y]
        let s := ({ s with s2 := m :: rest } : State).dropS2 c.ring
        (stOk, 0, ((s.s2Faults c.ring).filter fun f => m.serves (s.eventOf f)).foldl (fun s f => s.retryFault f) s)

/-- S2UNMAP (R436). -/
def execS2unmap (c : Cmd) (ipa : W64) (size : Nat) (s : State) : Out :=
  let hi := ipa.toNat + s2Bytes size
  if s.takes c 0x04 && s.s2InUse c.ring ipa.toNat hi then .next s
  else
    s.forWorld c 0x04 fun s =>
      if !s2RangeOk ipa size then s.refuse 1
      else
        let s := { s with s2 := s.s2.flatMap fun (y : S2Map) => if y.world = c.ring then y.outside ipa.toNat hi else [y] }
        (stOk, 0, s.dropS2 c.ring)

/-- Refuses a stage-2 fault: its source ends, with a notice of kind 0x08 (R437). -/
def State.refuseS2 (s : State) (f : FaultRec) : State := (s.noticeOf f 0x08).denyFault f trapAccessViolation 4

/-- S2REFUSE (R437). -/
def execS2refuse (c : Cmd) (w : Nat) (id : Nat) (s : State) : Out :=
  s.forWorld c 0x05 fun s =>
    match (s.s2Faults c.ring).find? fun f => w = c.ring && f.num = some (BitVec.ofNat 32 id) && id < 2 ^ 32 with
    | none => s.refuse 2
    | some f => (stOk, 0, (s.eventFaults f).foldl (fun s g => s.refuseS2 g) s)

/-- The oldest stage-2 fault that is to be recorded: its source is held, and its page has no open event (R437). -/
def State.nextEvent (s : State) : Option FaultRec :=
  s.faults.find? fun f => f.kind = 0x14 && !f.notice && f.num.isNone && s.sourceReady f &&
    !((s.eventFaults f).any fun g => g.num.isSome)

/-- Events held because the ring is full: KESTAT (R437). -/
def State.eventsHeld (s : State) : Nat :=
  ((s.faults.filter fun f => f.kind = 0x14 && !f.notice && f.num.isNone && s.sourceReady f &&
    !((s.eventFaults f).any fun g => g.num.isSome)).map fun f => (f.world, f.ipa)).eraseDups.length

def State.eventRoom (s : State) : Bool :=
  (s.ketail - s.kehead.setWidth 32).toNat < 2 ^ bits s.kebase.toNat 0 4

/-- A stage-2 fault can be recorded, or is refused since the ring is disabled. -/
def State.eventDue (s : State) (n : Nat) : Bool :=
  s.power && s.nextEvent.any (·.id = n) && (!s.eventsOn || (s.eventRoom && s.link))

/-- STAGE2_EVENT: the event goes to the ring, or is refused where the ring is disabled (R437). -/
def execStage2Event (n : Nat) (s : State) : Out :=
  .next (match s.fault? n with
    | none => s
    | some f =>
      if !s.eventDue n then s
      else if !s.eventsOn then (s.eventFaults f).foldl (fun s g => s.refuseS2 g) s
      else
        let place : Loc := ⟨true, bits s.kebase.toNat 12 40 * 4096 + 64 * (s.ketail.toNat % 2 ^ bits s.kebase.toNat 0 4)⟩
        let j := s.kenext
        let s := s.writeNat place 64 (s.faultRecord f j.toNat)
        let s := { s with
          ketail := s.ketail + 1, kenext := j + 1
          faults := s.faults.map fun (g : FaultRec) => if g.id = n then { g with num := some j } else g }
        s.signal 0 2)

/-- KEHEAD_WRITE: the host has consumed events (R437). -/
def execKeheadWrite (v : W64) (s : State) : Out := s.whenUp fun s => { s with kehead := BitVec.ofNat 64 (v.toNat % 2 ^ 32) }

/-- PULLSET: pages wait for a post-copy pull from a source device (R329, R453). -/
def execPullset (c : Cmd) (ipa : W64) (bytes : Nat) (source : Nat) (s : State) : Out :=
  let hi := ipa.toNat + bytes
  if s.takes c 0x10 && s.s2InUse c.ring ipa.toNat hi then .next s
  else
    s.forWorld c 0x10 fun s =>
      if ipa.toNat % 4096 ≠ 0 || bytes % 4096 ≠ 0 || 2 ^ 52 < hi || 432 ≤ source then s.refuse 1
      else (stOk, 0, (s.remap c.ring ipa.toNat hi fun m => { m with pull := true, source := source }).dropS2 c.ring)

/-! ### Tensors (R438, R441, R442) -/

def State.tensor? (s : State) (w index : Nat) : Option Tensor := s.tensors.find? fun t => t.index = index && t.world = w

def State.setTensor (s : State) (index : Nat) (f : Tensor → Tensor) : State :=
  { s with tensors := s.tensors.map fun (t : Tensor) => if t.index = index then f t else t }

/-- TDEF: a free entry becomes live (R438, R453). -/
def execTdef (c : Cmd) (index : Nat) (tensor : BitVec 32) (base : W64) (s : State) : Out :=
  s.forWorld c 0x06 fun s =>
    if index = 0 || 65536 ≤ index || tensor = BitVec.allOnes 32 || base.toNat % 128 ≠ 0 || 2 ^ 52 ≤ base.toNat then s.refuse 1
    else if s.tensors.any fun (t : Tensor) => t.index = index then s.refuse 3
    else (stOk, 0, { s with tensors := s.tensors ++ [(⟨index, c.ring, tensor, base, 0, false, 0⟩ : Tensor)] })

/-- The pages of a tensor on this device (R434, R441). -/
def State.tensorPages (s : State) (w index : Nat) : List S2Map :=
  s.s2.filter fun m => m.world = w && m.tensor = index && m.pa < 2 ^ 51

/-- One past the last line of a tensor's pages. -/
def State.tensorLines (s : State) (t : Tensor) : Nat :=
  ((s.tensorPages t.world t.index).map fun m => (m.ipa + m.bytes - t.base.toNat) / 128).foldl max 0

/-- The place of the line at a tensor's cursor; none where it is not on this device. -/
def State.cursorPlace (s : State) (t : Tensor) : Option Loc :=
  let a := t.base.toNat + 128 * t.cursor
  (s.s2Find t.world a).bind fun m =>
    if m.tensor = t.index && m.pa < 2 ^ 51 then some ⟨false, m.pa + (a - m.ipa)⟩ else none

/-- The line at a tensor's cursor is opened under the old version and sealed under the new one (R440, R441). -/
def State.rekeyLine (s : State) (t : Tensor) : State :=
  let next := fun (s : State) => s.setTensor t.index fun t => { t with cursor := t.cursor + 1 }
  match s.cursorPlace t with
  | none => next s
  | some l =>
    let s := next (s.openLines [l])
    if (s.sealAt l.line).isSome then s.setSeal l.line else s

/-- TREKEY (R441): it begins, each time it goes on it moves one line to the new version, and it completes after the last
one. -/
def execTrekey (c : Cmd) (index : Nat) (s : State) : Out :=
  match s.tensor? c.ring index with
  | some t =>
    if !s.takes c 0x07 || !s.accepts c.ring || t.version = BitVec.allOnes 32 then
      s.forWorld c 0x07 fun s => s.refuse 4
    else if !t.rekeying then .next (s.setTensor index fun t => { t with rekeying := true, cursor := 0 })
    else if t.cursor < s.tensorLines t then
      .next (if (s.cursorPlace t).any fun l => s.ownedLine l.line then s else s.rekeyLine t)
    else
      s.forWorld c 0x07 fun s =>
        (stOk, 0, s.setTensor index fun t => { t with version := t.version + 1, rekeying := false, cursor := 0 })
  | none => s.forWorld c 0x07 fun s => s.refuse 2

/-- TRETIRE (R442). -/
def execTretire (c : Cmd) (index : Nat) (s : State) : Out :=
  s.forWorld c 0x08 fun s =>
    if (s.tensor? c.ring index).isNone || s.s2.any (fun m => m.world = c.ring && m.tensor = index) then s.refuse 2
    else (stOk, 0, { s with tensors := s.tensors.filter fun (t : Tensor) => !(t.index = index && t.world = c.ring) })

/-! ### Keys and images (R443, R444) -/

/-- KEYREG (R443). -/
def execKeyreg (c : Cmd) (index : Nat) (key : Nat) (s : State) : Out :=
  s.forWorld c 0x09 fun s =>
    if index = 0 || 256 ≤ index then s.refuse 1
    else if s.regKeys.any fun k => k.1 = index then s.refuse 3
    else (stOk, 0, { s with regKeys := s.regKeys ++ [(index, c.ring, key)] })

/-- KEYDROP (R443). -/
def execKeydrop (c : Cmd) (index : Nat) (s : State) : Out :=
  s.forWorld c 0x0A fun s =>
    if s.regKeys.any fun k => k.1 = index && k.2.1 ≠ c.ring then s.refuse 3
    else if !(s.regKeys.any fun k => k.1 = index) then s.refuse 2
    else (stOk, 0, { s with regKeys := s.regKeys.filter fun k => k.1 ≠ index })

/-- IMGPUT: an image of host memory is verified and kept for the world (R274, R444). -/
def execImgput (c : Cmd) (addr : W64) (s : State) : Out :=
  s.forWorld c 0x0B fun s =>
    let head := s.memBytes ⟨true, addr.toNat⟩ 128
    let n := if imageLengthOk (imageLength head) then imageLength head else 128
    match s.verifyImage c.ring (s.memBytes ⟨true, addr.toNat⟩ n) with
    | (.ok _, s) => (stOk, 0, s)
    | (.refused st why, s) => (st, why, s)

/-! ### Fabric generations (R447, R448) -/

/-- FKEY, load form (R448). -/
def execFkeyLoad (c : Cmd) (gen : BitVec 16) (key : Nat) (s : State) : Out :=
  s.forWorld c 0x0C fun s =>
    match (s.world c.ring).fcur with
    | none => (stOk, 0, s.setWorld c.ring fun x => { x with fcur := some (gen, key), fprev := none, fsend := gen })
    | some (g, k) =>
      if gen ≠ g + 1 || (s.world c.ring).fsend ≠ g then s.refuse 2
      else (stOk, 0, s.setWorld c.ring fun x => { x with fcur := some (gen, key), fprev := some (g, k) })

/-- FKEY, send form (R448). -/
def execFkeySend (c : Cmd) (gen : BitVec 16) (s : State) : Out :=
  s.forWorld c 0x0C fun s =>
    if ((s.world c.ring).fcur.map (·.1)) = some gen then (stOk, 0, s.setWorld c.ring fun x => { x with fsend := gen })
    else s.refuse 2

/-! ### PREEMPT, WEXPORT and WIMPORT (R394, R453) -/

/-- PREEMPT: the ladder starts on a launch (R394, R453). -/
def execPreempt (c : Cmd) (queue : Nat) (ticket : Nat) (s : State) : Out :=
  s.forWorld c 0x0D fun s =>
    match s.launches.find? fun l => l.world = c.ring && l.queue = queue && l.ticket.toNat = ticket &&
        (l.state = .running || l.onLadder) with
    | none => s.refuse 2
    | some l => (stOk, 0, s.startLadder l 4)

/-- Bytes of a wrapped export: one block of RSA-4096 (DEDUCED, log entry 14). -/
def wrapBytes : Nat := 512

/-- WEXPORT: the keys and spans go to the buffer, wrapped for the target, once its chain verifies (R453). -/
def execWexport (c : Cmd) (chain buffer : W64) (s : State) : Out :=
  s.forWorld c 0x0E fun s =>
    if !Config.signatureOk 0 (s.memBytes ⟨true, chain.toNat⟩ wrapBytes) then (stBadsig, 0, s)
    else
      (stOk, 0, s.writeRun ⟨true, buffer.toNat⟩
        ((List.range wrapBytes).map fun i => Config.outsideByte s.free (buffer + BitVec.ofNat 64 i)))

/-- WIMPORT: the keys of an export made for this device are installed (R453). -/
def execWimport (c : Cmd) (buffer : W64) (s : State) : Out :=
  s.forWorld c 0x0F fun s =>
    let blob := s.memBytes ⟨true, buffer.toNat⟩ wrapBytes
    if !Config.signatureOk 1 blob then (stBadsig, 0, s)
    else
      let k := fun (i : Nat) => Config.keyOf s.free i
      (stOk, 0, s.setWorld c.ring fun x =>
        { x with memKey := some (k 0), frameKey := some (k 1), fcur := some (BitVec.ofNat 16 (k 2), k 3),
                 fprev := some (BitVec.ofNat 16 (k 4), k 5), fsend := BitVec.ofNat 16 (if k 6 % 2 = 0 then k 2 else k 4) })

/-! ### Device-wide commands (R33, R400, R407) -/

def pdCores (d : BitVec 1024) : List Nat := (List.range 512).filter fun c => bit d.toNat c
def pdTop (d : BitVec 1024) : Nat := bits d.toNat 920 4
def pdChild (d : BitVec 1024) : Nat := bits d.toNat 928 5
def pdHbm (d : BitVec 1024) : Nat := bits d.toNat 944 8
def pdFab (d : BitVec 1024) : Nat := bits d.toNat 936 8

/-- Shares of a partition; those of bring-up are the whole (R457). -/
def Partition.hbm (p : Partition) : Nat := if p.initial then 256 else pdHbm p.desc
def Partition.fabShare (p : Partition) : Nat := if p.initial then 256 else pdFab p.desc

def Partition.on (p : Partition) : Bool := bit p.desc.toNat 512

/-- The clusters of a list of cores are whole. -/
def wholeClusters (cs : List Nat) : Bool := cs.all fun c => (List.range 64).all fun i => cs.contains (c / 64 * 64 + i)

/-- Timers and cap of a child do not pass its parent's (R400); 0 stands for the default. -/
def timersWithin (d : BitVec 1024) (p : BitVec 1024) : Bool :=
  let f := fun (x : BitVec 1024) (lo n dflt : Nat) => if bits x.toNat lo n = 0 then dflt else bits x.toNat lo n
  f d 992 16 2000 ≤ f p 992 16 2000 && f d 976 16 50 ≤ f p 976 16 50 && f d 960 16 1000 ≤ f p 960 16 1000 &&
    f d 952 8 256 ≤ f p 952 8 256

/-- The reserved fields of a descriptor are zero (R3, R400). -/
def pdReserved (d : BitVec 1024) : Bool :=
  bits d.toNat 1008 16 = 0 && bits d.toNat 933 1 = 0 && bits d.toNat 924 4 = 0 && bits d.toNat 513 407 = 0

/-- A descriptor keeps the rules of R400 and R28: those of the partition itself, of its children, and, for a child, that no world
is bound to its parent directly. -/
def State.descriptorOk (s : State) (d : BitVec 1024) : Bool :=
  let id := 32 * pdTop d + pdChild d
  let others := s.parts.filter fun p => p.on && p.id ≠ id
  let cs := pdCores d
  let kids := others.filter fun p => p.id / 32 = pdTop d && p.id % 32 ≠ 0
  let on := bit d.toNat 512
  pdReserved d && pdChild d ≤ 16 && pdTop d ≤ 7 &&
    (pdChild d ≠ 0 || kids.isEmpty || (on && kids.all fun k => (pdCores k.desc).all cs.contains && timersWithin k.desc d) &&
      (kids.map (·.hbm)).sum ≤ pdHbm d && (kids.map (·.fabShare)).sum ≤ pdFab d) &&
    (!on ||
      (if pdChild d = 0 then
        let tops := others.filter fun p => p.id % 32 = 0
        wholeClusters cs && (tops.all fun p => (pdCores p.desc).all fun c => !cs.contains c) &&
          (tops.map (·.hbm)).sum + pdHbm d ≤ 256 && (tops.map (·.fabShare)).sum + pdFab d ≤ 256
      else
        match s.part? (32 * pdTop d) with
        | none => false
        | some p =>
          p.on && !(s.worlds.any fun x => x.bound && x.part = p.id) && (cs.all fun c => bit p.desc.toNat c) &&
            (kids.all fun k => (pdCores k.desc).all fun c => !cs.contains c) &&
            (kids.map (·.hbm)).sum + pdHbm d ≤ p.hbm && (kids.map (·.fabShare)).sum + pdFab d ≤ p.fabShare &&
            timersWithin d p.desc))

/-- A world bound to a partition or to a child of it has a launch that is resident or saved (R400). -/
def State.partBusy (s : State) (id : Nat) : Bool :=
  s.launches.any fun l => l.state ≠ .ended && l.state ≠ .checking && l.state ≠ .waiting &&
    (let n := (s.world l.world).part
     n = id || (id % 32 = 0 && n / 32 = id / 32)) &&
    s.teams.any fun m => m.launch = l.id && !(s.liveOfTeam m.id).isEmpty

/-- PARTSET (R400, R453). -/
def execPartset (c : Cmd) (desc : BitVec 1024) (s : State) : Out :=
  s.forDevice c 0x20 fun s =>
    let id := 32 * pdTop desc + pdChild desc
    if !s.descriptorOk desc then s.refuse 1
    else if s.partBusy id then s.refuse 2
    else
      let p := (s.part? id).getD
        { id := id, desc := desc, resident := none, quantumEnd := s.clock, switching := none, period := s.clock,
          served := (0, 15), capped := false, used := 0, since := s.clock, initial := false }
      let rest := s.parts.filter fun (x : Partition) => x.id ≠ id
      (stOk, 0, { s with parts := rest ++ [{ p with desc := desc, initial := false }] })

/-- SPAN: the spans of a world (R407, R427, R453). -/
def execSpan (c : Cmd) (w : Nat) (dom pod : List Nat) (s : State) : Out :=
  s.forDevice c 0x21 fun s =>
    if 64 ≤ w || dom.any (fun d => 432 ≤ d) || pod.any (fun d => 5 * 512 ≤ d || 432 ≤ d % 512) then s.refuse 1
    else (stOk, 0, s.setSpan w dom pod)

/-- FENCE: a core is never dispatched again, or a page never mapped again (R33). -/
def execFenceCoreOrPage (c : Cmd) (page : Bool) (n : Nat) (s : State) : Out :=
  s.forDevice c 0x22 fun s =>
    let m := s.mgmt
    if page then
      (if localBytes ≤ 4096 * n then s.refuse 1
       else (stOk, 0, { s with mgmt := { m with pages := if m.pages.contains n then m.pages else m.pages ++ [n] } }))
    else if 512 ≤ n then s.refuse 1
    else (stOk, 0, { s with mgmt := { m with cores := if m.cores.contains n then m.cores else m.cores ++ [n] } })

end Sys2Proof.Machine
end

