-- ==== Sys2Proof/Machine/Platform.lean ====
section
/-! DEFINITION. The host link and the platform: TDISP and SPDM, bring-up, power and clock, soft errors, firmware updates and
the Ethernet ports (R32, R431, R445, R446, R449, R454 to R466). -/

namespace Sys2Proof.Machine

/-! ### TDISP (R431, R432) -/

def State.setTdi (s : State) (w : Nat) (t : Tdi) : State := s.setWorld w fun x => { x with tdi := t }

/-- LOCK_INTERFACE_REQUEST (R431). -/
def execLockInterfaceRequest (w : Nat) (s : State) : Out :=
  s.whenUp fun s => (if (s.world w).tdi = .unlocked then s.setTdi w .locked else s)

/-- START_INTERFACE_REQUEST: accepted for a bound world whose function's IDE stream is established (R431). -/
def execStartInterfaceRequest (w : Nat) (ide : Bool) (s : State) : Out :=
  s.whenUp fun s => (if (s.world w).tdi = .locked && (s.world w).bound && ide then s.setTdi w .run else s)

/-- STOP_INTERFACE_REQUEST: refused while the world is bound (R431). -/
def execStopInterfaceRequest (w : Nat) (s : State) : Out :=
  s.whenUp fun s => (if (s.world w).bound || w = 0 then s else s.setTdi w .unlocked)

/-- TDISP_ERROR (R432). -/
def execTdispError (w : Nat) (s : State) : Out := s.whenUp fun s => s.failWorld w

/-! ### SPDM (R445, R446, R449) -/

/-- SPDM_SESSION_ESTABLISH: the ring starts with a new key at number 0 (R449). -/
def execSpdmSessionEstablish (w key : Nat) (s : State) : Out :=
  s.whenUp fun s => ((s.setRing w fun r =>
    { r with passed := none, seq := 0, wrap := BitVec.ofNat 64 (2 ^ 48), state := .run, gaps := 0, key := key, session := true }).testAll w)

/-- KEY_UPDATE: the wrap point moves on (R451). -/
def execKeyUpdate (w : Nat) (s : State) : Out :=
  s.whenUp fun s => (s.setRing w fun r => if r.session then { r with wrap := r.seq + BitVec.ofNat 64 (2 ^ 48) } else r)

def Tdi.code : Tdi → Nat
  | .unlocked => 0 | .locked => 1 | .run => 2 | .error => 3

/-- The report of a world as a number of 1,024 bytes (R446). -/
def State.worldReport (s : State) (w : Nat) : Nat :=
  let x := s.world w
  let slot := fun (n : Nat) => s.slot w (BitVec.ofNat 3 n)
  let digest := fun (n : Nat) => if (slot n).sheet.isEmpty then 0 else (slot n).digest.toNat
  w + x.tdi.code * 2 ^ 8 +
    (((s.part? x.part).map fun p => p.desc.toNat % 2 ^ 512).getD 0) * 2 ^ 512 +
    ((x.fcur.map (·.1.toNat)).getD 0) * 2 ^ 1024 +
    ((s.tensors.filter fun t => t.world = w && !t.rekeying).length) % 2 ^ 16 * 2 ^ 1040 +
    ((List.range 8).map fun n => (slot n).gen.toNat * 2 ^ (1792 + 32 * n)).sum +
    ((List.range 8).map fun n => digest n * 2 ^ (2048 + 512 * n)).sum +
    ((s.regKeys.filter fun k => k.2.1 = w).map fun k => 2 ^ (6400 + k.1)).sum

/-- The content of a measurement block; none where it is absent (R445). Digests of firmware are free (DESIGN CHOICE, log
entry 9). -/
def State.measurement (s : State) (index : Nat) : Option (List Byte) :=
  if 1 ≤ index ∧ index ≤ 3 then some ((List.range 8).flatMap fun i => toBytes (Config.measured index i).toNat 8)
  else if index = 4 then some (s.mgmt.cores.flatMap (toBytes · 2) ++ s.mgmt.pages.flatMap (toBytes · 8))
  else if index = 5 then some (toBytes s.mgmt.cfg.toNat 8)
  else if 16 ≤ index ∧ index < 80 then
    (if (s.world (index - 16)).bound then some (toBytes (s.worldReport (index - 16)) 1024) else none)
  else none

/-- The signature over a response under the attestation key: a block of RSA-4096 over SHA-512, whose value is free (R17, R445;
DEDUCED, log entry 14). -/
def State.signed (s : State) (bs : List Byte) : List Byte :=
  bs ++ (List.range wrapBytes).map fun i => Config.signature s.free (sha512 bs) i

/-- GET_MEASUREMENTS: the response carries the block and its signature (R17, R445, R446). -/
def execGetMeasurements (index : Nat) (s : State) : Out :=
  s.whenUp fun s => { s with doe := s.signed ((s.measurement index).getD []) }

/-! ### Bring-up and loss of state (R32, R457, R458, R462) -/

/-- All state but what the firmware store and the fuses hold is lost; the host's memory is not the device's (R32, R458). -/
def State.lost (s : State) (power : Bool) : State :=
  { State.reset with
    agenda := s.agenda, free := s.free, hostMem := s.hostMem, power := power, store := s.store
    mgmt := { Mgmt.init with cfg := s.mgmt.cfg, pages := s.mgmt.pages, cores := s.mgmt.cores } }

/-- The descriptor of the partition of bring-up: every core, defaults (R457). -/
def initialDesc : BitVec 1024 := BitVec.ofNat 1024 (2 ^ 513 - 1)

/-- The configuration after bring-up: a block that an update has written is not stated (R458, R459, DESIGN CHOICE, log entry
9). -/
def State.newConfig (s : State) : W64 :=
  if s.store.isEmpty then s.mgmt.cfg
  else (Config.measured s.free 0) &&& 0x000701FF0003FFFF

/-- A configuration block that bring-up accepts (R458). -/
def configOk (c : W64) : Bool := bits c.toNat 32 9 ≤ 431 && bits c.toNat 48 3 ≤ 4

/-- PERST_RELEASE: the bring-up of R457, from which %clock counts (R38). A verification that fails, or a bad configuration
block, leaves boot at 3. -/
def execPerstRelease (s : State) : Out :=
  .next (if s.mgmt.boot ≠ 0 then s
  else
    let c := s.newConfig
    let image := s.store
    let s := { s with power := true, clock := 0, store := [], mgmt := { s.mgmt with cfg := c } }
    if !Config.signatureOk 0 image || !configOk c then { s with mgmt := { s.mgmt with boot := 3 } }
    else
      let p : Partition :=
        { id := 0, desc := initialDesc, resident := none, quantumEnd := s.clock, switching := none, period := s.clock,
          served := (0, 15), capped := false, used := 0, since := s.clock, initial := true }
      let s := { s with link := true, parts := [p],
                        mgmt := { s.mgmt with boot := 2, id := BitVec.ofNat 64 9 ||| (Config.fused.setWidth 64 <<< 8) } }
      (s.newKeys 0).setWorld 0 fun x => { x with tdi := .run, bound := true, part := 0 })

/-- POWER_LOSS (R32, R462). -/
def execPowerLoss (s : State) : Out := .next (s.lost false)

/-- PERST_ASSERT (R32, R466). -/
def execPerstAssert (s : State) : Out := .next (s.lost s.power)

/-- THERMAL_TRIP: the device signals and stops issuing (R462). -/
def execThermalTrip (s : State) : Out := s.powered fun s => { s.signal 0 3 with halted := true }

/-- The frequency in MHz at or below a wish: between 1.0 and 2.0 GHz in steps of 62.5 MHz, rounded down (R461; DESIGN CHOICE,
log entry 16). -/
def fclkStep (mhz : Nat) : Nat := 1000 + (2 * (max 1000 (min 2000 mhz)) - 2000) / 125 * 125 / 2

/-- FCLK_ADJUST: fclk changes in its steps, shown in MGPWR and MGSTAT.thr (R461, R464). -/
def execFclkAdjust (mhz : Nat) (s : State) : Out :=
  let f := fclkStep mhz
  s.powered fun s => { s with mgmt := { s.mgmt with
    thr := f < 2000
    pwr := BitVec.ofNat 64 (s.mgmt.pwr.toNat / 2 ^ 48 * 2 ^ 48 + f * 2 ^ 32 + s.mgmt.pwr.toNat % 2 ^ 32) } }

/-! ### Soft errors (R463) -/

/-- Worlds with resident work on a compute die: cores 128d to 128d + 127 (R9, R10). -/
def State.worldsOnDie (s : State) (d : Nat) : List Nat :=
  ((s.teams.filter fun m => m.place = .resident && m.core / 128 = d && !(s.liveOfTeam m.id).isEmpty).map (·.world)).eraseDups

/-- Ends the launches of a world that have started, FAULTED with reason 0x08 (R463). -/
def State.dieError (s : State) (w : Nat) : State :=
  (s.launches.filter fun l => l.world = w && (l.state = .running || l.onLadder || l.state = .parked)).foldl (fun s l =>
    s.cutLaunch l stFaulted 8) s

/-- An uncorrected error by its place: 0 a line of memory or a cache, 1 a line of a tile (tile name and line), 2 the fetch
buffers of a quad, 3 the slices of a thread, 4 the uniform registers of a group (its row), 5 directory, TLB or scheduler
state of a die (R463). -/
def State.uncorrected (s : State) (place index : Nat) : State :=
  match place with
  | 0 => s.setPoison index
  | 1 => s.setTile (index / 2 ^ 20) fun t =>
      let k := index % 2 ^ 20
      if t.rows * t.rowLines ≤ k || t.poison.contains k then t else { t with poison := t.poison ++ [k] }
  | 2 => { s with fetch := s.fetch.filter fun (x : FetchLine) => !(x.core = index / 4 && x.quad = index % 4) }
  | 3 => (match s.threads[index]? with
    | some x => if x.live then s.raiseAsync x.id trapPoison 0 else s
    | none => s)
  | 4 => (match s.groups[index]? with
    | some g => (s.liveOfGroup g.team g.gid).foldl (fun s t => s.raiseAsync t trapPoison 0) s
    | none => s)
  | _ => (s.worldsOnDie index).foldl (fun s w => s.dieError w) s

/-- A line of memory that was changed in HBM4E with its check bits right: it fails its tag when it is opened next (R440). -/
def State.tamper (s : State) (line : Nat) : State :=
  { s with seals := s.seals.filter (·.1 ≠ line) ++ [(line, ⟨0, 0, 0, 2 ^ 64⟩)] }

/-- ECC_ERROR (R463). Place 6 is a line that is ECC-clean and fails its tag (R440). -/
def execEccError (place index : Nat) (corrected : Bool) (s : State) : Out :=
  s.powered fun s => (if place = 6 then s.tamper index
  else if corrected then { s with mgmt := { s.mgmt with cor := sat32 s.mgmt.cor } }
  else
    let s := { s with mgmt := { s.mgmt with unc := sat32 s.mgmt.unc } }
    (s.signal 0 3).uncorrected place index)

/-- PATROL_SCRUB: a line is read and corrected; nothing changes that is visible, and an owned line is waited for (R463,
R466). -/
def execPatrolScrub (_line : Nat) (s : State) : Out := .next s

/-! ### Firmware updates (R459) -/

/-- MGFWCMD_GO: an update begins unless one is under way. -/
def execMgfwcmdGo (s : State) : Out :=
  s.powered fun s => (if s.mgmt.fwst = 1 || s.mgmt.boot < 2 then s else { s with mgmt := { s.mgmt with fwst := 1 } })

/-- FIRMWARE_VERIFY_DONE: the image is accepted for the next bring-up, or refused. -/
def execFirmwareVerifyDone (s : State) : Out :=
  s.powered fun s => (if s.mgmt.fwst ≠ 1 then s
  else
    let image := s.memBytes ⟨true, s.mgmt.fwaddr.toNat⟩ 128
    if Config.signatureOk 0 image then { s with store := image, mgmt := { s.mgmt with fwst := 2 } }
    else { s with mgmt := { s.mgmt with fwst := 3 } })

/-! ### The host link (R454, R466) -/

/-- HOST_LINK_DOWN: queues and rings stop, and accesses to host memory end as for a lost target. -/
def execHostLinkDown (s : State) : Out := s.powered fun s => { s with link := false }

/-- HOST_LINK_RETRAIN: queues and rings go on. -/
def execHostLinkRetrain (s : State) : Out :=
  .next (if s.power && s.mgmt.boot = 2 then
    (List.range 64).foldl (fun s w => s.testAll w) { s with link := true }
  else s)

/-! ### Ethernet (R465) -/

def EthPort.init (p : Nat) : EthPort := { port := p, tx := 0, rx := 0, txt := 0, rxt := 0, txh := 0, rxh := 0 }

def State.ethPort (s : State) (p : Nat) : EthPort := (s.eth.find? (·.port = p)).getD (EthPort.init p)

def State.setEth (s : State) (p : Nat) (f : EthPort → EthPort) : State :=
  { s with eth := s.eth.filter (fun (x : EthPort) => x.port ≠ p) ++ [f (s.ethPort p)] }

/-- The port is an Ethernet port (R410, R464). -/
def State.isEth (s : State) (p : Nat) : Bool := p < 18 && bit s.mgmt.cfg.toNat p

/-- A ring base with its size: 2^lgn descriptors (R465). -/
def ethOn (b : W64) : Bool := 4 ≤ bits b.toNat 0 4 && bits b.toNat 0 4 ≤ 12

/-- Host address of a descriptor. -/
def ethPlace (b : W64) (head : BitVec 32) : Loc :=
  ⟨true, bits b.toNat 12 52 * 4096 + 16 * (head.toNat % 2 ^ bits b.toNat 0 4)⟩

/-- A descriptor whose reserved bits are set is malformed: it is finished with an error, and nothing is sent or written for
it (R3; DESIGN CHOICE, log entry 118). -/
def ethBad (d : Nat) : Bool := bits d 80 48 ≠ 0

/-- ETTXT_DOORBELL (R465). -/
def execEttxtDoorbell (port : Nat) (tail : W64) (s : State) : Out :=
  s.whenUp fun s => (if s.isEth port then s.setEth port fun x => { x with txt := tail.setWidth 32 } else s)

/-- ETRXT_DOORBELL (R465). -/
def execEtrxtDoorbell (port : Nat) (tail : W64) (s : State) : Out :=
  s.whenUp fun s => (if s.isEth port then s.setEth port fun x => { x with rxt := tail.setWidth 32 } else s)

/-- A frame of a port's transmit ring can be sent. -/
def State.txDue (s : State) (port : Nat) : Bool :=
  let x := s.ethPort port
  s.power && s.link && s.isEth port && ethOn x.tx && x.txh ≠ x.txt

/-- ETHERNET_FRAME_SENT: the next frame of the transmit ring goes out, and its descriptor is done (R465). -/
def execEthernetFrameSent (port : Nat) (s : State) : Out :=
  .next (if !s.txDue port then s
  else
    let x := s.ethPort port
    let p := ethPlace x.tx x.txh
    let d := s.memNat p 16
    let s' := s.setEth port fun x => { x with txh := x.txh + 1 }
    if ethBad d then s'.writeNat (p.add 9) 1 (bits d 72 8 ||| 192)
    else
    let frame := s.memBytes ⟨true, bits d 0 64⟩ (min 9216 (bits d 64 14))
    let s := s.writeNat (p.add 9) 1 (bits d 72 8 ||| 64)
    { s.setEth port fun x => { x with txh := x.txh + 1 } with frames := s.frames ++ [(port, frame)] })

/-- ETHERNET_FRAME_RECEIVED: a frame goes to the buffer of the next descriptor of the receive ring; where there is none it is
lost (R465). -/
def execEthernetFrameReceived (port : Nat) (frame : List Byte) (bad : Bool) (s : State) : Out :=
  let x := s.ethPort port
  .next (if !(s.power && s.link && s.isEth port && ethOn x.rx) || x.rxh = x.rxt then s
  else
    let p := ethPlace x.rx x.rxh
    let d := s.memNat p 16
    if ethBad d then (s.writeNat (p.add 9) 1 (bits d 72 8 ||| 192)).setEth port fun x => { x with rxh := x.rxh + 1 }
    else
    let frame := frame.take 9216
    let s := s.writeRun ⟨true, bits d 0 64⟩ frame
    let flags := bits d 78 2 ||| (if bad then 3 else 1)
    let s := s.writeNat (p.add 8) 2 (frame.length % 2 ^ 14 + flags * 2 ^ 14)
    s.setEth port fun x => { x with rxh := x.rxh + 1 })

end Sys2Proof.Machine
end

