-- ==== Sys2Proof/Machine/Registers.lean ====
section
/-! DEFINITION. The registers that the host reaches through BAR0 of each function, and writes to those without a behaviour of
their own (R316, R327, R336, R380, R391, R404, R412, R437, R449, R455, R464, R465). -/

namespace Sys2Proof.Machine

/-- Replaces an entry of a list of registers. -/
def setReg (l : List W64) (n : Nat) (v : W64) : List W64 := l.set n v

/-- A value of which only some fields, each its lowest bit and width, are kept: the reserved bits of a register ignore what
is written and read as zero (R3). -/
def fieldsOf (v : W64) (fs : List (Nat × Nat)) : W64 :=
  BitVec.ofNat 64 (fs.foldl (fun n f => n + fieldAt (bits v.toNat f.1 f.2) f.1 f.2) 0)

/-- The function's pages may be accessed (R455, R457): after bring-up, and for a virtual function only in RUN. -/
def State.reachable (s : State) (fn off : Nat) : Bool :=
  s.power && s.link && fn < 64 &&
    ((s.mgmt.boot = 2 && (fn = 0 || (s.world fn).tdi = .run)) ||
      (s.mgmt.boot = 3 && fn = 0 && 0x30000 ≤ off && off < 0x31000))

/-- A write to the translation page of a world (R316, R336). -/
def State.writeTranslation (s : State) (w off : Nat) (v : W64) : State :=
  if off < 0x80 then
    (if off % 8 = 0 then s.setWorld w fun x => { x with droot := setReg x.droot (off / 8) (fieldsOf v [(0, 1), (12, 40)]) } else s)
  else if off = 0x80 then s.setWorld w fun x => { x with frbase := fieldsOf v [(0, 5), (12, 40)] }
  else if off = 0x90 then s.setWorld w fun x => { x with frhead := fieldsOf v [(0, 32)] }
  else if off = 0xB0 then s.setWorld w fun x => { x with gtbase := fieldsOf v [(0, 9), (12, 40)] }
  else s

/-- PMCNT: count is replaced, and ovf is cleared where 1 is written to it (R404). -/
def pmcntWrite (old v : W64) : W64 :=
  BitVec.ofNat 64 (v.toNat % 2 ^ 48 + bitAt (bit old.toNat 48 && !bit v.toNat 48) 48)

/-- A write to the scheduler page of a world (R380, R391, R404). QTAIL has its own doorbell. -/
def State.writeScheduler (s : State) (w off : Nat) (v : W64) : State :=
  if off < 0x200 then
    (if off % 32 = 0 then s.setQueue w (off / 32) fun x => { x with cfg := fieldsOf v [(0, 1), (2, 7), (12, 40)] } else s)
  else if off = 0x200 then s.setWorld w fun x => { x with ctxbase := fieldsOf v [(12, 40)] }
  else if off = 0x208 then s.setWorld w fun x => { x with ctxsize := fieldsOf v [(12, 28)] }
  else if 0x240 ≤ off ∧ off < 0x280 ∧ off % 8 = 0 then
    s.setWorld w fun x => { x with pmsel := setReg x.pmsel ((off - 0x240) / 8) (fieldsOf v [(0, 9)]) }
  else if 0x280 ≤ off ∧ off < 0x2C0 ∧ off % 8 = 0 then
    s.setWorld w fun x =>
      { x with pmcnt := setReg x.pmcnt ((off - 0x280) / 8) (pmcntWrite (x.pmcnt.getD ((off - 0x280) / 8) 0) v) }
  else s

/-- A write to FBCFG or FBPCFG (R412): local and en are replaced, brk and ovr are cleared where 1 is
written to them. -/
def State.writeFbcfg (s : State) (w : Nat) (pod : Bool) (n : Nat) (v : W64) : State :=
  let s := s.setBar w pod n fun b => { b with cfg := fieldsOf v [(0, 33)], ovr := b.ovr && !bit v.toNat 33 }
  if bit v.toNat 34 && (s.bar w pod n).brk then s.clearBroken w pod n else s

/-- A write to the Causeway page of a world (R412). -/
def State.writeCauseway (s : State) (w off : Nat) (v : W64) : State :=
  if off % 8 ≠ 0 then s
  else if off < 0x100 then s.writeFbcfg w false (off / 8) v
  else if off < 0x140 then s.writeFbcfg w true ((off - 0x100) / 8) v
  else if off = 0x148 then s.setWorld w fun x => { x with cwto := fieldsOf v [(0, 16)] }
  else s

/-- A write to the migration block of a world (R327); a swap has its own step. -/
def State.writeMigration (s : State) (w off : Nat) (v : W64) : State :=
  if off = 0 then s.setWorld w fun x => { x with dbm0 := fieldsOf v [(12, 40)] }
  else if off = 8 then s.setWorld w fun x => { x with dbm1 := fieldsOf v [(12, 40)] }
  else if off = 0x10 then
    s.setWorld w fun x => { x with dbmctl := fieldsOf v [(0, 1), (32, 32)] ||| (x.dbmctl &&& 10) }
  else if off = 0x18 then s.setWorld w fun x => { x with pullto := fieldsOf v [(0, 16)] }
  else s

/-- A write to the Kraord page (R437, R449). KEHEAD, KRTAIL and KRSYNCT have their own steps. A ring that gets a size may come
to run (R451). -/
def State.writeKraord (s : State) (off : Nat) (v : W64) : State :=
  if off = 0 then { s with kebase := fieldsOf v [(0, 4), (12, 40)] }
  else if 0x1000 ≤ off ∧ off < 0x2000 then
    (let w := (off - 0x1000) / 64
     if off % 64 = 0 then (s.setRing w fun r => { r with base := fieldsOf v [(0, 4), (12, 40)] }).testAll w
     else if off % 64 = 0x28 then s.setRing w fun r => { r with sync := v }
     else s)
  else s

/-- A write to the management page (R464). MGFWCMD.go has its own step. -/
def State.writeMgmt (s : State) (off : Nat) (v : W64) : State :=
  if off = 0x38 then { s with mgmt := { s.mgmt with fwaddr := v } }
  else if off = 0x48 then { s with mgmt := { s.mgmt with pl := fieldsOf v [(0, 16)] } }
  else s

/-- A write to the Ethernet page (R465). The tails have their own doorbells. -/
def State.writeEth (s : State) (off : Nat) (v : W64) : State :=
  let p := off / 64
  if !s.isEth p then s
  else if off % 64 = 0 then s.setEth p fun x => { x with tx := fieldsOf v [(0, 4), (12, 52)] }
  else if off % 64 = 0x10 then s.setEth p fun x => { x with rx := fieldsOf v [(0, 4), (12, 52)] }
  else s

/-- REGISTER_WRITE: a write to BAR0 of a function (R455). -/
def execRegisterWrite (fn off : Nat) (v : W64) (s : State) : Out :=
  .next (if !s.reachable fn off then s
  else if off < 0x1000 then s.writeTranslation fn off v
  else if off < 0x2000 then s.writeScheduler fn (off - 0x1000) v
  else if off < 0x3000 then s.writeCauseway fn (off - 0x2000) v
  else if fn ≠ 0 then s
  else if 0x10000 ≤ off ∧ off < 0x11000 then s.writeMigration ((off - 0x10000) / 64) (off % 64) v
  else if 0x20000 ≤ off ∧ off < 0x30000 then s.writeKraord (off - 0x20000) v
  else if 0x30000 ≤ off ∧ off < 0x31000 then s.writeMgmt (off - 0x30000) v
  else if 0x31000 ≤ off ∧ off < 0x32000 then s.writeEth (off - 0x31000) v
  else s)

/-- PMCNT_OVF_CLEAR (R404). -/
def execPmcntOvfClear (w n : Nat) (s : State) : Out :=
  s.powered fun s => (s.setWorld w fun x =>
    { x with pmcnt := setReg x.pmcnt n (BitVec.ofNat 64 ((x.pmcnt.getD n 0).toNat % 2 ^ 48)) })

end Sys2Proof.Machine
end

