-- ==== Sys2Proof/Machine/Dispatch.lean ====
section
/-! DEFINITION. The dispatch of an instruction or step to its meaning: one arm for each constructor. -/

namespace Sys2Proof.Machine

/-- The meaning of an instruction or step. -/
def exec (i : Instr) (s : State) : Host.Outcome State Fault Refusal :=
  match i with
  | .nop f => Sys2Proof.Machine.execNop f s
  | .mov f => Sys2Proof.Machine.execMov f s
  | .movi f => Sys2Proof.Machine.execMovi f s
  | .sel f => Sys2Proof.Machine.execSel f s
  | .add f => Sys2Proof.Machine.execAdd f s
  | .sub f => Sys2Proof.Machine.execSub f s
  | .mul f => Sys2Proof.Machine.execMul f s
  | .mulh f => Sys2Proof.Machine.execMulh f s
  | .mad f => Sys2Proof.Machine.execMad f s
  | .addc f => Sys2Proof.Machine.execAddc f s
  | .subb f => Sys2Proof.Machine.execSubb f s
  | .min f => Sys2Proof.Machine.execMin f s
  | .max f => Sys2Proof.Machine.execMax f s
  | .abs f => Sys2Proof.Machine.execAbs f s
  | .neg f => Sys2Proof.Machine.execNeg f s
  | .sadd f => Sys2Proof.Machine.execSadd f s
  | .ssub f => Sys2Proof.Machine.execSsub f s
  | .and f => Sys2Proof.Machine.execAnd f s
  | .or f => Sys2Proof.Machine.execOr f s
  | .xor f => Sys2Proof.Machine.execXor f s
  | .not f => Sys2Proof.Machine.execNot f s
  | .andn f => Sys2Proof.Machine.execAndn f s
  | .shl f => Sys2Proof.Machine.execShl f s
  | .shr f => Sys2Proof.Machine.execShr f s
  | .sar f => Sys2Proof.Machine.execSar f s
  | .rot f => Sys2Proof.Machine.execRot f s
  | .popc f => Sys2Proof.Machine.execPopc f s
  | .clz f => Sys2Proof.Machine.execClz f s
  | .brev f => Sys2Proof.Machine.execBrev f s
  | .bfx f => Sys2Proof.Machine.execBfx f s
  | .bfi f => Sys2Proof.Machine.execBfi f s
  | .cmp f => Sys2Proof.Machine.execCmp f s
  | .plog f => Sys2Proof.Machine.execPlog f s
  | .addr f => Sys2Proof.Machine.execAddr f s
  | .pack f => Sys2Proof.Machine.execPack f s
  | .unpack f => Sys2Proof.Machine.execUnpack f s
  | .fadd f => Sys2Proof.Machine.execFadd f s
  | .fsub f => Sys2Proof.Machine.execFsub f s
  | .fmul f => Sys2Proof.Machine.execFmul f s
  | .fma f => Sys2Proof.Machine.execFma f s
  | .fmin f => Sys2Proof.Machine.execFmin f s
  | .fmax f => Sys2Proof.Machine.execFmax f s
  | .fcmp f => Sys2Proof.Machine.execFcmp f s
  | .frcp f => Sys2Proof.Machine.execFrcp f s
  | .frsq f => Sys2Proof.Machine.execFrsq f s
  | .fsqrt f => Sys2Proof.Machine.execFsqrt f s
  | .fdiv f => Sys2Proof.Machine.execFdiv f s
  | .fexp2 f => Sys2Proof.Machine.execFexp2 f s
  | .flog2 f => Sys2Proof.Machine.execFlog2 f s
  | .fsin f => Sys2Proof.Machine.execFsin f s
  | .fcos f => Sys2Proof.Machine.execFcos f s
  | .ftanh f => Sys2Proof.Machine.execFtanh f s
  | .fclass f => Sys2Proof.Machine.execFclass f s
  | .frnd f => Sys2Proof.Machine.execFrnd f s
  | .cvt f => Sys2Proof.Machine.execCvt f s
  | .fscale f => Sys2Proof.Machine.execFscale f s
  | .shfl f => Sys2Proof.Machine.execShfl f s
  | .vote f => Sys2Proof.Machine.execVote f s
  | .gred f => Sys2Proof.Machine.execGred f s
  | .gscan f => Sys2Proof.Machine.execGscan f s
  | .gets f => Sys2Proof.Machine.execGets f s
  | .sets f => Sys2Proof.Machine.execSets f s
  | .kmov f => Sys2Proof.Machine.execKmov f s
  | .matchLanes f => Sys2Proof.Machine.execMatchLanes f s
  | .rdclk f => Sys2Proof.Machine.execRdclk f s
  | .elect f => Sys2Proof.Machine.execElect f s
  | .ld f => Sys2Proof.Machine.execLd f s
  | .st f => Sys2Proof.Machine.execSt f s
  | .ldk f => Sys2Proof.Machine.execLdk f s
  | .atom f => Sys2Proof.Machine.execAtom f s
  | .atomr f => Sys2Proof.Machine.execAtomr f s
  | .cas f => Sys2Proof.Machine.execCas f s
  | .fence f => Sys2Proof.Machine.execFence f s
  | .pref f => Sys2Proof.Machine.execPref f s
  | .spill f => Sys2Proof.Machine.execSpill f s
  | .fill f => Sys2Proof.Machine.execFill f s
  | .salloc f => Sys2Proof.Machine.execSalloc f s
  | .cmo f => Sys2Proof.Machine.execCmo f s
  | .prep f => Sys2Proof.Machine.execPrep f s
  | .prepv f => Sys2Proof.Machine.execPrepv f s
  | .xfer f => Sys2Proof.Machine.execXfer f s
  | .xferShed f => Sys2Proof.Machine.execXferShed f s
  | .xcall f => Sys2Proof.Machine.execXcall f s
  | .ret f => Sys2Proof.Machine.execRet f s
  | .cset f => Sys2Proof.Machine.execCset f s
  | .sign f => Sys2Proof.Machine.execSign f s
  | .join f => Sys2Proof.Machine.execJoin f s
  | .exit f => Sys2Proof.Machine.execExit f s
  | .trap f => Sys2Proof.Machine.execTrap f s
  | .brk f => Sys2Proof.Machine.execBrk f s
  | .yield f => Sys2Proof.Machine.execYield f s
  | .sethdl f => Sys2Proof.Machine.execSethdl f s
  | .hret f => Sys2Proof.Machine.execHret f s
  | .icinv f => Sys2Proof.Machine.execIcinv f s
  | .wmclr f => Sys2Proof.Machine.execWmclr f s
  | .sleep f => Sys2Proof.Machine.execSleep f s
  | .talloc f => Sys2Proof.Machine.execTalloc f s
  | .tfree f => Sys2Proof.Machine.execTfree f s
  | .tld f => Sys2Proof.Machine.execTld f s
  | .tst f => Sys2Proof.Machine.execTst f s
  | .tfill f => Sys2Proof.Machine.execTfill f s
  | .tinfo f => Sys2Proof.Machine.execTinfo f s
  | .tbind f => Sys2Proof.Machine.execTbind f s
  | .cpy f => Sys2Proof.Machine.execCpy f s
  | .cpys f => Sys2Proof.Machine.execCpys f s
  | .cpym f => Sys2Proof.Machine.execCpym f s
  | .cpya f => Sys2Proof.Machine.execCpya f s
  | .cpyx f => Sys2Proof.Machine.execCpyx f s
  | .mile f => Sys2Proof.Machine.execMile f s
  | .mileFault f => Sys2Proof.Machine.execMileFault f s
  | .binit f => Sys2Proof.Machine.execBinit f s
  | .barr f => Sys2Proof.Machine.execBarr f s
  | .bexp f => Sys2Proof.Machine.execBexp f s
  | .bwait f => Sys2Proof.Machine.execBwait f s
  | .btest f => Sys2Proof.Machine.execBtest f s
  | .mma f => Sys2Proof.Machine.execMma f s
  | .tmma f => Sys2Proof.Machine.execTmma f s
  | .tmmac f => Sys2Proof.Machine.execTmmac f s
  | .mfin f => Sys2Proof.Machine.execMfin f s
  | .fcvti f => Sys2Proof.Machine.execFcvti f s
  | .fcvto f => Sys2Proof.Machine.execFcvto f s
  | .fqnt f => Sys2Proof.Machine.execFqnt f s
  | .fdqnt f => Sys2Proof.Machine.execFdqnt f s
  | .fload f => Sys2Proof.Machine.execFload f s
  | .floadClr f => Sys2Proof.Machine.execFloadClr f s
  | .fstat f => Sys2Proof.Machine.execFstat f s
  | .fstatHash f => Sys2Proof.Machine.execFstatHash f s
  | .fsync f => Sys2Proof.Machine.execFsync f s
  | .fmode f => Sys2Proof.Machine.execFmode f s
  | .spawn f => Sys2Proof.Machine.execSpawn f s
  | .wput f => Sys2Proof.Machine.execWput f s
  | .wtake f => Sys2Proof.Machine.execWtake f s
  | .qidle f => Sys2Proof.Machine.execQidle f s
  | .qtest f => Sys2Proof.Machine.execQtest f s
  | .launch f => Sys2Proof.Machine.execLaunch f s
  | .lwait f => Sys2Proof.Machine.execLwait f s
  | .tlbiVa f => Sys2Proof.Machine.execTlbiVa f s
  | .tlbiRange f => Sys2Proof.Machine.execTlbiRange f s
  | .tlbiDom f => Sys2Proof.Machine.execTlbiDom f s
  | .tlbiWorld f => Sys2Proof.Machine.execTlbiWorld f s
  | .xlate f => Sys2Proof.Machine.execXlate f s
  | .gate f => Sys2Proof.Machine.execGate f s
  | .gret f => Sys2Proof.Machine.execGret f s
  | .tktTurn f => Sys2Proof.Machine.execTktTurn f s
  | .tktLap f => Sys2Proof.Machine.execTktLap f s
  | .ordmark f => Sys2Proof.Machine.execOrdmark f s
  | .hashrd f => Sys2Proof.Machine.execHashrd f s
  | .psaved f => Sys2Proof.Machine.execPsaved f s
  | .rput f => Sys2Proof.Machine.execRput f s
  | .rget f => Sys2Proof.Machine.execRget f s
  | .cred f => Sys2Proof.Machine.execCred f s
  | .credb f => Sys2Proof.Machine.execCredb f s
  | .fbar f => Sys2Proof.Machine.execFbar f s
  | .fbwait f => Sys2Proof.Machine.execFbwait f s
  | .fevt f => Sys2Proof.Machine.execFevt f s
  | .trapDelivery t => Sys2Proof.Machine.execTrapDelivery t s
  | .memoryAccessComplete op => Sys2Proof.Machine.execMemoryAccessComplete op s
  | .writeBufferDrain entry => Sys2Proof.Machine.execWriteBufferDrain entry s
  | .recallComplete op => Sys2Proof.Machine.execRecallComplete op s
  | .stackWindowTransfer team gid line => Sys2Proof.Machine.execStackWindowTransfer team gid line s
  | .returnStackTransfer t fill => Sys2Proof.Machine.execReturnStackTransfer t fill s
  | .waymarkPrefetchDone t m => Sys2Proof.Machine.execWaymarkPrefetchDone t m s
  | .sleepExpiry t => Sys2Proof.Machine.execSleepExpiry t s
  | .convergenceDeadlock team => Sys2Proof.Machine.execConvergenceDeadlock team s
  | .tallocGrant op => Sys2Proof.Machine.execTallocGrant op s
  | .tileDeadlock core => Sys2Proof.Machine.execTileDeadlock core s
  | .tileRelease tile => Sys2Proof.Machine.execTileRelease tile s
  | .tileOpComplete op => Sys2Proof.Machine.execTileOpComplete op s
  | .copyDeliveryUnit copy => Sys2Proof.Machine.execCopyDeliveryUnit copy s
  | .copyComplete copy => Sys2Proof.Machine.execCopyComplete copy s
  | .copyFault copy => Sys2Proof.Machine.execCopyFault copy s
  | .cpymGather g => Sys2Proof.Machine.execCpymGather g s
  | .mmaTeamComplete g => Sys2Proof.Machine.execMmaTeamComplete g s
  | .tmmaComplete op => Sys2Proof.Machine.execTmmaComplete op s
  | .tmmacRendezvous g => Sys2Proof.Machine.execTmmacRendezvous g s
  | .tmmacComplete g => Sys2Proof.Machine.execTmmacComplete g s
  | .formatOpComplete op => Sys2Proof.Machine.execFormatOpComplete op s
  | .imageVerifyDone job => Sys2Proof.Machine.execImageVerifyDone job s
  | .slotDrainDone w f => Sys2Proof.Machine.execSlotDrainDone w f s
  | .slotReconfigDone w f => Sys2Proof.Machine.execSlotReconfigDone w f s
  | .slotReload w f => Sys2Proof.Machine.execSlotReload w f s
  | .laybyTimerExpiry cluster n => Sys2Proof.Machine.execLaybyTimerExpiry cluster n s
  | .formedGroupStart formed core => Sys2Proof.Machine.execFormedGroupStart formed core s
  | .spawnPlacement cluster => Sys2Proof.Machine.execSpawnPlacement cluster s
  | .quiescenceClose set => Sys2Proof.Machine.execQuiescenceClose set s
  | .dispatchLaunch w q => Sys2Proof.Machine.execDispatchLaunch w q s
  | .dependenceMet launch dep => Sys2Proof.Machine.execDependenceMet launch dep s
  | .teamResidence launch core => Sys2Proof.Machine.execTeamResidence launch core s
  | .launchEnd launch => Sys2Proof.Machine.execLaunchEnd launch s
  | .contextSave team => Sys2Proof.Machine.execContextSave team s
  | .contextRestore team core intact => Sys2Proof.Machine.execContextRestore team core intact s
  | .quantumExpiry part => Sys2Proof.Machine.execQuantumExpiry part s
  | .worldSwitch part => Sys2Proof.Machine.execWorldSwitch part s
  | .timeCapReached part => Sys2Proof.Machine.execTimeCapReached part s
  | .periodStart part => Sys2Proof.Machine.execPeriodStart part s
  | .quietPointSave team => Sys2Proof.Machine.execQuietPointSave team s
  | .g1Expiry launch => Sys2Proof.Machine.execG1Expiry launch s
  | .g2Expiry launch => Sys2Proof.Machine.execG2Expiry launch s
  | .ladderLapse launch => Sys2Proof.Machine.execLadderLapse launch s
  | .faultSwap team => Sys2Proof.Machine.execFaultSwap team s
  | .faultRecordWrite w => Sys2Proof.Machine.execFaultRecordWrite w s
  | .dbmSwapDone w => Sys2Proof.Machine.execDbmSwapDone w s
  | .pullTimeout w ipa => Sys2Proof.Machine.execPullTimeout w ipa s
  | .gateSlotRelease team gid => Sys2Proof.Machine.execGateSlotRelease team gid s
  | .turnStart team => Sys2Proof.Machine.execTurnStart team s
  | .replayHoldTimeout op => Sys2Proof.Machine.execReplayHoldTimeout op s
  | .tollgatePass op => Sys2Proof.Machine.execTollgatePass op s
  | .flitWrite x => Sys2Proof.Machine.execFlitWrite x s
  | .flitReadRequest x => Sys2Proof.Machine.execFlitReadRequest x s
  | .flitReadData x => Sys2Proof.Machine.execFlitReadData x s
  | .flitRmwRequest x => Sys2Proof.Machine.execFlitRmwRequest x s
  | .flitRmwResult x => Sys2Proof.Machine.execFlitRmwResult x s
  | .flitAcknowledgement x => Sys2Proof.Machine.execFlitAcknowledgement x s
  | .flitContribution x => Sys2Proof.Machine.execFlitContribution x s
  | .flitRelease x => Sys2Proof.Machine.execFlitRelease x s
  | .remoteTimeout req => Sys2Proof.Machine.execRemoteTimeout req s
  | .stage2Event fault => Sys2Proof.Machine.execStage2Event fault s
  | .firmwareVerifyDone => Sys2Proof.Machine.execFirmwareVerifyDone s
  | .ethernetFrameSent port => Sys2Proof.Machine.execEthernetFrameSent port s
  | .instructionFetchDone t => Sys2Proof.Machine.execInstructionFetchDone t s
  | .translationOpComplete op => Sys2Proof.Machine.execTranslationOpComplete op s
  | .gateCallComplete team gid => Sys2Proof.Machine.execGateCallComplete team gid s
  | .spawnEngineComplete op => Sys2Proof.Machine.execSpawnEngineComplete op s
  | .fabricBarrierArrival op => Sys2Proof.Machine.execFabricBarrierArrival op s
  | .barrierUpdateComplete op => Sys2Proof.Machine.execBarrierUpdateComplete op s
  | .qtailDoorbell w q tail => Sys2Proof.Machine.execQtailDoorbell w q tail s
  | .notify w v => Sys2Proof.Machine.execNotify w v s
  | .priResponse fault ok => Sys2Proof.Machine.execPriResponse fault ok s
  | .atsInvalidation w host bytes => Sys2Proof.Machine.execAtsInvalidation w host bytes s
  | .dbmctlSwap w v => Sys2Proof.Machine.execDbmctlSwap w v s
  | .pullComplete w ipa bytes => Sys2Proof.Machine.execPullComplete w ipa bytes s
  | .flitRetransmit port => Sys2Proof.Machine.execFlitRetransmit port s
  | .barrierBroken w pod n => Sys2Proof.Machine.execBarrierBroken w pod n s
  | .fbcfgBrkClear w pod n => Sys2Proof.Machine.execFbcfgBrkClear w pod n s
  | .fbcfgOvrClear w pod n => Sys2Proof.Machine.execFbcfgOvrClear w pod n s
  | .pmcntOvfClear w n => Sys2Proof.Machine.execPmcntOvfClear w n s
  | .registerWrite fn off v => Sys2Proof.Machine.execRegisterWrite fn off v s
  | .krtailDoorbell w tail => Sys2Proof.Machine.execKrtailDoorbell w tail s
  | .krsynctCheck w tag => Sys2Proof.Machine.execKrsynctCheck w tag s
  | .bind c part => Sys2Proof.Machine.execBind c part s
  | .unbind c => Sys2Proof.Machine.execUnbind c s
  | .s2map c ipa size pa r w x tensor pull => Sys2Proof.Machine.execS2map c ipa size pa r w x tensor pull s
  | .s2unmap c ipa size => Sys2Proof.Machine.execS2unmap c ipa size s
  | .s2refuse c w id => Sys2Proof.Machine.execS2refuse c w id s
  | .tdef c index tensor base => Sys2Proof.Machine.execTdef c index tensor base s
  | .trekey c index => Sys2Proof.Machine.execTrekey c index s
  | .tretire c index => Sys2Proof.Machine.execTretire c index s
  | .keyreg c index key => Sys2Proof.Machine.execKeyreg c index key s
  | .keydrop c index => Sys2Proof.Machine.execKeydrop c index s
  | .imgput c addr => Sys2Proof.Machine.execImgput c addr s
  | .fkeyLoad c gen key => Sys2Proof.Machine.execFkeyLoad c gen key s
  | .fkeySend c gen => Sys2Proof.Machine.execFkeySend c gen s
  | .preempt c queue ticket => Sys2Proof.Machine.execPreempt c queue ticket s
  | .wexport c chain buffer => Sys2Proof.Machine.execWexport c chain buffer s
  | .wimport c buffer => Sys2Proof.Machine.execWimport c buffer s
  | .pullset c ipa bytes source => Sys2Proof.Machine.execPullset c ipa bytes source s
  | .partset c desc => Sys2Proof.Machine.execPartset c desc s
  | .span c w dom pod => Sys2Proof.Machine.execSpan c w dom pod s
  | .fenceCoreOrPage c page n => Sys2Proof.Machine.execFenceCoreOrPage c page n s
  | .lockInterfaceRequest w => Sys2Proof.Machine.execLockInterfaceRequest w s
  | .startInterfaceRequest w ide => Sys2Proof.Machine.execStartInterfaceRequest w ide s
  | .stopInterfaceRequest w => Sys2Proof.Machine.execStopInterfaceRequest w s
  | .tdispError w => Sys2Proof.Machine.execTdispError w s
  | .spdmSessionEstablish w key => Sys2Proof.Machine.execSpdmSessionEstablish w key s
  | .keyUpdate w => Sys2Proof.Machine.execKeyUpdate w s
  | .getMeasurements index => Sys2Proof.Machine.execGetMeasurements index s
  | .perstRelease => Sys2Proof.Machine.execPerstRelease s
  | .powerLoss => Sys2Proof.Machine.execPowerLoss s
  | .thermalTrip => Sys2Proof.Machine.execThermalTrip s
  | .fclkAdjust mhz => Sys2Proof.Machine.execFclkAdjust mhz s
  | .eccError place index corrected => Sys2Proof.Machine.execEccError place index corrected s
  | .patrolScrub line => Sys2Proof.Machine.execPatrolScrub line s
  | .mgfwcmdGo => Sys2Proof.Machine.execMgfwcmdGo s
  | .hostLinkDown => Sys2Proof.Machine.execHostLinkDown s
  | .ettxtDoorbell port tail => Sys2Proof.Machine.execEttxtDoorbell port tail s
  | .etrxtDoorbell port tail => Sys2Proof.Machine.execEtrxtDoorbell port tail s
  | .ethernetFrameReceived port frame bad => Sys2Proof.Machine.execEthernetFrameReceived port frame bad s
  | .hostLinkRetrain => Sys2Proof.Machine.execHostLinkRetrain s
  | .perstAssert => Sys2Proof.Machine.execPerstAssert s
  | .keheadWrite v => Sys2Proof.Machine.execKeheadWrite v s

end Sys2Proof.Machine
end

