-- ==== Sys2Proof/Machine/Events.lean ====
section
/-! DEFINITION. The steps of the engines that are enabled in a state: what the machine may do next by itself. -/

namespace Sys2Proof.Machine

/-- Keeps a step that is enabled. -/
def given (p : Bool) (i : Instr) : List Instr := if p then [i] else []

/-- Steps of a thread. -/
def State.threadEvents (s : State) (t : TRef) : List Instr :=
  given (s.trapDue t) (.trapDelivery t) ++ given (s.sleepDue t) (.sleepExpiry t) ++
  given (s.fetching t) (.instructionFetchDone t) ++
  given (s.stackTransferDue t true) (.returnStackTransfer t true) ++
  given (s.stackTransferDue t false) (.returnStackTransfer t false) ++
  ((List.range 8).filter (s.prefetching t)).map (.waymarkPrefetchDone t)

/-- Background transfers of a group's stack window: the write-back of the line furthest above its %sp, and, while there is
room, the fill of the lines at the stack pointers of its threads (R152). -/
def State.windowEvents (s : State) (g : Group) : List Instr :=
  match s.window? g.team g.gid with
  | none => []
  | some w =>
    let held := w.lines.map (·.vline)
    let tops := (s.liveOfGroup g.team g.gid).map fun t => (s.thread t).sp.toNat / 128
    let fills := if w.lines.length < 32 then tops.eraseDups.filter fun n => !held.contains n else []
    (((s.furthest w).toList.map (·.vline) ++ fills).filter fun n =>
      (s.stackThread g.team g.gid (BitVec.ofNat 64 (128 * n))).isSome).map (.stackWindowTransfer g.team g.gid)

/-- Steps of a group. -/
def State.groupEvents (s : State) (g : Group) : List Instr :=
  s.windowEvents g ++ given (s.gateDue g.team g.gid) (.gateCallComplete g.team g.gid) ++
  given (s.releaseDue g.team g.gid) (.gateSlotRelease g.team g.gid)

/-- Steps of an operation: those of the engine that has it. -/
def State.opEvents (s : State) (o : Op) : List Instr :=
  given (s.recallDue o) (.recallComplete o.id) ++ given (s.accessDue o) (.memoryAccessComplete o.id) ++
  given (s.tollDue o) (.tollgatePass o.id) ++ given (s.heldLong o) (.replayHoldTimeout o.id) ++
  given (s.tileOpDue o) (.tileOpComplete o.id) ++ given (s.formatDue o) (.formatOpComplete o.id) ++
  given (s.translationDue o) (.translationOpComplete o.id) ++ given (s.spawnDue o) (.spawnEngineComplete o.id) ++
  given (s.arrivalDue o) (.fabricBarrierArrival o.id) ++ given (s.barrierDue o) (.barrierUpdateComplete o.id) ++
  (match o.instr with
   | .talloc _ => given (s.tileQ.contains o.id && s.grantable o) (.tallocGrant o.id)
   | .tmma _ => given (o.isProduct && !s.productBehind o && s.resident o.who.team) (.tmmaComplete o.id)
   | _ => [])

/-- Steps of a team. A restored frame may prove not to be intact (R393). -/
def State.teamEvents (s : State) (m : Team) : List Instr :=
  given (s.deadlocked m.id) (.convergenceDeadlock m.id) ++ given (s.turnDue m.id) (.turnStart m.id) ++
  given (s.graceSave m.id || s.parkOpen m.id) (.contextSave m.id) ++ given (s.quietDue m.id) (.quietPointSave m.id) ++
  given (s.swapDue m.id) (.faultSwap m.id) ++
  (if m.place = .resident then []
   else match (List.range 512).find? (s.restoreDue m.id) with
     | some c => [.contextRestore m.id c true, .contextRestore m.id c false]
     | none => [])

/-- Steps of the tile store of a core. -/
def State.tileEvents (s : State) : List Instr :=
  ((s.tileQ.filterMap s.op?).map fun o => s.coreOf o.who).eraseDups.flatMap (fun c =>
    given (s.tileDeadlocked c) (.tileDeadlock c)) ++
  s.tiles.flatMap fun t => given (t.releasing && !s.tileBusy t.id) (.tileRelease t.id)

/-- Steps of the copy and matrix engines. -/
def State.copyEvents (s : State) : List Instr :=
  s.copies.flatMap (fun c =>
    given (s.unitDue c) (.copyDeliveryUnit c.id) ++ given (s.unitDue c) (.copyFault c.id) ++
    given (s.copyDone c) (.copyComplete c.id)) ++
  s.gathers.map (fun g => .cpymGather g.id) ++
  s.mmas.flatMap (fun g => given (s.mmaDue g) (.mmaTeamComplete g.id)) ++
  s.tmmacs.flatMap (fun x => given (s.tmmacMeets x) (.tmmacRendezvous x.id)) ++
  (s.tmmacs.filterMap (·.met)).eraseDups.flatMap fun g => given (s.tmmacDue g) (.tmmacComplete g)

/-- Steps of the format engine. -/
def State.slotEvents (s : State) : List Instr :=
  s.slotQ.flatMap (fun j =>
    given (s.verifyDue j) (.imageVerifyDone j.id) ++
    given ((s.headAt j.world j.f 2).isSome && s.drainDue j.world j.f) (.slotDrainDone j.world j.f.toNat) ++
    given ((s.headAt j.world j.f 3).isSome) (.slotReconfigDone j.world j.f.toNat)) ++
  s.slots.flatMap fun x => given (s.reloadDue x.world x.f) (.slotReload x.world x.f.toNat)

/-- Steps of the spawn engines. -/
def State.spawnEvents (s : State) : List Instr :=
  s.laybys.flatMap (fun l => given (s.timerDue l) (.laybyTimerExpiry l.cluster (l.number.getD 0))) ++
  s.formed.flatMap (fun f => ((List.range 64).map (64 * f.cluster + ·)).flatMap fun c =>
    given (s.formedRoom f c).isSome (.formedGroupStart f.id c)) ++
  (List.range 8).flatMap (fun c => given (s.placementDue c) (.spawnPlacement c)) ++
  s.sets.flatMap fun x => given ((s.setQuiet x && !s.deterministic x.launch) || (s.listToAsk x).isSome) (.quiescenceClose x.id)

/-- Steps of the scheduler. -/
def State.launchEvents (s : State) : List Instr :=
  s.queues.flatMap (fun q => given (s.takeDue q.world q.q || s.victimDue q.world q.q) (.dispatchLaunch q.world q.q)) ++
  s.launches.flatMap (fun l =>
    ((List.range 8).filter (s.depDue l.id)).map (.dependenceMet l.id) ++
    (if s.turnOf l then ((List.range 512).filter fun c => (s.placeAt l c).isSome).map (.teamResidence l.id) else []) ++
    given (s.endDue l.id) (.launchEnd l.id) ++ given (s.g1Due l.id) (.g1Expiry l.id) ++
    given (s.g2Due l.id) (.g2Expiry l.id) ++ given (s.lapseDue l.id) (.ladderLapse l.id)) ++
  s.parts.flatMap fun p =>
    given (s.quantumDue p.id) (.quantumExpiry p.id) ++ given (s.switchDue p.id) (.worldSwitch p.id) ++
    given (s.capDue p.id) (.timeCapReached p.id) ++ given (s.periodDue p.id) (.periodStart p.id)

/-- The step of a flit that has been received and waits (R22, R417). -/
def flitEvent (x : Flit) : Instr :=
  match x.kind with
  | 0 => .flitWrite x
  | 1 => .flitReadRequest x
  | 2 => .flitReadData x
  | 3 => .flitRmwRequest x
  | 4 => .flitRmwResult x
  | 5 => .flitAcknowledgement x
  | 6 => .flitContribution x
  | _ => .flitRelease x

/-- Steps of the translation engine, the Causeway engine, Kraord and the platform. -/
def State.deviceEvents (s : State) : List Instr :=
  s.worlds.flatMap (fun x =>
    given (s.nextRecord x.w).isSome (.faultRecordWrite x.w) ++ given (s.swapBusy x.w) (.dbmSwapDone x.w)) ++
  s.faults.flatMap (fun f =>
    given (s.eventDue f.id) (.stage2Event f.id) ++
    given (f.pull && s.pullLate f.world (BitVec.ofNat 64 f.ipa)) (.pullTimeout f.world (BitVec.ofNat 64 f.ipa))) ++
  s.remotes.flatMap (fun r => given (s.remoteLate r) (.remoteTimeout r.id)) ++
  s.inbox.map flitEvent ++
  s.eth.flatMap (fun x => given (s.txDue x.port) (.ethernetFrameSent x.port)) ++
  given (s.mgmt.fwst = 1) .firmwareVerifyDone

/-- The engine steps that are enabled. -/
def State.enabledEvents (s : State) : List Instr :=
  (s.threads.filter (·.live)).flatMap (fun x => s.threadEvents x.id) ++ s.groups.flatMap s.groupEvents ++
  s.ops.flatMap s.opEvents ++
  s.wbuf.flatMap (fun e => given (s.canDrain e) (.writeBufferDrain e.id)) ++
  s.teams.flatMap s.teamEvents ++ s.tileEvents ++ s.copyEvents ++ s.slotEvents ++ s.spawnEvents ++ s.launchEvents ++
  s.deviceEvents

/-- The acts that are enabled: a cycle of each quad that has ready threads, in which any of the classes may be closed (R157;
DESIGN CHOICE, log entry 3), and the enabled steps. -/
def State.candidates (s : State) : List Act :=
  let quads := ((s.threads.filter fun x => s.isReady x.id).map fun x =>
    (s.coreOf x.id, (s.groupOf x.id).quad)).eraseDups
  quads.map (fun q => .issue q.1 q.2 (Config.closedClasses s.free)) ++ s.enabledEvents.map .event

/-- The act that the machine takes when none has been decided: the only one that is enabled, or a free choice
among several (DESIGN CHOICE, log entry 3). -/
def State.choose (s : State) : Option Act :=
  match s.candidates with
  | [] => none
  | [a] => some a
  | l => l[Config.pick s.free l.length % l.length]?

/-- Counts a cycle of a quad: the ready threads that do not issue have waited, and the count of those that issue returns to
zero (R157; DEDUCED, log entry 27). -/
def State.countWaits (s : State) (c ts : List TRef) : State :=
  { s with threads := s.threads.map fun x =>
      if ts.contains x.id then { x with wait := 0 } else if c.contains x.id then { x with wait := x.wait + 1 } else x }

end Sys2Proof.Machine
end

