-- ==== Sys2Proof/Machine/Issue.lean ====
section
/-! DEFINITION. What a step executes: time, the issue of a quad, an event, and a write of the host. -/

namespace Sys2Proof.Machine

/-- The performance counters of a world over the cycles of a step in which it is resident: cycles with a resident team, and
free amounts of MACs, L2 misses and bytes (R404, DESIGN CHOICE, log entry 3). -/
def State.countStep (s : State) (n : Nat) (x : World) : World :=
  if s.worldHere x.w then
    let x := if s.teams.any fun m => m.world = x.w && m.place = .resident then x.perf 0 n else x
    [3, 4, 5, 6].foldl (fun (x : World) e => x.perf e (Config.counted s.free e)) x
  else x

/-- Time passes: one cycle and a free number more, and the free values move on (DESIGN CHOICE, log entry 3). The device
counts time from its reset on, while its rails are on (R32, R38). -/
def State.tick (s : State) : State :=
  let n := 1 + Config.elapsed s.free
  { s with
    clock := if s.power && s.mgmt.boot ≠ 0 then s.clock + n else s.clock
    free := s.free + 1
    worlds := s.worlds.map (s.countStep n) }

/-- The state in which some threads issue: the issue and its thread instructions are counted (R404). -/
def State.opened (s : State) (core quad : Nat) (ts : List TRef) : State :=
  let w := (ts.head?.map s.worldOf).getD 0
  { (s.perf w 1 1).perf w 2 ts.length with issue := ⟨core, quad, ts, s.ids⟩, ids := s.ids + 1 }

/-- The state in which the threads ts make the first issue of a quad's cycle: those of c that stay behind have waited (R157), and
the second issue of the cycle follows (R158, R159). -/
def State.issued (s : State) (core quad : Nat) (c ts : List TRef) : State :=
  let us := s.pickSecond c ts
  let s := (s.countWaits c (ts ++ us)).opened core quad ts
  { s with agenda := (if us.isEmpty then [] else [.second core quad us]) ++ s.agenda }

/-- The instruction at the threads' pc is executed; a word that fails a check of R47 raises its trap in each of them. -/
def State.run (s s' : State) (ts : List TRef) : Host.Outcome State Fault Refusal :=
  match ts with
  | [] => .next s
  | t :: _ =>
    match s.nextInstr t with
    | none => .next s
    | some (.error e) => .next (ts.foldl (fun s u => s.raise u (illegalTrap e)) s')
    | some (.ok i) => exec i s'

/-- The first issue of a quad's cycle: the picker gathers its threads (R47, R157, R159). -/
def State.issueOn (s : State) (core quad : Nat) (closed : BitVec 7) : Host.Outcome State Fault Refusal :=
  let c := s.readyIn core quad closed
  let ts := s.pick c
  s.run (s.issued core quad c ts) ts

/-- The second issue of a quad's cycle, for the threads of it that the first one has left ready. -/
def State.issueSecond (s : State) (core quad : Nat) (us : List TRef) : Host.Outcome State Fault Refusal :=
  let ts := us.filter s.isReady
  s.run (s.opened core quad ts) ts

/-- The host writes bytes of its memory (DESIGN CHOICE, log entry 2). -/
def State.hostWrite (s : State) (a : Nat) (bs : List Byte) : State :=
  { s with hostMem := (bs.zipIdx a).foldl (fun m x => memWrite m x.2 x.1) s.hostMem }

/-- Time before an act: the second issue of a cycle takes none. -/
def State.before (s : State) : Act → State
  | .second _ _ _ => { s with free := s.free + 1 }
  | _ => s.tick

/-- Executes an act. -/
def State.act (s : State) : Act → Host.Outcome State Fault Refusal
  | .issue core quad closed => s.issueOn core quad closed
  | .second core quad us => s.issueSecond core quad us
  | .event i => exec i s
  | .write a bs => .next (s.hostWrite a bs)

end Sys2Proof.Machine
end

