-- ==== Sys2Proof/Machine/Step.lean ====
section
/-! DEFINITION. One step of the machine: the oldest act of the agenda, or else an act that is enabled. -/

namespace Sys2Proof.Machine

/-- One step of the machine. -/
def step (s : State) : Host.Outcome State Fault Refusal :=
  match s.agenda with
  | a :: rest => (({ s with agenda := rest } : State).before a).act a
  | [] =>
    match s.choose with
    | some a => s.tick.act a
    | none => .next s.tick

/-- The state with a loaded program of one instruction: a launch of one thread stands at it, the instruction's
line is in the quad's fetch buffers, and the issue of the quad is the next act (DESIGN CHOICE, log entry 17). -/
def State.withFetchWord (s : State) (_nbits w : Nat) : State :=
  let id := s.ids
  let t : TRef := ⟨id, 0, 0⟩
  let th : Thread := { Thread.init t 0x1000 with base := 0x2000, sp := 0x2000, stklim := 0x1800,
                                                 retbase := 0x2000, retlim := 0x2080 }
  { s with
    ids := id + 2
    agenda := .issue 0 0 0 :: s.agenda
    power := true
    halted := false
    threads := s.threads ++ [th]
    groups := s.groups ++ [Group.init id 0 0 false 1024 0]
    teams := s.teams ++ [{ Team.absent with id := id, launch := id + 1, teamdim := 0x100010001,
                                            griddim := 0x1000100000001, cregs := List.replicate 16 (CReg.init 1) }]
    launches := s.launches ++ [{ id := id + 1, world := 0, queue := 0, ticket := 0, state := .running, record := 0,
                                 kd := 0, args := [], taken := true, next := 1, deps := [], forms := 0, status := 0, reason := 0,
                                 started := 0, g1 := none, g2 := none, cause := 0, fault := none, fatal := none, restore := 0 }]
    fetch := ⟨0, 0, 0, 0, 32, BitVec.ofNat 1024 (w % 2 ^ 128)⟩ ::
      s.fetch.filter fun x => !(x.core = 0 && x.quad = 0 && x.world = 0 && x.domain = 0 && x.line = 32) }

end Sys2Proof.Machine
end

