-- ==== Sys2Proof/Safety.lean ====
section
/-! DEFINITION. The terms in which statements speak: what a good state is, when a thread of an issue executes its
instruction, and what an instruction may change. -/

namespace Sys2Proof.Machine

/-- Every table of bytes is in its canonical form. -/
def State.MemOk (s : State) : Prop := memWf s.mem = true ∧ memWf s.hostMem = true

/-- A run of n steps that neither faults nor refuses. -/
def SafeRun : Nat → State → Prop
  | 0, _ => True
  | n + 1, s => ∃ s', step s = .next s' ∧ SafeRun n s'

/-- Thread t of the issue executes instruction i: it is one of the issue's threads, its guard is 1, the slices that i
names lie in its budget, and it has no trap (R40, R47, R159). -/
structure State.Runs (s : State) (t : TRef) (i : Instr) (c : Common) : Prop where
  issued : t ∈ s.issue.threads
  once : s.issue.threads.Nodup
  row : ∃ x ∈ s.threads, x.id = t
  guard : s.guard t c.ctl = true
  slices : s.slicesOk t i = true
  clear : (s.thread t).trap = none

/-- The same, and the next word is at a code-canonical address (R163). -/
structure State.Passes (s : State) (t : TRef) (i : Instr) (c : Common) : Prop extends s.Runs t i c where
  next : codeCanonical ((s.thread t).pc + 16) = true

/-- A thread that has gone past an instruction (R41, R46, R157). -/
def Thread.past (x : Thread) (c : Common) : Thread :=
  { x with pc := x.pc + 16, seq := x.seq + 1, wait := 0, reuse := c.ctl.reuse, bwait := none, joins := false }

/-- A thread with a value of a type's width written into D (R59, write_dest). -/
def Thread.withDest (x : Thread) (d : Dst) (ty : Ty) (v : Nat) : Thread :=
  { x with slices := slicesSet x.slices d.start.toNat d.w.bits (destValue d ty.bits ty.isSigned v) }

/-- A thread with bits written into D as they are. -/
def Thread.withBits (x : Thread) (start w v : Nat) : Thread := { x with slices := slicesSet x.slices start w v }

/-- Only threads of a list differ between two states, and the marks of slices that these threads wrote over their
incomplete instructions (R45): memory, every other register and every other table are unchanged. -/
structure State.OnlyThreads (s s' : State) (ts : List TRef) : Prop where
  rest : s' = { s with threads := s'.threads, ops := s'.ops }
  others : ∀ u, u ∉ ts → s'.thread u = s.thread u
  marks : ∃ m : TRef → BitVec 1024, (∀ u, u ∉ ts → m u = 0) ∧
    s'.ops = s.ops.map fun o => { o with clobber := o.clobber ||| m o.who }

end Sys2Proof.Machine
end

