-- ==== Sys2Proof/Certificates/Slice0/Obligations.lean ====
section
/-! DEFINITION. The statements for the provers. -/

open Sys2Proof Sys2Proof.Machine

namespace Sys2Proof.Machine

/-! ### What the integer instructions compute, in bit-vector arithmetic (R106) -/

/-- Saturation of R59 on bit vectors: the bound where the exact sum or difference leaves the type's range. -/
def satBv {w : Nat} (signed ovf : Bool) (neg : Bool) (v : BitVec w) (up : Bool) : BitVec w :=
  if !ovf then v
  else if signed then (if neg then BitVec.intMin w else BitVec.intMax w)
  else if up then BitVec.allOnes w else 0

/-- Result of the instructions of group 0x0 that compute one value from A, B and C: the type's width, its signedness, and
the operands extended to the type. -/
def intSpec : List ((LaneF → Instr) × ((w : Nat) → Bool → BitVec w → BitVec w → BitVec w → BitVec w)) := [
  (.add, fun _ _ a b _ => a + b),
  (.sub, fun _ _ a b _ => a - b),
  (.mul, fun _ _ a b _ => a * b),
  (.mulh, fun w sg a b _ =>
    if sg then (a.signExtend (2 * w) * b.signExtend (2 * w)).extractLsb' w w
    else (a.setWidth (2 * w) * b.setWidth (2 * w)).extractLsb' w w),
  (.mad, fun _ _ a b c => a * b + c),
  (.min, fun _ sg a b _ => if (if sg then a.slt b else a.ult b) then a else b),
  (.max, fun _ sg a b _ => if (if sg then a.slt b else a.ult b) then b else a),
  (.abs, fun _ sg a _ _ => if sg && a.msb then -a else a),
  (.neg, fun _ _ a _ _ => -a),
  (.sadd, fun _ sg a b _ =>
    satBv sg (if sg then a.saddOverflow b else a.uaddOverflow b) a.msb (a + b) true),
  (.ssub, fun _ sg a b _ =>
    satBv sg (if sg then a.ssubOverflow b else a.usubOverflow b) a.msb (a - b) false)]

/-- The bitwise instructions, shifts and counts of group 0x0; a shift distance is the natural number in B. -/
def bitSpec : List ((LaneF → Instr) × ((w : Nat) → BitVec w → BitVec w → BitVec w)) := [
  (.and, fun _ a b => a &&& b),
  (.or, fun _ a b => a ||| b),
  (.xor, fun _ a b => a ^^^ b),
  (.not, fun _ a _ => ~~~a),
  (.andn, fun _ a b => a &&& ~~~b),
  (.shl, fun _ a b => a <<< b.toNat),
  (.shr, fun _ a b => a >>> b.toNat),
  (.sar, fun _ a b => a.sshiftRight b.toNat),
  (.rot, fun _ a b => a.rotateLeft b.toNat),
  (.popc, fun w a _ => BitVec.ofNat w ((List.finRange w).countP fun (i : Fin w) => a.getLsbD i)),
  (.clz, fun _ a _ => a.clz),
  (.brev, fun _ a _ => a.reverse)]

/-- An operand as a bit vector of the type's width. -/
def State.opndBv (s : State) (t : TRef) (o : Opnd) (ty : Ty) : BitVec ty.bits := BitVec.ofNat ty.bits (s.opnd t o ty)

end Sys2Proof.Machine

/-! ### Group 0x0 -/

/-- R106: ADD, SUB, MUL, MULH, MAD, MIN, MAX, ABS, NEG, SADD and SSUB, on every integer type: the thread goes on at the next
word with the result in D, and nothing else of it changes. R106: AND, OR, XOR, NOT, ANDN, SHL, SHR, SAR, ROT, POPC, CLZ and
BREV, on every integer type. -/
def Obligations.IntegerArithmetic : Prop :=
  (
  ∀ e ∈ intSpec, ∀ (f : LaneF) (s : State) (t : TRef),
    f.ty.isInt = true → s.Passes t (e.1 f) f.toCommon →
    ∃ s', exec (e.1 f) s = .next s' ∧
      s'.thread t = ((s.thread t).withDest f.d f.ty
        (e.2 f.ty.bits f.ty.isSigned (s.opndBv t f.a f.ty) (s.opndBv t f.b f.ty) (s.opndBv t f.c f.ty)).toNat).past f.toCommon
  ) ∧ (
  ∀ e ∈ bitSpec, ∀ (f : LaneF) (s : State) (t : TRef),
    f.ty.isInt = true → s.Passes t (e.1 f) f.toCommon →
    ∃ s', exec (e.1 f) s = .next s' ∧
      s'.thread t = ((s.thread t).withDest f.d f.ty
        (e.2 f.ty.bits (s.opndBv t f.a f.ty) (s.opndBv t f.b f.ty)).toNat).past f.toCommon
  )

/-- R106, R107, R108: NOP, MOV and SEL on a fixed type, MOVI, ADDR, BFX and BFI. A floating value moves as bits, an
immediate of a floating type as its conversion (R37); BFX and BFI take the field [pos+len-1:pos]. R109: PACK writes
{conv(b), conv(a)} at twice the type's width, wrapped or saturated, and UNPACK writes field i of A. -/
def Obligations.MovesAndFields : Prop :=
  (
  (∀ (f : LaneF) (s : State) (t : TRef), s.Passes t (.nop f) f.toCommon →
    ∃ s', exec (.nop f) s = .next s' ∧ s'.thread t = (s.thread t).past f.toCommon) ∧
  (∀ (f : LaneF) (s : State) (t : TRef), f.ty ≠ .slot → s.Passes t (.mov f) f.toCommon →
    ∃ s', exec (.mov f) s = .next s' ∧
      s'.thread t = ((s.thread t).withDest f.d f.ty (s.operand t f.a f.ty)).past f.toCommon) ∧
  (∀ (f : LaneF) (s : State) (t : TRef), f.ty ≠ .slot → s.Passes t (.sel f) f.toCommon →
    ∃ s', exec (.sel f) s = .next s' ∧
      s'.thread t = ((s.thread t).withDest f.d f.ty
        (s.operand t (if ((s.thread t).pred f.ps != f.pneg) = true then f.a else f.b) f.ty)).past f.toCommon) ∧
  (∀ (f : ImmF) (s : State) (t : TRef), s.Passes t (.movi f) f.toCommon →
    ∃ s', exec (.movi f) s = .next s' ∧
      s'.thread t = ((s.thread t).withBits f.d.start.toNat f.d.w.bits
        (if f.ty.isSigned then f.imm32.signExtend f.d.w.bits else f.imm32.setWidth f.d.w.bits).toNat).past f.toCommon) ∧
  (∀ (f : LaneF) (s : State) (t : TRef), f.ty.isInt = true → s.Passes t (.addr f) f.toCommon →
    ∃ s', exec (.addr f) s = .next s' ∧
      s'.thread t = ((s.thread t).withBits f.d.start.toNat 64
        (BitVec.ofNat 64 (s.opnd64 t f.a) +
          ((if f.ty.isSigned then (s.opndBv t f.b f.ty).signExtend 64 else (s.opndBv t f.b f.ty).setWidth 64)
            <<< f.aux1.toNat)).toNat).past f.toCommon) ∧
  (∀ (f : LaneF) (s : State) (t : TRef), f.ty.isInt = true → f.aux1.toNat + f.aux2.toNat + 1 ≤ f.ty.bits →
    s.Passes t (.bfx f) f.toCommon →
    ∃ s', exec (.bfx f) s = .next s' ∧
      s'.thread t =
        ((s.thread t).withDest f.d f.ty
          (let field := (s.opndBv t f.a f.ty).extractLsb' f.aux1.toNat (f.aux2.toNat + 1)
           (if f.ty.isSigned then field.signExtend f.ty.bits else field.setWidth f.ty.bits).toNat)).past f.toCommon) ∧
  (∀ (f : LaneF) (s : State) (t : TRef), f.ty.isInt = true → f.aux1.toNat + f.aux2.toNat + 1 ≤ f.ty.bits →
    s.Passes t (.bfi f) f.toCommon →
    ∃ s', exec (.bfi f) s = .next s' ∧
      s'.thread t =
        ((s.thread t).withDest f.d f.ty
          (let mask := BitVec.ofNat f.ty.bits (2 ^ (f.aux2.toNat + 1) - 1)
           (((s.opndBv t f.a f.ty) &&& ~~~(mask <<< f.aux1.toNat)) |||
             (((s.opndBv t f.b f.ty) &&& mask) <<< f.aux1.toNat)).toNat)).past f.toCommon)
  ) ∧ (
  (∀ (f : LaneF) (s : State) (t : TRef), f.ty.isInt = true → s.Passes t (.pack f) f.toCommon →
    let value := fun (o : Opnd) =>
      let raw := BitVec.ofNat o.bits (s.rawOpnd t o)
      let x : Int := if f.ty.isSigned then raw.toInt else raw.toNat
      let top : Int := if f.ty.isSigned then 2 ^ (f.ty.bits - 1) - 1 else 2 ^ f.ty.bits - 1
      let bottom : Int := if f.ty.isSigned then -(2 ^ (f.ty.bits - 1)) else 0
      BitVec.ofInt f.ty.bits (if f.subop = 1 then max bottom (min top x) else x)
    ∃ s', exec (.pack f) s = .next s' ∧
      s'.thread t = ((s.thread t).withBits f.d.start.toNat (2 * f.ty.bits) (value f.b ++ value f.a).toNat).past f.toCommon) ∧
  (∀ (f : LaneF) (s : State) (t : TRef), f.ty.isInt = true → s.Passes t (.unpack f) f.toCommon →
    ∃ s', exec (.unpack f) s = .next s' ∧
      s'.thread t = ((s.thread t).withDest f.d f.ty
        ((BitVec.ofNat f.a.bits (s.rawOpnd t f.a)).extractLsb' (f.aux1.toNat * f.ty.bits) f.ty.bits).toNat).past f.toCommon)
  )

/-- R106, R110: the instructions of group 0x0 that write a predicate: ADDC and SUBB with their carry and borrow, CMP with
its six conditions under the type's signedness, and PLOG with its four functions. -/
def Obligations.PredicateResults : Prop :=
  ∀ (f : LaneF) (s : State) (t : TRef),
    let x := s.thread t
    let a := s.opndBv t f.a f.ty
    let b := s.opndBv t f.b f.ty
    let p : Bool := x.pred f.ps != f.pneg
    (f.ty.isInt = true → s.Passes t (.addc f) f.toCommon →
      ∃ s', exec (.addc f) s = .next s' ∧
        s'.thread t = (((x.withDest f.d f.ty (a + b + BitVec.ofNat _ p.toNat).toNat).setPred f.pd
          (decide (2 ^ f.ty.bits ≤ a.toNat + b.toNat + p.toNat))).past f.toCommon)) ∧
    (f.ty.isInt = true → s.Passes t (.subb f) f.toCommon →
      ∃ s', exec (.subb f) s = .next s' ∧
        s'.thread t = (((x.withDest f.d f.ty (a - b - BitVec.ofNat _ p.toNat).toNat).setPred f.pd
          (decide (a.toNat < b.toNat + p.toNat))).past f.toCommon)) ∧
    (f.ty.isInt = true → s.Passes t (.cmp f) f.toCommon →
      ∀ (code : BitVec 4) (cond : Bool), (code, cond) ∈
        [(0, decide (a = b)), (1, decide (a ≠ b)), (2, if f.ty.isSigned then a.slt b else a.ult b),
         (3, if f.ty.isSigned then a.sle b else a.ule b), (4, if f.ty.isSigned then b.slt a else b.ult a),
         (5, if f.ty.isSigned then b.sle a else b.ule a)] → f.subop = code →
      ∃ s', exec (.cmp f) s = .next s' ∧ s'.thread t = ((x.setPred f.pd (cond && p)).past f.toCommon)) ∧
    (s.Passes t (.plog f) f.toCommon →
      let y : Bool := x.pred (f.aux1.setWidth 3) != f.aux1.getLsbD 3
      ∀ (code : BitVec 4) (r : Bool), (code, r) ∈ [(0, p && y), (1, p || y), (2, p ^^ y), (3, p)] → f.subop = code →
      ∃ s', exec (.plog f) s = .next s' ∧ s'.thread t = ((x.setPred f.pd r).past f.toCommon))

/-! ### Group 0x1 -/

namespace Sys2Proof.Machine

/-- The floating instructions that compute bits and flags from exact inputs after flush_in: their sources, and the result
in a format, a rounding mode and a result flush (R104, R111, R116). -/
def floatSpec : List ((LaneF → Instr) × (LaneF → List Opnd) ×
    (LaneF → Fmt → Rm → Bool → FVal → FVal → FVal → Nat × Nat)) := [
  (.fadd, fun f => [f.a, f.b], fun _ F rm z a b _ => F.add rm z a b),
  (.fsub, fun f => [f.a, f.b], fun _ F rm z a b _ => F.add rm z a b.neg),
  (.fmul, fun f => [f.a, f.b], fun _ F rm z a b _ => F.mul rm z a b),
  (.fma, fun f => [f.a, f.b, f.c], fun _ F rm z a b c => F.fma rm z a b c),
  (.frcp, fun f => [f.a], fun _ F rm z a _ _ => F.div rm z (.fin false 1 0) a),
  (.frsq, fun f => [f.a], fun _ F rm z a _ _ => F.rsq rm z a),
  (.fsqrt, fun f => [f.a], fun _ F rm z a _ _ => F.sqrt rm z a),
  (.fdiv, fun f => [f.a, f.b], fun _ F rm z a b _ => F.div rm z a b),
  (.fexp2, fun f => [f.a], fun _ F rm z a _ _ => F.exp2 rm z a),
  (.flog2, fun f => [f.a], fun _ F rm z a _ _ => F.log2 rm z a),
  (.fsin, fun f => [f.a], fun _ F rm z a _ _ => F.sin rm z a),
  (.fcos, fun f => [f.a], fun _ F rm z a _ _ => F.cos rm z a),
  (.ftanh, fun f => [f.a], fun _ F rm z a _ _ => F.tanh rm z a),
  (.frnd, fun f => [f.a], fun f F rm _ a _ _ => F.rnd rm (f.subop = 1) a)]

/-- Bits and flags of an instruction of `floatSpec` in a thread. -/
def State.floatResult (s : State) (t : TRef) (f : LaneF)
    (e : (LaneF → Instr) × (LaneF → List Opnd) × (LaneF → Fmt → Rm → Bool → FVal → FVal → FVal → Nat × Nat)) : Nat × Nat :=
  let x := s.thread t
  let ins := (e.2.1 f).map fun o => s.fopnd t o f.ty
  let v := fun (n : Nat) => (ins.map (·.1)).getD n (.zero false)
  let r := e.2.2 f (fmtOf f.ty) (x.effRm f.rm) (x.rfl f.ty) (v 0) (v 1) (v 2)
  (r.1, (ins.map (·.2)).foldl (· ||| ·) 0 ||| r.2)

/-- A thread in which an instruction raised flags and then FP_EXCEPTION: the flags stand, the trap names the instruction
and the flags, and neither D nor the pc has moved (R102, R174). -/
def Thread.fpTrap (x : Thread) (fl : Nat) : Thread :=
  { x.withFlags fl with trap := some ⟨0x0E, BitVec.ofNat 8 (bits fl 0 6), x.pc, x.pc, 0, false⟩ }

end Sys2Proof.Machine

/-- R102, R104, R111, R116: FADD, FSUB, FMUL, FMA, the function forms and FRND on a fixed format: the flags become
sticky, and where none of them has its trap enabled, the rounded result is in D and the thread goes on. R102: the same
instructions where a flag they set has its trap enabled: FP_EXCEPTION with these flags as info, D unchanged, and the
thread stays at the instruction. -/
def Obligations.FloatingArithmetic : Prop :=
  (
  ∀ e ∈ floatSpec, ∀ (f : LaneF) (s : State) (t : TRef),
    f.ty.isFloat = true → s.Passes t (e.1 f) f.toCommon →
    let r := s.floatResult t f e
    (s.thread t).traps r.2 = false →
    ∃ s', exec (e.1 f) s = .next s' ∧
      s'.thread t = (((s.thread t).withFlags r.2).withDest f.d f.ty r.1).past f.toCommon
  ) ∧ (
  ∀ e ∈ floatSpec, ∀ (f : LaneF) (s : State) (t : TRef),
    f.ty.isFloat = true → s.Runs t (e.1 f) f.toCommon →
    let r := s.floatResult t f e
    (s.thread t).traps r.2 = true →
    ∃ s', exec (e.1 f) s = .next s' ∧ s'.thread t = (s.thread t).fpTrap r.2
  )

/-- R112, R113, R117, R118: FMIN and FMAX give one of the inputs as it stands, FCMP writes its condition AND P,
CVT converts between every pair of types, and FSCALE multiplies by 2^B. -/
def Obligations.FloatingSelections : Prop :=
  ∀ (f : LaneF) (s : State) (t : TRef),
    let x := s.thread t
    let F := fmtOf f.ty
    let a := s.fopnd t f.a f.ty
    let b := s.fopnd t f.b f.ty
    (∀ top : Bool,
      let i := if top then Instr.fmax f else Instr.fmin f
      let r := F.minMax top a.1 b.1 (s.operand t f.a f.ty) (s.operand t f.b f.ty)
      f.ty.isFloat = true → s.Passes t i f.toCommon → x.traps (r.2 ||| a.2 ||| b.2) = false →
      ∃ s', exec i s = .next s' ∧
        s'.thread t = ((x.withFlags (r.2 ||| a.2 ||| b.2)).withDest f.d f.ty r.1).past f.toCommon) ∧
    (
      let r := fcmpCond f.subop.toNat a.1 b.1
      f.ty.isFloat = true → s.Passes t (.fcmp f) f.toCommon → x.traps (r.2 ||| a.2 ||| b.2) = false →
      ∃ s', exec (.fcmp f) s = .next s' ∧
        s'.thread t = ((x.withFlags (r.2 ||| a.2 ||| b.2)).setPred f.pd
          (r.1 && (x.pred f.ps != f.pneg))).past f.toCommon) ∧
    (
      let rm := x.effRm f.rm
      let t2 := cvtFrom f
      let src := s.fopnd t f.a t2
      let r := if t2.isFloat then
          (let v := if f.ty.isFloat then F.finish rm (x.rfl f.ty) [src.1] (some src.1)
            else toInteger rm f.ty.bits f.ty.isSigned src.1
           (v.1, v.2 ||| src.2))
        else F.ofInt rm (x.rfl f.ty) (if t2.isSigned then (s.opndBv t f.a t2).toInt else (s.opndBv t f.a t2).toNat)
      (f.ty.isFloat = true ∨ (f.ty.isInt = true ∧ t2.isFloat = true)) → t2 ≠ .slot →
      s.Passes t (.cvt f) f.toCommon → x.traps r.2 = false →
      ∃ s', exec (.cvt f) s = .next s' ∧ s'.thread t = ((x.withFlags r.2).withDest f.d f.ty r.1).past f.toCommon) ∧
    (
      let r := F.scale (x.effRm f.rm) (x.rfl f.ty) a.1 (s.opndBv t f.b .s32).toInt
      f.ty.isFloat = true → s.Passes t (.fscale f) f.toCommon → x.traps (r.2 ||| a.2) = false →
      ∃ s', exec (.fscale f) s = .next s' ∧
        s'.thread t = ((x.withFlags (r.2 ||| a.2)).withDest f.d f.ty r.1).past f.toCommon)

/-- R103, R104: a value that a fixed format represents rounds to its own bits in every mode, without a flag. -/
def Obligations.RoundingIsExact : Prop :=
  ∀ F ∈ [fmtF16, fmtB16, fmtF32, fmtF64], ∀ (rm : Rm) (x : Nat), x < 2 ^ F.width → (F.decode x).isNan = false →
    F.encode rm false (F.decode x) = (x, 0)

/-- R39, R119, R467: FADD, FSUB, FMUL, FMA, FMIN and FMAX on elements of a format slot that holds a sheet: where the
sheet offers the form and the rounding mode and every operand has the element's width, D takes the element that the
sheet's operation gives; where it does not offer it, FORMAT_SLOT. R39, R106, R113, R119: MOV, SEL and FCMP on elements
of a slot that holds a sheet and whose width the operands have: the element moves as bits, and FCMP compares the
elements' values. -/
def Obligations.SlotArithmetic : Prop :=
  (
  ∀ e ∈ ([(.fadd, fun f => [f.a, f.b], .add), (.fsub, fun f => [f.a, f.b], .sub), (.fmul, fun f => [f.a, f.b], .mul),
      (.fma, fun f => [f.a, f.b, f.c], .fma), (.fmin, fun f => [f.a, f.b], .min), (.fmax, fun f => [f.a, f.b], .max)] :
      List ((LaneF → Instr) × (LaneF → List Opnd) × SlotOp)),
    ∀ (f : LaneF) (s : State) (t : TRef),
    let x := s.thread t
    let sl := s.slot (s.worldOf t) f.slot
    let offered := bit sl.form.lanes e.2.2.bit && (if sl.form.cls = 3 then decide (f.rm = .rne) else sl.form.offers (sl.effRm f.rm))
    f.ty = .slot →
    ((sl.none? = true ∨ offered = false) → s.Runs t (e.1 f) f.toCommon →
      ∃ s', exec (e.1 f) s = .next s' ∧ s'.thread t = { x with trap := some ⟨0x1A, 0, x.pc, x.pc, 0, false⟩ }) ∧
    (sl.none? = false → offered = true → f.d.w = slotWd sl.form.ew → (∀ o ∈ e.2.1 f, slotOpndOk sl.form.ew o = true) →
      s.Passes t (e.1 f) f.toCommon →
      let v := fun (n : Nat) => ((e.2.1 f)[n]?.map (s.slotOpnd t sl)).getD 0
      let r := sl.form.laneOp e.2.2 (sl.effRm f.rm) sl.ob (x.ifl .slot) (x.rfl .slot) (v 0) (v 1) (v 2)
      x.traps r.2 = false →
      ∃ s', exec (e.1 f) s = .next s' ∧
        s'.thread t = ((x.withFlags r.2).withBits f.d.start.toNat f.d.w.bits (r.1 % 2 ^ sl.form.ew)).past f.toCommon)
  ) ∧ (
  ∀ (f : LaneF) (s : State) (t : TRef),
    let x := s.thread t
    let sl := s.slot (s.worldOf t) f.slot
    let p : Bool := x.pred f.ps != f.pneg
    f.ty = .slot → sl.none? = false → slotOpndOk sl.form.ew f.a = true →
    (f.d.w = slotWd sl.form.ew → s.Passes t (.mov f) f.toCommon →
      ∃ s', exec (.mov f) s = .next s' ∧
        s'.thread t = (x.withBits f.d.start.toNat f.d.w.bits (s.slotOpnd t sl f.a % 2 ^ sl.form.ew)).past f.toCommon) ∧
    (f.d.w = slotWd sl.form.ew → slotOpndOk sl.form.ew f.b = true → s.Passes t (.sel f) f.toCommon →
      ∃ s', exec (.sel f) s = .next s' ∧
        s'.thread t = (x.withBits f.d.start.toNat f.d.w.bits
          (s.slotOpnd t sl (if p = true then f.a else f.b) % 2 ^ sl.form.ew)).past f.toCommon) ∧
    (slotOpndOk sl.form.ew f.b = true → bit sl.form.lanes 4 = true → s.Passes t (.fcmp f) f.toCommon →
      let a := sl.form.input (x.ifl .slot) (s.slotOpnd t sl f.a)
      let b := sl.form.input (x.ifl .slot) (s.slotOpnd t sl f.b)
      let r := fcmpCond f.subop.toNat a.1 b.1
      x.traps (r.2 ||| a.2 ||| b.2) = false →
      ∃ s', exec (.fcmp f) s = .next s' ∧
        s'.thread t = ((x.withFlags (r.2 ||| a.2 ||| b.2)).setPred f.pd (r.1 && p)).past f.toCommon)
  )

/-! ### Group 0x2 -/

namespace Sys2Proof.Machine

/-- The issue is one of a single group, whose home lanes are 0 to 31 (R120). -/
def State.OneGroup (s : State) : Prop :=
  ∃ team gid, ∀ t ∈ s.issue.threads, t.team = team ∧ t.gid = gid ∧ t.lane < 32

/-- The integer combination of GRED and GSCAN (R123). -/
def combineBv (op : Nat) (signed : Bool) {w : Nat} (a b : BitVec w) : BitVec w :=
  match op with
  | 0 => a + b
  | 1 => if (if signed then b.slt a else b.ult a) then b else a
  | 2 => if (if signed then a.slt b else a.ult b) then b else a
  | 3 => a &&& b
  | 4 => a ||| b
  | _ => a ^^^ b

/-- The identity of an integer combination (R124). -/
def identityBv (op : Nat) (signed : Bool) (w : Nat) : BitVec w :=
  match op with
  | 1 => if signed then BitVec.intMax w else BitVec.allOnes w
  | 2 => if signed then BitVec.intMin w else 0
  | 3 => BitVec.allOnes w
  | _ => 0

end Sys2Proof.Machine

/-- R121, R122, R125: SHFL, VOTE, MATCH and ELECT over the active lanes of a group, whose values are those before any lane
is written. -/
def Obligations.CrossLaneMoves : Prop :=
  ∀ (f : LaneF) (s : State) (t : TRef), s.OneGroup →
    let x := s.thread t
    (∀ (k : Option Nat), s.shflSource t f = k → s.Passes t (.shfl f) f.toCommon →
      let act := s.activeLanes (.shfl f) f.toCommon
      (∀ u ∈ act, k = some u.lane →
        ∃ s', exec (.shfl f) s = .next s' ∧
          s'.thread t = ((x.withDest f.d f.ty (s.operand u f.a f.ty)).setPred f.pd true).past f.toCommon) ∧
      ((∀ u ∈ act, k ≠ some u.lane) →
        ∃ s', exec (.shfl f) s = .next s' ∧
          s'.thread t = ((x.withDest f.d f.ty (s.operand t f.a f.ty)).setPred f.pd false).past f.toCommon)) ∧
    (s.Passes t (.vote f) f.toCommon →
      let act := s.activeLanes (.vote f) f.toCommon
      let p := fun u => s.srcPred u f
      ∃ s', exec (.vote f) s = .next s' ∧
        (f.subop = 0 → s'.thread t = (x.setPred f.pd (act.all p)).past f.toCommon) ∧
        (f.subop = 1 → s'.thread t = (x.setPred f.pd (act.any p)).past f.toCommon) ∧
        (f.subop = 2 → s'.thread t = (x.setPred f.pd (act.countP p % 2 = 1)).past f.toCommon) ∧
        (f.subop = 3 → s'.thread t = (x.setPred f.pd (act.all p || !act.any p)).past f.toCommon) ∧
        (f.subop = 4 → ∃ m : BitVec 32, (∀ l : Fin 32, m.getLsbD l = act.any fun u => u.lane = l && p u) ∧
          s'.thread t = (x.withBits f.d.start.toNat 32 m.toNat).past f.toCommon) ∧
        (f.subop = 5 → s'.thread t = (x.withBits f.d.start.toNat 32 (act.countP p)).past f.toCommon)) ∧
    (s.Passes t (.matchLanes f) f.toCommon →
      let act := s.activeLanes (.matchLanes f) f.toCommon
      let same := fun u => decide (s.operand u f.a f.ty = s.operand t f.a f.ty)
      ∃ s' m, exec (.matchLanes f) s = .next s' ∧
        (∀ l : Fin 32, (m : BitVec 32).getLsbD l = act.any fun u => u.lane = l && same u) ∧
        s'.thread t = ((x.withBits f.d.start.toNat 32 m.toNat).setPred f.pd
          (if f.subop = 1 then act.all same else act.all fun u => !same u || t.lane ≤ u.lane)).past f.toCommon) ∧
    (s.Passes t (.elect f) f.toCommon →
      let act := s.activeLanes (.elect f) f.toCommon
      ∀ u ∈ act, (∀ v ∈ act, if f.subop = 1 then v.lane ≤ u.lane else u.lane ≤ v.lane) →
      ∃ s', exec (.elect f) s = .next s' ∧
        s'.thread t = ((x.withBits f.d.start.toNat 32 u.lane).setPred f.pd (t = u)).past f.toCommon)

/-- R123, R124: GRED and GSCAN write the value of the fixed tree over the active lanes, or over those up to their own, and
set its flags; on an integer type this is the combination of the lanes' values, and the identity where there is none. -/
def Obligations.Reductions : Prop :=
  ∀ (f : LaneF) (s : State) (t : TRef) (scan : Bool), s.OneGroup →
    let i := if scan then Instr.gscan f else Instr.gred f
    let x := s.thread t
    let act := s.activeLanes i f.toCommon
    let keep := fun (l : Nat) => !scan || (if f.subop.getLsbD 3 then decide (l < t.lane) else decide (l ≤ t.lane))
    let op := if scan then f.subop.toNat % 8 else f.subop.toNat
    (scan = false → f.subop.toNat < 8) → s.Passes t i f.toCommon →
    (let r := s.reduce act f keep
     x.traps r.2 = false → ∃ s', exec i s = .next s' ∧
       s'.thread t = ((x.withFlags r.2).withDest f.d f.ty r.1).past f.toCommon) ∧
    (f.ty.isInt = true → op < 6 →
      let vs := (act.filter fun u => keep u.lane).map fun u => s.opndBv u f.a f.ty
      ∃ s', exec i s = .next s' ∧
        s'.thread t = (x.withDest f.d f.ty
          (vs.foldl (combineBv op f.ty.isSigned) (identityBv op f.ty.isSigned f.ty.bits)).toNat).past f.toCommon)

/-- R126, R127, R128: GETS reads a special register, SETS writes %fmode, %fpflags or %sp, RDCLK reads %clock (with .drain once
no instruction of the thread is incomplete), and KMOV writes a uniform register of the group with the value of the lowest
active lane. -/
def Obligations.SpecialAndUniformRegisters : Prop :=
  ∀ (f : LaneF) (s : State) (t : TRef),
    let x := s.thread t
    (∀ r : SReg, f.a = .sreg r → s.Passes t (.gets f) f.toCommon →
      ∃ s', exec (.gets f) s = .next s' ∧
        s'.thread t = (x.withBits f.d.start.toNat f.d.w.bits (s.sreg t r)).past f.toCommon) ∧
    (s.Passes t (.sets f) f.toCommon →
      let v := s.opnd t f.a f.ty
      ∃ s', exec (.sets f) s = .next s' ∧
        (f.d.start = 0x00C → s'.thread t = { x with fmode := BitVec.ofNat 32 (v % 2 ^ 11) }.past f.toCommon) ∧
        (f.d.start = 0x00D → s'.thread t = { x with fpflags := BitVec.ofNat 32 v &&& 0x3F3F }.past f.toCommon) ∧
        (f.d.start = 0x00E → s'.thread t = { x with sp := BitVec.ofNat 64 v }.past f.toCommon)) ∧
    (s.Passes t (.rdclk f) f.toCommon → (f.subop = 0 ∨ (f.subop = 1 ∧ s.opsOf t = [])) →
      ∃ s', exec (.rdclk f) s = .next s' ∧
        s'.thread t = (x.withBits f.d.start.toNat 64 (s.clock % 2 ^ 64)).past f.toCommon) ∧
    (s.Passes t (.kmov f) f.toCommon → ∀ u us, s.activeLanes (.kmov f) f.toCommon = u :: us →
      s.groups.any (fun g => g.team = u.team && g.gid = u.gid) = true →
      ∃ s', exec (.kmov f) s = .next s' ∧ s'.thread t = x.past f.toCommon ∧
        (s'.groupOf u).k = uniSet (s.groupOf u).k f.aux1.toNat (kmovBits f)
          (match f.a with
           | .imm v => (if f.ty.isSigned then v.signExtend (kmovBits f) else v.setWidth (kmovBits f)).toNat
           | a => s.rawOpnd u a))

namespace Sys2Proof.Machine

/-- The instructions of groups 0x0, 0x1 and 0x2, but KMOV. -/
def laneClass : Instr → Bool
  | .nop _ | .mov _ | .movi _ | .sel _ | .add _ | .sub _ | .mul _ | .mulh _ | .mad _ | .addc _ | .subb _ | .min _ | .max _
  | .abs _ | .neg _ | .sadd _ | .ssub _ | .and _ | .or _ | .xor _ | .not _ | .andn _ | .shl _ | .shr _ | .sar _ | .rot _
  | .popc _ | .clz _ | .brev _ | .bfx _ | .bfi _ | .cmp _ | .plog _ | .addr _ | .pack _ | .unpack _ | .fadd _ | .fsub _
  | .fmul _ | .fma _ | .fmin _ | .fmax _ | .fcmp _ | .frcp _ | .frsq _ | .fsqrt _ | .fdiv _ | .fexp2 _ | .flog2 _
  | .fsin _ | .fcos _ | .ftanh _ | .fclass _ | .frnd _ | .cvt _ | .fscale _ | .shfl _ | .vote _ | .gred _ | .gscan _
  | .gets _ | .sets _ | .matchLanes _ | .rdclk _ | .elect _ => true
  | _ => false

/-- The part of a thread that a lane instruction never writes: everything but its slices, predicates, %fmode, %fpflags and
%sp, its place in its program and its traps. -/
def Thread.laneFrame (x : Thread) : Thread :=
  { x with slices := 0, preds := 0, fmode := 0, fpflags := 0, sp := 0, pc := 0, seq := 0, wait := 0, reuse := false,
           trap := none, async := [] }

/-- Instructions whose execution reaches no memory and no thread outside their issue: they only change control state, read
registers, or are left incomplete. -/
def staysInIssue : Instr → Bool
  | .prep _ | .prepv _ | .xfer _ | .xcall _ | .cset _ | .sign _ | .join _ | .exit _ | .trap _ | .brk _ | .yield _ | .sethdl _
  | .wmclr _ | .sleep _ | .fence _ | .salloc _ | .talloc _ | .tld _ | .tst _ | .tfill _ | .tinfo _ | .tbind _ | .mile _
  | .mileFault _ | .mfin _ | .fstat _ | .fstatHash _ | .tlbiVa _ | .tlbiRange _ | .tlbiDom _ | .tlbiWorld _ | .xlate _
  | .tktTurn _ | .tktLap _ | .hashrd _ | .cred _ | .credb _ | .fbar _ | .fbwait _ => true
  | _ => false

end Sys2Proof.Machine

/-- R41, R105, R120: a lane instruction changes nothing but the threads of its issue: memory, uniform registers and
every other table and register are as before, and of its threads only the slices, predicates, %fmode, %fpflags, %sp, the
place in the program and the traps may differ; %fmode and %sp only where it is SETS. R40, R47: in an issue of a lane
instruction, a thread whose guard is 0 goes past it unchanged, and one whose guard is 1 and whose budget an operand
exceeds raises SLICE_RANGE at the instruction, without effect. R41, R42: the control instructions, and the instructions
that are left incomplete without an access at their issue, change no byte of memory, nothing in a write buffer, no cached
translation, and no thread outside their issue (but for the status of an armed copy that an EXIT which ends its team
cancels, R231). -/
def Obligations.LaneFrame : Prop :=
  (
  ∀ (i : Instr) (s s' : State), laneClass i = true → exec i s = .next s' →
    s.OnlyThreads s' s.issue.threads ∧
    (∀ l, s'.memByte l = s.memByte l) ∧
    (∀ t, (s'.thread t).laneFrame = (s.thread t).laneFrame) ∧
    ((∀ f, i ≠ .sets f) → ∀ t, (s'.thread t).fmode = (s.thread t).fmode ∧ (s'.thread t).sp = (s.thread t).sp)
  ) ∧ (
  ∀ (i : Instr) (c : Common) (s : State) (t : TRef), laneClass i = true → i.common = some c →
    t ∈ s.issue.threads → s.issue.threads.Nodup → (∃ x ∈ s.threads, x.id = t) →
    ∃ s', exec i s = .next s' ∧
      (s.guard t c.ctl = false → codeCanonical ((s.thread t).pc + 16) = true → s'.thread t = (s.thread t).past c) ∧
      (s.guard t c.ctl = true → s.slicesOk t i = false → (s.thread t).trap = none →
        s'.thread t = { s.thread t with trap := some ⟨0x05, 0, (s.thread t).pc, (s.thread t).pc, 0, false⟩ })
  ) ∧ (
  ∀ (i : Instr) (s s' : State), staysInIssue i = true → exec i s = .next s' →
    (∀ l, s'.memByte l = s.memByte l) ∧ s'.wbuf = s.wbuf ∧ s'.poison = s.poison ∧ s'.tlb = s.tlb ∧ s'.s2 = s.s2 ∧
      ((∀ f, i = .exit f → ∀ a ∈ s.armed, ∀ v ∈ s.issue.threads, a.team ≠ v.team) →
        ∀ u, u ∉ s.issue.threads → s'.thread u = s.thread u)
  )

/-! ### Group 0x3 -/

namespace Sys2Proof.Machine

/-- Thread t is the only one of the issue, and runs instruction i. -/
structure State.Alone (s : State) (t : TRef) (i : Instr) (c : Common) : Prop extends s.Passes t i c where
  alone : s.issue.threads = [t]

/-- A thread that has issued a variable-latency instruction: it goes on, and the scoreboard slot is busy (R20, R42). -/
def Thread.started (x : Thread) (c : Common) : Thread :=
  { x.past c with sb := if c.ctl.setEn then x.sb ||| (1#8 <<< c.ctl.setSlot.toNat) else x.sb }

/-- An instruction of thread t that its issue in state s has left incomplete, with the operands it sampled. -/
structure Op.StartedIn (o : Op) (s : State) (t : TRef) (i : Instr) (c : Common) (a b cc x : Nat) : Prop where
  id : o.id = s.ids
  who : o.who = t
  instr : o.instr = i
  pc : o.pc = (s.thread t).pc
  seq : o.seq = (s.thread t).seq
  la : o.la = c.ctl.la
  slot : o.slot = if c.ctl.setEn then some c.ctl.setSlot else none
  iss : o.iss = s.issue.id
  domain : o.domain = s.domainOf t
  operands : o.a = a ∧ o.b = b ∧ o.c = cc ∧ o.x = x
  open_ : o.clobber = 0 ∧ o.fault = none

/-- The elements of an access that instruction i makes when it issues in s pass R145 and lie at the places ls. -/
def State.Reaches (s : State) (t : TRef) (i : Instr) (c : Common) (acc : Acc) (aligned reads : Bool) (va : W64) (n k : Nat)
    (ls : List Loc) : Prop :=
  let r := s.start t i c 0 0 0 0
  (r.2.checkElems (r.2.opCtx r.1) acc aligned reads n va k []).1 = (none, ls)

/-- The window of the thread's group, if it has one, takes the lines of one more access without a write-back (R152). -/
def State.WindowRoom (s : State) (t : TRef) : Prop := ∀ w, s.window? t.team t.gid = some w → w.lines.length ≤ 24

/-- A thread as it was, but for the ACCESS_VIOLATION of a background write-back of its group's window (R153). -/
def Thread.ButWindow (x y : Thread) : Prop := x = { y with async := x.async } ∧ ∃ rs, x.async = y.async ++ rs ∧ ∀ r ∈ rs, r.code = 0x11

/-- The places of the first bytes of some lines, each of which passes the checks of a read (R145, R150). -/
def State.checkLines (s : State) (c : XCtx) : List W64 → List Loc → Option (List Loc)
  | [], done => some done
  | a :: as, done =>
    match s.checkElem c .read false false a 1 with
    | (.inl ls, s) => s.checkLines c as (done ++ ls)
    | (.inr _, _) => none

/-- A complete instruction is no longer incomplete, and its scoreboard slot is clear (R20). -/
def State.Completed (s s' : State) (o : Op) : Prop :=
  (∀ p ∈ s'.ops, p.id ≠ o.id) ∧ ∀ j, o.slot = some j → (s'.thread o.who).sb = (s.thread o.who).sb &&& ~~~(1#8 <<< j.toNat)

/-- No incomplete instruction has the name of the next one or of the issue. -/
def State.FreshOps (s : State) : Prop := ∀ o ∈ s.ops, o.id < s.ids ∧ o.lead < s.ids ∧ o.iss ≠ s.issue.id

/-- Instruction o of state s is found by its name, and its thread has a row. -/
def State.HasOp (s : State) (o : Op) : Prop := s.op? o.id = some o ∧ ∃ x ∈ s.threads, x.id = o.who

end Sys2Proof.Machine

/-- R145, R146: LD, ST, ATOM, ATOMR and CAS where the first element fails a check that traps: the thread raises that trap with the
element's address, and nothing is left incomplete. -/
def Obligations.AccessChecksTrap : Prop :=
  ∀ e ∈ ([(.ld, false), (.st, false), (.atom, true), (.atomr, true), (.cas, true)] : List ((MemF → Instr) × Bool)),
    ∀ (f : MemF) (s : State) (t : TRef),
    let i := e.1 f
    let ea : W64 := BitVec.ofNat 64 (s.opnd64 t f.a) + f.offset.signExtend 64
    let n := f.ty.bits / 8
    s.Alone t i f.toCommon → 1 ≤ n → s.FreshOps →
    ∀ code : BitVec 8,
    ((canonical ea = false ∧ code = 0x11) ∨
      (canonical ea = true ∧ canonical (ea + BitVec.ofNat 64 (n - 1)) = true ∧ ea.toNat % n ≠ 0 ∧
        (e.2 = true ∨ f.order ≠ .relaxed) ∧ code = 0x12)) →
    ∃ s', exec i s = .next s' ∧ s'.ops = s.ops ∧
      (s'.thread t).trap = some ⟨code, 0, (s.thread t).pc, (s.thread t).pc, ea, false⟩ ∧ s'.mem = s.mem

/-- R148, R149, R150, R154, R155: FENCE and PREF are incomplete once issued, CMO once its lines translate, SPILL and FILL once
their bytes lie in the data stack and pass the checks, and trap where one lies outside it; SALLOC moves %sp down at its issue, and
a result that is not a multiple of 16 or lies outside [%stklim, b] traps instead. Addresses and results of the stack are exact. -/
def Obligations.StackAndFenceIssue : Prop :=
  ∀ (f : MemF) (s : State) (t : TRef), s.FreshOps →
    let x := s.thread t
    (s.Alone t (.fence f) f.toCommon →
      ∃ s' o, exec (.fence f) s = .next s' ∧ s'.thread t = x.started f.toCommon ∧ o ∈ s'.ops ∧
        o.StartedIn s t (.fence f) f.toCommon 0 0 0 0 ∧ o.phase = .pending) ∧
    (s.Alone t (.pref f) f.toCommon →
      ∃ s' o, exec (.pref f) s = .next s' ∧ s'.thread t = x.started f.toCommon ∧ o ∈ s'.ops ∧
        o.StartedIn s t (.pref f) f.toCommon (s.eaOf t f).toNat 0 0 0 ∧ o.phase = .pending) ∧
    (s.Alone t (.cmo f) f.toCommon →
      ∀ ls, (let r := s.start t (.cmo f) f.toCommon 0 0 0 0
        r.2.checkLines (r.2.opCtx r.1) ((List.range (vecCount f.vec)).map fun j =>
          s.eaOf t f - BitVec.ofNat 64 ((s.eaOf t f).toNat % 128) + BitVec.ofNat 64 (128 * j)) [] = some ls) →
      ∃ s' o, exec (.cmo f) s = .next s' ∧ s'.thread t = x.started f.toCommon ∧ o ∈ s'.ops ∧
        o.StartedIn s t (.cmo f) f.toCommon (s.eaOf t f).toNat 0 f.c.immVal 0 ∧ o.locs = ls ∧ o.phase = .pending) ∧
    (∀ fill : Bool,
      let i := if fill then Instr.fill f else Instr.spill f
      let n := (f.b.start - f.a.start + 2) / 2
      let p : Int := x.sp.toNat + f.offset.toInt
      let inside : Prop := (x.stklim.toNat : Int) ≤ p ∧ p + n ≤ x.base.toNat
      let data := if fill then 0 else ofBytes (s.packSlices t f.a.start (f.b.start - f.a.start + 1))
      s.Alone t i f.toCommon → x.sp.toNat % 16 = 0 →
      (inside → ∀ ls, s.Reaches t i f.toCommon (if fill then .read else .write) false fill (BitVec.ofInt 64 p) 1 n ls →
        ∃ s' o, exec i s = .next s' ∧ (s'.thread t).ButWindow (x.started f.toCommon) ∧ o ∈ s'.ops ∧
          o.StartedIn s t i f.toCommon 0 data 0 x.sp.toNat ∧ o.locs = ls ∧ o.phase = .pending) ∧
      (¬ inside → ∃ s', exec i s = .next s' ∧ s'.ops = s.ops ∧ (s'.thread t).trap.map (·.code) = some 0x08)) ∧
    (let n : Int := x.sp.toNat - (BitVec.ofNat 64 (s.opnd t f.a f.ty)).toInt
     let i := Instr.salloc f
     s.Alone t i f.toCommon →
      (n % 16 = 0 → x.stklim.toNat ≤ n → n ≤ x.base.toNat →
        ∃ s' o, exec i s = .next s' ∧ s'.thread t = { x.started f.toCommon with sp := BitVec.ofInt 64 n } ∧ o ∈ s'.ops ∧
          o.StartedIn s t i f.toCommon 0 (s.opnd t f.a f.ty) 0 x.sp.toNat ∧ o.phase = .result ∧ o.data = [n.toNat]) ∧
      (n % 16 ≠ 0 → ∃ s', exec i s = .next s' ∧ s'.ops = s.ops ∧ (s'.thread t).sp = x.sp ∧
        (s'.thread t).trap = some ⟨0x12, 0, x.pc, x.pc, 0, false⟩) ∧
      (n % 16 = 0 → (n < x.stklim.toNat ∨ x.base.toNat < n) → ∃ s', exec i s = .next s' ∧ s'.ops = s.ops ∧
        (s'.thread t).sp = x.sp ∧ (s'.thread t).trap = some ⟨0x08, 0, x.pc, x.pc, 0, false⟩))

/-- R20, R39, R132, R136, R141, R142, R155: MEMORY_ACCESS_COMPLETE of LD, FILL and LDK that need no recall. While a line of this
device or the host is left, it is read at one moment for every load of the issue: each has the bytes of the line that its thread
sees, and memory and the threads are unchanged. Once every byte is there, and no later instruction has written the destination,
the bytes are in D, in the slices F to L, or in the group's uniform registers; the instruction is complete, and memory is
unchanged. -/
def Obligations.LoadsComplete : Prop :=
  ∀ (f : MemF) (s : State) (o : Op), s.HasOp o → o.phase = .pending → o.lead = o.id →
    s.hostLost o.locs = false → s.needsRecall o f = false →
    let x := s.thread o.who
    let run := exec (.memoryAccessComplete o.id) s
    (∀ n, o.instr ∈ [Instr.ld f, .fill f, .ldk f] → o.nextLine = some n → (∀ l ∈ o.unread, l.line = n → l.isPeer = false) →
      (∀ p ∈ s.ops, ∀ l ∈ p.locs, l.addr < 2 ^ 60) →
      ∃ s', run = .next s' ∧ s'.mem = s.mem ∧ (∀ u, s'.thread u = s.thread u) ∧
        ∀ p ∈ s.ops, p.reads o.iss n = true →
          ∃ p' ∈ s'.ops, p'.id = p.id ∧ ∀ l ∈ p.unread, l.line = n → p'.received l = some (s.loadByte p l)) ∧
    (∀ b : Loc → Byte, (∀ l ∈ o.locs, o.received l = some (b l)) → o.c ≠ 1 → o.clobber = 0 →
      let v := ofBytes (o.locs.map b)
      (o.instr = .ld f → ∃ s', run = .next s' ∧ s.Completed s' o ∧ s'.mem = s.mem ∧
        (s'.thread o.who).slices = slicesSet x.slices f.d.start.toNat f.d.w.bits
          (if f.vec = 0 then destValue f.d f.ty.bits f.ty.isSigned v else v)) ∧
      (o.instr = .fill f → ∃ s', run = .next s' ∧ s.Completed s' o ∧ s'.mem = s.mem ∧
        (s'.thread o.who).slices = slicesSet x.slices f.a.start (4 * (f.b.start - f.a.start + 1))
          (v % 2 ^ (4 * (f.b.start - f.a.start + 1)))) ∧
      (o.instr = .ldk f → (∃ g ∈ s.groups, g.team = o.who.team ∧ g.gid = o.who.gid) →
        ∃ s', run = .next s' ∧ s'.mem = s.mem ∧ (∀ p ∈ s'.ops, p.lead ≠ o.id) ∧
          (s'.groupOf o.who).k = uniSet (s.groupOf o.who).k f.d.start.toNat f.d.w.bits v))

/-- R67, R73, R74, R141, R155: MEMORY_ACCESS_COMPLETE of ST and SPILL: each of the bytes that they name stands in the write
buffer of the thread's core, or at once in memory; memory keeps every other byte. At thread, group or team scope the instruction
is complete with that. R67, R73, R80: WRITE_BUFFER_DRAIN of the only entry of its name, which may drain and holds bytes of this
device's memory at different places: memory takes these bytes and keeps every other. With the dirty bitmap of every world off.
-/
def Obligations.StoresPerform : Prop :=
  (
  ∀ (f : MemF) (s : State) (o : Op) (spill : Bool), s.MemOk → s.HasOp o → o.phase = .pending →
    o.instr = (if spill then .spill f else .st f) →
    (spill = false → orderReleases f.order = false ∧ s.behindLower o = false) → s.hostLost o.locs = false →
    (∀ l ∈ o.locs, l.isLocal = true) → o.locs.Nodup → o.data = [] → (∀ w, bit (s.world w).dbmctl.toNat 0 = false) →
    let n := if spill then (f.b.start - f.a.start + 2) / 2 else f.ty.bits / 8 * vecCount f.vec
    o.locs.length = n → f.ty.bits % 8 = 0 → 8 ≤ f.ty.bits →
    ∃ s', exec (.memoryAccessComplete o.id) s = .next s' ∧
      (∀ j < n, ∀ l, o.locs[j]? = some l → s'.seenByte (s.coreOf o.who) l = BitVec.ofNat 8 (o.b / 256 ^ j)) ∧
      (∀ l, l ∉ o.locs → s'.memByte l = s.memByte l) ∧
      (scopeNarrow f.scope = true → s.Completed s' o)
  ) ∧ (
  ∀ (s : State) (e : BufEntry), s.MemOk → e ∈ s.wbuf → (∀ y ∈ s.wbuf, y.id = e.id → y = e) → s.wbuf.Nodup → s.canDrain e = true →
    (∀ x ∈ e.bytes, x.1.isLocal = true) → (e.bytes.map (·.1)).Nodup → (∀ w, bit (s.world w).dbmctl.toNat 0 = false) →
    ∃ s', exec (.writeBufferDrain e.id) s = .next s' ∧
      (∀ x ∈ e.bytes, s'.memByte x.1 = x.2) ∧ (∀ l, l ∉ e.bytes.map (·.1) → s'.memByte l = s.memByte l) ∧
      (∀ y ∈ s'.wbuf, y.id ≠ e.id)
  )

namespace Sys2Proof.Machine

/-- The operations of integer atomics, in bit-vector arithmetic (R143): m is the value in memory, b the operand. -/
def atomBv (op : Nat) (signed : Bool) {w : Nat} (m b : BitVec w) : BitVec w :=
  match op with
  | 0 => m + b
  | 1 => if (if signed then b.slt m else b.ult m) then b else m
  | 2 => if (if signed then m.slt b else m.ult b) then b else m
  | 3 => m &&& b
  | 4 => m ||| b
  | 5 => m ^^^ b
  | 6 => b
  | 7 => if b.ule m then 0 else m + 1
  | 8 => if m = 0 ∨ b.ult m = true then b else m - 1
  | _ => satBv signed (if signed then m.saddOverflow b else m.uaddOverflow b) m.msb (m + b) true

end Sys2Proof.Machine

/-- R70, R136, R143, R144: MEMORY_ACCESS_COMPLETE of ATOM, ATOMR and CAS on an element of this device's memory, alone in its
issue and outside a recorded launch: the element takes the operation's value (for CAS, C where it equals B), ATOMR and CAS
write what it held into D, and every other byte of memory is unchanged. -/
def Obligations.AtomicsPerform : Prop :=
  ∀ (f : MemF) (s : State) (o : Op) (l : Loc),
    let n := f.ty.bits / 8
    let m := s.memNat l n
    let old := BitVec.ofNat f.ty.bits m
    let b := BitVec.ofNat f.ty.bits o.b
    s.MemOk → s.HasOp o → o.phase = .pending → o.who.lane < 32 → 8 ≤ f.ty.bits →
    o.b < 2 ^ f.ty.bits → o.c < 2 ^ f.ty.bits → o.clobber = 0 →
    o.locs = (List.range n).map l.add → (∀ j < n, (l.add j).isLocal = true) → s.together o = [o] →
    s.rmwReady o f = true → s.rmwBehind o = false → s.needsRecall o f = false → s.hostLost o.locs = false →
    (s.log? (s.team o.who.team).launch = none) → (∀ w, bit (s.world w).dbmctl.toNat 0 = false) →
    ∀ i ∈ [Instr.atom f, .atomr f, .cas f], o.instr = i → (i ≠ .cas f → f.c.immVal < 10) →
      let new : Nat := if i = .cas f then (if m = o.b then o.c else m)
        else if f.ty.isFloat then atomFloat f.ty f.c.immVal m o.b % 2 ^ f.ty.bits
        else (atomBv f.c.immVal f.ty.isSigned old b).toNat
      ∃ s', exec (.memoryAccessComplete o.id) s = .next s' ∧ s.Completed s' o ∧ s'.memNat l n = new ∧
        (∀ k, k ∉ o.locs → s'.memByte k = s.memByte k) ∧
        (s'.thread o.who).slices = if i = .atom f then (s.thread o.who).slices
          else slicesSet (s.thread o.who).slices f.d.start.toNat f.d.w.bits (destValue f.d f.ty.bits f.ty.isSigned m)

/-- R74, R86, R148, R149, R150, R154: MEMORY_ACCESS_COMPLETE of FENCE where its conditions hold, of PREF, of CMO on lines that no
engine owns, and of SALLOC: the instruction is complete, no register but SALLOC's D is written, and no byte that the
thread's core sees changes. -/
def Obligations.FencesAndHintsComplete : Prop :=
  ∀ (f : MemF) (s : State) (o : Op), s.HasOp o → o.clobber = 0 → s.wbuf = [] → s.remotes = [] →
    s.hostLost o.locs = false →
    let x := s.thread o.who
    let run := exec (.memoryAccessComplete o.id) s
    (o.instr = .fence f → o.phase = .pending → s.earlier o = [] →
      ∃ s', run = .next s' ∧ s.Completed s' o ∧ s'.mem = s.mem ∧ (s'.thread o.who).slices = x.slices ∧
        (s'.thread o.who).marking = (if orderReleases f.order then scopeNarrow f.scope else x.marking)) ∧
    (o.instr = .pref f → o.phase = .pending → o.lead = o.id →
      ∃ s', run = .next s' ∧ s.Completed s' o ∧ s'.mem = s.mem ∧ (s'.thread o.who).slices = x.slices) ∧
    (o.instr = .cmo f → o.phase = .pending → s.anyOwned o.locs = false →
      ∃ s', run = .next s' ∧ s.Completed s' o ∧ s'.mem = s.mem ∧ (s'.thread o.who).slices = x.slices ∧
        (o.c ≠ 0 → ∀ p ∈ s'.prot, ∀ l ∈ o.locs, p.line ≠ l.line)) ∧
    (o.instr = .salloc f → o.phase = .result → ∀ v, o.data = [v] →
      ∃ s', run = .next s' ∧ s.Completed s' o ∧ s'.mem = s.mem ∧
        (s'.thread o.who).slices = slicesSet x.slices f.d.start.toNat f.d.w.bits v)

/-- R131, R141, R143, R145: LD, ST, ATOM, ATOMR and CAS whose elements pass the checks, outside a deterministic launch (an
atomic outside host memory): the issue samples the effective address and the operands, and leaves the access incomplete.
Where no line leaves the group's stack window, of memory only what the checks set (accessed and dirty bits, R325) differs.
R142: LDK issued by a group of one thread, where its checks pass: one aligned read access of D's width at the thread's
address, which the issue leaves incomplete. -/
def Obligations.AccessesIssue : Prop :=
  (
  ∀ e ∈ ([(.ld, .read, true, false, fun _ _ _ => (0, 0)), (.st, .write, false, false, fun s t f => (s.storeData t f, 0)),
      (.atom, .rmw, true, true, fun s t f => (s.operand t f.b f.ty, f.c.immVal)),
      (.atomr, .rmw, true, true, fun s t f => (s.operand t f.b f.ty, f.c.immVal)),
      (.cas, .rmw, true, true, fun s t f => (s.operand t f.b f.ty, s.operand t f.c f.ty))] :
      List ((MemF → Instr) × Acc × Bool × Bool × (State → TRef → MemF → Nat × Nat))),
    ∀ (f : MemF) (s : State) (t : TRef) (ls : List Loc),
    let i := e.1 f
    let ea : W64 := BitVec.ofNat 64 (s.opnd64 t f.a) + f.offset.signExtend 64
    let k := if e.2.2.2.1 = true then 1 else vecCount f.vec
    let (b, c) := e.2.2.2.2 s t f
    s.Alone t i f.toCommon → (e.2.2.2.1 = true → f.vec = 0) →
    s.Reaches t i f.toCommon e.2.1 (e.2.2.2.1 || decide (f.order ≠ .relaxed)) e.2.2.1 ea (f.ty.bits / 8) k ls →
    (e.2.2.2.1 = true → ∀ l ∈ ls, l.host = false) → s.staging = [] →
    s.deterministic (s.team t.team).launch = false →
    ∃ s' o, exec i s = .next s' ∧ (s'.thread t).ButWindow ((s.thread t).started f.toCommon) ∧ o ∈ s'.ops ∧
      o.StartedIn s t i f.toCommon ea.toNat b c 0 ∧ o.locs = ls ∧ o.phase = .pending ∧
      (s.WindowRoom t →
       let r := s.start t i f.toCommon 0 0 0 0
       s'.mem = (r.2.checkElems (r.2.opCtx r.1) e.2.1 (e.2.2.2.1 || decide (f.order ≠ .relaxed)) e.2.2.1
         (f.ty.bits / 8) ea k []).2.mem) ∧ s'.hostMem = s.hostMem
  ) ∧ (
  ∀ (f : MemF) (s : State) (t : TRef) (ls : List Loc), s.Alone t (.ldk f) f.toCommon → s.FreshOps →
    (∀ o ∈ s.ops, o.iss ≠ s.issue.id) →
    s.Reaches t (.ldk f) f.toCommon .read true true (s.eaOf t f) 4 (f.d.w.bits / 32) ls → s.staging = [] →
    ∃ s' o, exec (.ldk f) s = .next s' ∧ (s'.thread t).ButWindow ((s.thread t).started f.toCommon) ∧ o ∈ s'.ops ∧
      o.StartedIn s t (.ldk f) f.toCommon (s.eaOf t f).toNat 0 0 (2 ^ t.lane) ∧ o.lead = o.id ∧ o.locs = ls ∧
      o.phase = .pending
  )

/-! ### Group 0x4 -/

namespace Sys2Proof.Machine

/-- The 48-bit target of a waymark or return entry as an address: sign-extended, times 16 (R163). -/
def entryAddr (e : BitVec 48) : W64 := e.signExtend 64 <<< 4

/-- A thread that has issued an instruction and goes on at an address (R41, R46). -/
def Thread.goes (x : Thread) (c : Common) (pc : W64) : Thread :=
  { x with pc := pc, seq := x.seq + 1, wait := 0, reuse := c.ctl.reuse, bwait := none, joins := false }

/-- A thread that a transfer takes through waymark m (R165): unless the waymark is ready, its lines are fetched, and the thread
waits for them. -/
def Thread.through (x : Thread) (m : BitVec 3) : Thread :=
  let w := x.wm.getD m.toNat Waymark.none
  if w.pstate = 2 then x
  else { x with wm := x.wm.set m.toNat { w with pstate := 1 }, prefetch := x.prefetch ||| (1#8 <<< m.toNat), landing := some m }

/-- A thread with a trap raised at its instruction and nothing else changed. -/
def Thread.traps! (x : Thread) (code info : BitVec 8) (addr : W64) : Thread :=
  { x with trap := some ⟨code, info, x.pc, x.pc, addr, false⟩ }

end Sys2Proof.Machine

/-- R163, R164, R165, R181, R182: PREP and PREPV make waymark m valid with a code-canonical target in the thread's
domain, or trap; XFER through a valid waymark of the thread's domain goes to its target, and otherwise raises
UNPREPARED_WAYMARK or WAYMARK_DOMAIN. -/
def Obligations.Waymarks : Prop :=
  ∀ (f : CtlF) (s : State) (t : TRef),
    let x := s.thread t
    let w := x.wm.getD f.m.toNat Waymark.none
    (s.Passes t (.prep f) f.toCommon →
      let a := x.pc + (f.arg24.signExtend 64 <<< 4)
      ∃ s', exec (.prep f) s = .next s' ∧
        (codeCanonical a = true →
          s'.thread t = { x with
            wm := x.wm.set f.m.toNat ⟨true, s.domainOf t, a.extractLsb' 4 48, 1⟩
            prefetch := x.prefetch ||| (1#8 <<< f.m.toNat) }.past f.toCommon) ∧
        (codeCanonical a = false → s'.thread t = x.traps! 0x11 0 0)) ∧
    (s.Passes t (.prepv f) f.toCommon →
      let a := BitVec.ofNat 64 (s.opnd64 t f.a)
      ∃ s', exec (.prepv f) s = .next s' ∧
        (a.toNat % 16 ≠ 0 → s'.thread t = x.traps! 0x12 0 0) ∧
        (a.toNat % 16 = 0 → codeCanonical a = false → s'.thread t = x.traps! 0x11 0 0) ∧
        (a.toNat % 16 = 0 → codeCanonical a = true →
          s'.thread t = { x with
            wm := x.wm.set f.m.toNat ⟨true, s.domainOf t, a.extractLsb' 4 48, 1⟩
            prefetch := x.prefetch ||| (1#8 <<< f.m.toNat) }.past f.toCommon)) ∧
    (s.Runs t (.xfer f) f.toCommon →
      ∃ s', exec (.xfer f) s = .next s' ∧
        (w.valid = false → s'.thread t = x.traps! 0x06 0 0) ∧
        (w.valid = true → w.domain ≠ s.domainOf t → s'.thread t = x.traps! 0x07 0 0) ∧
        (w.valid = true → w.domain = s.domainOf t →
          s'.thread t = (x.through f.m).goes f.toCommon (entryAddr w.target)))

/-- R168, R182, R184: XCALL through a valid waymark pushes the address of the next word with the thread's domain and goes to
the target, and raises STACK_LIMIT where the entry to spill has no room below %retlim; RET pops the top entry and goes
there, raises RETURN_UNDERFLOW on an empty stack or an entry of another domain, and stands while the entry is still to be read
back. -/
def Obligations.CallsAndReturns : Prop :=
  ∀ (f : CtlF) (s : State) (t : TRef),
    let x := s.thread t
    let w := x.wm.getD f.m.toNat Waymark.none
    let full := 4 ≤ x.ret.length ∧ x.retlim.toNat < x.retbase.toNat + 8 * (x.n + (x.ret.length - 4) + 1)
    (s.Runs t (.xcall f) f.toCommon →
      ∃ s', exec (.xcall f) s = .next s' ∧
        (w.valid = false → s'.thread t = x.traps! 0x06 0 0) ∧
        (w.valid = true → w.domain ≠ s.domainOf t → s'.thread t = x.traps! 0x07 0 0) ∧
        (w.valid = true → w.domain = s.domainOf t → full → s'.thread t = x.traps! 0x08 0 0) ∧
        (w.valid = true → w.domain = s.domainOf t → ¬ full →
          s'.thread t = ({ x with ret := x.ret ++ [(0#12 ++ s.domainOf t ++ (x.pc + 16).extractLsb' 4 48 : W64)] }.through
            f.m).goes f.toCommon (entryAddr w.target))) ∧
    (s.Runs t (.ret f) f.toCommon →
      ∃ s', exec (.ret f) s = .next s' ∧
        (x.ret = [] → x.n = 0 → s'.thread t = x.traps! 0x09 0 0) ∧
        (x.ret = [] → x.n ≠ 0 → s'.thread t = x) ∧
        (∀ es e, x.ret = es ++ [e] → e.extractLsb' 48 4 ≠ s.domainOf t → s'.thread t = x.traps! 0x09 0 0) ∧
        (∀ es e, x.ret = es ++ [e] → e.extractLsb' 48 4 = s.domainOf t →
          s'.thread t = { x with ret := es }.goes f.toCommon (entryAddr (e.extractLsb' 0 48))))

/-- R170, R171, R185, R186: CSET with no signature pending sets the member groups, and traps otherwise; SIGN signs, and the
last signature of the live threads of the member groups flips the phase and clears the signatures; JOIN after SIGN goes on
once its phase has completed and stands until then, and JOIN alone signs first; a thread outside the set, which does not stand at
the instruction already, traps. -/
def Obligations.Convergence : Prop :=
  ∀ (f : CtlF) (s : State) (t : TRef),
    let x := s.thread t
    let c := f.cr.toNat
    let m := s.team t.team
    let r := m.cregs.getD c ⟨0, false, 0⟩
    let mine : BitVec 1024 := 1#1024 <<< (32 * t.gid + t.lane)
    let last : Prop := ∀ y ∈ s.threads, y.live = true → y.id.team = t.team → r.set.getLsbD y.id.gid = true →
      y.id = t ∨ r.signed.getLsbD (32 * y.id.gid + y.id.lane) = true
    let r' : CReg := { r with signed := r.signed ||| mine }
    let bitc : BitVec 16 := 1#16 <<< c
    let sphase := if r.phase then x.sphase ||| bitc else x.sphase &&& ~~~bitc
    let member : Prop := r.set.getLsbD t.gid = true ∨ x.joins = true
    c < m.cregs.length → (∃ y ∈ s.teams, y.id = t.team) → t.gid < 32 → t.lane < 32 → (∀ y ∈ s.threads, y.id.lane < 32) →
    (s.Alone t (.cset f) f.toCommon →
      ∃ s', exec (.cset f) s = .next s' ∧
        (r.signed = 0 → s'.thread t = x.past f.toCommon ∧
          (s'.team t.team).cregs.getD c ⟨0, false, 0⟩ =
            { r with set := BitVec.ofNat 32 (s.opnd32 t f.a % 2 ^ (s.groupsOf t.team).length) }) ∧
        (r.signed ≠ 0 → s'.thread t = x.traps! 0x0B (f.cr.setWidth 8) 0 ∧ s'.team t.team = m)) ∧
    (s.Alone t (.sign f) f.toCommon →
      ∃ s', exec (.sign f) s = .next s' ∧
        (¬ member → s'.thread t = x.traps! 0x0B (f.cr.setWidth 8) 0) ∧
        (member → r.signed.getLsbD (32 * t.gid + t.lane) = false →
          s'.thread t = { x with sphase := sphase, await := x.await ||| bitc }.past f.toCommon ∧
          (last → (s'.team t.team).cregs.getD c ⟨0, false, 0⟩ = { r with phase := !r.phase, signed := 0 }) ∧
          (¬ last → (s'.team t.team).cregs.getD c ⟨0, false, 0⟩ = r')) ∧
        (member → r.signed.getLsbD (32 * t.gid + t.lane) = true → s'.thread t = { x with joins := true })) ∧
    (s.Alone t (.join f) f.toCommon →
      ∃ s', exec (.join f) s = .next s' ∧
        (¬ member → s'.thread t = x.traps! 0x0B (f.cr.setWidth 8) 0) ∧
        (member → x.await.getLsbD c = true → r.phase ≠ x.sphase.getLsbD c →
          s'.thread t = { x with await := x.await &&& ~~~bitc }.past f.toCommon) ∧
        (member → x.await.getLsbD c = true → r.phase = x.sphase.getLsbD c → s'.thread t = { x with joins := true }) ∧
        (member → x.await.getLsbD c = false → r.signed.getLsbD (32 * t.gid + t.lane) = true →
          s'.thread t = { x with joins := true }) ∧
        (member → x.await.getLsbD c = false → r.signed.getLsbD (32 * t.gid + t.lane) = false →
          (last → (s'.team t.team).cregs.getD c ⟨0, false, 0⟩ = { r with phase := !r.phase, signed := 0 } ∧
            (s'.thread t).pc = x.pc + 16) ∧
          (¬ last → (s'.team t.team).cregs.getD c ⟨0, false, 0⟩ = r' ∧ (s'.thread t).pc = x.pc)))

/-- R169, R187, R188, R189, R190, R192: EXIT of a stalled thread whose spills are made ends it, and stands until then; TRAP
and BRK raise their traps with the code of arg24 and the next word as resume address; YIELD and SLEEP keep the thread at the
instruction until SLEEP_EXPIRY, 16 or arg24 cycles later; SETHDL sets the group's handler; ICINV discards the world's lines
from the core's fetch buffers. -/
def Obligations.ThreadControl : Prop :=
  ∀ (f : CtlF) (s : State) (t : TRef),
    let x := s.thread t
    (s.Alone t (.exit f) f.toCommon →
      ((∀ o ∈ s.opsOf t, o.la = 15) → x.ret.length ≤ 4 →
        ∃ s', exec (.exit f) s = .next s' ∧ (s'.thread t).live = false ∧
          ((∀ a ∈ s.armed, a.team ≠ t.team) → ∀ u, u ≠ t → s'.thread u = s.thread u)) ∧
      (((∃ o ∈ s.opsOf t, o.la ≠ 15) ∨ 4 < x.ret.length) → ∃ s', exec (.exit f) s = .next s' ∧ s'.thread t = x)) ∧
    (∀ brk : Bool, let i := if brk then Instr.brk f else Instr.trap f
      s.Runs t i f.toCommon →
      ∃ s', exec i s = .next s' ∧
        s'.thread t = { x with trap := some ⟨if brk then 0x0D else 0x0C, f.arg24.setWidth 8, x.pc, x.pc + 16, 0, false⟩,
                               seq := x.seq + 1, wait := 0, reuse := f.ctl.reuse, bwait := none, joins := false }) ∧
    (s.Passes t (.yield f) f.toCommon →
      ∃ s', exec (.yield f) s = .next s' ∧ s'.thread t = { x with sleep := some ⟨s.clock + 16, true⟩ }) ∧
    (s.Passes t (.sleep f) f.toCommon →
      ∃ s', exec (.sleep f) s = .next s' ∧
        s'.thread t = if f.arg24 = 0 then x.past f.toCommon
          else { x with sleep := some ⟨s.clock + f.arg24.toNat, false⟩ }) ∧
    (∀ z, x.sleep = some z → z.deadline ≤ s.clock → x.live = true → s.resident t.team = true →
      codeCanonical (x.pc + 16) = true → (∃ y ∈ s.threads, y.id = t) →
      ∃ s', exec (.sleepExpiry t) s = .next s' ∧
        s'.thread t = { x with sleep := none, pc := x.pc + 16, seq := x.seq + 1, wait := 0, reuse := false }) ∧
    (s.Alone t (.sethdl f) f.toCommon → (∃ g ∈ s.groups, g.team = t.team ∧ g.gid = t.gid) →
      let a := BitVec.ofNat 64 (s.opnd64 t f.a)
      ∃ s', exec (.sethdl f) s = .next s' ∧
        (a.toNat % 16 ≠ 0 → s'.thread t = x.traps! 0x12 0 0 ∧ (s'.groupOf t).hdl = (s.groupOf t).hdl) ∧
        (a.toNat % 16 = 0 → a ≠ 0 → codeCanonical a = false →
          s'.thread t = x.traps! 0x11 0 0 ∧ (s'.groupOf t).hdl = (s.groupOf t).hdl) ∧
        (a.toNat % 16 = 0 → (a = 0 ∨ codeCanonical a = true) →
          s'.thread t = x.past f.toCommon ∧ (s'.groupOf t).hdl = a)) ∧
    (s.Alone t (.icinv f) f.toCommon →
      ∃ s', exec (.icinv f) s = .next s' ∧ (s'.thread t).pc = x.pc + 16 ∧
        s'.fetch = s.fetch.filter fun l => !(l.core = s.coreOf t && l.world = s.worldOf t))

/-- R173, R174, R176: TRAP_DELIVERY of a thread whose own trap is due, with a handler, outside handler mode, with %sp on a
multiple of 16 and its frame above %stklim and mapped: the 32 bytes of the record stand at %sp - 32, %sp is moved there, the
thread is in handler mode at %hdl, and waymarks, return stack, slices and scoreboard are as they were. R177, R178: a trap that
is due in a thread of a group without a handler, outside a gate call, is fatal: the launch's fatal trap is this one, unless it
already has one. HRET outside handler mode raises RETURN_UNDERFLOW. R174, R191: HRET in handler mode, stalled, with a mapped
record at %sp whose resume address is code-canonical and a multiple of 16: the predicates are the record's, %sp moves up by 32,
handler mode ends, and the thread goes on at the resume address. -/
def Obligations.TrapEntry : Prop :=
  (
  (
  ∀ (s : State) (t : TRef) (r : Trap) (ls : List Loc),
    let x := s.thread t
    let a := x.sp - 32
    s.MemOk → s.trapDue t = true → x.turn = none → x.async = [] → x.trap = some r → r.next = false →
    (∃ y ∈ s.threads, y.id = t) → (s.groupOf t).hdl ≠ 0 → codeCanonical (s.groupOf t).hdl = true →
    x.handler = false → x.sp.toNat % 16 = 0 → 32 ≤ x.sp.toNat → x.stklim ≤ a → canonical a = true →
    (s.translateRun (s.xctx t) .write a 32 []).1 = .inl ls → ls.Nodup → (∀ l ∈ ls, l.isLocal = true) →
    (∀ w, bit (s.world w).dbmctl.toNat 0 = false) →
    let record : BitVec 256 := r.addr ++ r.resume ++ r.pc ++ r.info ++ 0#25 ++ x.preds ++ 0#6 ++
      BitVec.ofNat 5 t.gid ++ BitVec.ofNat 5 t.lane ++ r.code
    ∃ s', exec (.trapDelivery t) s = .next s' ∧
      s'.thread t = { x with sp := a, handler := true, reuse := false, pc := (s.groupOf t).hdl, trap := none, sleep := none,
                             bwait := none, joins := false, landing := none } ∧
      ∀ j < 32, ∀ l, ls[j]? = some l → s'.seenByte (s.coreOf t) l = record.extractLsb' (8 * j) 8
  ) ∧ (
  (∀ (s : State) (t : TRef) (r : Trap) (l : Launch),
    let x := s.thread t
    s.trapDue t = true → x.turn = none → x.async = [] → x.trap = some r → r.next = false →
    (s.groupOf t).hdl = 0 → (s.groupOf t).gfp = 0 → s.launch? (s.team t.team).launch = some l → l.fatal = none →
    ∃ s' l', exec (.trapDelivery t) s = .next s' ∧ s'.launch? (s.team t.team).launch = some l' ∧ l'.fatal = some (r, t)) ∧
  (∀ (f : CtlF) (s : State) (t : TRef), s.Runs t (.hret f) f.toCommon → (s.thread t).handler = false →
    ∃ s', exec (.hret f) s = .next s' ∧ s'.thread t = (s.thread t).traps! 0x09 0 0)
  )
  ) ∧ (
  ∀ (f : CtlF) (s : State) (t : TRef) (ls : List Loc),
    let x := s.thread t
    let s₁ := (s.translateRun (s.xctx t) .read x.sp 32 []).2
    let record : BitVec 256 := BitVec.ofNat 256 (ofBytes (ls.map (s₁.seenByte (s.coreOf t))))
    let resume : W64 := record.extractLsb' 128 64
    s.Alone t (.hret f) f.toCommon → x.handler = true → (∀ o ∈ s.opsOf t, o.la = 15) → canonical x.sp = true →
    (s.translateRun (s.xctx t) .read x.sp 32 []).1 = .inl ls → (∀ l ∈ ls, s₁.poisoned l = false) → s₁.anyOwned ls = false →
    resume.toNat % 16 = 0 → codeCanonical resume = true →
    ∃ s', exec (.hret f) s = .next s' ∧
      s'.thread t = { x with preds := record.extractLsb' 24 7, sp := x.sp + 32, handler := false, pc := resume,
                             seq := x.seq + 1, wait := 0, reuse := f.ctl.reuse, bwait := none, joins := false }
  )

/-- R164, R165, R167, R168, R169, R172: WAYMARK_PREFETCH_DONE marks the waymark ready; INSTRUCTION_FETCH_DONE brings the 128
bytes of the line at the pc, as the core sees them, into the quad's fetch buffers; RETURN_STACK_TRANSFER fills the youngest
spilled entry; and CONVERGENCE_DEADLOCK raises its trap in every live thread of a deadlocked team. -/
def Obligations.ControlBackground : Prop :=
  ∀ (s : State) (t : TRef), (∃ y ∈ s.threads, y.id = t) →
    let x := s.thread t
    (∀ m < 8, ∀ l₁ l₂ s₁ s₂, x.wm.length = 8 → s.prefetching t m = true →
      let w := x.wm.getD m Waymark.none
      let a := entryAddr w.target
      s.fetchAt t w.domain a = (.line l₁, s₁) →
      (s₁.addFetchLine l₁).fetchAt t w.domain (a - BitVec.ofNat 64 (a.toNat % 128) + 128) = (.line l₂, s₂) →
      ∃ s', exec (.waymarkPrefetchDone t m) s = .next s' ∧ (s'.thread t).wm[m]? = some { w with pstate := 2 }) ∧
    (∀ l s₁, s.fetching t = true → s.translate (s.xctx t) .fetch x.pc = (.ok l, s₁) → s₁.ownedLine l.line = false →
      s₁.poisoned l = false → s₁.hostLost [l] = false → l.isPeer = false →
      ∃ s', exec (.instructionFetchDone t) s = .next s' ∧
        ∃ y ∈ s'.fetch, y.core = s.coreOf t ∧ y.quad = (s.groupOf t).quad ∧ y.world = s.worldOf t ∧
          y.domain = s.domainOf t ∧ y.line = x.pc.toNat / 128 ∧
          ∀ j < 128, y.bits.extractLsb' (8 * j) 8 = s₁.seenByte (s.coreOf t) { l with addr := l.addr / 128 * 128 + j }) ∧
    (∀ ls s₁, s.stackTransferDue t true = true →
      let a := x.retbase + BitVec.ofNat 64 (8 * (x.n - 1))
      canonical a = true → s.translateRun (s.xctx t) .read a 8 [] = (.inl ls, s₁) →
      (∀ l ∈ ls, s₁.poisoned l = false) → s₁.anyOwned ls = false →
      ∃ s', exec (.returnStackTransfer t true) s = .next s' ∧
        s'.thread t = { x with ret := BitVec.ofNat 64 (ofBytes (ls.map (s₁.seenByte (s.coreOf t)))) :: x.ret, n := x.n - 1 }) ∧
    (∀ team, s.deadlocked team = true → ∀ y ∈ s.threads, y.id.team = team → y.live = true →
      ∃ s', exec (.convergenceDeadlock team) s = .next s' ∧
        ((s'.thread y.id).trap.map (·.code) = some 0x0A ∨ ((s'.thread y.id).async.any fun r => r.code = 0x0A) = true))

/-! ### Group 0x5 -/

namespace Sys2Proof.Machine

/-- A Releasing handle (R199). -/
def HState.isReleasing : HState → Bool
  | .releasing _ _ _ _ _ _ => true
  | _ => false

end Sys2Proof.Machine

/-- R199, R201, R202, R207, R209, R210: the issue of the tile instructions where their checks pass: TALLOC queues for its
tile under a free handle, TFREE marks a tile for release, TLD, TST and TFILL hold the tile that their handle names, and
TBIND makes a view. Each leaves its instruction incomplete, and the thread goes on. R202: TILE_HANDLE with its reason: a
handle in use (2) or Releasing (1) at TALLOC and TBIND, or a shape out of range (3) at TALLOC, a handle that names no tile
(1) at TFREE, TLD, TST and TFILL, or that is Releasing (7 at TFREE, 1 at the others), an element wider than the operand (8)
or outside the tile (4) at TLD and TST. Nothing is left incomplete. -/
def Obligations.TileInstructionsIssue : Prop :=
  (
  ∀ (f : TileF) (s : State) (t : TRef), s.FreshOps →
    let x := s.thread t
    let team := t.team
    (s.Alone t (.talloc f) f.toCommon →
      let a := s.opnd32 t f.a
      shapeOk a f.level = true → s.handle? team f.h = none →
      (f.level = false → shapeGranules a ≤ s.reserveLeft team + s.unreserved (s.coreOf t)) →
      ∃ s' o, exec (.talloc f) s = .next s' ∧ s'.thread t = x.started f.toCommon ∧ o ∈ s'.ops ∧
        o.StartedIn s t (.talloc f) f.toCommon a 0 0 0 ∧ o.phase = .queued ∧ s'.tileQ = s.tileQ ++ [o.id] ∧
        s'.handle? team f.h = some ⟨team, f.h, .waiting o.id, none⟩) ∧
    (∀ n h, s.Alone t (.tfree f) f.toCommon → s.handle? team f.h = some h → h.state = .allocated n →
      (∀ a ∈ s.armed, a.team = team → f.h ∉ a.copy.hs) →
      ∃ s' o, exec (.tfree f) s = .next s' ∧ s'.thread t = x.started f.toCommon ∧ o ∈ s'.ops ∧
        o.StartedIn s t (.tfree f) f.toCommon 0 0 0 0 ∧ o.tiles = [n] ∧ o.phase = .queued ∧
        (∃ h', s'.handle? team f.h = some h' ∧ h'.state.frees n = true) ∧ (∀ y ∈ s'.tiles, y.id = n → y.releasing = true)) ∧
    (∀ y, s.tileOf team f.h = .ok y →
      (∀ store : Bool, let i := if store then Instr.tst f else Instr.tld f
        let w := if store then f.c.bits else f.d.w.bits
        s.Alone t i f.toCommon → y.ew ≤ w → s.opnd32 t f.a < y.rows → s.opnd32 t f.b < y.cols →
        ∃ s' o, exec i s = .next s' ∧ s'.thread t = x.started f.toCommon ∧ o ∈ s'.ops ∧ o.phase = .pending ∧
          o.StartedIn s t i f.toCommon (s.opnd32 t f.a) (s.opnd32 t f.b) (if store then s.rawOpnd t f.c else 0) 0 ∧
          o.tiles = [y.id]) ∧
      (s.Alone t (.tfill f) f.toCommon →
        ∃ s' o, exec (.tfill f) s = .next s' ∧ s'.thread t = x.started f.toCommon ∧ o ∈ s'.ops ∧
          o.StartedIn s t (.tfill f) f.toCommon (s.opnd32 t f.a) 0 0 0 ∧ o.tiles = [y.id] ∧ o.phase = .pending)) ∧
    (∀ n, s.Alone t (.tbind f) f.toCommon → s.handle? team f.h = none → s.bindSource team f = some n →
      s.tableUsed (s.coreOf t) < 1024 →
      ∃ s' o, exec (.tbind f) s = .next s' ∧ s'.thread t = x.started f.toCommon ∧ o ∈ s'.ops ∧
        o.StartedIn s t (.tbind f) f.toCommon 0 0 0 0 ∧ o.phase = .result ∧
        s'.handle? team f.h = some ⟨team, f.h, .view n, none⟩)
  ) ∧ (
  ∀ (f : TileF) (s : State) (t : TRef) (i : Instr) (info : BitVec 8), s.FreshOps →
    s.Alone t i f.toCommon →
    ((i = .talloc f ∧ shapeOk (s.opnd32 t f.a) f.level = false ∧ info = 3) ∨
     (((i = .talloc f ∧ shapeOk (s.opnd32 t f.a) f.level = true) ∨ i = .tbind f) ∧
       ∃ h, s.handle? t.team f.h = some h ∧ info = (if h.state.isReleasing = true then 1 else 2)) ∨
     (i ∈ [.tfree f, .tld f, .tst f, .tfill f] ∧ s.handle? t.team f.h = none ∧ info = 1) ∨
     (i ∈ [.tld f, .tst f, .tfill f] ∧ (∃ h, s.handle? t.team f.h = some h ∧ h.state.isReleasing = true) ∧ info = 1) ∨
     (i = .tfree f ∧ (∃ h, s.handle? t.team f.h = some h ∧ h.state.isReleasing = true) ∧ info = 7) ∨
     (∃ y, s.tileOf t.team f.h = .ok y ∧
       ((i = .tld f ∧ f.d.w.bits < y.ew ∧ info = 8) ∨ (i = .tst f ∧ f.c.bits < y.ew ∧ info = 8) ∨
        ((i = .tld f ∧ y.ew ≤ f.d.w.bits ∨ i = .tst f ∧ y.ew ≤ f.c.bits) ∧
          (y.rows ≤ s.opnd32 t f.a ∨ y.cols ≤ s.opnd32 t f.b) ∧ info = 4)))) →
    ∃ s', exec i s = .next s' ∧ s'.ops = s.ops ∧ s'.tiles = s.tiles ∧
      (s'.thread t).trap = some ⟨0x18, info, (s.thread t).pc, (s.thread t).pc, 0, false⟩
  )

/-- R196, R198, R207, R208, R209: TALLOC_GRANT of a request that can be granted makes a tile of zeros under the
handle and ends with status OK and the footprint; TILE_RELEASE of a tile that nothing uses removes it, frees its handle, makes its
views Stale and ends its TFREE with the footprint; TILE_DEADLOCK ends the latest
request of the core with status 6. -/
def Obligations.TileSteps : Prop :=
  ∀ (s : State),
    (∀ (o : Op) (f : TileF), s.HasOp o → o.instr = .talloc f → s.grantable o = true → o.clobber = 0 →
      ∃ s', exec (.tallocGrant o.id) s = .next s' ∧ s.Completed s' o ∧ o.id ∉ s'.tileQ ∧
        ∃ y ∈ s'.tiles, s'.handle? o.who.team f.h = some ⟨o.who.team, f.h, .allocated y.id, none⟩ ∧
          y.rows = o.a % 2 ^ 12 + 1 ∧ y.cols = o.a / 2 ^ 12 % 2 ^ 12 + 1 ∧ y.ew = o.a / 2 ^ 24 % 2 ^ 5 + 1 ∧
          y.level = f.level ∧ y.releasing = false ∧ (∀ r c, y.elem r c = 0) ∧
          (s'.thread o.who).slices = slicesSet (s.thread o.who).slices f.d.start.toNat f.d.w.bits
            (min (y.footprint / 64) 65535 * 2 ^ 16)) ∧
    (∀ y, s.tile? y.id = some y → y.releasing = true → s.tileBusy y.id = false →
      ∃ s', exec (.tileRelease y.id) s = .next s' ∧ (∀ z ∈ s'.tiles, z.id ≠ y.id) ∧
        (∀ h ∈ s'.handles, h.state.frees y.id = false ∧ h.state ≠ .view y.id) ∧
        (∀ h ∈ s.handles, h.state = .view y.id → { h with state := .stale y.rows y.cols y.ew y.level } ∈ s'.handles) ∧
        (∀ o f, s.HasOp o → o.instr = .tfree f → o.tiles = [y.id] → o.x = 0 → o.clobber = 0 →
          (∀ p ∈ s.ops, p.tiles = [y.id] → p.x = 0 → (∃ g, p.instr = .tfree g) → p = o) →
          s.Completed s' o ∧ (s'.thread o.who).slices = slicesSet (s.thread o.who).slices f.d.start.toNat f.d.w.bits
            (min (y.footprint / 64) 65535 * 2 ^ 16))) ∧
    (∀ (core : Nat) (os : List Op) (o : Op) (f : TileF), s.tileDeadlocked core = true → s.waitingOn core = os ++ [o] →
      s.HasOp o → o.instr = .talloc f → o.clobber = 0 →
      ∃ s', exec (.tileDeadlock core) s = .next s' ∧ s.Completed s' o ∧ o.id ∉ s'.tileQ ∧
        s'.handle? o.who.team f.h = none ∧
        (s'.thread o.who).slices = slicesSet (s.thread o.who).slices f.d.start.toNat f.d.w.bits 6)

/-- R205, R206, R469: TILE_OP_COMPLETE: TLD reads the run of elements from (A, B) into D, TST writes the elements
of C and no other, TFILL sets every element, and a tile instruction whose result is known
writes it. R165, R183, R294, R295, R296: XFER.shed with no other side acts as XFER; where it is the smaller side of a
branch, its thread, which has stalled, ends, and a lay-by of its cluster holds its continuation with the bytes of its
slices F to L, while the threads of the larger side go past it. -/
def Obligations.TileOperationsComplete : Prop :=
  (
  ∀ (s : State) (o : Op) (f : TileF), s.HasOp o → o.clobber = 0 →
    let run := exec (.tileOpComplete o.id) s
    let sl := (s.thread o.who).slices
    (∀ y, s.tile? y.id = some y → o.tiles = [y.id] → o.phase = .pending → 1 ≤ y.ew →
      (y.lines.map (·.1)).Pairwise (· < ·) →
      (o.instr = .tld f → y.poison = [] → (∀ p ∈ s.ops, p.isProduct = true → p.tiles.getD 2 0 ≠ y.id) →
        ∃ s' v, run = .next s' ∧ s.Completed s' o ∧ (s'.thread o.who).slices = slicesSet sl f.d.start.toNat f.d.w.bits v ∧
          ∀ k, k < min (f.d.w.bits / y.ew) (y.cols - o.b) → v / 2 ^ (k * y.ew) % 2 ^ y.ew = y.elem o.a (o.b + k)) ∧
      (o.instr = .tst f → s.tileOpDue o = true → o.a < y.rows → o.b < y.cols →
        ∃ s' z, run = .next s' ∧ s.Completed s' o ∧ s'.tile? y.id = some z ∧ z.rows = y.rows ∧ z.cols = y.cols ∧
          z.ew = y.ew ∧
          ∀ r < y.rows, ∀ c < y.cols, z.elem r c =
            if r = o.a ∧ o.b ≤ c ∧ c < o.b + f.c.bits / y.ew then o.c / 2 ^ ((c - o.b) * y.ew) % 2 ^ y.ew else y.elem r c) ∧
      (o.instr = .tfill f →
        ∃ s' z, run = .next s' ∧ s.Completed s' o ∧ s'.tile? y.id = some z ∧ z.poison = [] ∧
          ∀ r < y.rows, ∀ c < y.cols, z.elem r c = o.a % 2 ^ y.ew)) ∧
    (∀ v, o.instr ∈ [.talloc f, .tfree f, .tbind f] → o.phase = .result → o.data = [v] →
      ∃ s', run = .next s' ∧ s.Completed s' o ∧ (s'.thread o.who).slices = slicesSet sl f.d.start.toNat f.d.w.bits v)
  ) ∧ (
  ∀ (f : CtlF) (s : State) (t : TRef),
    let x := s.thread t
    let w := x.wm.getD f.m.toNat Waymark.none
    let i := Instr.xferShed f
    let count := f.b.start - f.a.start + 1
    (s.Runs t i f.toCommon → s.issue.threads = [t] →
      ∃ s', exec i s = .next s' ∧
        (w.valid = false → s'.thread t = x.traps! 0x06 0 0) ∧
        (w.valid = true → w.domain ≠ s.domainOf t → s'.thread t = x.traps! 0x07 0 0) ∧
        (w.valid = true → w.domain = s.domainOf t →
          s'.thread t = (x.through f.m).goes f.toCommon (entryAddr w.target))) ∧
    (∀ us, s.issue.threads = t :: us → 2 ≤ us.length → s.Runs t i f.toCommon →
      (∀ u ∈ us, s.guard u f.ctl = false ∧ codeCanonical ((s.thread u).pc + 16) = true ∧ ∃ y ∈ s.threads, y.id = u) →
      (∀ u ∈ t :: us, s.deterministic (s.team u.team).launch = false) →
      w.valid = true → w.domain = s.domainOf t → s.laybys = [] → s.arrivals = [] → s.armed = [] →
      x.live = true → s.resident t.team = true → (∀ y ∈ s.threads, y.shed = none) → x.ret.length ≤ 4 →
      (∀ o ∈ s.opsOf t, o.la = 15) → s.anyPending t f.a.start count = false →
      ∃ s' y, exec i s = .next s' ∧ (s'.thread t).live = false ∧ (∀ u ∈ us, s'.thread u = (s.thread u).past f.toCommon) ∧
        y ∈ s'.laybys ∧ y.cluster = s.clusterOf t ∧ y.number = some 0 ∧ y.world = s.worldOf t ∧ y.domain = s.domainOf t ∧
        y.launch = (s.team t.team).launch ∧ y.entry = entryAddr w.target ∧
        y.waiting = [⟨entryAddr w.target, f.a.start, count, s.packSlices t f.a.start count, s.issue.id⟩] ∧
        y.deadline = s.clock + s.laybyTimer (s.team t.team).launch)
  )

/-- R22, R88, R136, R152, R153: RECALL_COMPLETE of a load whose lines are home again reads the next of them, as it stands, and the
load goes on. STACK_WINDOW_TRANSFER brings a line of a data stack into the group's stack window, or takes the line out that lies
furthest above its thread's %sp; no byte that a thread sees changes. -/
def Obligations.MemoryBackground : Prop :=
  (∀ (f : MemF) (s : State) (o : Op) (n : Nat), s.HasOp o → o.phase = .recall → o.lead = o.id → f.order = .relaxed →
    o.instr ∈ [Instr.ld f, .fill f, .ldk f] → s.anyOwned o.locs = false → o.nextLine = some n →
    (∀ l ∈ o.locs, l.isPeer = false ∧ l.addr < 2 ^ 60) →
    ∃ s' o', exec (.recallComplete o.id) s = .next s' ∧ s'.mem = s.mem ∧ (∀ u, s'.thread u = s.thread u) ∧ o' ∈ s'.ops ∧
      o'.id = o.id ∧ o'.phase = .pending ∧ ∀ l ∈ o.unread, l.line = n → o'.received l = some (s.loadByte o l)) ∧
  (∀ (s : State) (t : TRef) (team gid line : Nat) (w : Window),
    let a := BitVec.ofNat 64 (128 * line)
    let run := exec (.stackWindowTransfer team gid line) s
    s.stackThread team gid a = some t → canonical a = true → s.window? team gid = some w →
    (∀ l s₁, (∀ x ∈ w.lines, x.vline ≠ line ∧ x.line ≠ l.line) → w.lines.length < 32 → l.isLocal = true →
      s.translate (s.xctx t) .read a = (.ok l, s₁) →
      ∃ s', run = .next s' ∧ s'.mem = s₁.mem ∧ s'.wbuf = s.wbuf ∧ s'.threads = s.threads ∧
        s'.window? team gid = some { w with lines := w.lines ++ [⟨l.line, a.toNat / 128, t.lane⟩] }) ∧
    (∀ x l s₁, s.furthest w = some x → x.vline = line →
      let u : TRef := ⟨w.team, w.gid, x.lane⟩
      let s₀ := s.setWindow w.team w.gid fun y => { y with lines := y.lines.filter (· ≠ x) }
      s₀.translate (s₀.xctx u) .write a = (.ok l, s₁) →
      ∃ s', run = .next s' ∧ s'.mem = s₁.mem ∧ s'.wbuf = s.wbuf ∧ s'.threads = s.threads ∧
        s'.window? team gid = some { w with lines := w.lines.filter (· ≠ x) }))

/-! ### Group 0x6 -/

namespace Sys2Proof.Machine

/-- A thread whose instruction is complete at its issue, with a value in D: its scoreboard slot is clear (R20). -/
def Thread.finished (x : Thread) (c : Common) (v : Nat) : Thread :=
  { x.past c with
    slices := slicesSet x.slices c.d.start.toNat c.d.w.bits v
    sb := if c.ctl.setEn then x.sb &&& ~~~(1#8 <<< c.ctl.setSlot.toNat) else x.sb }

/-- The state after the issue of an instruction of one thread with sampled operands, and the operation that it starts. -/
def State.issuedOp (s : State) (t : TRef) (i : Instr) (c : Common) (a b cc x : Nat) : Op × State := s.start t i c a b cc x

/-- The copy that a copy instruction of operation o starts (R227 to R229). -/
structure Copy.StartedBy (c : Copy) (s : State) (o : Op) (f : CopyF) (kind : CopyKind) (tile : Nat) (record : BitVec 512) :
    Prop where
  op : c.op = o.id
  team : c.team = o.who.team ∧ c.ch = f.ch ∧ c.world = s.worldOf o.who ∧ c.domain = o.domain
  what : c.kind = kind ∧ c.st = f.dir ∧ c.tile = tile ∧ c.record = record
  coords : c.coords = (List.range 5).map fun i => ((BitVec.ofNat 160 o.b).extractLsb' (32 * i) 32).toInt
  place : c.addr = BitVec.ofNat 64 o.a ∧ (kind = .bytes → c.count = o.b)
  fresh : c.done = 0 ∧ c.status = none ∧ c.fault = none ∧ c.cancelled = false ∧ c.reason = 0

end Sys2Proof.Machine

/-- R218, R219, R225, R227, R228, R229, R231, R232: the issue of the copies of one thread whose checks pass. CPY and CPYS put
a copy at the end of its channel's queue, CPYA arms one unless its object is already in the armed phase; CPYX cancels an
armed copy and says whether there was one; MILE and MILE.fault write the channel's milestone and fault word. -/
def Obligations.CopiesIssue : Prop :=
  ∀ (f : CopyF) (s : State) (t : TRef),
    let x := s.thread t
    (∀ (kind : CopyKind) (arm : Bool) (y : Tile) (record : Nat) (bar : Option BarRef) (s₂ : State),
      let i := if arm then Instr.cpya f else if kind = .box then Instr.cpy f else Instr.cpys f
      let b := if kind = .box then s.coordBits t f.b else s.opnd32 t f.b
      let cc := if f.ben then s.barOpnd t f else 0
      let r := s.issuedOp t i f.toCommon (s.opnd64 t f.a) b cc (2 ^ t.lane)
      (kind = .box ∨ (kind = .bytes ∧ arm = false)) → s.Alone t i f.toCommon → s.queueFull t.team f.ch = false →
      r.2.checkCopy r.1 f (kind = .box) (if arm then .read else .rmw) = (.ok y record bar, s₂) →
      (kind = .box → s.coordTrap t f.b (recRank record) = none ∧ s.recordReason (s.worldOf t) y record true = none) →
      (kind = .bytes → y.rowWhole = true ∧ b ≤ y.rows * y.rowBytes ∧ 1 ≤ b) →
      (∀ l, bar = some (.mem l) → l.isPeer = false) → (∀ q, bar = some q → (s₂.obj q).malformed = false) →
      f.claim = false → s.wbuf = [] →
      (arm = false →
        ∃ s' o c, exec i s = .next s' ∧ s'.thread t = x.started f.toCommon ∧ o ∈ s'.ops ∧
          o.StartedIn s t i f.toCommon (s.opnd64 t f.a) b cc (2 ^ t.lane) ∧ o.phase = .queued ∧ o.tiles = copyTiles y.id bar ∧
          c ∈ s'.copies ∧ c.StartedBy s o f kind y.id (BitVec.ofNat 512 record) ∧ c.bar = bar ∧
          (s'.channel t.team f.ch).queue = (s.channel t.team f.ch).queue ++ [c.id] ∧
          (s'.handle? t.team f.h).map (·.chan) = some (some f.ch)) ∧
      (∀ q, arm = true → bar = some q →
        s.armed.any (fun z => z.team = t.team && z.ch = f.ch && z.arm = f.arm) = false →
        ∃ s' o c, exec i s = .next s' ∧ s'.thread t = x.started f.toCommon ∧ o ∈ s'.ops ∧
          o.StartedIn s t i f.toCommon (s.opnd64 t f.a) b cc (2 ^ t.lane) ∧ o.phase = .queued ∧
          c.StartedBy s o f .box y.id (BitVec.ofNat 512 record) ∧ c.bar = none ∧
          ((s₂.obj q).phase = f.parity → c ∈ s'.copies ∧
            (s'.channel t.team f.ch).queue = (s.channel t.team f.ch).queue ++ [c.id]) ∧
          ((s₂.obj q).phase ≠ f.parity → s'.armed = s.armed ++ [⟨t.team, f.ch, f.arm, f.parity, q, c⟩])) ∧
      (kind = .box → ∃ l s₁, r.2.translate (r.2.opCtx r.1) .read (BitVec.ofNat 64 (s.opnd64 t f.a)) = (.ok l, s₁) ∧
        ∀ j < 64, BitVec.ofNat 8 (record / 256 ^ j) = s₂.seenByte (s.coreOf t) (l.add j))) ∧
    (∀ y r s₂, s.Alone t (.cpys f) f.toCommon → s.FreshOps → s.queueFull t.team f.ch = false → s.opnd32 t f.b = 0 →
      (let z := s.issuedOp t (.cpys f) f.toCommon (s.opnd64 t f.a) 0 (if f.ben then s.barOpnd t f else 0) (2 ^ t.lane)
       z.2.checkCopy z.1 f false .rmw = (.ok y 0 r, s₂)) → y.rowWhole = true →
      ∃ s', exec (.cpys f) s = .next s' ∧ s'.thread t = x.finished f.toCommon (256 * f.ch.toNat)) ∧
    (s.Alone t (.cpyx f) f.toCommon → s.FreshOps →
      let find := fun (z : Armed) => z.team = t.team && z.ch = f.ch && z.arm = f.arm
      (s.armed.find? find = none →
        ∃ s', exec (.cpyx f) s = .next s' ∧ s'.thread t = x.finished f.toCommon (256 * f.ch.toNat) ∧ s'.ops = s.ops) ∧
      (∀ a p g, s.armed.find? find = some a → s.HasOp p → a.copy.op = p.id → p.instr = .cpya g → p.who ≠ t → p.clobber = 0 →
        s.ops.filter (fun q => q.lead = p.id) = [p] → bit p.x p.who.lane = true →
        ∃ s', exec (.cpyx f) s = .next s' ∧ s'.thread t = x.finished f.toCommon (256 * f.ch.toNat + 65536) ∧
          a ∉ s'.armed ∧ (s'.channel t.team f.ch).fault = 0x0B#7 ++ 0#57 ∧ s.Completed s' p ∧
          (s'.thread p.who).slices = slicesSet (s.thread p.who).slices g.d.start.toNat g.d.w.bits (2 + 256 * f.ch.toNat))) ∧
    (s.Alone t (.mile f) f.toCommon →
      ∃ s', exec (.mile f) s = .next s' ∧ s'.thread t = x.finished f.toCommon (s.channel t.team f.ch).milestone.toNat) ∧
    (s.Alone t (.mileFault f) f.toCommon →
      ∃ s', exec (.mileFault f) s = .next s' ∧ s'.thread t = x.finished f.toCommon (s.channel t.team f.ch).fault.toNat)

/-- R230: CPYM of a group of one thread whose checks pass waits in its channel's queue with its copy for the other teams of
its mask; CPYM_GATHER, once every rank of the mask has arrived, joins the copies where the members name the same copy and
their tiles hold it, ends them FAULTED with reason 7 where they do not, and CANCELLED where a rank's team has ended; a unit
is then delivered to every member. -/
def Obligations.ClusterCopies : Prop :=
  (∀ (f : CopyF) (s s₂ : State) (t : TRef) (y : Tile) (record : Nat) (bar : Option BarRef),
    let i := Instr.cpym f
    let mask := s.opnd64 t f.c
    let b := s.coordBits t f.b
    let r := s.issuedOp t i f.toCommon (s.opnd64 t f.a) b mask (2 ^ t.lane)
    s.Alone t i f.toCommon → s.queueFull t.team f.ch = false → s.FreshOps →
    f.ben = false → f.dir = false →
    r.2.checkCopy r.1 f true .read = (.ok y record bar, s₂) →
    s.coordTrap t f.b (recRank record) = none → s.recordReason (s.worldOf t) y record false = none →
    State.maskOk (s.team t.team) mask = true →
    ∃ s' o c g, exec i s = .next s' ∧ s'.thread t = (s.thread t).started f.toCommon ∧ o ∈ s'.ops ∧
      o.StartedIn s t i f.toCommon (s.opnd64 t f.a) b mask (2 ^ t.lane) ∧ o.lead = o.id ∧ o.phase = .queued ∧
      c ∈ s'.copies ∧ c.StartedBy s o f .multi y.id (BitVec.ofNat 512 record) ∧
      (s'.channel t.team f.ch).queue = (s.channel t.team f.ch).queue ++ [c.id] ∧
      g ∈ s'.gathers ∧ g.op = o.id ∧ g.team = t.team ∧ g.copy = c ∧ g.mask = BitVec.ofNat 64 mask ∧
      g.digest = [record, b % 2 ^ (32 * recRank record), mask]) ∧
  (∀ (s : State) (g : Gather), s.gathers.find? (fun z => z.id = g.id) = some g →
    let ranks := (List.range 64).filter fun n => g.mask.getLsbD n
    let here := ranks.filterMap fun n => (s.gatherRow g n).1
    let same := here.all fun z => z.digest = g.digest
    let hold := here.all fun z => (s.tile? z.copy.tile).any (·.holds g.copy.record.toNat)
    let mine := fun (c : Copy) => here.any fun z => z.copy.id = c.id
    ((∀ n ∈ ranks, (s.gatherRow g n).1.isSome = true) →
      ∃ s', exec (.cpymGather g.id) s = .next s' ∧ (∀ z ∈ here, ∀ z' ∈ s'.gathers, z'.id ≠ z.id) ∧
        ∀ c ∈ s.copies, mine c = true → ∃ c' ∈ s'.copies, c'.id = c.id ∧
          ((same && hold) = true → c'.group = g.id ∧ c'.members = here.length ∧ c'.status = c.status) ∧
          ((same && hold) = false → c'.reason = 7 ∧ c'.status = some 3)) ∧
    ((∃ n ∈ ranks, s.gatherRow g n = (none, false)) → same = true →
      ∃ s', exec (.cpymGather g.id) s = .next s' ∧
        ∀ c ∈ s.copies, mine c = true → ∃ c' ∈ s'.copies, c'.id = c.id ∧ c'.cancelled = true)) ∧
  (∀ (s s₁ : State) (c c₁ : Copy) (u : Nat), s.copy? c.id = some c → (s.copies.map (·.id)).Nodup → c.kind = .multi →
    s.unitDue c = true → c.nextUnit = some u → (s.serve c).tryUnit c u = .ok s₁ c₁ →
    ∃ s', exec (.copyDeliveryUnit c.id) s = .next s' ∧
      ∀ d ∈ s.gathered c.group, ∃ d' ∈ s'.copies, d'.id = d.id ∧ d'.units = d.units ++ [u])

/-- R216, R217, R220, R221, R222, R223, R224: COPY_DELIVERY_UNIT of a record or byte copy whose next unit can be moved advances
the copy and its channel's milestone by the unit's bytes, and an element moves as its bits, merged into memory's bytes on
the way out; COPY_FAULT stops a copy for a reason, or with a fault that its channel waits for; COPY_COMPLETE ends a copy with
its status word and fault word. -/
def Obligations.CopyDelivery : Prop :=
  (∀ (s s₁ : State) (c c₁ : Copy) (u : Nat), s.copy? c.id = some c → (c.kind = .box ∨ c.kind = .bytes) → c.bar = none →
    s.unitDue c = true → c.nextUnit = some u → (s.serve c).tryUnit c u = .ok s₁ c₁ →
    ∃ s' c', exec (.copyDeliveryUnit c.id) s = .next s' ∧ s'.copy? c.id = some c' ∧ c'.done = c.done + c.unitLen u ∧
      (s'.channel c.team c.ch).milestone = (s.channel c.team c.ch).milestone + BitVec.ofNat 64 (c.unitLen u) ∧
      (s'.channel c.team c.ch).queue = (s.channel c.team c.ch).queue ∧ s'.mem = s₁.mem ∧ s'.tiles = s₁.tiles) ∧
  (∀ (s s₁ : State) (c : Copy) (e : Elem) (ls : List Loc) (y : Tile), e.inb = true → e.exact = true → (∀ l ∈ ls, l.isLocal = true) →
    ls.Nodup → s₁.tile? y.id = some y → (y.lines.map (·.1)).Pairwise (· < ·) → e.w ≤ 32 →
    let sh := (e.vbit % 8).toNat
    let core := (s.team c.team).core
    (s.elemPlaces c .read e.addrs [] = (.inl ls, s₁) → (∀ l ∈ ls, s₁.poisoned l = false) → s₁.anyOwned ls = false →
      c.bad = [] → c.seen = [] →
      ∃ s' c' z, s.moveIn c [y.id] e = .ok s' c' ∧ s'.tile? y.id = some z ∧ s'.mem = s₁.mem ∧
        z.getBits e.row e.tbit e.w = ofBytes (ls.map (s₁.seenByte core)) / 2 ^ sh % 2 ^ e.w) ∧
    (s.elemPlaces c .write e.addrs [] = (.inl ls, s₁) → (∀ l ∈ ls, (l.line, c.id) ∈ s₁.owned) → s₁.wbuf = [] →
      y.poison = [] → s₁.MemOk →
      (∀ w, bit (s₁.world w).dbmctl.toNat 0 = false) → sh + e.w ≤ 8 * ls.length →
      ∃ s' c', s.moveOut c y e = .ok s' c' ∧ (∀ l, l ∉ ls → s'.memByte l = s₁.memByte l) ∧
        let old := ofBytes (ls.map s₁.memByte)
        let new := ofBytes (ls.map s'.memByte)
        new % 2 ^ sh = old % 2 ^ sh ∧ new / 2 ^ sh % 2 ^ e.w = y.getBits e.row e.tbit e.w ∧
          new / 2 ^ (sh + e.w) = old / 2 ^ (sh + e.w))) ∧
  (∀ (s s₁ : State) (c c₁ : Copy) (u : Nat), s.copy? c.id = some c → (c.kind = .box ∨ c.kind = .bytes) → c.group = 0 →
    s.unitDue c = true → c.nextUnit = some u →
    (∀ reason va, s.tryUnit c u = .stop s₁ c₁ none reason va →
      ∃ s' c', exec (.copyFault c.id) s = .next s' ∧ s'.copy? c.id = some c' ∧ c'.status = some 3 ∧ c'.reason = reason ∧
        c'.failAddr = va ∧ c'.done = c.done) ∧
    (∀ x reason va n s₂, s.tryUnit c u = .stop s₁ c₁ (some x) reason va →
      s₁.openFault (.copy c.id) c.world c.domain x (if c.st then .write else .read) va 0 c.ch.toNat = (.wait n, s₂) →
      ∃ s' c', exec (.copyFault c.id) s = .next s' ∧ s'.copy? c.id = some c' ∧ c'.fault = some n ∧ c'.status = none ∧
        c'.done = c.done ∧ s'.copyRuns c' = false)) ∧
  (∀ (s : State) (c : Copy) (o : Op) (f : CopyF), s.copy? c.id = some c → s.copyDone c = true → c.tag = none →
    c.bar = none → s.HasOp o → o.id = c.op → o.instr ∈ [.cpy f, .cpys f, .cpya f] → o.clobber = 0 →
    s.ops.filter (fun p => p.lead = o.id) = [o] → bit o.x o.who.lane = true →
    let st := if c.cancelled then 2 else (c.status).getD (if c.poisoned then 4 else if c.oob then 1 else 0)
    ∃ s', exec (.copyComplete c.id) s = .next s' ∧ s.Completed s' o ∧ (∀ d ∈ s'.copies, d.id ≠ c.id) ∧
      (s'.channel c.team c.ch).queue = (s.channel c.team c.ch).queue.filter (· ≠ c.id) ∧
      (∀ y ∈ s'.owned, y.2 ≠ c.id) ∧
      (s'.channel c.team c.ch).fault =
        (let at' := fun (r : BitVec 7) => r ++ c.failAddr.extractLsb' 0 57
         if st = 2 then 0x0B#7 ++ 0#57 else if st = 3 then at' (BitVec.ofNat 7 c.reason) else if st = 4 then at' 0x0A
         else (s.channel c.team c.ch).fault) ∧
      (s'.thread o.who).slices = slicesSet (s.thread o.who).slices f.d.start.toNat f.d.w.bits
        (st + 2 ^ 8 * c.ch.toNat + 2 ^ 16 * min ((c.done + 63) / 64) 0xFFFF))

/-- R225, R226, R233, R235, R236: BINIT, BARR, BEXP and BTEST name their object and are left incomplete, and so is BWAIT
where the phase of its parity has ended or the object is malformed. Where it has not, or the object lies on a peer, the
thread begins to wait at its BWAIT, and it stands there until a flip of the phase, or the peer's answer, releases it; then
it is left incomplete with the word of an ended phase. -/
def Obligations.BarrierInstructionsIssue : Prop :=
  ∀ (f : CopyF) (s s₂ : State) (t : TRef) (q : BarRef),
    let x := s.thread t
    let a := s.opnd32 t f.a
    let b := s.opnd32 t f.b
    let c := s.barOpnd t f
    (∀ i ∈ [Instr.binit f, .barr f, .bexp f],
      let r := s.issuedOp t i f.toCommon a b c 0
      s.Alone t i f.toCommon → r.2.nameObject (r.2.opCtx r.1) t.team f .rmw c = (.ok q, s₂) →
      ∃ s' o, exec i s = .next s' ∧ s'.thread t = x.started f.toCommon ∧ o ∈ s'.ops ∧
        (∃ n, o.StartedIn s t i f.toCommon a b c n) ∧ o.obj = q ∧ o.phase = .pending) ∧
    (∀ wait : Bool,
      let i := if wait then Instr.bwait f else Instr.btest f
      let r := s.issuedOp t i f.toCommon a 0 c 0
      s.Alone t i f.toCommon →
      (wait = true → x.bwait = none ∧ s.bwaitObj t f = .ok q ∧ q.peer = false ∧ s.objOwned q = false ∧
        ((objOf (s.objSeen (s.coreOf t) q)).malformed = true ∨ (objOf (s.objSeen (s.coreOf t) q)).phase ≠ a.testBit 8)) →
      r.2.nameObject (r.2.opCtx r.1) t.team f .read c = (.ok q, s₂) →
      ∃ s' o, exec i s = .next s' ∧ s'.thread t = x.started f.toCommon ∧ o ∈ s'.ops ∧
        (∃ n, o.StartedIn s t i f.toCommon a 0 c n) ∧ o.obj = q ∧ o.phase = .pending) ∧
    (s.Alone t (.bwait f) f.toCommon → s.bwaitObj t f = .ok q →
      let m := objOf (s.objSeen (s.coreOf t) q)
      (x.bwait = none → (q.peer = true ∨ s.objOwned q = true ∨ (m.malformed = false ∧ m.phase = a.testBit 8)) →
        ∃ s', exec (.bwait f) s = .next s' ∧ s'.ops = s.ops ∧
          s'.thread t = { x with bwait := some ⟨x.pc, q, a.testBit 8, false, q.peer, 0⟩ }) ∧
      (∀ z, x.bwait = some z → z.pc = x.pc → z.obj = q → z.released = false → z.asked = q.peer →
        (q.peer = true ∨ s.objOwned q = true ∨ (m.malformed = false ∧ m.phase = a.testBit 8)) →
        exec (.bwait f) s = .next s) ∧
      (∀ z, x.bwait = some z → z.pc = x.pc → z.obj = q → z.released = true →
        let m := objOf (if q.peer = true then z.value else s.objSeen (s.coreOf t) q)
        ∃ s' o, exec (.bwait f) s = .next s' ∧ s'.thread t = x.started f.toCommon ∧ o ∈ s'.ops ∧
          o.StartedIn s t (.bwait f) f.toCommon a 0 c 0 ∧ o.phase = .result ∧
          o.data = [if m.malformed then 3 else 2 ^ 8 * m.phase.toNat + 2 ^ 9 * m.overrun.toNat + 2 ^ 10]))

/-- R74, R91, R234, R235, R236: BARRIER_UPDATE_COMPLETE on a well-formed object of this device, alone and outside a deterministic
or recorded launch: BINIT sets arrivals, reload and bytes and clears the overrun bit; BEXP adds to the pending bytes, and is
FAULTED where they would pass 2^32 - 1; BARR counts arrivals, ends the phase when nothing is pending, and a surplus sets the
overrun bit, ends the phase and traps BARRIER_OVERRUN with .ovt. BWAIT and BTEST write the word that they read. -/
def Obligations.BarrierUpdates : Prop :=
  ∀ (s : State) (o : Op) (f : CopyF) (arrivals reload bytes a b : BitVec 32) (phase ovf : Bool),
    let object := fun (arrivals reload bytes : BitVec 32) (phase ovf : Bool) =>
      (0#30 ++ BitVec.ofBool ovf ++ BitVec.ofBool phase ++ bytes ++ reload ++ arrivals : BitVec 128)
    let run := exec (.barrierUpdateComplete o.id) s
    let d := fun (v : Nat) => slicesSet (s.thread o.who).slices f.d.start.toNat f.d.w.bits v
    let word := fun (p v : Bool) => 2 ^ 8 * p.toNat + 2 ^ 9 * v.toNat
    s.HasOp o → o.clobber = 0 → (s.thread o.who).trap = none →
    (∀ v, o.phase = .result → o.data = [v] → o.instr ∈ [.bwait f, .btest f] →
      ∃ s', run = .next s' ∧ s.Completed s' o ∧ (s'.thread o.who).slices = d v) ∧
    (o.phase = .pending → s.barrierDue o = true → o.obj.peer = false →
      BitVec.ofNat 128 (s.objSeen (s.coreOf o.who) o.obj) = object arrivals reload bytes phase ovf →
      (o.instr = .btest f → ∃ s', run = .next s' ∧ s.Completed s' o ∧
        (s'.thread o.who).slices = d (word phase ovf + 2 ^ 10 * (phase != o.a.testBit 8).toNat)) ∧
      (o.instr = .bwait f → ∃ s', run = .next s' ∧ s.Completed s' o ∧
        (s'.thread o.who).slices = d (word phase ovf + 2 ^ 10))) ∧
    (o.phase = .pending → s.barrierDue o = true → s.armed = [] → s.MemOk →
      (∀ w, bit (s.world w).dbmctl.toNat 0 = false) → s.deterministic (s.team o.who.team).launch = false →
      s.log? (s.team o.who.team).launch = none →
      (∀ l, o.obj = .mem l → ∀ j < 16, (l.add j).isLocal = true) →
      (∀ n k, o.obj = .tile n k → ∃ y, s.tile? n = some y ∧ (y.lines.map (·.1)).Pairwise (· < ·)) →
      o.a = a.toNat → o.b = b.toNat → BitVec.ofNat 128 (s.objGet o.obj) = object arrivals reload bytes phase ovf →
      (o.instr = .binit f → a ≠ 0 →
        ∃ s', run = .next s' ∧ s.Completed s' o ∧ (s'.thread o.who).slices = d (word phase false) ∧
          BitVec.ofNat 128 (s'.objGet o.obj) = object a a b phase false) ∧
      (o.instr = .bexp f → bytes.toNat + a.toNat < 2 ^ 32 →
        ∃ s', run = .next s' ∧ s.Completed s' o ∧ (s'.thread o.who).slices = d (word phase ovf) ∧
          BitVec.ofNat 128 (s'.objGet o.obj) = object arrivals reload (bytes + a) phase ovf) ∧
      (o.instr = .bexp f → 2 ^ 32 ≤ bytes.toNat + a.toNat →
        ∃ s', run = .next s' ∧ s.Completed s' o ∧ (s'.thread o.who).slices = d (3 + word phase ovf) ∧
          s'.objGet o.obj = s.objGet o.obj) ∧
      (o.instr = .barr f → a ≤ arrivals → (arrivals ≠ a ∨ bytes ≠ 0) →
        ∃ s', run = .next s' ∧ s.Completed s' o ∧ (s'.thread o.who).slices = d (word phase ovf) ∧
          BitVec.ofNat 128 (s'.objGet o.obj) = object (arrivals - a) reload bytes phase ovf) ∧
      (o.instr = .barr f → a = arrivals → bytes = 0 →
        ∃ s', run = .next s' ∧ s.Completed s' o ∧ (s'.thread o.who).slices = d (word phase ovf) ∧
          BitVec.ofNat 128 (s'.objGet o.obj) = object reload reload 0 (!phase) ovf) ∧
      (o.instr = .barr f → arrivals < a →
        ∃ s', run = .next s' ∧ s.Completed s' o ∧ (s'.thread o.who).slices = d (word phase true) ∧
          BitVec.ofNat 128 (s'.objGet o.obj) = object reload reload 0 (!phase) true ∧
          (s'.thread o.who).trap = if f.dir then some ⟨0x19, 0, o.pc, o.pc + 16, 0, false⟩ else none)) ∧
    (∀ (q : BarRef) (z : Armed), s.armed = [z] → z.trigger = q → z.copy.team = z.team → z.copy.ch = z.ch →
      z.parity = !(s.obj q).phase → (s.obj q).arrivals ≠ 0 →
      let r := s.count q true (s.obj q).arrivals
      (s.obj q).bytes = 0 → (s.obj q).reload < 2 ^ 32 →
      r.2.armed = [] ∧ (r.2.channel z.team z.ch).queue = (s.channel z.team z.ch).queue ++ [z.copy.id])

/-! ### Group 0x7 -/

/-- R243, R249, R251: MMA of a thread that joins a phase still open waits in a team MMA; a thread of a released team MMA issues,
with the fragments of A, B and C sampled. MMA_TEAM_COMPLETE writes, in each thread, the 16 sums over the 32 products with
the B rows of the lowest group, with their flags. -/
def Obligations.TeamProducts : Prop :=
  (∀ (f : MatF) (s : State) (t : TRef),
    let x := s.thread t
    let bitc : BitVec 16 := 1#16 <<< f.cr.toNat
    let r := (s.team t.team).cregs.getD f.cr.toNat ⟨0, false, 0⟩
    (∀ g p, s.Alone t (.mma f) f.toCommon → s.mmaOf t = some g → g.released = true → s.matHeld (s.worldOf t) f = false →
      s.matPair (s.worldOf t) f = some p → mmaOverlapOk f (8 * p.ea) (4 * p.eb) = true →
      mmaTop f p.ea p.eb ≤ (s.groupOf t).budget → (g.members.all fun m => mmaAgrees f m.2) = true →
      ∃ s' o, exec (.mma f) s = .next s' ∧ s'.thread t = { x.started f.toCommon with await := x.await &&& ~~~bitc } ∧
        o ∈ s'.ops ∧ o.StartedIn s t (.mma f) f.toCommon (s.readSlices t f.a.start (32 * p.ea))
          (s.readSlices t f.b.start (16 * p.eb)) (s.readSlices t f.c.start 512) x.fmode.toNat ∧
        o.lead = g.id ∧ o.phase = .queued) ∧
    (s.Alone t (.mma f) f.toCommon → s.mmaOf t = none → r.set.getLsbD t.gid = false → x.joins = false →
      ∃ s', exec (.mma f) s = .next s' ∧ s'.thread t = x.traps! 0x0B (f.cr.setWidth 8) 0) ∧
    (s.Alone t (.mma f) f.toCommon → s.mmaOf t = none → f.cr.toNat < (s.team t.team).cregs.length →
      (s.mmas.map (·.id)).Nodup →
      (∃ y ∈ s.teams, y.id = t.team) → r.set.getLsbD t.gid = true → x.await.getLsbD f.cr.toNat = false →
      t.gid < 32 → t.lane < 32 → r.signed.getLsbD (32 * t.gid + t.lane) = false →
      (∃ y ∈ s.threads, y.live = true ∧ y.id.team = t.team ∧ y.id ≠ t ∧ y.id.lane < 32 ∧ r.set.getLsbD y.id.gid = true ∧
        r.signed.getLsbD (32 * y.id.gid + y.id.lane) = false) →
      ∃ s' g, exec (.mma f) s = .next s' ∧ (s'.thread t).pc = x.pc ∧ s'.ops = s.ops ∧ g ∈ s'.mmas ∧
        (t, .mma f) ∈ g.members ∧ g.team = t.team ∧ g.cr = f.cr ∧ g.released = false ∧
        (s'.team t.team).cregs.getD f.cr.toNat ⟨0, false, 0⟩ =
          { r with signed := r.signed ||| (1#1024 <<< (32 * t.gid + t.lane)) })) ∧
  (∀ (s : State) (g : TeamMma) (f : TRef → MatF) (p : MatPair) (src : Nat),
    let os := s.mmaOps g
    s.mmas.find? (fun z => z.id = g.id) = some g → s.mmaDue g = true → (os.map (·.who)).Nodup →
    (∀ o ∈ os, o.instr = .mma (f o.who) ∧ o.clobber = 0 ∧ s.matPair (s.worldOf o.who) (f o.who) = some p ∧ s.HasOp o ∧
      src ≤ o.who.gid ∧ o.who.gid < 32) → (∃ o ∈ os, o.who.gid = src) →
    let row := fun (k : Nat) => (os.find? fun o => o.who.gid = src && o.who.lane = k).map (·.b)
    let cell := fun (o : Op) (j : Nat) => p.accumulate o.x (bits o.c (32 * j) 32) ((List.range 32).map fun k =>
      ⟨bits o.a (k * p.ea) p.ea, (row k).map fun b => bits b (j * p.eb) p.eb, []⟩)
    ∃ s', exec (.mmaTeamComplete g.id) s = .next s' ∧ (∀ z ∈ s'.mmas, z.id ≠ g.id) ∧ ∀ o ∈ os, s.Completed s' o ∧
      (s'.thread o.who).slices = slicesSet (s.thread o.who).slices (f o.who).d.start.toNat 512
        ((List.range 16).foldl (fun n j => n + (cell o j).1 * 2 ^ (32 * j)) 0) ∧
      (s'.thread o.who).fpflags =
        ((s.thread o.who).withFlags ((List.range 16).foldl (fun n j => n ||| (cell o j).2) 0)).fpflags)

/-- R243, R252, R253, R254, R259: TMMA whose formats pair and whose tiles fit is queued at the engine, and raises
FORMAT_SLOT or TILE_HANDLE otherwise; TMMA_COMPLETE, where no write has raced with it, adds the products of A and B to every
element of C. MFIN writes OK where no product of the team on its tile is incomplete, waits for those that are otherwise, and
completes with the last of them. -/
def Obligations.TileProducts : Prop :=
  (∀ (f : MatF) (s : State) (t : TRef),
    let x := s.thread t
    let sel := s.opnd32 t f.a
    let shape := fun (a b c : Tile) => decide (a.cols = b.rows) && decide (a.rows = c.rows) && decide (b.cols = c.cols)
    (s.Alone t (.tmma f) f.toCommon → s.matHeld (s.worldOf t) f = false →
      (s.matPair (s.worldOf t) f = none →
        ∃ s', exec (.tmma f) s = .next s' ∧ s'.thread t = x.traps! 0x1A 0 0) ∧
      (∀ p, s.matPair (s.worldOf t) f = some p → (p.kind = .real ∨ sel = 0) →
        (∀ e, s.product t.team f p sel shape = .error e →
          ∃ s', exec (.tmma f) s = .next s' ∧ s'.thread t = x.traps! 0x18 e 0) ∧
        (∀ y, s.product t.team f p sel shape = .ok y →
          ∃ s' o, exec (.tmma f) s = .next s' ∧ s'.thread t = x.started f.toCommon ∧ o ∈ s'.ops ∧
            o.StartedIn s t (.tmma f) f.toCommon sel 0 0 x.fmode.toNat ∧ o.phase = .queued ∧ o.tiles = y.ids))) ∧
    (∀ c, s.Alone t (.mfin f) f.toCommon → s.tileOf t.team f.hc = .ok c →
      let q := (s.ops.filter fun o => o.isProduct && o.who.team = t.team && o.tiles.getD 2 0 = c.id).map (·.id)
      (q = [] → ∃ s', exec (.mfin f) s = .next s' ∧ s'.thread t = x.finished f.toCommon 0) ∧
      (q ≠ [] → ∃ s' o, exec (.mfin f) s = .next s' ∧ s'.thread t = x.started f.toCommon ∧ o ∈ s'.ops ∧
        o.StartedIn s t (.mfin f) f.toCommon 0 0 0 0 ∧ o.phase = .result ∧ o.data = q))) ∧
  (∀ (s : State) (o : Op) (f : MatF) (y : Product) (p : MatPair),
    s.HasOp o → o.instr = .tmma f → o.isProduct = true → s.productBehind o = false → s.resident o.who.team = true →
    s.oldTiles o.id = [] → o.clobber = 0 → s.productNow o = some y → s.matPair (s.worldOf o.who) f = some p → y.c.ew = 32 →
    (y.c.lines.map (·.1)).Pairwise (· < ·) → y.a.poison = [] → y.b.poison = [] → y.c.poison = [] →
    (∀ z, y.sa = some z ∨ y.sb = some z → z.poison = []) →
    let word := 2 ^ 16 * min ((4 * y.c.rows * y.c.cols + 63) / 64) 0xFFFF
    let cells := fun (s' : State) => ∃ z, s'.tile? y.c.id = some z ∧ z.rows = y.c.rows ∧ z.cols = y.c.cols ∧
      ∀ i < y.c.rows, ∀ j < y.c.cols, z.elem i j = (p.accumulate o.x (y.c.elem i j) (y.terms i j)).1 % 2 ^ 32
    ((∀ m ∈ s.ops, ∀ g, m.instr ≠ .mfin g) →
      ∃ s', exec (.tmmaComplete o.id) s = .next s' ∧ s.Completed s' o ∧ cells s' ∧
        (s'.thread o.who).slices = slicesSet (s.thread o.who).slices f.d.start.toNat f.d.w.bits word) ∧
    (∀ m g, s.HasOp m → m.instr = .mfin g → m.data = [o.id] → m.x = 0 → m.clobber = 0 → m.who ≠ o.who →
      (∀ n ∈ s.ops, ∀ g, n.instr = .mfin g → n = m) →
      ∃ s', exec (.tmmaComplete o.id) s = .next s' ∧ s.Completed s' o ∧ s.Completed s' m ∧ cells s' ∧
        (s'.thread m.who).slices = slicesSet (s.thread m.who).slices g.d.start.toNat g.d.w.bits 0))

/-- R255, R256, R257, R258: TMMAC of a one-thread group whose phase is complete joins the rendezvous of its cluster grid of 64
teams; the rendezvous is met where all members name the same product, ends FAULTED where they do not, and CANCELLED where a
member's team has ended; TMMAC_COMPLETE, where no write has raced with it, adds to each member's block the products along its row
and column of the 8 by 8 arrangement, under the members' scales, and writes the status. -/
def Obligations.ClusterProducts : Prop :=
  (∀ (f : MatF) (s : State) (t : TRef) (p : MatPair) (y : Product),
    let x := s.thread t
    let bitc : BitVec 16 := 1#16 <<< f.cr.toNat
    let sel := s.opnd32 t f.a
    s.Alone t (.tmmac f) f.toCommon → (s.inSet t f.cr = true ∨ x.joins = true) → x.await.getLsbD f.cr.toNat = true →
    s.phaseOpen t f.cr = false → s.matHeld (s.worldOf t) f = false → s.matPair (s.worldOf t) f = some p →
    (p.kind = .real ∨ sel = 0) → s.product t.team f p sel tmmacShape = .ok y → (s.team t.team).cgrid = 64 →
    (∀ o ∈ s.ops, o.iss ≠ s.issue.id) →
    ∃ s' o z, exec (.tmmac f) s = .next s' ∧ s'.thread t = { x.started f.toCommon with await := x.await &&& ~~~bitc } ∧
      o ∈ s'.ops ∧ o.StartedIn s t (.tmmac f) f.toCommon sel x.fmode.toNat 0 (2 ^ t.lane) ∧ o.phase = .queued ∧
      o.tiles = y.ids ∧ z ∈ s'.tmmacs ∧ z.op = o.id ∧ z.team = t.team ∧ z.met = none ∧
      z.digest = s.tmmacDigest (s.worldOf t) f sel y) ∧
  (∀ (s : State) (x : Tmmac), s.tmmacs.find? (fun z => z.id = x.id) = some x → s.tmmacMeets x = true →
    let ms := (s.tmmacGrid x).filterMap fun m => m.bind fun m => s.tmmacOf m.id
    let gone := (s.tmmacGrid x).any s.tmmacGone
    ∃ s', exec (.tmmacRendezvous x.id) s = .next s' ∧
      (gone = false → (∀ y ∈ ms, y.digest = x.digest) → ∀ y ∈ ms, ∃ z ∈ s'.tmmacs, z = { y with met := some s.ids }) ∧
      (gone = true ∨ (∃ y ∈ ms, y.digest ≠ x.digest) → ∀ y ∈ ms, (∀ z ∈ s'.tmmacs, z.id ≠ y.id) ∧
        ∀ o f, s.HasOp o → o.id = y.op → o.instr = .tmmac f → o.clobber = 0 → s.ops.filter (fun q => q.lead = o.id) = [o] →
          bit o.x o.who.lane = true → (∀ m ∈ s.ops, ∀ g, m.instr ≠ .mfin g) → (s.ops.map (·.who)).Nodup →
          s.Completed s' o ∧ (s'.thread o.who).slices = slicesSet (s.thread o.who).slices f.d.start.toNat f.d.w.bits
            ((if gone = true then 2 else 3) + 2 ^ 26))) ∧
  (∀ (s : State) (g : Nat) (f : MatF) (p : MatPair),
    let os := (s.metMembers g).filterMap fun x => s.op? x.op
    let ps := os.filterMap s.productNow
    let sc := fun (z : Option Tile) (row i : Nat) => (z.map fun z => scaleValue (z.elem row i)).toList
    s.tmmacDue g = true → ps.length = 64 →
    (∀ o ∈ os, o.instr = .tmmac f ∧ s.matPair (s.worldOf o.who) f = some p) → (ps.map (·.c.id)).Nodup →
    (∀ y ∈ ps, y.old = [] ∧ y.c.ew = 32 ∧ (y.c.lines.map (·.1)).Pairwise (· < ·) ∧ y.a.poison = [] ∧ y.b.poison = [] ∧
      y.c.poison = [] ∧ ∀ z, y.sa = some z ∨ y.sb = some z → z.poison = []) →
    ∃ s', exec (.tmmacComplete g) s = .next s' ∧ (∀ x ∈ s'.tmmacs, x.met ≠ some g) ∧
      (∀ o ∈ os, ∀ q ∈ s'.ops, q.lead ≠ o.id) ∧
      (∀ n o y, os[n]? = some o → ps[n]? = some y → ∃ z, s'.tile? y.c.id = some z ∧
        ∀ i < y.c.rows, ∀ j < y.c.cols, z.elem i j = (p.accumulate o.b (y.c.elem i j) ((List.range 8).flatMap fun l =>
          match ps[8 * (n / 8) + l]?, ps[8 * l + n % 8]? with
          | some u, some v => (List.range u.a.cols).map fun k => ⟨u.a.elem i k, some (v.b.elem k j),
              sc u.sa 0 i ++ sc u.sa 1 k ++ sc v.sb 0 k ++ sc v.sb 1 j⟩
          | _, _ => [])).1 % 2 ^ 32) ∧
      ((∀ m ∈ s.ops, ∀ g, m.instr ≠ .mfin g) → (os.map (·.who)).Nodup →
        (∀ o ∈ os, s.HasOp o ∧ o.clobber = 0 ∧ s.ops.filter (fun q => q.lead = o.id) = [o] ∧ bit o.x o.who.lane = true) →
        ∀ o ∈ os, (s'.thread o.who).slices = slicesSet (s.thread o.who).slices f.d.start.toNat f.d.w.bits (2 ^ 26)))

/-! ### Group 0x8 -/

/-- R279, R280, R281, R283, R284, R285: FCVTI and FCVTO on a slot that holds a sheet convert at their issue and write at
FORMAT_OP_COMPLETE, with FP_EXCEPTION there where a flag traps; FQNT and FDQNT whose tiles fit are queued, and complete with
every element converted under its row and column scale codes, which FQNT also writes. A slot without a sheet or without the
rounding mode raises FORMAT_SLOT. -/
def Obligations.FormatConversions : Prop :=
  (∀ (f : FmtF) (s : State) (t : TRef),
    let x := s.thread t
    let sl := s.slot (s.worldOf t) f.f
    let h := sl.form
    (s.Alone t (.fcvti f) f.toCommon → sl.none? = false → slotOpndOk h.ew f.a = true →
      let v := h.input (x.ifl .slot) (s.slotOpnd t sl f.a)
      let r := if f.ty.isFloat then (if v.1.isNan then ((fmtOf f.ty).nan, 0) else (fmtOf f.ty).encode (x.effRm f.rm) (x.rfl f.ty) v.1)
        else toInteger (x.effRm f.rm) f.ty.bits f.ty.isSigned v.1
      ∃ s' o, exec (.fcvti f) s = .next s' ∧ s'.thread t = x.started f.toCommon ∧ o ∈ s'.ops ∧
        o.StartedIn s t (.fcvti f) f.toCommon 0 0 0 0 ∧ o.phase = .result ∧ o.data = [r.1, v.2 ||| r.2]) ∧
    (s.Alone t (.fcvto f) f.toCommon → sl.none? = false → h.offers (sl.effRm f.rm) = true → f.d.w = slotWd h.ew →
      let v := if f.ty.isFloat then s.fopnd t f.a f.ty
        else (FVal.ofInt (if f.ty.isSigned then sextN (s.operand t f.a f.ty) f.ty.bits else s.operand t f.a f.ty), 0)
      let r := h.encode (sl.effRm f.rm) sl.ob (x.rfl .slot) v.1
      ∃ s' o, exec (.fcvto f) s = .next s' ∧ s'.thread t = x.started f.toCommon ∧ o ∈ s'.ops ∧
        o.StartedIn s t (.fcvto f) f.toCommon 0 0 0 0 ∧ o.phase = .result ∧ o.data = [r.1, v.2 ||| r.2]) ∧
    (∀ quant : Bool, let i := if quant then Instr.fqnt f else Instr.fdqnt f
      ∀ src dst sc, s.Alone t i f.toCommon → sl.none? = false → (quant = true → h.offers (sl.effRm f.rm) = true) →
      s.quantTiles t.team f h.ew quant (s.opnd32 t f.a) = .ok (src, dst, sc) →
      ∃ s' o, exec i s = .next s' ∧ s'.thread t = x.started f.toCommon ∧ o ∈ s'.ops ∧
        o.StartedIn s t i f.toCommon (s.opnd32 t f.a) 0 0 x.fmode.toNat ∧ o.phase = .queued ∧
        o.tiles = [src.id, dst.id] ++ (sc.map (·.id)).toList) ∧
    (∀ i ∈ [Instr.fcvti f, .fcvto f, .fqnt f, .fdqnt f], s.Runs t i f.toCommon → s.issue.threads = [t] →
      (sl.none? = true ∨ (h.offers (sl.effRm f.rm) = false ∧ (i = .fcvto f ∨ i = .fqnt f))) →
      ∃ s', exec i s = .next s' ∧ s'.thread t = x.traps! 0x1A 0 0)) ∧
  (∀ (s : State) (o : Op) (f : FmtF) (v fl : Nat), s.HasOp o → o.clobber = 0 → o.instr ∈ [.fcvti f, .fcvto f] →
    o.phase = .result → o.data = [v, fl] → (s.thread o.who).trap = none →
    let x := s.thread o.who
    ∃ s', exec (.formatOpComplete o.id) s = .next s' ∧ s.Completed s' o ∧ (s'.thread o.who).fpflags = (x.withFlags fl).fpflags ∧
      (x.traps fl = false → (s'.thread o.who).slices = slicesSet x.slices f.d.start.toNat f.d.w.bits v) ∧
      (x.traps fl = true → (s'.thread o.who).slices = x.slices ∧
        (s'.thread o.who).trap = some ⟨0x0E, BitVec.ofNat 8 (fl % 64), o.pc, o.pc, 0, false⟩)) ∧
  (∀ (s : State) (o : Op) (f : FmtF) (src dst : Tile) (sc : Option Tile), s.HasOp o → o.clobber = 0 → o.phase = .queued →
    o.tiles = [src.id, dst.id] ++ (sc.map (·.id)).toList → s.tile? src.id = some src → s.tile? dst.id = some dst →
    (∀ t, sc = some t → s.tile? t.id = some t ∧ t.id ≠ dst.id ∧ t.id ≠ src.id ∧ t.ew = 8 ∧ t.poison = [] ∧ 2 ≤ t.rows ∧
      max src.rows src.cols ≤ t.cols ∧ (t.lines.map (·.1)).Pairwise (· < ·)) →
    src.id ≠ dst.id → src.rows = dst.rows → src.cols = dst.cols → src.poison = [] → dst.poison = [] →
    (dst.lines.map (·.1)).Pairwise (· < ·) → 1 ≤ dst.ew → s.oldTiles o.id = [] →
    let sl := s.slot (s.worldOf o.who) f.f
    let h := sl.form
    let word := 2 ^ 8 * f.f.toNat + 2 ^ 16 * min ((dst.footprint + 63) / 64) 0xFFFF
    let done := fun (s' : State) => s.Completed s' o ∧
      (s'.thread o.who).slices = slicesSet (s.thread o.who).slices f.d.start.toNat f.d.w.bits word
    (o.instr = .fqnt f →
      let v := fun (i j : Nat) => ((fmtOf f.ty).input (bit o.x (flushBit f.ty)) (src.elem i j)).1
      let rc := fun (i : Nat) => if f.subop = 2 then 127 else rowCode h.emax ((List.range src.cols).map (v i))
      let y := fun (i j : Nat) => (v i j).scaleBy (127 - (rc i : Int))
      let cc := fun (j : Nat) => if f.subop = 0 then colCode h.emax ((List.range src.rows).map fun i => y i j) else 127
      ∃ s' z, exec (.formatOpComplete o.id) s = .next s' ∧ done s' ∧ s'.tile? dst.id = some z ∧
        (∀ i < dst.rows, ∀ j < dst.cols, z.elem i j =
          (h.encode (sl.effRm f.rm) sl.ob (bit o.x (flushBit .slot + 1)) ((y i j).scaleBy (127 - (cc j : Int)))).1 % 2 ^ dst.ew) ∧
        (∀ t, sc = some t → ∃ u, s'.tile? t.id = some u ∧ (∀ i < src.rows, u.elem 0 i = rc i % 256) ∧
          ∀ j < src.cols, u.elem 1 j = cc j % 256)) ∧
    (o.instr = .fdqnt f →
      let scale := fun (row i : Nat) => match sc with | some t => t.elem row i | none => 127
      ∃ s' z, exec (.formatOpComplete o.id) s = .next s' ∧ done s' ∧ s'.tile? dst.id = some z ∧
        ∀ i < dst.rows, ∀ j < dst.cols,
          let r := scale 0 i
          let c := if f.subop = 0 then scale 1 j else 127
          let v := h.decode (src.elem i j)
          z.elem i j = (if r = 255 ∨ c = 255 ∨ v.isNan = true then (fmtOf f.ty).nan
            else ((fmtOf f.ty).encode f.rm (bit o.x (flushBit f.ty + 1)) (v.scaleBy ((r : Int) + c - 254))).1) % 2 ^ dst.ew))

/-- R263, R274, R275, R276, R278, R286, R287, R288, R289, R290: FLOAD queues a load of an aligned image at its slot; FLOAD.clr
ends at once on an Empty slot and starts a drain otherwise; FMODE starts a drain where its option word fits the sheet and is
FAULTED with reason 5 where it does not. FSTAT, FSTAT.hash and FSYNC read the slot's state, digest and generation. A verified
image starts the drain; the end of the drain and of the reconfiguration commit the swap with the next generation. -/
def Obligations.FormatSlots : Prop :=
  (∀ (f : FmtF) (s : State) (t : TRef), s.FreshOps →
    let x := s.thread t
    let w := s.worldOf t
    let sl := s.slot w f.f
    let a := BitVec.ofNat 64 (s.opnd64 t f.a)
    let word := fun (st : Nat) => st + 2 ^ 8 * f.f.toNat + 2 ^ 16 * (sl.gen.toNat % 2 ^ 16)
    (s.Alone t (.fload f) f.toCommon →
      (a.toNat % 128 ≠ 0 → ∃ s', exec (.fload f) s = .next s' ∧ s'.thread t = x.traps! 0x12 0 a) ∧
      (a.toNat % 128 = 0 → canonical a = false → ∃ s', exec (.fload f) s = .next s' ∧ s'.thread t = x.traps! 0x11 0 a) ∧
      (a.toNat % 128 = 0 → canonical a = true → s.slotJobs w f.f = [] →
        ∃ s' o j, exec (.fload f) s = .next s' ∧ s'.thread t = x.started f.toCommon ∧ o ∈ s'.ops ∧
          o.StartedIn s t (.fload f) f.toCommon a.toNat 0 0 0 ∧ o.phase = .queued ∧ s'.slotJobs w f.f = [j] ∧
          j.op = o.id ∧ j.kind = 0 ∧ j.stage = 0 ∧ j.addr = a ∧ j.domain = s.domainOf t)) ∧
    (s.slotJobs w f.f = [] → s.worldHere w = true → sl.pending = false → s.tmmacs = [] →
      (s.Alone t (.floadClr f) f.toCommon → sl.state = .empty →
        ∃ s', exec (.floadClr f) s = .next s' ∧ s'.thread t = x.finished f.toCommon (word 0) ∧ s'.slotJobs w f.f = []) ∧
      (s.Alone t (.floadClr f) f.toCommon → sl.state ≠ .empty →
        ∃ s' o j, exec (.floadClr f) s = .next s' ∧ s'.thread t = x.started f.toCommon ∧ o ∈ s'.ops ∧
          o.StartedIn s t (.floadClr f) f.toCommon 0 0 0 0 ∧ s'.slotJobs w f.f = [j] ∧ j.op = o.id ∧ j.kind = 1 ∧
          j.stage = 2 ∧ s'.slot w f.f = { sl with state := .draining }) ∧
      (s.Alone t (.fmode f) f.toCommon → (sl.state = .empty ∨ optionsOk sl.form (s.opnd32 t f.a) = false) →
        ∃ s', exec (.fmode f) s = .next s' ∧ s'.thread t = x.finished f.toCommon (word 3) ∧
          s'.slot w f.f = { sl with reason := 5 }) ∧
      (s.Alone t (.fmode f) f.toCommon → sl.state ≠ .empty → optionsOk sl.form (s.opnd32 t f.a) = true →
        ∃ s' o j, exec (.fmode f) s = .next s' ∧ s'.thread t = x.started f.toCommon ∧ o ∈ s'.ops ∧
          o.StartedIn s t (.fmode f) f.toCommon (s.opnd32 t f.a) 0 0 0 ∧ s'.slotJobs w f.f = [j] ∧ j.op = o.id ∧
          j.kind = 2 ∧ j.word = s.opnd32 t f.a ∧ j.stage = 2 ∧ s'.slot w f.f = { sl with state := .draining })) ∧
    (∀ hash : Bool, let i := if hash then Instr.fstatHash f else Instr.fstat f
      s.Alone t i f.toCommon →
      ∃ s' o, exec i s = .next s' ∧ s'.thread t = x.started f.toCommon ∧ o ∈ s'.ops ∧
        o.StartedIn s t i f.toCommon 0 0 0 0 ∧ o.phase = .result ∧
        o.data = [if hash then sl.digest.toNat % 2 ^ 64
          else (sl.gen ++ sl.reason ++ 0#5 ++ BitVec.ofBool sl.ob ++ sl.drm ++ BitVec.ofNat 2 sl.state.code ++
            (if sl.sheet = [] then 15#14
             else BitVec.ofNat 6 sl.form.ew ++ BitVec.ofNat 4 sl.form.rate ++ BitVec.ofNat 4 sl.form.cls) : BitVec 64).toNat]) ∧
    (s.Alone t (.fsync f) f.toCommon →
      ∃ s' o, exec (.fsync f) s = .next s' ∧ s'.thread t = x.started f.toCommon ∧ o ∈ s'.ops ∧
        o.StartedIn s t (.fsync f) f.toCommon 0 0 0 0 ∧ o.phase = .pending ∧
        o.data = (s.slotJobs w f.f).map (·.id))) ∧
  (∀ (s : State) (o : Op) (f : FmtF) (v : Nat), s.HasOp o → o.clobber = 0 →
    let d := fun (v : Nat) => slicesSet (s.thread o.who).slices f.d.start.toNat f.d.w.bits v
    (o.instr ∈ [.fstat f, .fstatHash f] → o.phase = .result → o.data = [v] →
      ∃ s', exec (.formatOpComplete o.id) s = .next s' ∧ s.Completed s' o ∧ (s'.thread o.who).slices = d v) ∧
    (o.instr = .fsync f → o.phase = .pending → (∀ j ∈ s.slotQ, j.id ∉ o.data) →
      ∃ s', exec (.formatOpComplete o.id) s = .next s' ∧ s.Completed s' o ∧
        (s'.thread o.who).slices = d (s.slot (s.worldOf o.who) f.f).gen.toNat)) ∧
  (∀ (s : State) (o : Op) (j : SlotJob) (f : FmtF), s.HasOp o → o.clobber = 0 → j.op = o.id →
    s.slotQ.find? (fun z => z.id = j.id) = some j → s.slotQ.filter (fun z => z.id = j.id) = [j] →
    s.slotJobs j.world j.f = [j] → s.worldHere j.world = true → s.tmmacs = [] →
    o.instr ∈ [.fload f, .floadClr f, .fmode f] →
    let w := j.world
    let sl := s.slot w j.f
    let ends := fun (s' : State) (st : Nat) (gen : BitVec 32) => s.Completed s' o ∧ s'.slotJobs w j.f = [] ∧
      (s'.thread o.who).slices = slicesSet (s.thread o.who).slices f.d.start.toNat f.d.w.bits
        (st + 2 ^ 8 * j.f.toNat + 2 ^ 16 * (gen.toNat % 2 ^ 16))
    (∀ ls s₁ ls₂ s₂, s.verifyDue j = true → sl.state = .empty → (∀ l ∈ ls₂, s₂.poisoned l = false ∧ s₂.broken l.line = false) →
      (let ctx : XCtx := { core := j.core, lane := none, world := w, domain := j.domain }
       let head := ls.map (s₁.seenByte j.core)
       let len := if imageLengthOk (imageLength head) = true then imageLength head else 128
       s.translateRun ctx .read j.addr 128 [] = (.inl ls, s₁) ∧ canonical (j.addr + BitVec.ofNat 64 (len - 1)) = true ∧
       s₁.translateRun ctx .read j.addr (len - 128) ls.reverse = (.inl ls₂, s₂)) →
      let bs := ls₂.map (s₂.seenByte j.core)
      match (s₂.verifyImage w bs).1 with
      | .ok d => ∃ s' y, exec (.imageVerifyDone j.id) s = .next s' ∧ s'.slotJobs w j.f = [y] ∧ y.stage = 2 ∧ y.digest = d ∧
          y.sheet = (bs.drop 0x80).take 128 ∧ s'.slot w j.f = { sl with state := .draining }
      | .refused _ why => ∃ s', exec (.imageVerifyDone j.id) s = .next s' ∧
          ends s' (if why = 2 ∨ why = 3 then 7 else if why = 8 then 4 else 3) sl.gen ∧
          s'.slot w j.f = { sl with reason := BitVec.ofNat 8 why }) ∧
    (s.drainDue w j.f = true →
      (j.kind = 0 → ∃ s' y, exec (.slotDrainDone w j.f.toNat) s = .next s' ∧ s'.slotJobs w j.f = [y] ∧ y = { j with stage := 3 } ∧
        s'.slot w j.f = { sl with state := .reconfiguring }) ∧
      (j.kind = 1 → ∃ s', exec (.slotDrainDone w j.f.toNat) s = .next s' ∧ ends s' 0 (sl.gen + 1) ∧
        s'.slot w j.f = { sl with state := .empty, sheet := [], digest := 0, drm := 0, ob := false, gen := sl.gen + 1 }) ∧
      (j.kind = 2 → ∃ s', exec (.slotDrainDone w j.f.toNat) s = .next s' ∧ ends s' 0 (sl.gen + 1) ∧
        s'.slot w j.f = { sl with state := .stable, drm := BitVec.ofNat 2 j.word, ob := j.word.testBit 2, gen := sl.gen + 1 })) ∧
    (j.stage = 3 → sl.state = .reconfiguring →
      let h := Sheet.ofNat (ofBytes j.sheet)
      ∃ s', exec (.slotReconfigDone w j.f.toNat) s = .next s' ∧
        ends s' (if s.stripsOk j.digest then 0 else 3) (sl.gen + 1) ∧
        s'.slot w j.f = if s.stripsOk j.digest then
            { sl with state := .stable, sheet := j.sheet, digest := j.digest, drm := BitVec.ofNat 2 h.drm, ob := h.dovf = 1,
                      gen := sl.gen + 1 }
          else { sl with state := .empty, sheet := [], digest := 0, drm := 0, ob := false, gen := sl.gen + 1, reason := 4 })) ∧
  (∀ (s : State) (w : Nat) (f : BitVec 3), s.reloadDue w f = true → s.slotJobs w f = [] →
    let x := s.slot w f
    ∃ s', exec (.slotReload w f.toNat) s = .next s' ∧ s'.slot w f = if s.stripsOk x.digest then { x with state := .stable }
      else { x with state := .empty, sheet := [], digest := 0, drm := 0, ob := false, gen := x.gen + 1 })

/-! ### Group 0x9 -/

namespace Sys2Proof.Machine

/-- Nothing but operation o completes with it. -/
def State.Sole (s : State) (o : Op) : Prop := s.HasOp o ∧ o.clobber = 0 ∧ s.ops.filter (fun p => p.lead = o.id) = [o]

end Sys2Proof.Machine

/-- R294, R295, R296, R297, R301: SPAWN checks its entry and its argument slices, samples the arguments, and is placed in a lay-by
of its cluster at SPAWN_ENGINE_COMPLETE or SPAWN_PLACEMENT; LAYBY_TIMER_EXPIRY forms a lay-by's entries, and
FORMED_GROUP_START starts them on a core as a team of one group. -/
def Obligations.Spawning : Prop :=
  (∀ (f : SpawnF) (s : State) (t : TRef), s.Alone t (.spawn f) f.toCommon →
    let x := s.thread t
    let a := BitVec.ofNat 64 (s.opnd64 t f.a)
    let c := 2 * f.nargs.toNat
    let off := s.deterministic (s.team t.team).launch = true ∨ bits (s.launchRec (s.team t.team).launch) 672 16 = 0
    (a.toNat % 16 ≠ 0 → ∃ s', exec (.spawn f) s = .next s' ∧ s'.thread t = x.traps! 0x12 0 0) ∧
    (a.toNat % 16 = 0 → codeCanonical a = false → ∃ s', exec (.spawn f) s = .next s' ∧ s'.thread t = x.traps! 0x11 0 0) ∧
    (a.toNat % 16 = 0 → codeCanonical a = true →
      ((s.groupOf t).budget < f.b.start + c → ∃ s', exec (.spawn f) s = .next s' ∧ s'.thread t = x.traps! 0x05 0 0) ∧
      (f.b.start + c ≤ (s.groupOf t).budget →
        ∃ s' o, exec (.spawn f) s = .next s' ∧ s'.thread t = x.started f.toCommon ∧ o ∈ s'.ops ∧
          o.StartedIn s t (.spawn f) f.toCommon a.toNat 0 0 0 ∧
          (off → o.phase = .result ∧ o.data = [3]) ∧
          (¬ off → o.phase = .pending ∧ o.data = (List.range c).map fun i => s.readSlices t (f.b.start + i) 4)))) ∧
  (∀ (f : SpawnF) (s : State) (o : Op), s.HasOp o → o.clobber = 0 → o.instr = .spawn f →
    let d := fun (n : Nat) => slicesSet (s.thread o.who).slices f.d.start.toNat f.d.w.bits (2 ^ 16 * n)
    let p : Placement := ⟨BitVec.ofNat 64 o.a, f.b.start, 2 * f.nargs.toNat, packNibbles o.data, o.iss⟩
    let launch := (s.team o.who.team).launch
    let mine := fun (l : Layby) => l.cluster = s.clusterOf o.who ∧ l.world = s.worldOf o.who ∧ l.domain = o.domain ∧
      l.launch = launch ∧ l.entry = BitVec.ofNat 64 o.a
    (∀ i ∈ [Instr.spawnEngineComplete o.id, .spawnPlacement (s.clusterOf o.who)],
      (i = .spawnEngineComplete o.id → o.phase = .pending ∧ s.spawnDue o = true ∧ s.arrivals = []) →
      (i = .spawnPlacement (s.clusterOf o.who) → s.shedNext (s.clusterOf o.who) = none ∧
        (s.waitingIn (s.clusterOf o.who)).head? = some (.spawn o.id)) →
      s.laybys = [] →
      ∃ s' l, exec i s = .next s' ∧ s.Completed s' o ∧ (s'.thread o.who).slices = d 0 ∧ s'.laybys = [l] ∧ mine l ∧
        l.number = some 0 ∧ l.waiting = [p] ∧ l.deadline = s.clock + s.laybyTimer launch) ∧
    (∀ l n, o.phase = .pending → s.spawnDue o = true → s.arrivals = [] → s.laybys = [l] → mine l → l.number = some n → l.saved = false →
      l.waiting.length < 31 →
      ∃ s', exec (.spawnEngineComplete o.id) s = .next s' ∧ s.Completed s' o ∧
        (s'.thread o.who).slices = d (32 * n + l.waiting.length) ∧ s'.laybys = [{ l with waiting := l.waiting ++ [p] }])) ∧
  (∀ (s : State) (l : Layby) (n : Nat), s.laybys = [l] → l.number = some n → s.timerDue l = true →
    ∃ s' g, exec (.laybyTimerExpiry l.cluster n) s = .next s' ∧ s'.laybys = [] ∧ s'.formed = s.formed ++ [g] ∧
      g.entries = l.waiting ∧ g.entry = l.entry ∧ g.launch = l.launch ∧ g.number = n ∧ g.cluster = l.cluster ∧
      g.world = l.world ∧ g.domain = l.domain) ∧
  (∀ (s : State) (g : Formed) (l : Launch) (core quad : Nat), s.formed.find? (fun z => z.id = g.id) = some g →
    s.formedRoom g core = some (l, quad) → (∀ y ∈ s.threads, y.id.team < s.ids) → (∀ y ∈ s.groups, y.team < s.ids) →
    (∀ y ∈ s.teams, y.id < s.ids) →
    let stack := l.stackBytes + l.spillBytes
    ∃ s', exec (.formedGroupStart g.id core) s = .next s' ∧ (∀ z ∈ s'.formed, z.id ≠ g.id) ∧
      (let m := s'.team s.ids
       m.formed = true ∧ m.launch = l.id ∧ m.core = core ∧ m.world = g.world ∧ m.team = BitVec.allOnes 64) ∧
      (let y := s'.group s.ids 0
       y.quad = quad ∧ y.domain = g.domain ∧ y.budget = l.budgetC ∧
         y.k = BitVec.ofNat 2048 (g.entries.length + 2 ^ 32 * g.number)) ∧
      ∀ i e, g.entries[i]? = some e →
        let y := s'.thread ⟨s.ids, 0, i⟩
        let a := BitVec.ofNat 64 (l.rec_ 608 64 + (32 * (g.form % l.rec_ 672 16) + i) * stack)
        y.live = true ∧ y.pc = g.entry ∧ y.stklim = a ∧ y.sp = a + BitVec.ofNat 64 l.stackBytes ∧ y.base = y.sp ∧
          y.retbase = y.sp ∧ y.retlim = y.sp + BitVec.ofNat 64 l.spillBytes ∧ y.preds = 0 ∧ y.fpflags = 0 ∧
          y.slices = BitVec.ofNat 4096 (ofBytes e.bytes % 2 ^ (4 * e.count)) <<< (4 * e.first))

/-- R302, R303, R304, R305, R306: the instructions of work lists whose header and control line are mapped name their set and are
left incomplete; WPUT appends an item, WTAKE takes the oldest, QIDLE marks the list of its logical core idle, QTEST reads
the set; QUIESCENCE_CLOSE closes a set whose lists are idle and empty, and then WTAKE, QIDLE and QTEST answer QUIESCENT. -/
def Obligations.WorkLists : Prop :=
  (∀ (f : SpawnF) (s s₁ s₂ s₃ : State) (t : TRef) (l k : Loc) (n cap : Nat),
    ∀ e ∈ [(Instr.wput f, true), (.wtake f, true), (.qidle f, false), (.qtest f, false)],
    let i := e.1
    let put := i = .wput f
    let a := s.opnd64 t f.a
    let w := BitVec.ofNat 64 a
    let b := if put then s.opnd32 t f.b else 0
    let c := if put then s.opnd64 t f.c else 0
    let r := s.issuedOp t i f.toCommon a b c 0
    let j := if put then b else (s.team t.team).lcore
    let ctl := w + BitVec.ofNat 64 (128 * (1 + j))
    s.Alone t i f.toCommon → s.FreshOps →
    s.deterministic (s.team t.team).launch = false → canonical w = true → a % 128 = 0 →
    r.2.translate (r.2.opCtx r.1) .read w = (.ok l, s₁) → l.isLocal = true → s₁.ownedLine l.line = false →
    s₁.poisoned l = false →
    listHeader (ofBytes ((List.range 128).map fun m => s₁.seenByte (s.coreOf t) (l.add m))) = some (n, cap) →
    s₁.nameSet r.1 l n cap = some s₂ →
    (e.2 = true → j < n ∧ canonical ctl = true ∧ s₂.translate (s₂.opCtx r.1) .rmw ctl = (.ok k, s₃) ∧ k.isLocal = true ∧
      s₃.poisoned k = false) →
    ∃ s' o, exec i s = .next s' ∧ s'.thread t = (s.thread t).started f.toCommon ∧ o ∈ s'.ops ∧
      o.StartedIn s t i f.toCommon a b c 0 ∧ o.lead = o.id ∧ o.phase = .pending ∧ o.locs = (if e.2 then [l, k] else [l]) ∧
      ∃ x ∈ s'.sets, x.addr = l) ∧
  (∀ (f : SpawnF) (s : State) (o : Op) (l k : Loc) (x : WorkSet), s.Sole o → s.spawnDue o = true → o.phase = .pending →
    (o.locs = [l, k] ∨ (o.locs = [l] ∧ (o.instr = .qidle f ∨ o.instr = .qtest f))) → k.isLocal = true →
    s.setAt l = some x → (∀ y ∈ s.sets, y.id = x.id → y = x) → s.log? (s.team o.who.team).launch = none →
    let run := exec (.spawnEngineComplete o.id) s
    let d := fun (v : Nat) => slicesSet (s.thread o.who).slices f.d.start.toNat f.d.w.bits v
    let ends := fun (s' : State) (v : Nat) => run = .next s' ∧ s.Completed s' o ∧ (s'.thread o.who).slices = d v
    let head := s.memNat k 8
    let tail := s.memNat (k.add 8) 8
    let count := (BitVec.ofNat 64 tail - BitVec.ofNat 64 head).toNat
    let place := fun (i p : Nat) => BitVec.ofNat 64 o.a + BitVec.ofNat 64 (128 * (1 + x.lists) + 8 * x.cap * i + 8 * (p % x.cap))
    (o.instr = .wput f →
      (x.closed = true → ∃ s', ends s' 3) ∧
      (x.closed = false → x.cap ≤ count → ∃ s', ends s' 2) ∧
      (∀ m s₁, x.closed = false → count < x.cap → canonical (place o.b tail) = true →
        s.translate (s.opCtx o) .write (place o.b tail) = (.ok m, s₁) → s.MemOk → s₁.MemOk →
        (∀ w, bit (s.world w).dbmctl.toNat 0 = false) → (∀ q < 8, (m.add q).isLocal = true ∧ (k.add (8 + q)).isLocal = true) →
        (m.addr + 8 ≤ k.addr + 8 ∨ k.addr + 16 ≤ m.addr) → tail + 1 < 2 ^ 64 → count + 1 < 2 ^ 64 →
        s₁.ownedLine m.line = false →
        ∃ s', ends s' (2 ^ 16 * min (count + 1) 0xFFFF) ∧ s'.memNat m 8 = o.c % 2 ^ 64 ∧ s'.memNat (k.add 8) 8 = tail + 1 ∧
          ∀ y ∈ s'.sets, y.id = x.id → o.b ∉ y.idle)) ∧
    (o.instr = .wtake f →
      let i := (s.team o.who.team).lcore
      (x.closed = true → ∃ s', ends s' (2 ^ 64 * 10)) ∧
      (x.closed = false → count = 0 → ∃ s', ends s' (2 ^ 64 * 2)) ∧
      (∀ m s₁, x.closed = false → count ≠ 0 → canonical (place i head) = true →
        s.translate (s.opCtx o) .read (place i head) = (.ok m, s₁) → s₁.MemOk → m.isLocal = true →
        s₁.ownedLine m.line = false → s₁.poisoned m = false →
        (∀ w, bit (s.world w).dbmctl.toNat 0 = false) → (∀ q < 8, (k.add q).isLocal = true) → head + 1 < 2 ^ 64 →
        ∃ s', ends s' (s₁.memNat m 8 + 2 ^ 64 * (2 ^ 16 * min (count - 1) 0xFFFF)) ∧ s'.memNat k 8 = head + 1 ∧
          ∀ y ∈ s'.sets, y.id = x.id → i ∉ y.idle)) ∧
    (o.instr = .qidle f →
      let i := (s.team o.who.team).lcore
      (x.closed = true → ∃ s', ends s' 10) ∧
      (x.closed = false → x.lists ≤ i → ∃ s', ends s' 3) ∧
      (x.closed = false → i < x.lists → ∃ s', ends s' 0 ∧ ∀ y ∈ s'.sets, y.id = x.id → i ∈ y.idle)) ∧
    (o.instr = .qtest f →
      (x.closed = true → ∃ s', ends s' 10) ∧
      (x.closed = false → ∃ s', ends s' (2 ^ 16 * min (x.lists - x.idle.length) 0xFFFF)))) ∧
  (∀ (s : State) (x : WorkSet), s.sets.find? (fun z => z.id = x.id) = some x → s.setQuiet x = true →
    s.deterministic x.launch = false →
    ∃ s', exec (.quiescenceClose x.id) s = .next s' ∧ ∀ y ∈ s'.sets, y.id = x.id → y.closed = true)

/-- R307, R308, R380, R381: LAUNCH reads a well-formed record from its line and enqueues it on an enabled device-side queue under
the next ticket, or is CANCELLED where the queue takes none; LWAIT answers the status of an ended launch with its ticket, and
stands while the launch has not ended. -/
def Obligations.LaunchInstructions : Prop :=
  (∀ (f : SpawnF) (s : State) (t : TRef),
    let x := s.thread t
    let a := BitVec.ofNat 64 (s.opnd64 t f.a)
    (s.Alone t (.launch f) f.toCommon → s.FreshOps →
      (a.toNat % 128 ≠ 0 →
        ∃ s', exec (.launch f) s = .next s' ∧ s'.ops = s.ops ∧ (s'.thread t).trap = some ⟨0x12, 0, x.pc, x.pc, a, false⟩) ∧
      (a.toNat % 128 = 0 → canonical a = false →
        ∃ s', exec (.launch f) s = .next s' ∧ s'.ops = s.ops ∧ (s'.thread t).trap = some ⟨0x11, 0, x.pc, x.pc, a, false⟩) ∧
      (∀ l s₁, a.toNat % 128 = 0 → canonical a = true →
        (let r := s.issuedOp t (.launch f) f.toCommon a.toNat 0 0 0
         r.2.translate (r.2.opCtx r.1) .read a = (.ok l, s₁)) → l.isLocal = true → s₁.ownedLine l.line = false →
        s₁.poisoned l = false →
        let r := ofBytes ((List.range 128).map fun i => s₁.seenByte (s.coreOf t) (l.add i))
        let good := (Launch.of 0 0 0 0 (BitVec.ofNat 1024 r)).recordOk
        ∃ s' o, exec (.launch f) s = .next s' ∧ s'.thread t = x.started f.toCommon ∧ o ∈ s'.ops ∧
          o.StartedIn s t (.launch f) f.toCommon a.toNat 0 0 0 ∧ (good = true → o.phase = .pending ∧ o.data = [r]) ∧
          (good = false → o.phase = .result ∧ o.data = [3]))) ∧
    (let ticket := (BitVec.ofNat 32 (s.opnd32 t f.a)).extractLsb' 16 16
     (∀ st, s.Alone t (.lwait f) f.toCommon → s.lwaitStatus t f.queue.toNat ticket = some st →
       ∃ s' o, exec (.lwait f) s = .next s' ∧ s'.thread t = x.started f.toCommon ∧ o ∈ s'.ops ∧
         o.StartedIn s t (.lwait f) f.toCommon 0 0 0 0 ∧ o.phase = .result ∧ o.data = [st + 2 ^ 16 * ticket.toNat]) ∧
     (s.Runs t (.lwait f) f.toCommon → s.issue.threads = [t] → s.lwaitStatus t f.queue.toNat ticket = none →
       exec (.lwait f) s = .next s))) ∧
  (∀ (f : SpawnF) (s : State) (o : Op) (r : Nat), s.HasOp o → o.clobber = 0 →
    let w := s.worldOf o.who
    let q := s.queue w f.queue.toNat
    let d := fun (v : Nat) => slicesSet (s.thread o.who).slices f.d.start.toNat f.d.w.bits v
    (o.instr = .launch f → o.phase = .pending → o.data = [r] → s.spawnDue o = true →
      let takes := q.cfg.getLsbD 0 && q.cfg.getLsbD 2 && decide (s.devPending w f.queue.toNat < 64)
      (takes = true → ∃ s', exec (.spawnEngineComplete o.id) s = .next s' ∧ s.Completed s' o ∧
        (s'.thread o.who).slices = d (2 ^ 16 * q.ticket.toNat) ∧
        s'.queued = s.queued ++ [⟨w, f.queue.toNat, q.ticket, false, BitVec.ofNat 1024 r, o.domain⟩] ∧
        (s'.queue w f.queue.toNat).ticket = q.ticket + 1) ∧
      (takes = false → ∃ s', exec (.spawnEngineComplete o.id) s = .next s' ∧ s.Completed s' o ∧
        (s'.thread o.who).slices = d 2 ∧ s'.queued = s.queued)) ∧
    (o.instr ∈ [.spawn f, .wput f, .wtake f, .launch f, .lwait f] → o.phase = .result → o.data = [r] →
      ∃ s', exec (.spawnEngineComplete o.id) s = .next s' ∧ s.Completed s' o ∧ (s'.thread o.who).slices = d r))

/-! ### The dispatcher -/

namespace Sys2Proof.Machine

/-- What queue q of world w keeps of the launch with a ticket: its status (R308, R380). -/
def State.endedWith (s : State) (w q : Nat) (ticket : BitVec 16) (st : Nat) : Prop :=
  (s.queue w q).ended.find? (fun e => e.1 = ticket) = some (ticket, st)

/-- Neither teams, groups nor threads have a name that is still to be given. -/
def State.FreshTeams (s : State) : Prop :=
  (∀ x ∈ s.threads, x.id.team < s.ids) ∧ (∀ x ∈ s.groups, x.team < s.ids) ∧ ∀ x ∈ s.teams, x.id < s.ids

end Sys2Proof.Machine

/-- R381, R382, R384, R385, R386, R387, R388, R389, R390: DISPATCH_LAUNCH takes the oldest record of a queue that is served; a
malformed record ends FAULTED, a well-formed one whose checks pass and that depends on nothing runs, and an impossible shape
ends with its status; with nothing to take, a starved launch starts the ladder on the victim. DEPENDENCE_MET marks a met
dependence. TEAM_RESIDENCE starts the next team on a core. LAUNCH_END writes the completion record and its status. -/
def Obligations.LaunchDispatch : Prop :=
  (∀ (s : State) (w q : Nat) (e : QEntry) (rest : List QEntry), s.takeDue w q = true → s.activeIn w q = none →
    s.pendingIn w q = e :: rest → (∀ x ∈ s.launches, x.id < s.ids) →
    let mine := Launch.of s.ids w q e.ticket e.record
    let r := exec (.dispatchLaunch w q) s
    (e.host = false → mine.recordOk = false →
      ∃ s', r = .next s' ∧ s'.queued = s.queued.erase e ∧ (s'.queue w q).last = 3 ∧ s'.endedWith w q e.ticket 3) ∧
    (∀ pa, e.host = true →
      s.stage2 w ((s.queue w q).base + 128 * ((s.queue w q).head.toNat % 2 ^ (s.queue w q).lgn)) .read = .ok pa →
      s.poisoned ⟨false, pa⟩ = false →
      (Launch.of s.ids w q e.ticket (BitVec.ofNat 1024 (s.memNat ⟨false, pa⟩ 128))).recordOk = false →
      ∃ s', r = .next s' ∧ s'.queued = s.queued.erase e ∧ (s'.queue w q).head = (s.queue w q).head + 1 ∧
        (s'.queue w q).last = 3 ∧ s'.endedWith w q e.ticket 3) ∧
    (∀ kd args s₂ s₃, e.host = false → mine.recordOk = true →
      (s.world w).droot[mine.dom.toNat]?.any (fun x => x.getLsbD 0) = true → e.domain = mine.dom → mine.rec_ 276 2 = 0 →
      (let s₁ := { s with ids := s.ids + 1, queued := s.queued.erase e, launches := s.launches ++ [mine] }
       s₁.launchRead mine (BitVec.ofNat 64 (mine.rec_ 0 64)) 128 = .ok kd s₂) →
      s₂.launchRead mine (BitVec.ofNat 64 (mine.rec_ 64 64)) (4 * mine.rec_ 306 7 + mine.rec_ 313 9) = .ok args s₃ →
      let l := { mine with kd := BitVec.ofNat 1024 (ofBytes kd), args := args }
      ((l.descOk && l.agrees) = false → ∃ s', r = .next s' ∧ s'.endedWith w q e.ticket 3) ∧
      (l.descOk = true → l.agrees = true → (l.cgrid = 0 ∨ l.teamCount % l.cgrid = 0) →
        (s.shapeReason l = 5 → ∃ s', r = .next s' ∧ s'.endedWith w q e.ticket 9) ∧
        (s.shapeReason l = 6 → ∃ s', r = .next s' ∧ s'.endedWith w q e.ticket 8) ∧
        (s.shapeReason l = 0 → (∀ i < 4, bits (l.dep i) 62 2 = 0) →
          ∃ s', r = .next s' ∧ s'.launch? s.ids =
            some { l with state := .running, deps := [true, true, true, true], started := s.clock })))) ∧
  (∀ (s : State) (w q : Nat) (v : Launch), s.takeDue w q = false → s.victimDue w q = true → s.victim w = some v →
    s.launch? v.id = some v →
    ∃ s', exec (.dispatchLaunch w q) s = .next s' ∧ s'.launch? v.id = some { v with
      state := .soft, cause := 1, g1 := some (s.clock + ((s.partOf v.world).map (·.g1)).getD 0), g2 := none }) ∧
  (∀ (s s₁ : State) (n i : Nat) (l : Launch), s.launch? n = some l → s.depDue n i = true → l.rec_ 276 2 = 0 → i < 4 →
    l.deps.length = 4 →
    let x := s.queue l.world (bits (l.dep i) 57 4)
    let ticket := BitVec.ofNat 16 (bits (l.dep i) 0 16)
    let met := ∃ s', exec (.dependenceMet n i) s = .next s' ∧ s'.launch? n = some { l with
      deps := l.deps.set i true
      state := if (l.deps.set i true).all id then .running else .waiting
      started := if (l.deps.set i true).all id then s.clock else l.started }
    (bits (l.dep i) 62 2 = 2 → (x.recent ticket = false ∨ ∃ st, (ticket, st) ∈ x.ended) → met) ∧
    (∀ bs, bits (l.dep i) 62 2 = 1 →
      s.launchRead l (((BitVec.ofNat 64 (l.dep i)).extractLsb' 0 57).signExtend 64) 16 = .ok bs s₁ →
      (objOf (ofBytes bs)).phase ≠ bit (l.dep i) 61 → met)) ∧
  (∀ (s : State) (n core : Nat) (l : Launch) (p : Partition) (qs : List Nat), s.launch? n = some l → s.turnOf l = true →
    s.partOf l.world = some p → core ∈ s.usable p → l.cgrid = 0 → l.persistent = false →
    s.frameRoom l.world l.frame = true →
    s.roomFor core ((List.range l.teamGroups).map l.budgetOf) l.granules l.stageEntries = some qs → s.FreshTeams →
    let id := s.ids
    let stack := l.stackBytes + l.spillBytes
    ∃ s', exec (.teamResidence n core) s = .next s' ∧
      s'.launch? n = some { l with next := l.next + 1 } ∧
      (s'.partOf l.world).map (·.served) = some (l.world, l.queue) ∧
      (let m := s'.team id
       m.launch = l.id ∧ m.core = core ∧ m.index = l.next ∧ m.world = l.world ∧ m.place = .resident ∧ m.lap = 0 ∧
        m.griddim.toNat = l.rec_ 128 64 ∧ m.lcore = l.next % l.logicalCores) ∧
      (∀ g < l.teamGroups,
        let y := s'.group id g
        y.quad = qs.getD g 0 ∧ y.producer = decide (g < l.producers) ∧ y.budget = l.budgetOf g ∧ y.domain = l.dom ∧
          y.hdl = 0 ∧ y.gfp = 0 ∧ y.hash = 0) ∧
      ∀ i < l.teamThreads,
        let y := s'.thread ⟨id, i / 32, i % 32⟩
        let a := BitVec.ofNat 64 (l.rec_ 544 64 + (l.next * l.teamThreads + i) * stack)
        y.live = true ∧ y.pc = BitVec.ofNat 64 (l.desc 0 64) ∧ y.stklim = a ∧ y.base = a + BitVec.ofNat 64 l.stackBytes ∧
          y.sp = y.base ∧ y.retbase = y.base ∧ y.retlim = y.base + BitVec.ofNat 64 l.spillBytes ∧ y.preds = 0 ∧
          y.fmode = 0 ∧ y.fpflags = 0 ∧ y.ret = [] ∧ y.sb = 0 ∧ y.handler = false) ∧
  (∀ (s : State) (n : Nat) (l : Launch), s.launch? n = some l → s.endDue n = true →
    (∀ r t, l.state ≠ .stopped → l.fatal = some (r, t) → s.written l = true →
      ∃ s', exec (.launchEnd n) s = .next s' ∧ s'.endedWith l.world l.queue l.ticket 3 ∧
        ∀ x ∈ s'.threads, (s.team x.id.team).launch = n → x.live = false) ∧
    (l.state = .stopped → ∃ s', exec (.launchEnd n) s = .next s' ∧ s'.endedWith l.world l.queue l.ticket l.status) ∧
    (l.state ≠ .stopped → l.fatal = none → s.log? n = none →
      ∃ s', exec (.launchEnd n) s = .next s' ∧ s'.endedWith l.world l.queue l.ticket 0 ∧
        (∀ y ∈ s'.launches, y.id = n → y.state = .ended) ∧
        (l.rec_ 340 1 = 1 → (s'.world l.world).msix.getLsbD 1 = true) ∧
        ∀ p s₁, BitVec.ofNat 64 (l.rec_ 384 64) ≠ 0 →
          s.translateRun { core := 512, lane := none, world := l.world, domain := l.dom } .write
            (BitVec.ofNat 64 (l.rec_ 384 64)) 16 [] = (.inl ((List.range 16).map p.add), s₁) →
          (∀ i < 16, (p.add i).isLocal = true) → s₁.MemOk → (∀ w, bit (s.world w).dbmctl.toNat 0 = false) →
          s'.memNat p 16 =
            (l.ticket.toNat * 2 ^ 16 + l.queue * 2 ^ 32 + s.clock % 2 ^ 64 * 2 ^ 64) % 2 ^ 128))

/-! ### The ladder, time, and saved teams -/

/-- R394, R396, R397, R398, R399, R401, R403: G1_EXPIRY makes PREEMPT pending in every live thread of the victim's resident teams;
G2_EXPIRY kills it; LADDER_LAPSE withdraws PREEMPT; PSAVED parks its group in the grace stage and is CANCELLED outside it.
QUANTUM_EXPIRY, WORLD_SWITCH, TIME_CAP_REACHED and PERIOD_START move the worlds of a partition on in time. -/
def Obligations.PreemptionLadder : Prop :=
  (∀ (s : State) (n : Nat) (l : Launch), s.launch? n = some l →
    (s.g1Due n = true →
      ∃ s', exec (.g1Expiry n) s = .next s' ∧
        s'.launch? n = some { l with
          state := .grace, g1 := none, g2 := some (s.clock + ((s.partOf l.world).map (·.g2)).getD 0) } ∧
        (∀ m ∈ s.residentTeams n, ∀ t ∈ s.liveOfTeam m.id, (s'.thread t).async.any (fun r => r.code = 0x20) = true) ∧
        (∀ t, (∀ m ∈ s.residentTeams n, t ∉ s.liveOfTeam m.id) → s'.thread t = s.thread t) ∧
        ∀ t, { s'.thread t with async := [] } = { s.thread t with async := [] }) ∧
    (s.g2Due n = true →
      ∃ s', exec (.g2Expiry n) s = .next s' ∧ (s.written l = true → s'.endedWith l.world l.queue l.ticket 2) ∧
        (∀ x ∈ s'.threads, (s.team x.id.team).launch = n → x.live = false) ∧
        (∀ y ∈ s'.launches, y.id = n →
          y.state = (if s.written l then .ended else .stopped) ∧ y.status = 2 ∧ y.reason = 7) ∧
        ((s.world l.world).ringOn = true →
          ∃ f ∈ s'.faults, f.notice = true ∧ f.kind = 0x11 ∧ f.world = l.world ∧ f.queue = l.queue ∧ f.ticket = l.ticket)) ∧
    (s.lapseDue n = true →
      ∃ s', exec (.ladderLapse n) s = .next s' ∧
        s'.launch? n = some { l with state := .running, g1 := none, g2 := none, cause := 0 } ∧
        ∀ m ∈ s.residentTeams n,
          (∀ x ∈ s'.threads, x.id.team = m.id → x.async.any (fun r => r.code = 0x20) = false) ∧
            ∀ g ∈ s'.groups, g.team = m.id → g.parked = none)) ∧
  (∀ (f : SysF) (s : State) (t : TRef), s.Alone t (.psaved f) f.toCommon → t.lane < 32 →
    s.FreshOps →
    let lo := rangeSlice f.a
    let hi := rangeSlice f.b
    (s.inGrace t.team = false →
      ∃ s', exec (.psaved f) s = .next s' ∧ s'.thread t = (s.thread t).finished f.toCommon 2 ∧ s'.ops = s.ops) ∧
    (s.inGrace t.team = true → (∃ g ∈ s.groups, g.team = t.team ∧ g.gid = t.gid) →
      ∃ s' o, exec (.psaved f) s = .next s' ∧ s'.thread t = (s.thread t).started f.toCommon ∧ o ∈ s'.ops ∧
        o.StartedIn s t (.psaved f) f.toCommon lo hi 0 (2 ^ t.lane) ∧ o.phase = .queued ∧
        (s'.group t.team t.gid).parked = some (lo, hi))) ∧
  (∀ (s : State) (n : Nat) (p : Partition), s.part? n = some p →
    (s.quantumDue n = true →
      (s.nextWorld p = none →
        ∃ s', exec (.quantumExpiry n) s = .next s' ∧
          s' = s.setPart n fun x => { x with switching := none, quantumEnd := s.clock + p.quantum }) ∧
      (∀ w, s.nextWorld p = some w →
        ∃ s', exec (.quantumExpiry n) s = .next s' ∧ (s'.part? n).map (·.switching) = some (some w) ∧
          ∀ l ∈ s'.launches, l.world = p.resident.getD 0 → l.state ≠ .running)) ∧
    (s.capDue n = true →
      ∃ s', exec (.timeCapReached n) s = .next s' ∧ (s'.part? n).map (·.capped) = some true ∧
        ∀ l ∈ s'.launches, l.world = p.resident.getD 0 → l.state ≠ .running) ∧
    (s.periodDue n = true →
      let start := p.period + (s.clock - p.period) / p.periodLength * p.periodLength
      ∃ s', exec (.periodStart n) s = .next s' ∧
        s' = (s.setPart n fun x => { x with
          period := x.period + (s.clock - x.period) / x.periodLength * x.periodLength, used := 0
          since := max x.since (x.period + (s.clock - x.period) / x.periodLength * x.periodLength), capped := false }) ∧
        start ≤ s.clock ∧ s.clock < start + p.periodLength) ∧
    (∀ w, s.power = true → s.switchTo n = some w → (s.world w).notes = [] →
      ∃ s', exec (.worldSwitch n) s = .next s' ∧
        s'.part? n = some { p with
          used := p.usedAt s.clock, since := s.clock, resident := some w, switching := none,
          quantumEnd := s.clock + p.quantum } ∧
        (∀ v, p.resident = some v → v ≠ w →
          (∀ x ∈ s'.prot, x.world = v → x.code ≠ 7) ∧ (∀ x ∈ s'.fetch, x.world ≠ v) ∧
            (∀ b ∈ s'.laybys, b.world = v → b.saved = true)) ∧
        ∀ b ∈ s'.laybys, b.world = w → b.saved = false))

/-- R72, R321, R392, R393, R394, R395, R397, R399: CONTEXT_SAVE, QUIET_POINT_SAVE and FAULT_SWAP save a team whose save is due: it
leaves its core, and each thread keeps its pc, predicates, stack and, unless PSAVED says less, its slices. CONTEXT_RESTORE brings
the team back on a core with room with the same values and stale waymarks; a frame that is not intact ends the launch. -/
def Obligations.ContextSaves : Prop :=
  (∀ (s : State) (m : Nat), (∃ x ∈ s.teams, x.id = m) → (∀ o ∈ s.ops, o.who.team = m → o.phase ≠ .buffered) →
    let saves := fun (i : Instr) (swap : Bool) =>
      ∃ s', exec i s = .next s' ∧ (s'.team m).place = .frame ∧ (s'.team m).core = (s.team m).core ∧
        (∀ x ∈ s'.windows, x.team ≠ m) ∧ (∀ c ∈ s'.copies, c.team = m → c.stopped = true) ∧
        (∀ y, s'.launch? (s.team m).launch = some y → y.state ≠ .parked → (s'.team m).swapped = swap) ∧
        ∀ t, t.team = m →
          let x := s.thread t
          let y := s'.thread t
          y.live = x.live ∧ y.pc = x.pc ∧ y.preds = x.preds ∧ y.sp = x.sp ∧ y.ret = x.ret ∧ y.wm = x.wm ∧ y.fmode = x.fmode ∧
            y.sb = x.sb ∧ y.seq = x.seq ∧
            ∀ i < 4096, y.slices.getLsbD i =
              (x.slices.getLsbD i && (match (s.groupOf t).parked with
                | none => true
                | some (lo, hi) => decide (lo ≤ i / 4) && decide (i / 4 ≤ hi)))
    (s.graceSave m = true → saves (.contextSave m) false) ∧ (s.quietDue m = true → saves (.quietPointSave m) false) ∧
      (s.swapDue m = true → saves (.faultSwap m) (!s.onFenced m))) ∧
  (∀ (s : State) (m : Nat) (l : Launch), s.launch? (s.team m).launch = some l → s.graceSave m = false → s.parkOpen m = true →
    ∃ s', exec (.contextSave m) s = .next s' ∧
      s'.launch? l.id = some { l with state := .parked, g1 := none, g2 := none }) ∧
  (∀ (s : State) (m core : Nat) (l : Launch) (p : Partition) (intact : Bool),
    let x := s.team m
    x.id = m → (∃ y ∈ s.teams, y.id = m) → s.launch? x.launch = some l → x.place = .frame → (s.liveOfTeam m).isEmpty = false →
    s.teamFaulted m = false → s.mayReturn l = true → s.partOf x.world = some p → l.persistent = false → x.cgrid = 0 →
    core ∈ s.usable p → s.restoreRoom x core = true →
    (s.slotsHere x.world = false → x.world = l.world → l.restore ≠ 8 →
      exec (.contextRestore m core intact) s = .next (s.setLaunch l.id fun y => { y with restore := 8 })) ∧
    (s.slotsHere x.world = true → intact = false → s.written l = true →
      ∃ s', exec (.contextRestore m core intact) s = .next s' ∧ s'.endedWith l.world l.queue l.ticket 3) ∧
    (s.slotsHere x.world = true → intact = true → (∀ o ∈ s.ops, o.who.team ≠ m) → (∀ c ∈ s.channels, c.team = m → c.queue = []) →
      (s.teams.map (·.id)).Nodup →
      ∃ s', exec (.contextRestore m core intact) s = .next s' ∧
        (s'.team m).place = .resident ∧ (s'.team m).core = core ∧ (s'.team m).swapped = false ∧
        (s'.launch? l.id).map (·.state) = some .running ∧
        ∀ t, t.team = m →
          let a := s.thread t
          let b := s'.thread t
          b.live = a.live ∧ b.pc = a.pc ∧ b.preds = a.preds ∧ b.slices = a.slices ∧ b.sp = a.sp ∧ b.ret = a.ret ∧
            b.fmode = a.fmode ∧ b.sb = a.sb ∧ (∀ w ∈ b.wm, w.valid = true → w.pstate = 3) ∧
            b.wm.map (fun w => (w.valid, w.domain, w.target)) = a.wm.map (fun w => (w.valid, w.domain, w.target))))

/-! ### Translation and faults -/

/-- R330, R331, R332, R333, R166: TLBI traps on a non-canonical address or a domain above 15 and is otherwise left incomplete;
TRANSLATION_OP_COMPLETE discards every cached translation that it covers, with the last-page registers of the domain, makes the
domain's waymarks stale, and completes it when no access uses what was discarded. XLATE answers with the walk's leaf or fault. -/
def Obligations.TranslationInstructions : Prop :=
  (∀ (f : SysF) (s : State) (t : TRef), ∀ e ∈ [(Instr.tlbiVa f, true, true), (.tlbiRange f, true, true), (.tlbiDom f, false, true),
      (.tlbiWorld f, false, false), (.xlate f, false, true)],
    s.Alone t e.1 f.toCommon →
    let x := s.thread t
    let a := BitVec.ofNat 64 (s.opnd64 t f.a)
    let d := s.opnd32 t f.b
    (e.2.1 = true → canonical a = false → ∃ s', exec e.1 s = .next s' ∧ s'.thread t = x.traps! 0x11 0 a) ∧
    ((e.2.1 = true → canonical a = true) → e.2.2 = true → 15 < d →
      ∃ s', exec e.1 s = .next s' ∧ s'.thread t = x.traps! 0x11 0 0) ∧
    ((e.2.1 = true → canonical a = true) → (e.2.2 = true → d ≤ 15) →
      ∃ s' o, exec e.1 s = .next s' ∧ s'.thread t = x.started f.toCommon ∧ o ∈ s'.ops ∧ o.phase = .pending ∧
        o.StartedIn s t e.1 f.toCommon (s.opnd64 t f.a) d (if e.1 = .xlate f then 0 else s.opnd32 t f.c) 0)) ∧
  (∀ (f : SysF) (s : State) (o : Op), s.HasOp o → o.clobber = 0 →
    let w := s.worldOf o.who
    let run := exec (.translationOpComplete o.id) s
    let va := o.a % 2 ^ 57
    let leaf := fun (x : Xlat) (a : Nat) => x.vpage * 2 ^ x.shift / 2 ^ pageShift x.leaf = a / 2 ^ pageShift x.leaf
    (∀ e ∈ [(Instr.tlbiVa f, fun (x : Xlat) => x.domain.toNat = o.b ∧ leaf x va),
        (.tlbiRange f, fun (x : Xlat) => x.domain.toNat = o.b ∧ (1048576 < o.c ∨
          ∃ b, va / 4096 * 4096 ≤ b ∧ b < va / 4096 * 4096 + 4096 * o.c ∧ leaf x b)),
        (.tlbiDom f, fun (x : Xlat) => x.domain.toNat = o.b), (.tlbiWorld f, fun (_ : Xlat) => True)],
      o.instr = e.1 → s.translationDue o = true →
      (o.phase = .pending → (e.1 = .tlbiRange f → o.c ≠ 0) → o.b < 16 →
        ∃ s', run = .next s' ∧ s'.mem = s.mem ∧
          (∀ x, x ∈ s'.tlb ↔ x ∈ s.tlb ∧ ¬ (x.world = w ∧ e.2 x)) ∧
          (∀ p ∈ s'.lastPage, p ∈ s.lastPage ∧ ¬ (p.page.world = w ∧ e.2 p.page) ∧
            (p.page.world = w → e.1 ≠ .tlbiWorld f ∧ p.page.domain.toNat ≠ o.b)) ∧
          (∀ t, s.resident t.team = true → s.worldOf t = w → ∀ m ∈ (s'.thread t).wm, m.valid = true →
            (e.1 = .tlbiWorld f ∨ m.domain.toNat = o.b) → m.pstate = 3) ∧
          (s'.op? o.id).map (·.phase) = some .result) ∧
      (o.phase = .pending → e.1 = .tlbiRange f → o.c = 0 →
        ∃ s', run = .next s' ∧ s.Completed s' o ∧ s'.tlb = s.tlb) ∧
      (o.phase = .result → ∃ s', run = .next s' ∧ s.Completed s' o ∧ s'.tlb = s.tlb)) ∧
    (o.instr = .xlate f → o.phase = .pending →
      let d := fun (v : Nat) => slicesSet (s.thread o.who).slices f.d.start.toNat f.d.w.bits v
      (canonical (BitVec.ofNat 64 o.a) = false →
        ∃ s', run = .next s' ∧ s.Completed s' o ∧ (s'.thread o.who).slices = d (9 * 2 ^ 8)) ∧
      (canonical (BitVec.ofNat 64 o.a) = true →
        (∀ x ∈ s.tlb, ¬ (x.core = s.coreOf o.who ∧ x.world = w ∧ x.domain = BitVec.ofNat 4 o.b ∧ leaf x va)) →
        (∀ y ∈ s.walkCache, y.world ≠ w) →
        ∃ s', run = .next s' ∧ s.Completed s' o ∧ s'.tlb = s.tlb ∧ s'.mem = s.mem ∧ (s'.thread o.who).slices = d (
          match s.walk w (BitVec.ofNat 4 o.b) .read o.a with
          | .fault k lvl _ => bits lvl 0 4 * 2 ^ 52 + bits k 0 4 * 2 ^ 8
          | .s2 _ | .pull _ => 2 ^ 8
          | .leaf l₀ =>
            let l := s.blockLeaf w o.a l₀
            let e := l.entry
            let flags := (leafSize l.level (pteC e)).toNat * 2 ^ 5 + (pteH e).toNat * 2 ^ 4 + (pteD e).toNat * 2 ^ 3 +
              (pteX e).toNat * 2 ^ 2 + (pteW e).toNat * 2
            if f.subop = 1 ∧ pteW e = false then bits l.level 0 4 * 2 ^ 52 + 2 * 2 ^ 8 + flags
            else if f.subop ≠ 0 ∧ f.subop ≠ 1 ∧ pteX e = false then bits l.level 0 4 * 2 ^ 52 + 3 * 2 ^ 8 + flags
            else bits l.level 0 4 * 2 ^ 52 + bits (leafOut l o.a / 4096) 0 40 * 2 ^ 12 + flags + 1))))

namespace Sys2Proof.Machine

/-- Fault f of a launch whose memory is being read, and nothing else with its name. -/
def State.FaultOfLaunch (s : State) (f : FaultRec) (l : Launch) : Prop :=
  f ∈ s.faults ∧ (∀ g ∈ s.faults, g.id = f.id → g = f) ∧ f.source = .launch l.id ∧ s.launch? l.id = some l ∧ l.fault = some f.id

end Sys2Proof.Machine

/-- R320, R322, R323, R324, R327, R328, R329, R437: FAULT_RECORD_WRITE puts the next record into a world's ring, STAGE2_EVENT the
next event into the device's; a disposition 0 lets the source go on, 1 and 2 end its wait; PULL_COMPLETE and PULL_TIMEOUT end the
wait for a page; DBMCTL_SWAP and DBM_SWAP_DONE change the recording buffer; ATS_INVALIDATION discards what it covers. -/
def Obligations.FaultDispositions : Prop :=
  (∀ (s : State) (w pa : Nat) (f : FaultRec), s.nextRecord w = some f → (s.world w).ringOn = true →
    (s.world w).ringRoom = true → s.ringPlace w = .ok pa → pa + 64 ≤ 2 ^ 51 → s.MemOk →
    (∀ w, bit (s.world w).dbmctl.toNat 0 = false) →
    ∃ s', exec (.faultRecordWrite w) s = .next s' ∧
      s'.memNat ⟨false, pa⟩ 64 = s.faultRecord f (s.world w).frnext.toNat % 2 ^ 512 ∧
      (∀ l : Loc, (l.host = true ∨ l.addr < pa ∨ pa + 64 ≤ l.addr) → s'.memByte l = s.memByte l) ∧
      (s'.world w).frtail = (s.world w).frtail + 1 ∧ (s'.world w).frnext = (s.world w).frnext + 1 ∧
      (s'.world w).msix.getLsbD 0 = true ∧
      (f.notice = true → ∀ g ∈ s'.faults, g.id ≠ f.id) ∧
      (f.notice = false → ∀ g ∈ s'.faults, g.id = f.id → g.num = some (s.world w).frnext)) ∧
  (∀ (s : State) (w : Nat) (v : W64), s.power = true →
    (s.worldHere w = false → ∃ s', exec (.notify w v) s = .next s' ∧ (s'.world w).notes = (s.world w).notes ++ [v]) ∧
    (s.worldHere w = true → (s.openRecord w (v.extractLsb' 0 32) = none ∨ v.extractLsb' 32 2 = 3) →
      ∃ s', exec (.notify w v) s = .next s' ∧ s'.faults = s.faults ∧ s'.threads = s.threads ∧
        (s'.world w).frignored =
          if (s.world w).frignored = BitVec.allOnes 32 then BitVec.allOnes 32 else (s.world w).frignored + 1)) ∧
  (∀ (s : State) (f : FaultRec) (l : Launch), s.FaultOfLaunch f l →
    let goesOn := fun (i : Instr) => ∃ s', exec i s = .next s' ∧ s'.launch? l.id = some { l with fault := none } ∧
      ∀ g ∈ s'.faults, g.id ≠ f.id
    let ends := fun (i : Instr) => ∃ s', exec i s = .next s' ∧ s'.endedWith l.world l.queue l.ticket 3
    (∀ w v, s.power = true → s.worldHere w = true → s.openRecord w (v.extractLsb' 0 32) = some f →
      (v.extractLsb' 32 2 = 0 → goesOn (.notify w v)) ∧
      ((v.extractLsb' 32 2 = 1 ∨ v.extractLsb' 32 2 = 2) → ends (.notify w v))) ∧
    (f.pri = true → goesOn (.priResponse f.id true) ∧ ends (.priResponse f.id false))) ∧
  (∀ (s : State) (w : Nat) (v : W64) (f : FaultRec) (x : Thread), s.power = true → s.worldHere w = true →
    s.openRecord w (v.extractLsb' 0 32) = some f → f ∈ s.faults → f.source = .thread x.id → f.access = 3 →
    (∀ g ∈ s.faults, g.twin f = true → g.id = f.id) → s.threads.filter (fun y => y.fault = some f.id) = [x] →
    s.thread x.id = x → x.trap = none →
    (∀ o ∈ s.ops, o.fault ≠ some f.id ∧ (o.who = x.id → o.fault = none)) →
    (∀ d ∈ [(0, 0), (1, 0x10#8), (2, 0x11#8)], v.extractLsb' 32 2 = BitVec.ofNat 2 d.1 →
      ∃ s', exec (.notify w v) s = .next s' ∧ s'.thread x.id = { x with
        fault := none, trap := if d.1 = 0 then none else some ⟨d.2, 0, x.pc, x.pc, x.pc, false⟩ })) ∧
  (∀ (s : State) (f : FaultRec), s.fault? f.id = some f → s.eventDue f.id = true → s.eventsOn = true → s.MemOk → s.link = true →
    ∃ s', exec (.stage2Event f.id) s = .next s' ∧ s'.ketail = s.ketail + 1 ∧ s'.kenext = s.kenext + 1 ∧
      (s'.world 0).msix.getLsbD 2 = true ∧ (∀ g ∈ s'.faults, g.id = f.id → g.num = some s.kenext) ∧ s'.mem = s.mem ∧
      s'.memNat ⟨true, bits s.kebase.toNat 12 40 * 4096 + 64 * (s.ketail.toNat % 2 ^ bits s.kebase.toNat 0 4)⟩ 64 =
        s.faultRecord f s.kenext.toNat % 2 ^ 512) ∧
  (∀ (s : State) (v : W64), s.power = true → s.mgmt.boot = 2 → exec (.keheadWrite v) s = .next { s with kehead := (v.extractLsb' 0 32).setWidth 64 }) ∧
  (∀ (s : State) (w : Nat) (host : W64) (n : Nat),
    ∃ s', exec (.atsInvalidation w host n) s = .next s' ∧ s'.mem = s.mem ∧
      ∀ x, x ∈ s'.tlb ↔ x ∈ s.tlb ∧ ¬ (x.world = w ∧ x.out.host = true ∧ x.out.addr < host.toNat + n ∧
        host.toNat < x.out.addr + 2 ^ x.shift)) ∧
  (∀ (s : State) (w : Nat) (v : W64),
    (s.power = true → ∃ s', exec (.dbmctlSwap w v) s = .next s' ∧
      let new := (s'.world w).dbmctl
      new.extractLsb' 32 32 = v.extractLsb' 32 32 ∧ new.getLsbD 0 = v.getLsbD 0 ∧
        new.getLsbD 1 = (s.world w).dbmctl.getLsbD 1 ∧ new.getLsbD 3 = (v.getLsbD 2 || (s.world w).dbmctl.getLsbD 3)) ∧
    (s.swapBusy w = true → ∃ s', exec (.dbmSwapDone w) s = .next s' ∧ s'.mem = s.mem ∧
      (s'.world w).dbmctl = ((s.world w).dbmctl &&& ~~~8) ^^^ 2)) ∧
  (∀ (s : State) (w pa : Nat) (ipa : W64), s.pullPage w ipa = some pa → pa + 4096 ≤ 2 ^ 51 → pa % 4096 = 0 →
    (∀ bs, bs.length = 4096 → s.pullFaults w ipa = [] → s.MemOk → (∀ w, bit (s.world w).dbmctl.toNat 0 = false) →
      ∃ s', exec (.pullComplete w ipa bs) s = .next s' ∧ s'.memBytes ⟨false, pa⟩ 4096 = bs ∧
        (∀ l : Loc, (l.host = true ∨ l.addr < pa ∨ pa + 4096 ≤ l.addr) → s'.memByte l = s.memByte l) ∧
        s'.pullPage w ipa = none) ∧
    (s.pullLate w ipa = true →
      ∃ s', exec (.pullTimeout w ipa) s = .next s' ∧ (∀ i < 32, pa / 128 + i ∈ s'.poison) ∧ s'.pullPage w ipa = none ∧
        ∀ f ∈ s'.faults, f.pull = true → f.world = w → f.ipa ≠ ipa.toNat))

/-! ### Gates -/

/-- R338, R343, R344, R345: GATE of a group that has stalled reads its entry and is denied with the info of the first check
that fails, or is left incomplete, as it is where an engine owns the entry's line; GRET outside a call traps.
GATE_CALL_COMPLETE of GATE takes the lowest free slot and enters the callee, or is denied where no slot is free. R341, R346,
R347, R349: GATE_CALL_COMPLETE of GRET restores the caller from its frame, frees the slot and writes the status; the
unwinding of a call does the same with every slice outside the window cleared and the trap's code in the status.
GATE_SLOT_RELEASE frees the slot of an ended group and goes on to the enclosing frame. -/
def Obligations.GateCalls : Prop :=
  (
  (∀ (f : SysF) (s : State) (t : TRef), s.FreshOps →
    let x := s.thread t
    let g := s.groupOf t
    let n := (f.entry.toNat + s.opnd32 t f.a) % 256
    let gt := (s.world (s.worldOf t)).gtbase.toNat
    let denied := fun (info : BitVec 8) => ∃ s', exec (.gate f) s = .next s' ∧ s'.ops = s.ops ∧
      (s'.thread t).trap = some ⟨0x1C, info, x.pc, x.pc, 0, false⟩
    (s.Alone t (.gate f) f.toCommon →
      (s.stalled t = false → exec (.gate f) s = .next s) ∧
      (s.stalled t = true →
        ((bit gt 0 = false ∨ bits gt 1 8 < n) → denied 1) ∧
        (∀ pa, bit gt 0 = true → n ≤ bits gt 1 8 →
          s.stage2 (s.worldOf t) (bits gt 12 40 * 4096 + 64 * n) .read = .ok pa →
          (s.anyOwned [⟨false, pa⟩] = true →
            ∃ s' o, exec (.gate f) s = .next s' ∧ o ∈ s'.ops ∧ o.who = t ∧ o.instr = .gate f ∧ o.phase = .recall) ∧
          (s.anyOwned [⟨false, pa⟩] = false → s.poisoned ⟨false, pa⟩ = true → denied 2) ∧
          (s.anyOwned [⟨false, pa⟩] = false → s.poisoned ⟨false, pa⟩ = false → g.gfp = 0 →
            let ent := s.memNat ⟨false, pa⟩ 64
            let root := ((s.world (s.worldOf t)).droot.getD (bits ent 236 4) 0).toNat
            let valid := bit ent 224
            let callable := bit ent (272 + g.domain.toNat)
            let sameRoot := bit root 0 && decide (bits root 12 40 = bits ent 128 40)
            let fits := decide (bits ent 243 10 + bits ent 253 11 ≤ g.budget)
            (valid = true → entMalformed ent = true → denied 3) ∧
            (valid = false → denied 4) ∧
            (valid = true → entMalformed ent = false → callable = false → denied 5) ∧
            (valid = true → entMalformed ent = false → callable = true → sameRoot = false → denied 7) ∧
            (valid = true → entMalformed ent = false → callable = true → sameRoot = true → fits = false → denied 8) ∧
            (valid = true → entMalformed ent = false → callable = true → sameRoot = true → fits = true →
              ∃ s' o, exec (.gate f) s = .next s' ∧ s'.thread t = x.started f.toCommon ∧ o ∈ s'.ops ∧
                o.StartedIn s t (.gate f) f.toCommon n 0 0 (2 ^ t.lane) ∧ o.lead = o.id ∧ o.phase = .pending ∧
                o.data = [ent]))))) ∧
    (s.Alone t (.gret f) f.toCommon →
      (s.stalled t = false → exec (.gret f) s = .next s) ∧
      (s.stalled t = true → g.gfp = 0 → ∃ s', exec (.gret f) s = .next s' ∧ s'.thread t = x.traps! 0x09 0 0) ∧
      (s.stalled t = true → g.gfp ≠ 0 →
        ∃ s' o, exec (.gret f) s = .next s' ∧ s'.thread t = x.started f.toCommon ∧ o ∈ s'.ops ∧
          o.StartedIn s t (.gret f) f.toCommon 0 0 0 (2 ^ t.lane) ∧ o.lead = o.id ∧ o.phase = .pending))) ∧
  (∀ (f : SysF) (s s₁ s₂ s₃ : State) (o : Op) (ent i : Nat) (bm : Loc) (hdr ls : List Loc), s.Sole o →
    o.instr = .gate f → o.data = [ent] → bit o.x o.who.lane = true → s.owned = [] → (∀ p ∈ s.ops, p.who = o.who → p = o) →
    let t := o.who
    let x := s.thread t
    let ctx := s.gateCtx t (entDom ent)
    let bma := BitVec.ofNat 64 (entSbase ent) - 512
    let bitmap := ofBytes ((List.range 512).map fun j => s₁.seenByte (s.coreOf t) (bm.add j))
    let frame := BitVec.ofNat 64 (entSbase ent - 512 - (i + 1) * (4096 * entZs ent))
    s.gateDue t.team t.gid = true → s.gateOp t.team t.gid = some o → s.liveOfGroup t.team t.gid = [t] →
    (∃ y ∈ s.groups, y.team = t.team ∧ y.gid = t.gid) →
    canonical bma = true → s.translate ctx .rmw bma = (.ok bm, s₁) → (∀ i < 4, s₁.poisoned (bm.add (128 * i)) = false) →
    let run := exec (.gateCallComplete t.team t.gid) s
    (lowestClear bitmap (entSlots ent) = none →
      ∃ s', run = .next s' ∧ s.Completed s' o ∧ (x.trap = none →
        (s'.thread t).trap = some ⟨0x1C, 9, o.pc, o.pc, 0, false⟩)) ∧
    (lowestClear bitmap (entSlots ent) = some i → canonical frame = true →
      s₁.translateRun ctx .write frame 128 [] = (.inl hdr, s₂) →
      s₂.frameRecords (entDom ent) .write frame [t] = (.inl [(t, ls)], s₃) →
      s₃.MemOk → (∀ j < 512, (bm.add j).isLocal = true) → (∀ w, bit (s.world w).dbmctl.toNat 0 = false) →
      let z := 4096 * entZs ent
      let size := 16 * ((z - 8192) / 512)
      ∃ s', run = .next s' ∧ s.Completed s' o ∧ (s'.memByte (bm.add (i / 8))).getLsbD (i % 8) = true ∧
        (let y := s'.thread t
         y.pc = w64 ent 0 ∧ y.ret = [] ∧ y.n = 0 ∧ y.handler = false ∧
          y.preds = (if bit (entScrub ent) 1 then 0 else x.preds) ∧
          y.retbase = frame + BitVec.ofNat 64 (5248 + 64 * t.lane) ∧ y.retlim = y.retbase + 64 ∧
          y.stklim = frame + BitVec.ofNat 64 (8192 + size * t.lane) ∧ y.base = y.stklim + BitVec.ofNat 64 size ∧
          y.sp = y.base ∧ y.fmode = x.fmode ∧ y.fpflags = x.fpflags ∧ y.wm = x.wm ∧
          ∀ j < 4096, y.slices.getLsbD j = (x.slices.getLsbD j &&
            decide (entWstart ent ≤ j / 4) && decide (j / 4 < entWstart ent + entWcnt ent))) ∧
        (let y := s'.group t.team t.gid
         y.gfp = frame ∧ y.domain = entDom ent ∧ y.hdl = w64 ent 448 ∧
          ∀ j < 2048, y.k.getLsbD j = ((s.groupOf t).k.getLsbD j && !(bit (entScrub ent) 2 && decide (256 ≤ j))))))
  ) ∧ (
  (∀ (s s₁ s₂ s₃ : State) (t : TRef) (h r : Nat) (zs : List Loc) (b : Loc) (unwinds : Option (BitVec 8)),
    let g := s.groupOf t
    let x := s.thread t
    let ctx := s.gateCtx t g.domain
    let scrub := bits h 205 8
    let slot := bits h 193 12
    let zat := g.gfp + 5248
    let zeros := if bit scrub 4 then 4096 * bits h 448 16 - 5248 else 0
    let bma := w64 h 384 - 512 + BitVec.ofNat 64 (slot / 8)
    let clears := unwinds.isSome || bit scrub 0
    s.gateDue t.team t.gid = true → s.liveOfGroup t.team t.gid = [t] → (∃ y ∈ s.groups, y.team = t.team ∧ y.gid = t.gid) →
    (match unwinds with
     | none => ∃ f o, s.gateOp t.team t.gid = some o ∧ s.Sole o ∧ o.who = t ∧ o.instr = .gret f
     | some c => s.gateOp t.team t.gid = none ∧ g.unwind = some c) →
    s.owned = [] → s.readFrame t g.gfp = (some (h, [(t, r)]), s₁) →
    (clears = true → s.windowFree t.team t.gid (bits h 213 10) (bits h 223 11) = true) →
    canonical bma = true → canonical zat = true → canonical (zat + BitVec.ofNat 64 zeros) = true →
    s₁.translateRun ctx .write zat zeros [] = (.inl zs, s₂) → s₂.translate ctx .rmw bma = (.ok b, s₃) →
    s₃.poisoned b = false → b ∉ zs → b.isLocal = true → (∀ l ∈ zs, l.isLocal = true) → s₃.MemOk → (∀ w, bit (s.world w).dbmctl.toNat 0 = false) →
    ∃ s', exec (.gateCallComplete t.team t.gid) s = .next s' ∧
      (∀ l ∈ zs, s'.memByte l = 0) ∧ s'.memByte b = s₃.memByte b &&& ~~~BitVec.ofNat 8 (2 ^ (slot % 8)) ∧
      (let y := s'.group t.team t.gid
       y.gfp = w64 h 64 ∧ y.domain = BitVec.ofNat 4 (bits h 168 4) ∧ y.hdl = w64 h 320 ∧ y.unwind = none ∧
        ∀ j < 2048, y.k.getLsbD j = (g.k.getLsbD j && !(bit scrub 2 && decide (256 ≤ j)))) ∧
      (let y := s'.thread t
       y.pc = w64 h 0 ∧ y.sp = w64 r 768 ∧ y.base = w64 r 832 ∧ y.stklim = w64 r 896 ∧ y.retbase = w64 r 960 ∧
        y.retlim = w64 r 1024 ∧ y.n = bits r 1088 16 ∧ y.preds = BitVec.ofNat 7 (bits r 1129 7) ∧ y.handler = bit r 1139 ∧
        y.fmode.toNat = bits r 1104 11 ∧
        y.fpflags.toNat = (if bit scrub 3 then bits r 1115 14 else bits r 1115 14 ||| x.fpflags.toNat) ∧
        (∀ k < 8, ∃ w, y.wm[k]? = some w ∧ w.valid = bit r (64 * k + 52) ∧ w.domain.toNat = bits r (64 * k + 48) 4 ∧
          w.target.toNat = bits r (64 * k) 48 ∧ (w.valid = true → w.pstate = 3)) ∧
        y.slices = slicesSet (if clears then keepWindow x.slices (bits h 213 10) (bits h 223 11) else x.slices)
          (bits h 180 10) 32 ((match unwinds with | none => 0 | some c => 3 + 0x1E * 2 ^ 8 + c.toNat * 2 ^ 16) +
            bits h 172 8 * 2 ^ 24) ∧
        (unwinds.isSome = true → codeCanonical (w64 h 0) = true → y.trap = none))) ∧
  (∀ (s s₁ s₂ : State) (team gid : Nat) (frame : W64) (ls : List Loc) (b : Loc), s.nextRelease team gid = some frame →
    s.releaseDue team gid = true → canonical frame = true → s.owned = [] → (∃ y ∈ s.teams, y.id = team) →
    let t : TRef := ⟨team, gid, 0⟩
    let ctx := s.gateCtx t (s.group team gid).domain
    let h := ofBytes (ls.map s₁.memByte)
    let bma := w64 h 384 - 512 + BitVec.ofNat 64 (bits h 193 12 / 8)
    s.translateRun ctx .read frame 128 [] = (.inl ls, s₁) → (∀ l ∈ ls, s₁.poisoned l = false) → canonical bma = true →
    s₁.translate ctx .rmw bma = (.ok b, s₂) → s₂.poisoned b = false → b.isLocal = true → s₂.MemOk → (∀ w, bit (s.world w).dbmctl.toNat 0 = false) →
    ∃ s', exec (.gateSlotRelease team gid) s = .next s' ∧
      s'.memByte b = s₂.memByte b &&& ~~~BitVec.ofNat 8 (2 ^ (bits h 193 12 % 8)) ∧
      (∀ l, l ≠ b → s'.memByte l = s₂.memByte l) ∧
      (s'.team team).releases = ((s.team team).releases.filter fun r => r.1 ≠ gid) ++
        (if w64 h 64 = 0 then [] else [(gid, w64 h 64)]))
  )

/-! ### The order engine -/

namespace Sys2Proof.Machine

/-- A thread whose instruction is complete at its issue and has no destination (R20). -/
def Thread.finishedBare (x : Thread) (c : Common) : Thread :=
  { x.past c with sb := if c.ctl.setEn then x.sb &&& ~~~(1#8 <<< c.ctl.setSlot.toNat) else x.sb }

/-- A thread with a trap of an instruction whose effect stands (R176). -/
def Thread.trapsAfter (x : Thread) (code info : BitVec 8) (pc : W64) : Thread :=
  { x with trap := some ⟨code, info, pc, pc + 16, 0, false⟩ }

end Sys2Proof.Machine

/-- R357, R371, R372, R373, R377, R378: TKT completes at once outside a deterministic launch and is a turn point inside it;
HASHRD reads and clears the group's hash; ORDMARK records a checkpoint, stops a full recording, and in a replay raises
REPLAY_DIVERGED unless the next checkpoint of its mark has the group's hash. R355, R358, R359, R360, R374, R377: TURN_START
performs the staged write of a team, ends its lap unless a thread stands at an intra-lap point, and completes TKT with the lap;
TOLLGATE_PASS performs a held atomic of a replay; REPLAY_HOLD_TIMEOUT marks the launch diverged and abandons the bank's log. -/
def Obligations.OrderInstructions : Prop :=
  (
  (∀ (f : SysF) (s : State) (t : TRef), ∀ e ∈ [(Instr.tktTurn f, false), (.tktLap f, true)], s.Alone t e.1 f.toCommon →
    let x := s.thread t
    (s.deterministic (s.team t.team).launch = false →
      ∃ s', exec e.1 s = .next s' ∧ s'.thread t = x.finished f.toCommon 0) ∧
    (s.deterministic (s.team t.team).launch = true →
      ∃ s' o, exec e.1 s = .next s' ∧
        s'.thread t = { x.started f.toCommon with turn := some (e.2 && s.persistent t.team) } ∧ o ∈ s'.ops ∧
        o.StartedIn s t e.1 f.toCommon 0 0 0 0 ∧ o.phase = .turn)) ∧
  (∀ (f : SysF) (s : State) (t : TRef), s.Alone t (.hashrd f) f.toCommon → (∃ y ∈ s.groups, y.team = t.team ∧ y.gid = t.gid) →
    let g := s.groupOf t
    ∃ s', exec (.hashrd f) s = .next s' ∧ s'.thread t = (s.thread t).finished f.toCommon g.hash.toNat ∧
      s'.groupOf t = if f.subop = 1 then { g with hash := 0 } else g) ∧
  (∀ (f : SysF) (s : State) (t : TRef), s.Alone t (.ordmark f) f.toCommon →
    let x := (s.thread t).finishedBare f.toCommon
    let pc := (s.thread t).pc
    let m := s.team t.team
    let h := (s.groupOf t).hash
    let run := exec (.ordmark f) s
    (s.log? m.launch = none → ∃ s', run = .next s' ∧ s'.thread t = x ∧ s'.mem = s.mem) ∧
    (∀ g, s.log? m.launch = some g →
      (g.replay = false → g.stopped = true → ∃ s', run = .next s' ∧ s'.thread t = x ∧ s'.mem = s.mem) ∧
      (∀ l, g.replay = false → g.stopped = false → g.ckused < g.ckpt →
        s.launchPlace m.launch .write (g.addr + BitVec.ofNat 64 (128 + 384 * g.seg + 16 * g.ckused)) = some l →
        (∀ j < 16, (l.add j).isLocal = true) → s.MemOk → (∀ w, bit (s.world w).dbmctl.toNat 0 = false) →
        ∃ s', run = .next s' ∧ s'.thread t = x ∧ (s'.log? m.launch).map (·.ckused) = some (g.ckused + 1) ∧
          s'.memNat l 16 = m.index % 2 ^ 32 + t.gid % 2 ^ 5 * 2 ^ 32 + f.mark.toNat % 2 ^ 16 * 2 ^ 48 + h.toNat * 2 ^ 64) ∧
      (g.replay = false → g.stopped = false → g.ckpt ≤ g.ckused →
        ∃ s', run = .next s' ∧ s'.thread t = x ∧ (s'.log? m.launch).map (·.stopped) = some true) ∧
      (g.replay = true → g.diverged = true → ∃ s', run = .next s' ∧ s'.thread t = x.trapsAfter 0x21 2 pc) ∧
      (g.replay = true → g.diverged = false → s.findCheckpoint g f.mark.toNat t.gid m.index = none →
        ∃ s', run = .next s' ∧ s'.thread t = x.trapsAfter 0x21 3 pc) ∧
      (∀ k e, g.replay = true → g.diverged = false → s.findCheckpoint g f.mark.toNat t.gid m.index = some (k, e) →
        ∃ s', run = .next s' ∧ (∃ g', s'.log? m.launch = some g' ∧ k ∈ g'.used) ∧
          s'.thread t = if w64 e 64 = h then x else x.trapsAfter 0x21 1 pc)))
  ) ∧ (
  (∀ (f : SysF) (s : State) (team : Nat) (e : Stage) (o : Op), s.turnDue team = true → s.teamStages team = [e] → e.rmw = none →
    (∀ p ∈ e.bytes, p.1.isLocal = true) → (e.bytes.map (·.1)).Nodup → s.turnOps team = [o] → s.HasOp o → o.clobber = 0 →
    (o.instr = .tktTurn f ∨ o.instr = .tktLap f) → s.wbuf = [] → s.sets = [] → s.MemOk →
    (∀ w, bit (s.world w).dbmctl.toNat 0 = false) →
    let m := s.team team
    let intra := (s.liveOfTeam team).any fun t => (s.thread t).turn = some false
    let lap := if intra then m.lap else m.lap + 1
    ∃ s', exec (.turnStart team) s = .next s' ∧ s.Completed s' o ∧ (∀ p ∈ e.bytes, s'.memByte p.1 = p.2) ∧
      (∀ l, l ∉ e.bytes.map (·.1) → s'.memByte l = s.memByte l) ∧
      s'.staging = s.staging.filter (fun x => x.team ≠ team) ∧ (s'.team team).lap = lap ∧
      (s'.team team).turns = (if intra then m.turns + 1 else 0) ∧ (s'.team team).finalTurn = false ∧
      (∀ x ∈ s'.threads, x.id.team = team → x.turn = none) ∧
      (s'.thread o.who).slices =
        slicesSet (s.thread o.who).slices f.d.start.toNat f.d.w.bits (2 ^ 16 * (lap % 2 ^ 16))) ∧
  (∀ (f : MemF) (s : State) (o : Op) (l : Loc) (g : OrderLog),
    let n := f.ty.bits / 8
    let m := s.memNat l n
    let old := BitVec.ofNat f.ty.bits m
    let b := BitVec.ofNat f.ty.bits o.b
    s.MemOk → s.HasOp o → 8 ≤ f.ty.bits → o.b < 2 ^ f.ty.bits → o.c < 2 ^ f.ty.bits → o.clobber = 0 →
    o.locs = (List.range n).map l.add → (∀ j < n, (l.add j).isLocal = true) → s.tollDue o = true →
    s.log? (s.team o.who.team).launch = some g → g.replay = true → (∀ w, bit (s.world w).dbmctl.toNat 0 = false) →
    ∀ i ∈ [Instr.atom f, .atomr f, .cas f], o.instr = i → (i ≠ .cas f → f.c.immVal < 10) →
      let new : Nat := if i = .cas f then (if m = o.b then o.c else m)
        else if f.ty.isFloat then atomFloat f.ty f.c.immVal m o.b % 2 ^ f.ty.bits
        else (atomBv f.c.immVal f.ty.isSigned old b).toNat
      ∃ s', exec (.tollgatePass o.id) s = .next s' ∧ s.Completed s' o ∧ s'.memNat l n = new ∧
        (∀ k, k ∉ o.locs → s'.memByte k = s.memByte k) ∧
        (s'.thread o.who).slices = if i = .atom f then (s.thread o.who).slices
          else slicesSet (s.thread o.who).slices f.d.start.toNat f.d.w.bits (destValue f.d f.ty.bits f.ty.isSigned m)) ∧
  (∀ (s : State) (o : Op) (g : OrderLog), s.op? o.id = some o → s.heldLong o = true →
    s.log? (s.team o.who.team).launch = some g →
    ∃ s' g', exec (.replayHoldTimeout o.id) s = .next s' ∧ s'.log? g.launch = some g' ∧ g'.diverged = true ∧
      bankOf (s.ipaOf (s.worldOf o.who) o.homePlace) ∈ g'.abandoned ∧ g'.banks = g.banks ∧ s'.mem = s.mem ∧
      s'.threads = s.threads ∧ s'.ops = s.ops)
  )

/-! ### Group 0xB and the fabric -/

/-- R415, R419, R420, R423, R424, R425: the issue of RPUT, RGET, FEVT, FBAR, CRED and CREDB: a transfer at the end of its
channel's queue, an entry of the event map, an arrival to be made; or their traps and FAULTED words. FBWAIT stands until its
phase has completed, and FABRIC_ERROR follows a FAULTED word. FABRIC_BARRIER_ARRIVAL on a device that is its own relay tree
counts the arrival down, ends the phase at the last one, and answers CRED with the combination of the phase's values and CREDB
with the rounded sums. -/
def Obligations.FabricInstructions : Prop :=
  (∀ (f : CwF) (s : State) (t : TRef),
    let x := s.thread t
    let w := s.worldOf t
    let n := s.opnd32 t f.b
    let b := s.barNow w f.pod n
    let trapped := fun (i : Instr) (code info : BitVec 8) (a : W64) =>
      ∃ s', exec i s = .next s' ∧ s'.ops = s.ops ∧ (s'.thread t).trap = some ⟨code, info, x.pc, x.pc, a, false⟩
    let ends := fun (i : Instr) (v : Nat) => ∃ s', exec i s = .next s' ∧ s'.thread t = x.finished f.toCommon v
    (∀ e ∈ [(Instr.rput f, CopyKind.rput), (.rget f, .rget)], s.Alone t e.1 f.toCommon → s.queueFull t.team f.ch = false →
      s.FreshOps → s.atIssue t.team f.ch = [] →
      let k := s.opnd32 t f.c
      (∀ r, s.tileOf t.team f.h = .error r → trapped e.1 0x18 r 0) ∧
      (∀ y, s.tileOf t.team f.h = .ok y →
        ((y.rowWhole = false ∨ y.rows * y.rowBytes < k + n) →
          ∃ s', exec e.1 s = .next s' ∧ s'.thread t = x.finished f.toCommon (3 + 256 * f.ch.toNat) ∧
            (s'.channel t.team f.ch).fault = 2#7 ++ 0#57) ∧
        (y.rowWhole = true → k + n ≤ y.rows * y.rowBytes → n = 0 → ends e.1 (256 * f.ch.toNat)) ∧
        (y.rowWhole = true → k + n ≤ y.rows * y.rowBytes → n ≠ 0 → s.wbuf = [] →
          ∃ s' o c, exec e.1 s = .next s' ∧ s'.thread t = x.started f.toCommon ∧ o ∈ s'.ops ∧
            o.StartedIn s t e.1 f.toCommon (s.opnd64 t f.a) n k (2 ^ t.lane) ∧ o.phase = .queued ∧ o.tiles = [y.id] ∧
            c ∈ s'.copies ∧ c.op = o.id ∧ c.kind = e.2 ∧ c.team = t.team ∧ c.ch = f.ch ∧ c.tile = y.id ∧ c.count = n ∧
            c.tbyte = k ∧ c.addr = BitVec.ofNat 64 (s.opnd64 t f.a) ∧ c.world = w ∧ c.done = 0 ∧
            c.tag = (if f.ten then some f.tag else none) ∧
            (s'.channel t.team f.ch).queue = (s.channel t.team f.ch).queue ++ [c.id]))) ∧
    (s.Alone t (.fevt f) f.toCommon → s.FreshOps →
      let others := (s.world w).events.filter fun e => e.1 ≠ f.tag
      let had := if (s.world w).events.any (fun e => e.1 = f.tag) then 2 ^ 16 else 0
      let sets := fun (l : List (BitVec 8 × BarRef × Nat)) =>
        ∃ s', exec (.fevt f) s = .next s' ∧ s'.thread t = x.finished f.toCommon had ∧ (s'.world w).events = others ++ l
      (f.c = .imm 0x3FF → sets []) ∧
      (f.c ≠ .imm 0x3FF → f.c.bits ≠ 64 →
        (∀ q, s.tileObject t.team f.h (s.opnd32 t f.c) = .ok q → sets [(f.tag, q, t.team)]) ∧
        (∀ code info a, s.tileObject t.team f.h (s.opnd32 t f.c) = .trap code info a → trapped (.fevt f) code info a)) ∧
      (f.c.bits = 64 →
        let a := BitVec.ofNat 64 (s.opnd64 t f.c)
        let r := s.issuedOp t (.fevt f) f.toCommon 0 0 (s.opnd64 t f.c) 0
        (canonical a = false → trapped (.fevt f) 0x11 0 a) ∧
        (canonical a = true → a.toNat % 16 ≠ 0 → trapped (.fevt f) 0x12 0 a) ∧
        (∀ l s₁, canonical a = true → a.toNat % 16 = 0 → r.2.memObject (r.2.opCtx r.1) .rmw a = (.ok (.mem l), s₁) →
          (l.isLocal = true → sets [(f.tag, .mem l, 0)]) ∧ (l.isLocal = false → ends (.fevt f) 3)))) ∧
    (s.Alone t (.fbar f) f.toCommon →
      (s.barRefuses w f.pod n = true →
        ends (.fbar f) (3 + if n < fabLimit f.pod ∧ (s.bar w f.pod n).ovr = true then 2 ^ 9 else 0)) ∧
      (s.barRefuses w f.pod n = false →
        ∃ s' o, exec (.fbar f) s = .next s' ∧ s'.thread t = x.started f.toCommon ∧ o ∈ s'.ops ∧ o.phase = .pending ∧
          o.StartedIn s t (.fbar f) f.toCommon (s.opnd32 t f.a) n 0 (if f.pod then 1 else 0))) ∧
    (s.Alone t (.cred f) f.toCommon →
      (s.barRefuses w false n = true → ends (.cred f) (3 * 2 ^ 64)) ∧
      (s.barRefuses w false n = false →
        ∃ s' o, exec (.cred f) s = .next s' ∧ s'.thread t = x.started f.toCommon ∧ o ∈ s'.ops ∧ o.phase = .pending ∧
          o.StartedIn s t (.cred f) f.toCommon (s.opnd t f.a f.ty) n 0 0)) ∧
    (s.Alone t (.credb f) f.toCommon → s.FreshOps →
      (∀ r, s.tileOf t.team f.h = .error r → trapped (.credb f) 0x18 r 0) ∧
      (∀ y, s.tileOf t.team f.h = .ok y →
        (y.ew ≠ 32 → trapped (.credb f) 0x18 9 0) ∧
        (y.ew = 32 → s.barRefuses w false n = true → ends (.credb f) 3) ∧
        (y.ew = 32 → s.barRefuses w false n = false →
          ∃ s' o, exec (.credb f) s = .next s' ∧ s'.thread t = x.started f.toCommon ∧ o ∈ s'.ops ∧ o.phase = .pending ∧
            o.StartedIn s t (.credb f) f.toCommon 0 n 0 0 ∧ o.tiles = [y.id]))) ∧
    (let stands := n < fabLimit f.pod ∧ b.brk = false ∧ b.phase = (s.opnd32 t f.a).testBit 8
     let st := if b.brk then 3 else b.status
     let word := st + (if b.phase then 2 ^ 8 else 0) + (if b.ovr then 2 ^ 9 else 0) + 2 ^ 10
     (stands → s.Runs t (.fbwait f) f.toCommon → s.issue.threads = [t] → exec (.fbwait f) s = .next s) ∧
     (s.Alone t (.fbwait f) f.toCommon →
      (fabLimit f.pod ≤ n → ends (.fbwait f) 3) ∧
      (n < fabLimit f.pod → ¬ stands → st ≠ 3 → ends (.fbwait f) word) ∧
      (n < fabLimit f.pod → ¬ stands → st = 3 →
        ∃ s', exec (.fbwait f) s = .next s' ∧ s'.thread t =
          (x.finished f.toCommon word).trapsAfter 0x22 (BitVec.ofNat 8 (n + if f.pod then 128 else 0)) x.pc)))) ∧
  (∀ (f : CwF) (s : State) (o : Op), s.HasOp o → o.clobber = 0 → o.phase = .pending → s.arrivalDue o = true →
    s.ops.filter (fun p => p.id = o.id) = [o] → (∀ p ∈ s.ops, p.id ≠ o.id → p.phase = .remote → p.who ≠ o.who) →
    let w := s.worldOf o.who
    let pod : Bool := o.x = 1
    let b := s.barNow w pod o.b
    let run := exec (.fabricBarrierArrival o.id) s
    let d := fun (v : Nat) => slicesSet (s.thread o.who).slices f.d.start.toNat f.d.w.bits v
    s.barRefuses w pod o.b = false → s.relay w pod = (none, []) → b.sent = false → b.held = false → b.heard = [] →
    b.next = [] →
    (o.instr = .fbar f → (∀ c ∈ b.current, c.1 = 0) →
      let ovr := b.ovr || decide (b.count < o.a)
      ∃ s', run = .next s' ∧ s.Completed s' o ∧
        (s'.thread o.who).slices = d ((if b.phase then 2 ^ 8 else 0) + if ovr then 2 ^ 9 else 0) ∧
        (s'.bar w pod o.b).ovr = ovr ∧
        (o.a < b.count → (s'.bar w pod o.b).count = b.count - o.a ∧ (s'.bar w pod o.b).phase = b.phase) ∧
        (b.count ≤ o.a → (s'.bar w pod o.b).count = b.reload ∧ (s'.bar w pod o.b).phase = !b.phase ∧
          (s'.bar w pod o.b).status = 0)) ∧
    (o.instr = .cred f → b.count = 1 → ∀ vs : List Nat, b.current = vs.map (fun v => (credKind f.op.toNat f.ty.code, [v])) →
      let all := vs ++ [o.a]
      ∃ s', run = .next s' ∧ s.Completed s' o ∧ (s'.bar w pod o.b).phase = !b.phase ∧
        (s'.thread o.who).slices = d (all.tail.foldl (fun u v => atomNew f.ty f.op.toNat u v) (all.headD 0) +
          2 ^ 64 * (2 ^ 16 * min all.length 0xFFFF))) ∧
    (∀ y, o.instr = .credb f → b.count = 1 → b.current = [] → o.tiles = [y.id] → s.tile? y.id = some y →
      ∃ s', run = .next s' ∧ s.Completed s' o ∧ (s'.bar w pod o.b).phase = !b.phase ∧
        (s'.tile? y.id).map (·.poison) = some [] ∧ (s'.thread o.who).slices = d (2 ^ 16))) ∧
  (∀ (s : State) (w n : Nat) (pod : Bool), n < fabLimit pod →
    let b := s.barNow w pod n
    (∃ s', exec (.barrierBroken w pod n) s = .next s' ∧ (s'.bar w pod n).brk = true ∧ (s'.bar w pod n).phase = !b.phase ∧
      (s'.bar w pod n).status = 3 ∧ ∀ p ∈ s.redsOf w pod n none, s.resident p.who.team = true → ∀ q ∈ s'.ops, q.id ≠ p.id) ∧
    (s.power = true → ∃ s', exec (.fbcfgBrkClear w pod n) s = .next s' ∧ s'.bar w pod n =
      { b with brk := false, count := b.reload, sent := false, held := false, current := [], next := [], awake := false,
               sentUp := false, heard := [] }) ∧
    (s.power = true → ∃ s', exec (.fbcfgOvrClear w pod n) s = .next s' ∧ s'.bar w pod n = { s.bar w pod n with ovr := false })) ∧
  (∀ (p : Nat) (s : State), exec (.flitRetransmit p) s = .next s) ∧
  (∀ (f : MemF) (s : State) (r : Remote) (o : Op), s.remotes = [r] → s.remoteLate r = true → r.copy = 0 → s.copy? 0 = none →
    r.op = o.id → r.use = .own → s.HasOp o → o.instr = .ld f → o.phase = .remote → s.askers r = [o] →
    (o.locs.head?.map (·.line)) = some (Loc.line ⟨false, r.addr⟩) → (s.world r.world).ringOn = true →
    (s.thread o.who).trap = none →
    ∃ s', exec (.remoteTimeout r.id) s = .next s' ∧ s.Completed s' o ∧ s'.remotes = [] ∧
      (s'.thread o.who).trap = some ⟨0x11, 0, o.pc, o.pc, BitVec.ofNat 64 o.a, false⟩ ∧
      ∃ g ∈ s'.faults, g.kind = 0x12 ∧ g.notice = true ∧ g.world = r.world ∧ g.va = BitVec.ofNat 64 o.a)

namespace Sys2Proof.Machine

/-- Flit x arrives as the next of its link, for this device, and nothing is in the way of receiving it (R411). -/
def State.Gets (s : State) (x : Flit) : Prop :=
  s.inbox.contains x = false ∧ x.seq = ((s.links.find? (·.1 = 0)).getD (0, 0, 0)).2.2 ∧ x.dst.toNat = s.deviceNum ∧
    s.power = true ∧ s.halted = false

/-- The state after flit x has one flit more to send: the answer to it, of a kind and with a payload. -/
def State.Answers (s s' : State) (x : Flit) (kind : BitVec 4) (payload : List Byte) : Prop :=
  ∃ y : Flit, s'.flits = s.flits ++ [(0, y)] ∧ y.kind = kind ∧ y.dst = x.src ∧ y.world = x.world ∧ y.xfer = x.xfer ∧
    y.line = x.line ∧ y.gen = (s.world x.world.toNat).fsend ∧ y.payload = payload

end Sys2Proof.Machine

/-- R144, R408, R409, R411, R417, R420, R421, R422, R426: a flit that arrives writes, reads or updates this device's own
memory and is answered, or is refused; an answer lets the request's instruction go on; a contribution is heard and passed
on, or ends the phase at the root of the relay tree, and the release of a phase flips it on the devices below. The form of
the payloads is the model's (DESIGN CHOICE, log entry 20). -/
def Obligations.FabricFlits : Prop :=
  (∀ (s : State) (x : Flit), s.Gets x → x.ev = false → x.first ≤ x.last →
    let l := flitPlace x
    let n := flitCount x
    let away := fun (s' : State) => ∀ k : Loc, (k.host = true ∨ k.addr < l.addr ∨ l.addr + n ≤ k.addr) →
      s'.memByte k = s.memByte k
    (∀ e ∈ [(Instr.flitWrite x, Acc.write, 5#4), (.flitReadRequest x, .read, 2), (.flitRmwRequest x, .rmw, 4)], ∀ st,
      s.refusal x e.2.1 = some st →
      ∃ s', exec e.1 s = .next s' ∧ s'.mem = s.mem ∧ s.Answers s' x e.2.2 [BitVec.ofNat 8 st]) ∧
    (s.ownedLine l.line = false → s.MemOk → (∀ w, bit (s.world w).dbmctl.toNat 0 = false) →
      (s.refusal x .write = none → x.payload.length = n →
        ∃ s', exec (.flitWrite x) s = .next s' ∧ s'.memBytes l n = x.payload ∧ away s' ∧ s.Answers s' x 5 [0]) ∧
      (s.refusal x .write = none → x.payload = [] →
        ∃ s', exec (.flitWrite x) s = .next s' ∧ s'.mem = s.mem ∧ s'.poisoned l = true ∧ s.Answers s' x 5 [0]) ∧
      (s.refusal x .read = none → s.poisoned l = false →
        ∃ s', exec (.flitReadRequest x) s = .next s' ∧ s'.mem = s.mem ∧ s.Answers s' x 2 (0 :: s.memBytes l n)) ∧
      (s.refusal x .read = none → s.poisoned l = true →
        ∃ s', exec (.flitReadRequest x) s = .next s' ∧ s'.mem = s.mem ∧ s.Answers s' x 2 [1]) ∧
      (s.refusal x .rmw = none → s.poisoned l = true → workItem x.payload = none →
        ∃ s', exec (.flitRmwRequest x) s = .next s' ∧ s'.mem = s.mem ∧ s.Answers s' x 4 [1]) ∧
      (∀ (ty : Ty) (k a b : Nat), s.refusal x .rmw = none → s.poisoned l = false → k < 16 → a < 2 ^ 64 → b < 2 ^ 64 →
        x.payload = [BitVec.ofNat 8 k, BitVec.ofNat 8 ty.code, 0, 0, 0, 0, 0, 0] ++ toBytes a 8 ++ toBytes b 8 →
        let m := s.memNat l n
        let new := if k = 15 then (if m = a then b else m) else atomNew ty k m a
        ∃ s', exec (.flitRmwRequest x) s = .next s' ∧ s'.memNat l n = new % 2 ^ (8 * n) ∧ away s' ∧
          s.Answers s' x 4 (0 :: toBytes m 24)))) ∧
  (∀ (s : State) (x : Flit), s.Gets x → x.ev = true → x.last < x.first →
    let w := x.world.toNat
    ((s.world w).events.find? (fun e => e.1 = x.tag) = none →
      ∃ s', exec (.flitWrite x) s = .next s' ∧ (s'.world w).cwdrop = (s.world w).cwdrop + 1 ∧ s'.mem = s.mem ∧
        s.Answers s' x 5 [0]) ∧
    (∀ l k, (s.world w).events.find? (fun e => e.1 = x.tag) = some (x.tag, .mem l, k) → (s.obj (.mem l)).malformed = false →
      s.ownMemory w l 16 .rmw = true → 8 ≤ x.payload.length →
      ∃ s', exec (.flitWrite x) s = .next s' ∧
        s'.mem = (s.count (.mem l) false (ofBytes (x.payload.drop (x.payload.length - 8)))).2.mem)) ∧
  (∀ (f : MemF) (s : State) (x : Flit) (r : Remote) (o : Op), s.Gets x → s.remotes = [r] → r.copy = 0 → s.copy? 0 = none →
    r.op = o.id → r.use = .own → s.HasOp o → o.clobber = 0 → r.id % 2 ^ 22 = x.xfer.toNat → r.target = x.src.toNat →
    r.done = false →
    let body := fun (st : Byte) (bs : List Byte) => x.payload = st :: bs
    let trapped := fun (i : Instr) (code : BitVec 8) => ∃ s', exec i s = .next s' ∧ s.Completed s' o ∧ s'.remotes = [] ∧
      (s'.thread o.who).trap = some ⟨code, 0, o.pc, o.pc, BitVec.ofNat 64 o.a, false⟩
    (r.kind = flRead → o.instr = .ld f → s.askers r = [o] → o.phase = .remote →
      (∀ bs, body 0 bs → bs.length = r.bytes →
        ∃ s' p, exec (.flitReadData x) s = .next s' ∧ s'.remotes = [] ∧ p ∈ s'.ops ∧ p.id = o.id ∧ p.phase = .pending ∧
          ∀ j < r.bytes, ⟨false, r.addr + j⟩ ∈ o.locs → 256 * (r.addr + j) + (bs.getD j 0).toNat ∈ p.data) ∧
      ((s.thread o.who).trap = none → (o.locs.head?.map (·.line)) = some (Loc.line ⟨false, r.addr⟩) →
        (∀ bs, body 1 bs → trapped (.flitReadData x) 0x13) ∧ (∀ bs, body 2 bs → trapped (.flitReadData x) 0x11))) ∧
    (r.kind = flRmw → o.instr = .atomr f →
      (∀ v, body 0 (toBytes v 8) → v < 2 ^ f.ty.bits →
        ∃ s', exec (.flitRmwResult x) s = .next s' ∧ s.Completed s' o ∧ s'.remotes = [] ∧
          (s'.thread o.who).slices =
            slicesSet (s.thread o.who).slices f.d.start.toNat f.d.w.bits (destValue f.d f.ty.bits f.ty.isSigned v)) ∧
      ((s.thread o.who).trap = none → (∀ bs, body 1 bs → trapped (.flitRmwResult x) 0x13) ∧
        (o.phase = .remote → ∀ bs, body 2 bs → trapped (.flitRmwResult x) 0x11))) ∧
    (r.kind = flWrite → o.instr = .st f → o.phase = .buffered → (∀ e ∈ s.wbuf, e.op ≠ o.id) → body 0 [] →
      ∃ s', exec (.flitAcknowledgement x) s = .next s' ∧ s.Completed s' o ∧ s'.remotes = [])) ∧
  (∀ (s : State) (x : Flit), s.Gets x →
    let w := x.world.toNat
    let pod := flitPod x
    let n := flitBar x
    let b := s.barNow w pod n
    let k := flitSender x
    let mixed : Prop := x.gen ≠ (s.world w).fsend ∨ x.payload.headD 0 ≠ 0
    n < fabLimit pod → x.payload ≠ [] → b.awake = true → b.brk = false → b.sentUp = false → b.heard = [] → b.enNow = true →
    s.bar w pod n = b →
    (∀ up, s.relay w pod = (up, [k]) → b.sent = false → ¬ mixed →
      ∃ s', exec (.flitContribution x) s = .next s' ∧ s'.flits = s.flits ∧
        s'.bar w pod n = { b with heard := [(k, false, readContribs x.payload.length (x.payload.drop 1))] }) ∧
    (∀ up, s.relay w pod = (some up, [k]) → b.sent = true →
      ∃ s', exec (.flitContribution x) s = .next s' ∧ (s'.bar w pod n).sentUp = true ∧ (s'.bar w pod n).phase = b.phase ∧
        ∃ y : Flit, s'.flits = s.flits ++ [(0, y)] ∧ y.kind = 6 ∧ y.dst = BitVec.ofNat 9 (up % 512) ∧ y.world = x.world) ∧
    (s.relay w pod = (none, [k]) → b.sent = true → b.held = false → b.next = [] →
      (mixed → ∃ s', exec (.flitContribution x) s = .next s' ∧ (s'.bar w pod n).phase = !b.phase ∧
        (s'.bar w pod n).status = 5) ∧
      (¬ mixed → (∀ c ∈ b.current ++ readContribs x.payload.length (x.payload.drop 1), c.1 = 0) →
        ∃ s', exec (.flitContribution x) s = .next s' ∧ (s'.bar w pod n).phase = !b.phase ∧ (s'.bar w pod n).status = 0 ∧
          ∃ y : Flit, s'.flits = s.flits ++ [(0, y)] ∧ y.kind = 7 ∧ y.dst = BitVec.ofNat 9 (k % 512)))) ∧
  (∀ (s : State) (x : Flit), s.Gets x →
    let w := x.world.toNat
    let pod := flitPod x
    let n := flitBar x
    let b := s.barNow w pod n
    n < fabLimit pod → (s.relay w pod).1 = some (flitSender x) → x.payload ≠ [] →
    ∃ s', exec (.flitRelease x) s = .next s' ∧ (s'.bar w pod n).phase = (!b.phase) ∧
      (s'.bar w pod n).status = (x.payload.headD 0).toNat ∧
      ∀ p ∈ s.redsOf w pod n (some b.phase), s.resident p.who.team = true → ∀ q ∈ s'.ops, q.id ≠ p.id)

/-! ### Kraord's command rings -/

namespace Sys2Proof.Machine

/-- Command c of an opcode stands at its ring's head, alone in the ring (R450, R451). -/
def State.Heads (s : State) (c : Cmd) (op : Nat) : Prop :=
  s.takes c op = true ∧ (s.world c.ring).ring.head + 1 = (s.world c.ring).ring.tail ∧ s.MemOk

/-- Command c has been answered with a status and a reason: its completion record stands in the host's memory, vector 2 of the
physical function is signalled, and the ring has gone on to the next number (R450, R456). -/
def State.Commanded (s s' : State) (c : Cmd) (st reason : Nat) : Prop :=
  s'.memNat ⟨true, c.done.toNat⟩ 16 = c.seq.toNat + st * 2 ^ 64 + reason * 2 ^ 72 ∧ (s'.world 0).msix.getLsbD 2 = true ∧
    (s'.world c.ring).ring.seq = (s.world c.ring).ring.seq + 1 ∧ (s'.world c.ring).ring.head = (s.world c.ring).ring.head + 1

end Sys2Proof.Machine

/-- R31, R33, R274, R394, R400, R407, R431 to R438, R441 to R444, R448 to R453: a command at the head of a ring is answered:
with its effect where its conditions hold, with a refusal and no effect where they do not; S2MAP, S2UNMAP and PULLSET stand
while accesses use the range, and TREKEY goes from line to line. KRTAIL_DOORBELL tests the records of a ring in the order of
R451 and R452, and KRSYNCT_CHECK resumes a halted ring. The reasons of refusals that no rule
lists are the model's (DEDUCED, log entry 86), and so is the refusal of an S2MAP of memory that the device does not have (DESIGN
CHOICE, log entry 105); what a signature or a tag proves is a free value, and the length of a wrapped block is the model's
(DEDUCED, log entry 14). -/
def Obligations.Commands : Prop :=
  (∀ (s : State) (c : Cmd),
    let w := c.ring
    let x := s.world w
    let gives := fun (i : Instr) (st reason : Nat) (post : State → Prop) =>
      ∃ s', exec i s = .next s' ∧ s.Commanded s' c st reason ∧ post s'
    let refuses := fun (i : Instr) (reason : Nat) => gives i 3 reason fun (s' : State) => s'.mem = s.mem ∧ s'.s2 = s.s2 ∧
      s'.tensors = s.tensors ∧ s'.regKeys = s.regKeys ∧ s'.parts = s.parts ∧ s'.mgmt = s.mgmt ∧ s'.launches = s.launches ∧
      (s'.world w).bound = x.bound ∧ (s'.world w).fcur = x.fcur
    (∀ n, s.Heads c 1 →
      (x.tdi = .locked → x.bound = false → s.leaf n = true → gives (.bind c n) 0 0 fun (s' : State) =>
        (s'.world w).bound = true ∧ (s'.world w).part = n ∧ (s'.world w).memKey.isSome = true ∧
          (s'.world w).frameKey.isSome = true ∧ (s'.world w).fcur = none ∧ ∀ y ∈ s'.slots, y.world ≠ w) ∧
      ((x.tdi ≠ .locked ∨ x.bound = true ∨ s.leaf n = false) → refuses (.bind c n) 2)) ∧
    (s.Heads c 2 →
      (w ≠ 0 → x.bound = true → gives (.unbind c) 0 0 fun (s' : State) =>
        (s'.world w).bound = false ∧ (s'.world w).memKey = none ∧ (s'.world w).fcur = none ∧
          (∀ m ∈ s'.s2, m.world ≠ w) ∧ (∀ y ∈ s'.tensors, y.world ≠ w) ∧ (∀ k ∈ s'.regKeys, k.2.1 ≠ w) ∧
          (∀ y ∈ s'.slots, y.world ≠ w) ∧ ∀ n ∈ s.worldLines w, n ∈ s'.poison) ∧
      ((w = 0 ∨ x.bound = false) → refuses (.unbind c) 2)) ∧
    (∀ e ∈ [(3, Instr.s2map c 0 0 0 true true true 0 false), (4, .s2unmap c 0 0), (5, .s2refuse c w 0), (6, .tdef c 1 0 0),
        (8, .tretire c 1), (9, .keyreg c 1 0), (10, .keydrop c 1), (11, .imgput c 0), (12, .fkeyLoad c 0 0), (12, .fkeySend c 0),
        (13, .preempt c 0 0), (14, .wexport c 0 0), (15, .wimport c 0), (16, .pullset c 0 0 0)],
      s.Heads c e.1 → s.accepts w = false → s.s2InUse w 0 4096 = false → s.s2InUse w 0 0 = false → refuses e.2 2) ∧
    (s.accepts w = true →
      (∀ (ipa pa : W64) (size tensor : Nat) (r wr ex pull : Bool), s.Heads c 3 →
        let i := Instr.s2map c ipa size pa r wr ex tensor pull
        let n := s2Bytes size
        let m : S2Map := ⟨w, ipa.toNat, n, pa.toNat, r, wr, ex, tensor, pull, 0⟩
        let formed := s2RangeOk ipa size = true ∧ pa.toNat % n = 0 ∧ pa.toNat < 2 ^ 52 ∧ tensor < 65536 ∧
          (2 ^ 51 ≤ pa.toNat ∨ pa.toNat + n ≤ localBytes)
        (s.s2InUse w ipa.toNat (ipa.toNat + n) = true → exec i s = .next s) ∧
        (s.s2InUse w ipa.toNat (ipa.toNat + n) = false →
          (¬ formed → refuses i 1) ∧
          (formed → s.s2Conflict w pa.toNat n = true → refuses i 3) ∧
          (formed → s.s2Conflict w pa.toNat n = false → s.s2Faults w = [] → gives i 0 0 fun (s' : State) =>
            m ∈ s'.s2 ∧ (∀ y ∈ s'.s2, y.world = w → y = m ∨ y.ipa + y.bytes ≤ ipa.toNat ∨ ipa.toNat + n ≤ y.ipa) ∧
              (∀ y ∈ s.s2, y.world ≠ w → y ∈ s'.s2) ∧ (∀ y ∈ s'.tlb, y.world ≠ w) ∧ s'.mem = s.mem))) ∧
      (∀ (ipa : W64) (size : Nat), s.Heads c 4 →
        let hi := ipa.toNat + s2Bytes size
        (s.s2InUse w ipa.toNat hi = true → exec (.s2unmap c ipa size) s = .next s) ∧
        (s.s2InUse w ipa.toNat hi = false → s2RangeOk ipa size = false → refuses (.s2unmap c ipa size) 1) ∧
        (s.s2InUse w ipa.toNat hi = false → s2RangeOk ipa size = true → gives (.s2unmap c ipa size) 0 0 fun (s' : State) =>
          (∀ y ∈ s'.s2, y.world = w → y.ipa + y.bytes ≤ ipa.toNat ∨ hi ≤ y.ipa) ∧ (∀ y ∈ s.s2, y.world ≠ w → y ∈ s'.s2) ∧
            (∀ y ∈ s'.tlb, y.world ≠ w) ∧ s'.mem = s.mem)) ∧
      (∀ (v id : Nat), s.Heads c 5 →
        (w ≠ v ∨ (∀ f ∈ s.s2Faults w, f.num ≠ some (BitVec.ofNat 32 id)) → refuses (.s2refuse c v id) 2) ∧
        (∀ f l, v = w → id < 2 ^ 32 → s.s2Faults w = [f] → f.num = some (BitVec.ofNat 32 id) → s.FaultOfLaunch f l →
          gives (.s2refuse c v id) 0 0 fun (s' : State) => s'.endedWith l.world l.queue l.ticket 3)) ∧
      (∀ (ipa : W64) (bytes source : Nat), s.Heads c 16 →
        let hi := ipa.toNat + bytes
        let formed := ipa.toNat % 4096 = 0 ∧ bytes % 4096 = 0 ∧ hi ≤ 2 ^ 52 ∧ source < 432
        (s.s2InUse w ipa.toNat hi = true → exec (.pullset c ipa bytes source) s = .next s) ∧
        (s.s2InUse w ipa.toNat hi = false → ¬ formed → refuses (.pullset c ipa bytes source) 1) ∧
        (s.s2InUse w ipa.toNat hi = false → formed → gives (.pullset c ipa bytes source) 0 0 fun (s' : State) =>
          (∀ m ∈ s'.s2, m.world = w → m.ipa < hi → ipa.toNat < m.ipa + m.bytes → m.pull = true ∧ m.source = source) ∧
            (∀ y ∈ s.s2, y.world ≠ w → y ∈ s'.s2) ∧ ∀ y ∈ s'.tlb, y.world ≠ w)) ∧
      (∀ (index : Nat) (tensor : BitVec 32) (base : W64), s.Heads c 6 →
        let formed := index ≠ 0 ∧ index < 65536 ∧ tensor ≠ BitVec.allOnes 32 ∧ base.toNat % 128 = 0 ∧ base.toNat < 2 ^ 52
        (¬ formed → refuses (.tdef c index tensor base) 1) ∧
        (formed → (∃ y ∈ s.tensors, y.index = index) → refuses (.tdef c index tensor base) 3) ∧
        (formed → (∀ y ∈ s.tensors, y.index ≠ index) → gives (.tdef c index tensor base) 0 0 fun (s' : State) =>
          s'.tensors = s.tensors ++ [⟨index, w, tensor, base, 0, false, 0⟩])) ∧
      (∀ index, s.Heads c 7 →
        (s.tensor? w index = none → refuses (.trekey c index) 2) ∧
        (∀ y, s.tensor? w index = some y →
          (y.version = BitVec.allOnes 32 → refuses (.trekey c index) 4) ∧
          (y.version ≠ BitVec.allOnes 32 → y.rekeying = false → ∃ s', exec (.trekey c index) s = .next s' ∧
            s'.tensor? w index = some { y with rekeying := true, cursor := 0 } ∧ s'.mem = s.mem) ∧
          (y.version ≠ BitVec.allOnes 32 → y.rekeying = true → y.cursor < s.tensorLines y →
            ((∃ l, s.cursorPlace y = some l ∧ s.ownedLine l.line = true) → exec (.trekey c index) s = .next s) ∧
            ((∀ l, s.cursorPlace y = some l → s.ownedLine l.line = false) → ∃ s', exec (.trekey c index) s = .next s' ∧
              s'.tensor? w index = some { y with cursor := y.cursor + 1 } ∧ s'.mem = s.mem)) ∧
          (y.version ≠ BitVec.allOnes 32 → y.rekeying = true → s.tensorLines y ≤ y.cursor →
            gives (.trekey c index) 0 0 fun (s' : State) =>
              s'.tensor? w index = some { y with version := y.version + 1, rekeying := false, cursor := 0 } ∧ s'.mem = s.mem))) ∧
      (∀ index, s.Heads c 8 →
        let used := ∃ m ∈ s.s2, m.world = w ∧ m.tensor = index
        ((s.tensor? w index = none ∨ used) → refuses (.tretire c index) 2) ∧
        (s.tensor? w index ≠ none → ¬ used → gives (.tretire c index) 0 0 fun (s' : State) =>
          ∀ y, y ∈ s'.tensors ↔ y ∈ s.tensors ∧ ¬ (y.index = index ∧ y.world = w))) ∧
      (∀ index key, s.Heads c 9 →
        ((index = 0 ∨ 256 ≤ index) → refuses (.keyreg c index key) 1) ∧
        (index ≠ 0 → index < 256 → (∃ k ∈ s.regKeys, k.1 = index) → refuses (.keyreg c index key) 3) ∧
        (index ≠ 0 → index < 256 → (∀ k ∈ s.regKeys, k.1 ≠ index) → gives (.keyreg c index key) 0 0 fun (s' : State) =>
          s'.regKeys = s.regKeys ++ [(index, w, key)])) ∧
      (∀ index, s.Heads c 10 →
        ((∃ k ∈ s.regKeys, k.1 = index ∧ k.2.1 ≠ w) → refuses (.keydrop c index) 3) ∧
        ((∀ k ∈ s.regKeys, k.1 ≠ index) → refuses (.keydrop c index) 2) ∧
        ((∃ k ∈ s.regKeys, k.1 = index) → (∀ k ∈ s.regKeys, k.1 = index → k.2.1 = w) →
          gives (.keydrop c index) 0 0 fun (s' : State) => ∀ k, k ∈ s'.regKeys ↔ k ∈ s.regKeys ∧ k.1 ≠ index)) ∧
      (∀ addr : W64, s.Heads c 11 →
        let head := s.memBytes ⟨true, addr.toNat⟩ 128
        let image := s.memBytes ⟨true, addr.toNat⟩ (if imageLengthOk (imageLength head) then imageLength head else 128)
        gives (.imgput c addr) (match (s.verifyImage w image).1 with | .ok _ => 0 | .refused st _ => st)
          (match (s.verifyImage w image).1 with | .ok _ => 0 | .refused _ why => why)
          fun (s' : State) => s'.images = (s.verifyImage w image).2.images) ∧
      (∀ (gen : BitVec 16) (key : Nat), s.Heads c 12 →
        (x.fcur = none → gives (.fkeyLoad c gen key) 0 0 fun (s' : State) =>
          (s'.world w).fcur = some (gen, key) ∧ (s'.world w).fprev = none ∧ (s'.world w).fsend = gen) ∧
        (∀ g k, x.fcur = some (g, k) →
          (gen = g + 1 → x.fsend = g → gives (.fkeyLoad c gen key) 0 0 fun (s' : State) =>
            (s'.world w).fcur = some (gen, key) ∧ (s'.world w).fprev = some (g, k) ∧ (s'.world w).fsend = g) ∧
          ((gen ≠ g + 1 ∨ x.fsend ≠ g) → refuses (.fkeyLoad c gen key) 2)) ∧
        (x.fcur.map (·.1) = some gen → gives (.fkeySend c gen) 0 0 fun (s' : State) => (s'.world w).fsend = gen) ∧
        (x.fcur.map (·.1) ≠ some gen → refuses (.fkeySend c gen) 2)) ∧
      (∀ queue ticket, s.Heads c 13 →
        let find := fun (l : Launch) => l.world = w && l.queue = queue && l.ticket.toNat = ticket && (l.state = .running || l.onLadder)
        (s.launches.find? find = none → refuses (.preempt c queue ticket) 2) ∧
        (∀ l, s.launches.find? find = some l → gives (.preempt c queue ticket) 0 0 fun (s' : State) =>
          s'.launches = (s.startLadder l 4).launches ∧ s'.threads = (s.startLadder l 4).threads)) ∧
      (∀ chain buffer : W64, s.Heads c 14 →
        let good := Config.signatureOk 0 (s.memBytes ⟨true, chain.toNat⟩ wrapBytes)
        gives (.wexport c chain buffer) (if good then 0 else 7) 0 fun (s' : State) => s'.mem = s.mem ∧
          ∀ a, (a < c.done.toNat ∨ c.done.toNat + 16 ≤ a) → (good = false ∨ a < buffer.toNat ∨ buffer.toNat + wrapBytes ≤ a) →
            s'.memByte ⟨true, a⟩ = s.memByte ⟨true, a⟩) ∧
      (∀ buffer : W64, s.Heads c 15 →
        let good := Config.signatureOk 1 (s.memBytes ⟨true, buffer.toNat⟩ wrapBytes)
        gives (.wimport c buffer) (if good then 0 else 7) 0 fun (s' : State) =>
          if good = true then (s'.world w).memKey.isSome = true ∧ (s'.world w).frameKey.isSome = true ∧ (s'.world w).fcur.isSome = true
          else (s'.world w).memKey = x.memKey ∧ (s'.world w).fcur = x.fcur)) ∧
    (∀ desc : BitVec 1024, s.Heads c 0x20 →
      let id := 32 * pdTop desc + pdChild desc
      (w ≠ 0 → refuses (.partset c desc) 5) ∧
      (w = 0 → s.descriptorOk desc = false → refuses (.partset c desc) 1) ∧
      (w = 0 → s.descriptorOk desc = true → s.partBusy id = true → refuses (.partset c desc) 2) ∧
      (w = 0 → s.descriptorOk desc = true → s.partBusy id = false → gives (.partset c desc) 0 0 fun (s' : State) =>
        (∃ p ∈ s'.parts, p.desc = desc) ∧ ∀ p ∈ s.parts, p.id ≠ id → p ∈ s'.parts)) ∧
    (∀ (v : Nat) (dom pod : List Nat), s.Heads c 0x21 →
      let formed := v < 64 ∧ (∀ d ∈ dom, d < 432) ∧ ∀ d ∈ pod, d < 5 * 512 ∧ d % 512 < 432
      (w ≠ 0 → refuses (.span c v dom pod) 5) ∧
      (w = 0 → ¬ formed → refuses (.span c v dom pod) 1) ∧
      (w = 0 → formed → gives (.span c v dom pod) 0 0 fun (s' : State) => (s'.world v).dspan = dom ∧ (s'.world v).pspan = pod)) ∧
    (∀ n, s.Heads c 0x22 →
      (w ≠ 0 → refuses (.fenceCoreOrPage c true n) 5 ∧ refuses (.fenceCoreOrPage c false n) 5) ∧
      (w = 0 → localBytes ≤ 4096 * n → refuses (.fenceCoreOrPage c true n) 1) ∧
      (w = 0 → 4096 * n < localBytes → gives (.fenceCoreOrPage c true n) 0 0 fun (s' : State) => n ∈ s'.mgmt.pages) ∧
      (w = 0 → 512 ≤ n → refuses (.fenceCoreOrPage c false n) 1) ∧
      (w = 0 → n < 512 → gives (.fenceCoreOrPage c false n) 0 0 fun (s' : State) => n ∈ s'.mgmt.cores))) ∧
  (∀ (s : State) (w : Nat) (tail : W64),
    let r := { (s.world w).ring with tail := tail.setWidth 32 }
    let t := s.setRing w fun y => { y with tail := tail.setWidth 32 }
    let x := t.ringRecord w
    let seq := BitVec.ofNat 64 (recSeq x)
    let bad : Prop := Config.macOk r.key seq (toBytes x 128) = false ∨ recWorld x ≠ w
    (s.power = true → s.mgmt.boot = 2 → r.head = r.tail → exec (.krtailDoorbell w tail) s = .next t) ∧
    (s.power = true → s.link = true → s.mgmt.boot = 2 → r.shown = .run → r.head + 1 = r.tail → r.passed = none →
      ∃ s', exec (.krtailDoorbell w tail) s = .next s' ∧
        (¬ bad → r.seq < seq → w ≠ 0 → 2 ≤ r.gaps → (s'.world w).tdi = .error) ∧ (s'.world w).ring =
        if Config.macOk r.key seq (toBytes x 128) = false ∨ recWorld x ≠ w then { r.drop with macfail := satInc r.macfail }
        else if seq < r.seq then { r.drop with repeats := sat32 r.repeats }
        else if r.seq < seq then { r with state := .halted, gaps := r.gaps + 1 }
        else if r.seq = r.wrap then { r with state := .disabled }
        else if recFormed x = true then { r with passed := some x }
        else { r.drop with seq := r.seq + 1 })) ∧
  (∀ (s : State) (w : Nat) (tag : W64),
    let r := (s.world w).ring
    (r.shown ≠ .halted → exec (.krsynctCheck w tag) s = .next s) ∧
    (s.power = true → s.mgmt.boot = 2 → r.shown = .halted → r.head = r.tail →
      ∃ s', exec (.krsynctCheck w tag) s = .next s' ∧ s'.mem = s.mem ∧ (s'.world w).ring =
        if Config.macOk r.key r.sync (toBytes r.sync.toNat 8 ++ toBytes w 1 ++ toBytes tag.toNat 8) then
          { r with seq := r.sync, state := .run }
        else { r with macfail := satInc r.macfail }))

/-! ### The host and the platform -/

/-- R316, R327, R336, R380, R381, R391, R404, R412, R431, R432, R437, R445, R449, R451, R455, R457, R458, R459, R461 to
R466, R32: the steps that come from outside the device: a doorbell enqueues records; a register write reaches the fields of
the register that are not reserved; TDISP and SPDM messages move a function's state and its ring; bring-up, loss of power
and reset; clock, thermal trip, soft errors, firmware updates, the host link and the Ethernet ports. The 512 bytes of the
signature after a measurement block, and of a firmware image 128, are the model's (DEDUCED, log entry 14; DESIGN CHOICE, log
entry 96). -/
def Obligations.HostAndPlatform : Prop :=
  (∀ (s : State) (w q : Nat) (tail : W64),
    let x := s.queue w q
    let t : BitVec 32 := tail.setWidth 32
    let fits := x.enabled = true ∧ 4 ≤ x.lgn ∧ x.lgn ≤ 12 ∧ (t - x.head).toNat ≤ 2 ^ x.lgn ∧ (t - x.tail).toNat ≤ 2 ^ x.lgn
    (s.power = true → ¬ fits → ∃ s', exec (.qtailDoorbell w q tail) s = .next s' ∧ s'.queued = s.queued ∧ (s'.queue w q).last = 2 ∧
      (s'.queue w q).tail = x.tail) ∧
    (s.power = true → fits → ∃ s', exec (.qtailDoorbell w q tail) s = .next s' ∧ (s'.queue w q).tail = t ∧
      s'.queued = s.queued ++ (List.range (t - x.tail).toNat).map fun i =>
        (⟨w, q, x.ticket + BitVec.ofNat 16 i, true, (x.tail + BitVec.ofNat 32 i).setWidth 1024, 0⟩ : QEntry))) ∧
  (∀ (s : State) (w n : Nat), s.power = true → n < (s.world w).pmcnt.length →
    ∃ s', exec (.pmcntOvfClear w n) s = .next s' ∧
      (s'.world w).pmcnt.getD n 0 = (s.world w).pmcnt.getD n 0 &&& 0xFFFFFFFFFFFF) ∧
  (∀ (s : State) (w off : Nat) (v : W64),
    (s.reachable w off = false → exec (.registerWrite w off v) s = .next s) ∧
    (s.reachable w off = true →
      let sets := fun (n : Nat) (reg : State → W64) (mask : W64) =>
        off = n → ∃ s', exec (.registerWrite w off v) s = .next s' ∧ reg s' = v &&& mask ∧ s'.mem = s.mem ∧ s'.threads = s.threads
      (∀ k < 16, k < (s.world w).droot.length →
        sets (8 * k) (fun (u : State) => (u.world w).droot.getD k 0) 0xFFFFFFFFFF001) ∧
      sets 0x80 (fun (u : State) => (u.world w).frbase) 0xFFFFFFFFFF01F ∧ sets 0x90 (fun (u : State) => (u.world w).frhead) 0xFFFFFFFF ∧
      sets 0xB0 (fun (u : State) => (u.world w).gtbase) 0xFFFFFFFFFF1FF ∧
      (∀ q < 16, sets (0x1000 + 32 * q) (fun (u : State) => (u.queue w q).cfg) 0xFFFFFFFFFF1FD) ∧
      sets 0x1200 (fun (u : State) => (u.world w).ctxbase) 0xFFFFFFFFFF000 ∧
      sets 0x1208 (fun (u : State) => (u.world w).ctxsize) 0xFFFFFFF000 ∧
      (∀ k < 8, k < (s.world w).pmsel.length →
        sets (0x1240 + 8 * k) (fun (u : State) => (u.world w).pmsel.getD k 0) 0x1FF) ∧
      (∀ k < 8, off = 0x1280 + 8 * k → k < (s.world w).pmcnt.length →
        ∃ s', exec (.registerWrite w off v) s = .next s' ∧
          let new := (s'.world w).pmcnt.getD k 0
          new.extractLsb' 0 48 = v.extractLsb' 0 48 ∧ new.extractLsb' 49 15 = 0 ∧
            new.getLsbD 48 = (((s.world w).pmcnt.getD k 0).getLsbD 48 && !v.getLsbD 48)) ∧
      (∀ (pod : Bool) (n : Nat), n < fabLimit pod → off = 0x2000 + (if pod then 0x100 else 0) + 8 * n →
        ∃ s', exec (.registerWrite w off v) s = .next s' ∧ (s'.bar w pod n).cfg = v &&& 0x1FFFFFFFF ∧
          (s'.bar w pod n).ovr = ((s.bar w pod n).ovr && !v.getLsbD 33) ∧
          (s'.bar w pod n).brk = ((s.bar w pod n).brk && !v.getLsbD 34)) ∧
      sets 0x2148 (fun (u : State) => (u.world w).cwto) 0xFFFF ∧
      (w = 0 →
        (∀ k < 64, sets (0x10000 + 64 * k) (fun (u : State) => (u.world k).dbm0) 0xFFFFFFFFFF000 ∧
          sets (0x10008 + 64 * k) (fun (u : State) => (u.world k).dbm1) 0xFFFFFFFFFF000 ∧
          sets (0x10018 + 64 * k) (fun (u : State) => (u.world k).pullto) 0xFFFF ∧
          ((s.world k).ring.head = (s.world k).ring.tail →
            sets (0x21000 + 64 * k) (fun (u : State) => (u.world k).ring.base) 0xFFFFFFFFFF00F) ∧
          sets (0x21028 + 64 * k) (fun (u : State) => (u.world k).ring.sync) 0xFFFFFFFFFFFFFFFF) ∧
        sets 0x20000 (fun (u : State) => u.kebase) 0xFFFFFFFFFF00F ∧
        sets 0x30038 (fun (u : State) => u.mgmt.fwaddr) 0xFFFFFFFFFFFFFFFF ∧ sets 0x30048 (fun (u : State) => u.mgmt.pl) 0xFFFF ∧
        (∀ p < 18, s.isEth p = true →
          sets (0x31000 + 64 * p) (fun (u : State) => (u.ethPort p).tx) 0xFFFFFFFFFFFFF00F ∧
          sets (0x31010 + 64 * p) (fun (u : State) => (u.ethPort p).rx) 0xFFFFFFFFFFFFF00F)))) ∧
  (∀ (s : State) (w : Nat), s.power = true → s.mgmt.boot = 2 →
    let x := s.world w
    let moves := fun (i : Instr) (t : Tdi) => ∃ s', exec i s = .next s' ∧ (s'.world w).tdi = t ∧ (s'.world w).bound = x.bound ∧
      s'.mem = s.mem ∧ s'.launches = s.launches
    (moves (.lockInterfaceRequest w) (if x.tdi = .unlocked then .locked else x.tdi)) ∧
    (∀ ide, moves (.startInterfaceRequest w ide) (if x.tdi = .locked ∧ x.bound = true ∧ ide = true then .run else x.tdi)) ∧
    (moves (.stopInterfaceRequest w) (if x.bound = true ∨ w = 0 then x.tdi else .unlocked)) ∧
    (w = 0 → exec (.tdispError w) s = .next s) ∧
    (w ≠ 0 → ∃ s', exec (.tdispError w) s = .next s' ∧ (s'.world w).tdi = .error ∧ (∀ e ∈ s'.queued, e.world ≠ w) ∧
      (∀ y ∈ s'.slots, y.world ≠ w) ∧ ∀ y ∈ s'.laybys, y.world ≠ w) ∧
    (∀ key, x.ring.head = x.ring.tail → ∃ s', exec (.spdmSessionEstablish w key) s = .next s' ∧ (s'.world w).ring =
      { x.ring with passed := none, seq := 0, wrap := BitVec.ofNat 64 (2 ^ 48), state := .run, gaps := 0, key := key, session := true }) ∧
    (∃ s', exec (.keyUpdate w) s = .next s' ∧ (s'.world w).ring =
      if x.ring.session then { x.ring with wrap := x.ring.seq + BitVec.ofNat 64 (2 ^ 48) } else x.ring)) ∧
  (∀ (s : State) (n : Nat), s.power = true → s.mgmt.boot = 2 →
    ∃ s' bs sig, exec (.getMeasurements n) s = .next s' ∧ s'.mem = s.mem ∧ s'.doe = bs ++ sig ∧ sig.length = 512 ∧
      (n = 5 → bs = toBytes s.mgmt.cfg.toNat 8) ∧
      (n = 4 → bs = s.mgmt.cores.flatMap (toBytes · 2) ++ s.mgmt.pages.flatMap (toBytes · 8)) ∧
      (∀ k < 64, n = 16 + k → (s.world k).bound = true → bs.length = 1024 ∧ bs[0]? = some (BitVec.ofNat 8 k) ∧
        bs[1]? = some (BitVec.ofNat 8 (s.world k).tdi.code)) ∧
      (∀ k < 64, n = 16 + k → (s.world k).bound = false → bs = [])) ∧
  (∀ (s : State),
    (s.mgmt.boot ≠ 0 → exec .perstRelease s = .next s) ∧
    (s.mgmt.boot = 0 → ∃ s', exec .perstRelease s = .next s' ∧ s'.power = true ∧ s'.clock = 0 ∧ s'.store = [] ∧
      s'.mem = s.mem ∧
      if Config.signatureOk 0 s.store ∧ configOk s.newConfig then
        s'.mgmt.boot = 2 ∧ s'.mgmt.id.extractLsb' 0 8 = 9 ∧ s'.link = true ∧ (s'.world 0).tdi = .run ∧ (s'.world 0).bound = true ∧
          ∃ p, s'.parts = [p] ∧ p.id = 0 ∧ p.on = true ∧ p.hbm = 256 ∧ (∀ c < 512, c ∈ pdCores p.desc)
      else s'.mgmt.boot = 3 ∧ s'.parts = s.parts) ∧
    (∀ e ∈ [(Instr.powerLoss, false), (.perstAssert, s.power)],
      ∃ s', exec e.1 s = .next s' ∧ s'.power = e.2 ∧ s'.link = false ∧ s'.mgmt.boot = 0 ∧ s'.mem = [] ∧ s'.threads = [] ∧
        s'.ops = [] ∧ s'.worlds = [] ∧ s'.launches = [] ∧ s'.parts = [] ∧ s'.store = s.store ∧ s'.mgmt.cfg = s.mgmt.cfg ∧
        s'.mgmt.pages = s.mgmt.pages ∧ s'.mgmt.cores = s.mgmt.cores) ∧
    (s.power = true → ∃ s', exec .thermalTrip s = .next s' ∧ s'.halted = true ∧ (s'.world 0).msix.getLsbD 3 = true ∧ s'.mem = s.mem) ∧
    (∀ mhz, s.power = true → ∃ s', exec (.fclkAdjust mhz) s = .next s' ∧ s'.mgmt.thr = decide (mhz < 2000) ∧ s'.mem = s.mem ∧
      s'.mgmt.pwr.extractLsb' 32 16 = BitVec.ofNat 16 (fclkStep mhz)) ∧
    (∀ line, exec (.patrolScrub line) s = .next s)) ∧
  (∀ (s : State) (place index : Nat),
    let up := fun (n : BitVec 32) => if n = BitVec.allOnes 32 then n else n + 1
    (s.power = true → place ≠ 6 →
      exec (.eccError place index true) s = .next { s with mgmt := { s.mgmt with cor := up s.mgmt.cor } }) ∧
    (s.power = true → place = 6 → ∀ z, s.sealOf index = some z → z.off ≠ 2 ^ 64 →
      ∃ s', exec (.eccError place index false) s = .next s' ∧ s'.broken index = true ∧ s'.mem = s.mem ∧ s'.poison = s.poison) ∧
    (s.power = true → place ≠ 6 → ∃ s', exec (.eccError place index false) s = .next s' ∧ s'.mgmt.unc = up s.mgmt.unc ∧ (s'.world 0).msix.getLsbD 3 = true ∧
      (place = 0 → index ∈ s'.poison ∧ s'.mem = s.mem) ∧
      (place = 2 → ∀ x ∈ s'.fetch, ¬ (x.core = index / 4 ∧ x.quad = index % 4)) ∧
      (∀ x, place = 3 → s.threads[index]? = some x → x.live = true → s.thread x.id = x →
        x.handler = false → x.async = [] →
        (s'.thread x.id).async = [⟨0x13, 0, 0, 0, 0, true⟩]))) ∧
  (∀ (s : State),
    (s.power = true → 2 ≤ s.mgmt.boot → ∃ s', exec .mgfwcmdGo s = .next s' ∧ s'.mgmt.fwst = 1 ∧ s'.store = s.store) ∧
    (s.power = true → s.mgmt.fwst = 1 →
      let image := s.memBytes ⟨true, s.mgmt.fwaddr.toNat⟩ 128
      ∃ s', exec .firmwareVerifyDone s = .next s' ∧ s'.mgmt.fwst = (if Config.signatureOk 0 image then 2 else 3) ∧
        s'.store = if Config.signatureOk 0 image then image else s.store) ∧
    (s.mgmt.fwst ≠ 1 → exec .firmwareVerifyDone s = .next s) ∧
    (s.power = true → exec .hostLinkDown s = .next { s with link := false }) ∧
    (s.power = true → s.mgmt.boot = 2 → (∀ w < 64, (s.world w).ring.head = (s.world w).ring.tail) →
      exec .hostLinkRetrain s = .next { s with link := true })) ∧
  (∀ (s : State) (p : Nat) (tail : W64) (frame : List Byte) (bad : Bool),
    let x := s.ethPort p
    (s.power = true → s.mgmt.boot = 2 → s.isEth p = true →
      (∃ s', exec (.ettxtDoorbell p tail) s = .next s' ∧ s'.ethPort p = { x with txt := tail.setWidth 32 }) ∧
      (∃ s', exec (.etrxtDoorbell p tail) s = .next s' ∧ s'.ethPort p = { x with rxt := tail.setWidth 32 })) ∧
    (s.isEth p = false → exec (.ettxtDoorbell p tail) s = .next s ∧ exec (.etrxtDoorbell p tail) s = .next s) ∧
    (s.txDue p = true → s.MemOk →
      let l := ethPlace x.tx x.txh
      let d := BitVec.ofNat 128 (s.memNat l 16)
      let formed : Prop := d.extractLsb' 80 48 = 0
      ∃ s', exec (.ethernetFrameSent p) s = .next s' ∧ (s'.ethPort p).txh = x.txh + 1 ∧ s'.mem = s.mem ∧
        (formed →
          s'.frames = s.frames ++ [(p, s.memBytes ⟨true, (d.extractLsb' 0 64).toNat⟩ (min 9216 (d.extractLsb' 64 14).toNat))] ∧
          s'.memByte (l.add 9) = (s.memByte (l.add 9) ||| 64)) ∧
        (¬ formed → s'.frames = s.frames ∧ s'.memByte (l.add 9) = (s.memByte (l.add 9) ||| 192))) ∧
    (s.power = true → s.link = true → s.isEth p = true → ethOn x.rx = true → s.MemOk → frame.length ≤ 9216 →
      let l := ethPlace x.rx x.rxh
      let d := BitVec.ofNat 128 (s.memNat l 16)
      let buf := (d.extractLsb' 0 64).toNat
      (x.rxh = x.rxt → exec (.ethernetFrameReceived p frame bad) s = .next s) ∧
      (x.rxh ≠ x.rxt → d.extractLsb' 80 48 = 0 → (buf + frame.length ≤ l.addr ∨ l.addr + 16 ≤ buf) →
        ∃ s', exec (.ethernetFrameReceived p frame bad) s = .next s' ∧ (s'.ethPort p).rxh = x.rxh + 1 ∧ s'.mem = s.mem ∧
          s'.memBytes ⟨true, buf⟩ frame.length = frame ∧ (s'.memNat (l.add 8) 2) % 2 ^ 14 = frame.length ∧
          (s'.memByte (l.add 9)).getLsbD 6 = true ∧
          (s'.memByte (l.add 9)).getLsbD 7 = (bad || (s.memByte (l.add 9)).getLsbD 7))))

/-! ### Rules of one instruction, whole -/

/-- R115: FCLASS on each fixed floating type: the mask of the operand's class, by its sign, exponent and fraction, in D,
zero-extended; no flag is raised, the input-flush bits play no part, and nothing else of the thread changes. -/
def Obligations.ClassMasks : Prop :=
  ∀ e ∈ ([(.f16, 5, 10), (.b16, 8, 7), (.f32, 8, 23), (.f64, 11, 52)] : List (Ty × Nat × Nat)),
    ∀ (f : LaneF) (s : State) (t : TRef), f.ty = e.1 → s.Passes t (.fclass f) f.toCommon →
    let x := s.operand t f.a f.ty
    let fr := x % 2 ^ e.2.2
    let ex := x / 2 ^ e.2.2 % 2 ^ e.2.1
    let neg := x.testBit (e.2.1 + e.2.2)
    let mask :=
      if ex = 2 ^ e.2.1 - 1 then (if fr = 0 then (if neg then 1 else 128) else if fr.testBit (e.2.2 - 1) then 512 else 256)
      else if ex = 0 then (if fr = 0 then (if neg then 8 else 16) else if neg then 4 else 32)
      else if neg then 2 else 64
    ∃ s', exec (.fclass f) s = .next s' ∧ s'.thread t = ((s.thread t).withDest f.d f.ty mask).past f.toCommon

/-- R193: WMCLR clears valid and sets pstate to 0 in each waymark of its mask in every thread whose guard is 1; the prefetch of
such a waymark is abandoned; waymarks outside the mask, and those of a thread whose guard is 0, stay. -/
def Obligations.WaymarkClear : Prop :=
  ∀ (f : CtlF) (s : State) (t : TRef),
    let x := s.thread t
    (s.Passes t (.wmclr f) f.toCommon →
      ∃ s', exec (.wmclr f) s = .next s' ∧ (s'.thread t).pc = x.pc + 16 ∧
        ∀ n < 8, (s'.thread t).wm[n]? = (x.wm[n]?).map (fun w =>
            if f.arg24.getLsbD n then { w with valid := false, pstate := 0 } else w) ∧
          (f.arg24.getLsbD n = true → exec (.waymarkPrefetchDone t n) s' = .next s')) ∧
    (t ∈ s.issue.threads → s.issue.threads.Nodup → (∃ y ∈ s.threads, y.id = t) → s.guard t f.ctl = false →
      ∃ s', exec (.wmclr f) s = .next s' ∧ (s'.thread t).wm = x.wm)

/-- R200, R211: TINFO on a handle in any state raises nothing and is left incomplete; when it completes, D holds the word of
R200: the state, the channel binding, the shape of the tile or of a view's source, also where that tile is gone, and the
granules of a tile that is no view. -/
def Obligations.TileInformation : Prop :=
  (∀ (f : TileF) (s : State) (t : TRef), s.Alone t (.tinfo f) f.toCommon →
    ∃ s' o, exec (.tinfo f) s = .next s' ∧ s'.thread t = (s.thread t).started f.toCommon ∧ o ∈ s'.ops ∧
      o.StartedIn s t (.tinfo f) f.toCommon 0 0 0 0 ∧ o.phase = .pending) ∧
  (∀ (s : State) (o : Op) (f : TileF), s.HasOp o → o.clobber = 0 → o.instr = .tinfo f → o.phase = .pending →
    let ends := fun (v : Nat) => ∃ s', exec (.tileOpComplete o.id) s = .next s' ∧ s.Completed s' o ∧
      (s'.thread o.who).slices = slicesSet (s.thread o.who).slices f.d.start.toNat f.d.w.bits v
    let shape := fun (rows cols ew : Nat) (level : Bool) =>
      (rows - 1) % 4096 + (cols - 1) % 4096 * 2 ^ 12 + (ew - 1) % 32 * 2 ^ 24 + (if level then 2 ^ 29 else 0)
    (s.handle? o.who.team f.h = none → ends 0) ∧
    (∀ h, s.handle? o.who.team f.h = some h →
      let ch := match h.chan with | some c => 2 ^ 37 + c.toNat * 2 ^ 33 | none => 0
      (∀ n, h.state = .waiting n → ends (2 ^ 30)) ∧
      (∀ rows cols ew level, h.state = .stale rows cols ew level → ends (4 * 2 ^ 30 + ch + shape rows cols ew level)) ∧
      (∀ y, s.tile? y.id = some y →
        let tile := ch + shape y.rows y.cols y.ew y.level
        let granules := y.granules % 1024 * 2 ^ 38
        (h.state = .allocated y.id → ends (2 * 2 ^ 30 + tile + granules)) ∧
        (h.state = .view y.id → ends (3 * 2 ^ 30 + tile)) ∧
        (∀ rows cols ew level, h.state = .releasing y.id false rows cols ew level → ends (5 * 2 ^ 30 + tile + granules))) ∧
      (∀ n rows cols ew level, h.state = .releasing n true rows cols ew level →
        ends (5 * 2 ^ 30 + ch + shape rows cols ew level))))

/-! ### The whole machine -/

namespace Sys2Proof.Machine

/-- Scheduling fields of an unguarded word without annotations. -/
def Ctl.plain : Ctl := ⟨false, 0, 0, false, 0, false, 7⟩

/-- Names are given once: every incomplete instruction, its leader, its issue and every team MMA have names below the next
one, and no two instructions share a name. -/
def State.NamesOk (s : State) : Prop :=
  (∀ o ∈ s.ops, o.id < s.ids ∧ o.lead < s.ids ∧ o.iss < s.ids) ∧ s.issue.id < s.ids ∧ (s.ops.map (·.id)).Nodup ∧
    ∀ g ∈ s.mmas, g.id < s.ids

/-- What every step keeps: memory is in its canonical form, and names are given once. -/
def State.Inv (s : State) : Prop := s.MemOk ∧ s.NamesOk

end Sys2Proof.Machine

/-- R414: its three words decode to the instructions they stand for. So do the words that the other chapters work out field by
field, one or more of each group. -/
def Obligations.DecodeWords : Prop :=
  let z := Opnd.zero
  let dz := Dst.zero
  let p := Ctl.plain
  let q1 : Ctl := { p with gp := 1 }
  decodeTableWord 128 0x0004_1400_9A80_0000_1302_1490_0017_DEC0 = some
    (.rput ⟨⟨{ p with la := 15, setEn := true, setSlot := 2 }, .n32, ⟨.w32, 144⟩, .slice .w64 16, .imm 4, .imm 0⟩, false, 0, true, 5, 0, 2⟩) ∧
  decodeTableWord 128 0x0000_1424_1A00_0000_0000_14E0_0000_1EC6 = some
    (.fevt ⟨⟨p, .n32, ⟨.w32, 224⟩, z, z, .imm 0⟩, false, 0, false, 5, 9, 0⟩) ∧
  decodeTableWord 128 0x0000_0000_1880_0000_029A_14D8_0000_1EC5 = some
    (.fbwait ⟨⟨p, .n32, ⟨.w32, 216⟩, .slice .w32 208, .imm 0, z⟩, false, 0, false, 0, 0, 0⟩) ∧
  decodeTableWord 128 0x0000_0392_18A0_0000_1080_2000_0000_1C1F = some
    (.cmp ⟨⟨p, .n32, dz, .sreg .lane, .imm 4, z⟩, 0, 0, 0, false, 7, 1, 2, .rne⟩) ∧
  decodeTableWord 128 0x0000_0000_3000_0000_0280_1428_0000_0482 = some
    (.gred ⟨⟨q1, .f32, ⟨.w32, 40⟩, .slice .w32 0, z, z⟩, 0, 0, 0, false, 0, 0, 0, .rne⟩) ∧
  decodeTableWord 128 0x0000_4004_5800_0000_0302_1440_0014_44C0 = some
    (.ld ⟨⟨{ q1 with la := 1, setEn := true, setSlot := 2 }, .n32, ⟨.w32, 64⟩, .slice .w64 16, z, z⟩, 0x40, 0, 0, .device, .acquire⟩) ∧
  decodeTableWord 128 0x0000_0001_8000_0000_0000_0000_0000_1D03 = some
    (.xcall ⟨⟨p, .n4, dz, z, z, z⟩, 0, 0, 6⟩) ∧
  decodeTableWord 128 0x0000_C502_5800_0000_0000_1410_0000_1D46 = some
    (.tbind ⟨⟨p, .n32, ⟨.w32, 16⟩, z, z, z⟩, 3, 5, false, 9⟩) ∧
  decodeTableWord 128 0x0100_2410_9A00_0070_8302_1408_001F_C580 = some
    (.cpy ⟨⟨{ q1 with la := 15, setEn := true, setSlot := 3 }, .n32, ⟨.w32, 8⟩, .slice .w64 16, .slice .w128 32, .imm 0⟩, false, 0, false, true, false, false, 9, 4, 2⟩) ∧
  decodeTableWord 128 0x0000_0016_B80F_0074_0380_1E00_000C_1DC0 = some
    (.mma ⟨⟨{ p with setEn := true, setSlot := 1 }, .slot, ⟨.w128, 512⟩, .slice .w128 0, .slice .w128 256, .slice .w128 512⟩, 0, 0, 0, 1, 3, 2⟩) ∧
  decodeTableWord 128 0x0000_0000_A000_0000_0000_18F0_0000_0605 = some
    (.fstat ⟨⟨q1, .n64, ⟨.w64, 240⟩, z, z, z⟩, 0, 0, 0, .rne, 2⟩) ∧
  decodeTableWord 128 0x0000_0001_1800_0000_8302_1408_0000_1E40 = some
    (.spawn ⟨⟨p, .n32, ⟨.w32, 8⟩, .slice .w64 16, .slice .w4 32, z⟩, 0, 4⟩) ∧
  decodeTableWord 128 0x0000_0000_0080_0000_0F02_0000_0000_1E80 = some
    (.tlbiVa ⟨⟨p, .n4, dz, .slice .w64 16, .imm 3, z⟩, 0, 0, 0⟩) ∧
  decodeTableWord 128 0x0000_000C_1820_0000_0000_1450_0000_1E82 = some
    (.gate ⟨⟨p, .n32, ⟨.w32, 80⟩, .imm 0, z, z⟩, 0, 3, 0⟩) ∧
  decodeTableWord 128 0x0000_1C00_0000_0000_0000_0000_0000_1E85 = some
    (.ordmark ⟨⟨p, .n4, dz, z, z, z⟩, 7, 0, 0⟩) ∧
  decodeTableWord 128 0x0000_0000_1800_0003_DC00_14F8_0000_1E87 = some
    (.psaved ⟨⟨p, .n32, ⟨.w32, 248⟩, .slice .w4 0, .slice .w4 247, z⟩, 0, 0, 0⟩)

/-- R35 to R58, R47: the decoder and the encoder agree: the word of a well-formed instruction decodes to it, with every operand
and class field; and a word that decodes is the word of the instruction it gives, which is well-formed. -/
def Obligations.EncodeDecode : Prop :=
  (∀ (i : Instr) (w : Word), i.WellFormed → encode i = some w → decode w = .ok i) ∧
  (∀ (w : Word) (i : Instr), decode w = .ok i → i.WellFormed ∧ encode i = some w)

/-- R35, R47, R157, R158, R159, R167: a step takes the oldest act of the agenda, after time has passed. A cycle of a quad whose
picked threads stand at a decoded instruction executes that instruction for exactly these threads, and the second issue of the
cycle, if there is one, comes next, in no time; a word that fails a check of R47 raises its trap in each of them without effect;
with no ready thread nothing more happens. The word is the sixteen bytes at the pc in the fetched line, little-endian. An event
of the agenda executes its meaning. -/
def Obligations.StepRunsDecoded : Prop :=
  (∀ (s : State) (core quad : Nat) (closed : BitVec 7) (rest : List Act), s.agenda = .issue core quad closed :: rest →
    let s₁ := ({ s with agenda := rest } : State).tick
    let c := s₁.readyIn core quad closed
    (s₁.pick c = [] → step s = .next s₁) ∧
    (∀ t ts, s₁.pick c = t :: ts →
      let s₂ := s₁.issued core quad c (t :: ts)
      (s₂.issue.threads = t :: ts ∧ s₂.issue.core = core ∧ s₂.issue.quad = quad ∧ s₂.mem = s.mem ∧ s₂.ops = s.ops ∧
        s₂.clock = s₁.clock ∧ (∀ u, s₂.thread u = { s₁.thread u with wait := (s₂.thread u).wait }) ∧
        s₂.agenda = (match s₁.pickSecond c (t :: ts) with | [] => rest | u :: us => .second core quad (u :: us) :: rest)) ∧
      (∀ i, s₁.nextInstr t = some (.ok i) → step s = exec i s₂) ∧
      (s₁.nextInstr t = none → step s = .next s₁) ∧
      (∀ e, s₁.nextInstr t = some (.error e) → (t :: ts).Nodup → (∀ u ∈ t :: ts, ∃ x ∈ s.threads, x.id = u) →
        ∃ s', step s = .next s' ∧ s'.mem = s.mem ∧ s'.ops = s.ops ∧
          ∀ u ∈ t :: ts, (s₂.thread u).trap = none →
            let code : BitVec 8 := match e with | .opcode => 1 | .encoding => 2 | .type => 3 | .align => 4
            let pc := (s₂.thread u).pc
            s'.thread u = { s₂.thread u with trap := some ⟨code, 0, pc, pc, 0, false⟩ }))) ∧
  (∀ (s : State) (core quad : Nat) (us : List TRef) (rest : List Act), s.agenda = .second core quad us :: rest →
    let s₁ : State := { s with agenda := rest, free := s.free + 1 }
    let ts := us.filter s₁.isReady
    let s₂ := s₁.opened core quad ts
    (s₂.issue.threads = ts ∧ s₂.mem = s.mem ∧ s₂.ops = s.ops ∧ s₂.threads = s.threads ∧ s₂.clock = s.clock) ∧
    (ts = [] → step s = .next s₁) ∧
    (∀ t i, ts.head? = some t → s₁.nextInstr t = some (.ok i) → step s = exec i s₂)) ∧
  (∀ (s : State) (t : TRef) (l : FetchLine) (bs : List Byte), bs.length = 128 → l.bits = lineBits bs →
    let pc := (s.thread t).pc
    s.fetchLine? (s.coreOf t) (s.groupOf t).quad (s.worldOf t) (s.groupOf t).domain pc = some l →
    s.nextInstr t = some (decode (wordOfBytes ((bs.drop (pc.toNat % 128 / 16 * 16)).take 16)))) ∧
  (∀ (s : State) (i : Instr) (rest : List Act), s.agenda = .event i :: rest →
    step s = exec i ({ s with agenda := rest } : State).tick) ∧
  (∀ (s : State) (a : Nat) (bs : List Byte) (rest : List Act), s.agenda = .write a bs :: rest → s.MemOk →
    ∃ s', step s = .next s' ∧ s'.memBytes ⟨true, a⟩ bs.length = bs ∧ s'.mem = s.mem ∧ s'.threads = s.threads)

/-- Every step that answers a next state keeps the invariant, from every state that has it: the tables of memory stay in their
canonical form, and no name is given twice. An issue under the invariant gives its instruction and its operations new
names. -/
def Obligations.StepKeepsInvariant : Prop :=
  (∀ s s' : State, s.Inv → step s = .next s' → s'.Inv) ∧
  (∀ (s : State) (core quad : Nat) (c ts : List TRef), s.Inv → (s.issued core quad c ts).FreshOps)

/-- R32, R431, R455, R457: the machine right after the rails come on, with PERST# asserted: nothing is resident, memory lists
nothing, no world is bound, no register of the host's pages is set, the device is not up, and the invariant holds. What memory
and registers hold where the specification gives no value is the model's choice (DESIGN CHOICE, log entries 6 and 22). -/
def Obligations.ResetState : Prop :=
  let s := State.reset
  s.Inv ∧ s.mem = [] ∧ s.threads = [] ∧ s.teams = [] ∧ s.launches = [] ∧ s.ops = [] ∧ s.worlds = [] ∧ s.parts = [] ∧ s.s2 = [] ∧
    s.tlb = [] ∧ s.fetch = [] ∧ s.faults = [] ∧ s.mgmt.boot = 0 ∧ s.mgmt.fwst = 0 ∧ s.link = false ∧ s.halted = false ∧
    (∀ w, (w ≠ 0 → (s.world w).tdi = .unlocked) ∧ (s.world w).bound = false ∧ (s.world w).frbase = 0 ∧ (s.world w).dbmctl = 0 ∧
      (s.world w).ring.state = .off ∧ (s.world w).msix = 0) ∧
    (∀ w q, (s.queue w q).cfg = 0 ∧ (s.queue w q).ticket = 0) ∧ (∀ w off v, exec (.registerWrite w off v) s = .next s)
end

