-- ==== Sys2Proof/Laws/Threads.lean ====
section
/-! SUPPORT. Threads as rows of their table: reading a row after changing one, and what the operations of a lane
instruction change. -/

namespace Sys2Proof.Machine

/-- The thread has a row. -/
def State.hasThread (s : State) (t : TRef) : Prop := ∃ x ∈ s.threads, x.id = t

theorem find_map_id (l : List Thread) (p : TRef) (f : Thread → Thread) (hid : ∀ x, (f x).id = x.id) (u : TRef) :
    (l.map fun x => if x.id = p then f x else x).find? (·.id = u) =
      (l.find? (·.id = u)).map fun x => if x.id = p then f x else x := by
  induction l with
  | nil => rfl
  | cons y l ih =>
    have e : (if y.id = p then f y else y).id = y.id := by split <;> simp [hid]
    by_cases h : y.id = u
    · subst h
      simp only [List.map_cons, List.find?_cons, e, decide_true, Option.map_some]
    · simp only [List.map_cons, List.find?_cons]
      simp only [e, h, decide_false, ih]

theorem State.thread_setThread (s : State) (t : TRef) (f : Thread → Thread) (hid : ∀ x, (f x).id = x.id)
    (h : s.hasThread t) : (s.setThread t f).thread t = f (s.thread t) := by
  obtain ⟨x, hx, e⟩ := h
  unfold State.thread State.setThread
  simp only [find_map_id _ _ _ hid]
  cases hf : s.threads.find? (·.id = t) with
  | none => exact absurd (List.find?_eq_none.1 hf x hx) (by simp [e])
  | some y =>
    have := List.find?_some hf
    simp at this
    simp [this]

theorem State.thread_setThread_ne (s : State) (t u : TRef) (f : Thread → Thread) (hid : ∀ x, (f x).id = x.id)
    (h : u ≠ t) : (s.setThread t f).thread u = s.thread u := by
  unfold State.thread State.setThread
  simp only [find_map_id _ _ _ hid]
  cases hf : s.threads.find? (·.id = u) with
  | none => rfl
  | some y =>
    have := List.find?_some hf
    simp at this
    simp [this, h]

theorem State.hasThread_setThread (s : State) (t u : TRef) (f : Thread → Thread) (hid : ∀ x, (f x).id = x.id) :
    (s.setThread t f).hasThread u ↔ s.hasThread u := by
  unfold State.hasThread State.setThread
  constructor
  · rintro ⟨x, hx, e⟩
    simp only [List.mem_map] at hx
    obtain ⟨y, hy, rfl⟩ := hx
    refine ⟨y, hy, ?_⟩
    split at e <;> simp_all
  · rintro ⟨x, hx, e⟩
    refine ⟨if x.id = t then f x else x, List.mem_map_of_mem hx, ?_⟩
    split <;> simp_all

end Sys2Proof.Machine
end

