-- ==== Sys2Proof/Laws/Lanes.lean ====
section
/-! SUPPORT. What the operations of a lane instruction can do: a step for one thread changes that thread's row and the
marks of its incomplete instructions, and what it computes does not depend on other threads. From these follows what an
issue of several threads does to each of them. -/

namespace Sys2Proof.Machine

/-- Only the row of t and the marks of its incomplete instructions differ. -/
structure State.Touch (t : TRef) (s s' : State) : Prop where
  rest : s' = { s with threads := s'.threads, ops := s'.ops }
  others : ∀ u, u ≠ t → s'.thread u = s.thread u
  rows : ∀ u, s'.hasThread u ↔ s.hasThread u
  marks : ∃ m : BitVec 1024, s'.ops = s.ops.map fun o => if o.who = t then { o with clobber := o.clobber ||| m } else o

/-- An incomplete instruction without its marks. -/
def Op.unmarked (o : Op) : Op := { o with clobber := 0 }

/-- What thread t reads is the same in both states. -/
structure State.Apart (s s' : State) (t : TRef) : Prop where
  rest : s' = { s with threads := s'.threads, ops := s'.ops }
  unmarked : s'.ops.map Op.unmarked = s.ops.map Op.unmarked
  thread : s'.thread t = s.thread t
  row : s'.hasThread t ↔ s.hasThread t
  opsOf : s'.opsOf t = s.opsOf t

theorem State.Touch.refl (t : TRef) (s : State) : State.Touch t s s :=
  ⟨rfl, fun _ _ => rfl, fun _ => Iff.rfl, 0, by simp⟩

theorem State.Touch.trans {t : TRef} {a b c : State} (h : State.Touch t a b) (k : State.Touch t b c) :
    State.Touch t a c := by
  obtain ⟨m, hm⟩ := h.marks
  obtain ⟨n, hn⟩ := k.marks
  refine ⟨?_, fun u hu => (k.others u hu).trans (h.others u hu), fun u => (k.rows u).trans (h.rows u), m ||| n, ?_⟩
  · exact k.rest.trans (congrArg (fun z : State => { z with threads := c.threads, ops := c.ops }) h.rest)
  · rw [hn, hm, List.map_map]
    refine List.map_congr_left fun o _ => ?_
    by_cases ho : o.who = t <;> simp [ho, BitVec.or_assoc]

theorem State.Touch.apart {t u : TRef} {s s' : State} (h : State.Touch t s s') (hu : u ≠ t) : State.Apart s s' u := by
  obtain ⟨m, hm⟩ := h.marks
  refine ⟨h.rest, ?_, h.others u hu, h.rows u, ?_⟩
  · rw [hm, List.map_map]
    refine List.map_congr_left fun o _ => ?_
    by_cases ho : o.who = t <;> simp [ho, Op.unmarked]
  unfold State.opsOf
  rw [hm]
  generalize s.ops = l
  induction l with
  | nil => rfl
  | cons o l ih =>
    simp only [List.map_cons, List.filter_cons]
    by_cases ho : o.who = t
    · have hn : ¬ o.who = u := fun e => hu (e.symm.trans ho)
      have ht : ¬ t = u := fun e => hu e.symm
      simp only [ho, if_true]
      simp [ht, ih]
    · simp only [ho, if_false, ih]

theorem State.Apart.refl (s : State) (t : TRef) : State.Apart s s t := ⟨rfl, rfl, rfl, Iff.rfl, rfl⟩

theorem State.Apart.trans {a b c : State} {t : TRef} (h : State.Apart a b t) (k : State.Apart b c t) :
    State.Apart a c t := by
  refine ⟨?_, k.unmarked.trans h.unmarked, k.thread.trans h.thread, k.row.trans h.row, k.opsOf.trans h.opsOf⟩
  exact k.rest.trans (congrArg (fun z : State => { z with threads := c.threads, ops := c.ops }) h.rest)

/-! ### The operations -/

theorem State.touch_setThread (s : State) (t : TRef) (f : Thread → Thread) (hid : ∀ x, (f x).id = x.id) :
    State.Touch t s (s.setThread t f) :=
  ⟨rfl, fun u hu => s.thread_setThread_ne t u f hid hu, fun u => s.hasThread_setThread t u f hid, 0, by
    simp [State.setThread]⟩

theorem State.touch_writeSlices (s : State) (t : TRef) (start w v : Nat) : State.Touch t s (s.writeSlices t start w v) := by
  unfold State.writeSlices
  simp only
  have h := s.touch_setThread t (fun x => { x with slices := slicesSet x.slices start w v }) fun _ => rfl
  split
  · refine ⟨rfl, h.others, h.rows, BitVec.ofNat 1024 (2 ^ (w / 4) - 1) <<< start, ?_⟩
    rfl
  · exact h

theorem State.thread_writeSlices (s : State) (t : TRef) (start w v : Nat) (h : s.hasThread t) :
    (s.writeSlices t start w v).thread t = (s.thread t).withBits start w v := by
  unfold State.writeSlices
  simp only
  split
  · exact s.thread_setThread t _ (fun _ => rfl) h
  · exact s.thread_setThread t _ (fun _ => rfl) h

theorem State.touch_writeDest (s : State) (t : TRef) (d : Dst) (ty : Ty) (v : Nat) :
    State.Touch t s (s.writeDest t d ty v) := s.touch_writeSlices _ _ _ _

theorem State.thread_writeDest (s : State) (t : TRef) (d : Dst) (ty : Ty) (v : Nat) (h : s.hasThread t) :
    (s.writeDest t d ty v).thread t = (s.thread t).withDest d ty v := s.thread_writeSlices _ _ _ _ h

theorem Thread.setPred_id (x : Thread) (q : BitVec 3) (b : Bool) : (x.setPred q b).id = x.id := by
  unfold Thread.setPred; split <;> rfl

theorem State.touch_writePred (s : State) (t : TRef) (q : BitVec 3) (b : Bool) :
    State.Touch t s (s.writePred t q b) := s.touch_setThread t _ fun _ => Thread.setPred_id _ _ _

theorem State.thread_writePred (s : State) (t : TRef) (q : BitVec 3) (b : Bool) (h : s.hasThread t) :
    (s.writePred t q b).thread t = (s.thread t).setPred q b :=
  s.thread_setThread t _ (fun _ => Thread.setPred_id _ _ _) h

theorem Thread.addTrap_id (x : Thread) (r : Trap) : (x.addTrap r).id = x.id := by
  unfold Thread.addTrap; split <;> rfl

theorem State.touch_raise (s : State) (t : TRef) (code info : BitVec 8) (addr : W64) :
    State.Touch t s (s.raise t code info addr) := s.touch_setThread t _ fun _ => Thread.addTrap_id _ _

theorem State.touch_setPc (s : State) (t : TRef) (pc : W64) : State.Touch t s (s.setPc t pc) :=
  s.touch_setThread t _ fun _ => rfl

/-- A thread that has issued an instruction, before its pc moves. -/
def Thread.counted (x : Thread) (c : Ctl) : Thread := { x with seq := x.seq + 1, wait := 0, reuse := c.reuse, bwait := none, joins := false }

theorem State.touch_advance (s : State) (t : TRef) (c : Ctl) : State.Touch t s (s.advance t c) :=
  (s.touch_setThread t (·.counted c) fun _ => rfl).trans (State.touch_setPc _ t _)

theorem State.thread_advance (s : State) (t : TRef) (c : Common) (h : s.hasThread t)
    (hc : codeCanonical ((s.thread t).pc + 16) = true) : (s.advance t c.ctl).thread t = (s.thread t).past c := by
  have k : (s.setThread t (·.counted c.ctl)).hasThread t :=
    (s.hasThread_setThread t t (·.counted c.ctl) fun _ => rfl).2 h
  show ((s.setThread t (·.counted c.ctl)).setPc t ((s.thread t).pc + 16)).thread t = _
  refine (State.thread_setThread _ t _ ?_ k).trans ?_
  · intro x; rfl
  · rw [State.thread_setThread s t (·.counted c.ctl) (fun x => rfl) h]
    simp only [Thread.past, Thread.counted, hc, if_true]

/-! ### What a thread reads -/

section
variable {s s' : State} {t : TRef}

theorem State.Apart.groupOf (h : State.Apart s s' t) : s'.groupOf t = s.groupOf t := by rw [h.rest]; rfl

theorem State.Apart.team (h : State.Apart s s' t) (n : Nat) : s'.team n = s.team n := by rw [h.rest]; rfl

theorem State.Apart.free (h : State.Apart s s' t) : s'.free = s.free := by rw [h.rest]

theorem State.Apart.issue (h : State.Apart s s' t) : s'.issue = s.issue := by rw [h.rest]

theorem State.Apart.slot (h : State.Apart s s' t) (w : Nat) (f : BitVec 3) : s'.slot w f = s.slot w f := by
  rw [h.rest]; rfl

theorem State.Apart.worldOf (h : State.Apart s s' t) : s'.worldOf t = s.worldOf t := by
  unfold State.worldOf; rw [h.team]

theorem State.Apart.anyPending (h : State.Apart s s' t) (a b : Nat) : s'.anyPending t a b = s.anyPending t a b := by
  unfold State.anyPending; rw [h.opsOf]

theorem State.Apart.pendingSlice (h : State.Apart s s' t) (a : Nat) : s'.pendingSlice t a = s.pendingSlice t a := by
  unfold State.pendingSlice; rw [h.opsOf]

theorem State.Apart.pendingUni (h : State.Apart s s' t) (a : Nat) : s'.pendingUni t a = s.pendingUni t a := by
  unfold State.pendingUni; rw [h.opsOf]

theorem State.Apart.readPending (h : State.Apart s s' t) (a : Nat) : s'.readPending t a = s.readPending t a := by
  unfold State.readPending; simp only [h.opsOf, h.thread, h.free]

theorem State.Apart.readNibble (h : State.Apart s s' t) (k : BitVec 2048) (a : Nat) : s'.readNibble t k a = s.readNibble t k a := by
  unfold State.readNibble; simp only [h.opsOf, h.free]

theorem State.Apart.readSlices (h : State.Apart s s' t) (a b : Nat) : s'.readSlices t a b = s.readSlices t a b := by
  unfold State.readSlices
  simp only [h.anyPending, h.readPending, h.thread]

theorem State.Apart.readUni (h : State.Apart s s' t) (a b : Nat) : s'.readUni t a b = s.readUni t a b := by
  unfold State.readUni
  simp only [h.pendingUni, h.groupOf, h.readNibble]

theorem State.Apart.foldOpen (h : State.Apart s s' t) (f : Fold) : s'.foldOpen f = s.foldOpen f := by
  have e : s'.staging = s.staging := by rw [h.rest]
  have k : ∀ l : List Op, (l.any fun o => o.iss = f.iss && o.who.team = f.team && o.who.gid = f.gid) =
      ((l.map Op.unmarked).any fun o => o.iss = f.iss && o.who.team = f.team && o.who.gid = f.gid) := fun l => by
    rw [List.any_map]; rfl
  unfold State.foldOpen
  rw [k, k s.ops, h.unmarked, e]

theorem State.Apart.hashOf (h : State.Apart s s' t) (a b : Nat) : s'.hashOf a b = s.hashOf a b := by
  have e : s'.foldsOf a b = s.foldsOf a b := by rw [h.rest]; rfl
  have g : s'.group a b = s.group a b := by rw [h.rest]; rfl
  unfold State.hashOf
  simp only [h.foldOpen, e, g]

theorem State.Apart.sreg (h : State.Apart s s' t) (r : SReg) : s'.sreg t r = s.sreg t r := by
  have hc : s'.clock = s.clock := by rw [h.rest]
  unfold State.sreg
  simp only [h.thread, h.groupOf, h.team, h.slot, h.hashOf, hc]

theorem State.Apart.rawOpnd (h : State.Apart s s' t) (o : Opnd) : s'.rawOpnd t o = s.rawOpnd t o := by
  cases o <;> simp only [State.rawOpnd, h.readSlices, h.readUni, h.sreg]

theorem State.Apart.opndAt (h : State.Apart s s' t) (o : Opnd) (w : Nat) (sg : Bool) :
    s'.opndAt t o w sg = s.opndAt t o w sg := by
  unfold State.opndAt; rw [h.rawOpnd]

theorem State.Apart.opnd (h : State.Apart s s' t) (o : Opnd) (ty : Ty) : s'.opnd t o ty = s.opnd t o ty := h.opndAt o _ _

theorem State.Apart.opnd64 (h : State.Apart s s' t) (o : Opnd) : s'.opnd64 t o = s.opnd64 t o := h.opndAt o _ _

theorem State.Apart.opnd32 (h : State.Apart s s' t) (o : Opnd) : s'.opnd32 t o = s.opnd32 t o := h.opndAt o _ _

theorem State.Apart.operand (h : State.Apart s s' t) (o : Opnd) (ty : Ty) : s'.operand t o ty = s.operand t o ty := by
  unfold State.operand; simp only [h.rawOpnd, h.opnd]

theorem State.Apart.fopnd (h : State.Apart s s' t) (o : Opnd) (ty : Ty) : s'.fopnd t o ty = s.fopnd t o ty := by
  unfold State.fopnd; simp only [h.thread, h.operand]

theorem State.Apart.slotOpnd (h : State.Apart s s' t) (x : Slot) (o : Opnd) : s'.slotOpnd t x o = s.slotOpnd t x o := by
  unfold State.slotOpnd; simp only [h.rawOpnd]

theorem State.Apart.guard (h : State.Apart s s' t) (c : Ctl) : s'.guard t c = s.guard t c := by
  unfold State.guard; rw [h.thread]

theorem State.Apart.srcPred (h : State.Apart s s' t) (f : LaneF) : s'.srcPred t f = s.srcPred t f := by
  unfold State.srcPred; rw [h.thread]

theorem State.Apart.slicesOk (h : State.Apart s s' t) (i : Instr) : s'.slicesOk t i = s.slicesOk t i := by
  unfold State.slicesOk; rw [h.groupOf]

end

/-! ### An issue -/

/-- A step over the threads of a list, none of which is t, leaves what t reads. -/
theorem State.apart_foldl {t : TRef} (e : State → TRef → State) (he : ∀ s u, State.Touch u s (e s u)) (l : List TRef)
    (s : State) (h : t ∉ l) : State.Apart s (l.foldl e s) t := by
  induction l generalizing s with
  | nil => exact .refl s t
  | cons u l ih =>
    have hu : t ≠ u := fun e => h (by simp [e])
    exact ((he s u).apart hu).trans (ih _ fun k => h (by simp [k]))

/-- What a step over the threads of a list does to one of them: what its own step does to it. -/
theorem State.thread_foldl {t : TRef} (e : State → TRef → State) (he : ∀ s u, State.Touch u s (e s u)) (l : List TRef)
    (s : State) (hn : l.Nodup) (h : t ∈ l) :
    ∃ s₁, State.Apart s s₁ t ∧ (l.foldl e s).thread t = (e s₁ t).thread t := by
  induction l generalizing s with
  | nil => cases h
  | cons u l ih =>
    rw [List.nodup_cons] at hn
    by_cases hu : t = u
    · subst hu
      exact ⟨s, .refl s t, (State.apart_foldl e he l (e s t) hn.1).thread⟩
    · obtain ⟨s₁, h₁, h₂⟩ := ih (e s u) hn.2 ((List.mem_cons.1 h).resolve_left hu)
      exact ⟨s₁, ((he s u).apart hu).trans h₁, h₂⟩

/-- A list of steps, each for one thread, changes only those threads. -/
theorem State.onlyThreads_foldl (e : State → TRef → State) (he : ∀ s u, State.Touch u s (e s u)) (l : List TRef)
    (s : State) : State.OnlyThreads s (l.foldl e s) l := by
  induction l generalizing s with
  | nil => exact ⟨rfl, fun _ _ => rfl, fun _ => 0, fun _ _ => rfl, by simp⟩
  | cons u l ih =>
    have k := ih (e s u)
    have h := he s u
    obtain ⟨m, hm⟩ := h.marks
    obtain ⟨n, hn, hn'⟩ := k.marks
    refine ⟨?_, fun v hv => ?_, fun v => (if v = u then m else 0) ||| n v, fun v hv => ?_, ?_⟩
    · exact k.rest.trans (congrArg (fun z : State =>
        { z with threads := (l.foldl e (e s u)).threads, ops := (l.foldl e (e s u)).ops }) h.rest)
    · simp only [List.mem_cons, not_or] at hv
      exact (k.others v hv.2).trans (h.others v hv.1)
    · simp only [List.mem_cons, not_or] at hv
      simp [hv.1, hn v hv.2]
    · rw [List.foldl_cons, hn', hm, List.map_map]
      refine List.map_congr_left fun o _ => ?_
      by_cases ho : o.who = u <;> simp [ho, BitVec.or_assoc]

/-- The step of a thread in an issue (R40, R47). -/
theorem State.touch_issueStep (i : Instr) (c : Common) (f : TRef → State → State)
    (hf : ∀ u s, State.Touch u s (f u s)) (s : State) (t : TRef) :
    State.Touch t s (if !s.guard t c.ctl then s.advance t c.ctl
      else if !s.slicesOk t i then s.raise t trapSliceRange else f t s) := by
  split
  · exact s.touch_advance t _
  · split
    · exact s.touch_raise t _ _ _
    · exact hf t s

/-- The step of a thread in an issue of a fixed-latency instruction (R41). -/
theorem State.touch_laneStep (c : Common) (f : TRef → State → State) (hf : ∀ u s, State.Touch u s (f u s)) (t : TRef)
    (s : State) :
    State.Touch t s (let s' := f t s; if (s'.thread t).trap.isSome then s' else s'.advance t c.ctl) := by
  simp only
  split
  · exact hf t s
  · exact (hf t s).trans (State.touch_advance _ t _)

/-- A lane instruction changes only the threads of its issue. -/
theorem State.forLanes_only (s : State) (i : Instr) (c : Common) (f : TRef → State → State)
    (hf : ∀ u s, State.Touch u s (f u s)) : State.OnlyThreads s (s.forLanes i c f) s.issue.threads :=
  State.onlyThreads_foldl _ (fun s u => State.touch_issueStep i c _ (State.touch_laneStep c f hf) s u) _ s

/-- What a lane instruction does to a thread that runs it: the value g of its effect, then the next word. -/
theorem State.forLanes_thread (s : State) (t : TRef) (i : Instr) (c : Common) (f : TRef → State → State)
    (hf : ∀ u s, State.Touch u s (f u s)) (g : State → Thread)
    (hg : ∀ s, s.hasThread t → (f t s).thread t = g s) (hc : ∀ a b, State.Apart a b t → g b = g a)
    (ht : (g s).trap = none) (hpc : (g s).pc = (s.thread t).pc) (hp : s.Passes t i c) :
    (s.forLanes i c f).thread t = (g s).past c := by
  obtain ⟨s₁, h₁, h₂⟩ := State.thread_foldl _
    (fun s u => State.touch_issueStep i c _ (State.touch_laneStep c f hf) s u) _ s hp.once hp.issued
  have row : s₁.hasThread t := h₁.row.2 hp.row
  have e : (f t s₁).thread t = g s := (hg s₁ row).trans (hc s s₁ h₁)
  refine h₂.trans ?_
  simp only [h₁.guard, hp.guard, h₁.slicesOk, hp.slices, Bool.not_true, Bool.false_eq_true, if_false, e, ht, Option.isSome_none]
  rw [State.thread_advance _ t c ((hf t s₁).rows t |>.2 row) (by rw [e, hpc]; exact hp.next), e]

end Sys2Proof.Machine
end

