-- ==== Sys2Proof/Laws/State.lean ====
section
/-! SUPPORT. What each update of a table leaves unchanged: every other field of the state, and every reader of another table;
true by definition. -/

namespace Sys2Proof.Machine

/-! ### setThread -/

section

variable (s : State) (t : TRef) (f : Thread → Thread)

@[simp] theorem State.setThread_agenda : (s.setThread t f).agenda = s.agenda := rfl
@[simp] theorem State.setThread_free : (s.setThread t f).free = s.free := rfl
@[simp] theorem State.setThread_ids : (s.setThread t f).ids = s.ids := rfl
@[simp] theorem State.setThread_issue : (s.setThread t f).issue = s.issue := rfl
@[simp] theorem State.setThread_clock : (s.setThread t f).clock = s.clock := rfl
@[simp] theorem State.setThread_power : (s.setThread t f).power = s.power := rfl
@[simp] theorem State.setThread_halted : (s.setThread t f).halted = s.halted := rfl
@[simp] theorem State.setThread_link : (s.setThread t f).link = s.link := rfl
@[simp] theorem State.setThread_mem : (s.setThread t f).mem = s.mem := rfl
@[simp] theorem State.setThread_hostMem : (s.setThread t f).hostMem = s.hostMem := rfl
@[simp] theorem State.setThread_poison : (s.setThread t f).poison = s.poison := rfl
@[simp] theorem State.setThread_seals : (s.setThread t f).seals = s.seals := rfl
@[simp] theorem State.setThread_wbuf : (s.setThread t f).wbuf = s.wbuf := rfl
@[simp] theorem State.setThread_marks : (s.setThread t f).marks = s.marks := rfl
@[simp] theorem State.setThread_owned : (s.setThread t f).owned = s.owned := rfl
@[simp] theorem State.setThread_prot : (s.setThread t f).prot = s.prot := rfl
@[simp] theorem State.setThread_fetch : (s.setThread t f).fetch = s.fetch := rfl
@[simp] theorem State.setThread_lastPage : (s.setThread t f).lastPage = s.lastPage := rfl
@[simp] theorem State.setThread_tlb : (s.setThread t f).tlb = s.tlb := rfl
@[simp] theorem State.setThread_walkCache : (s.setThread t f).walkCache = s.walkCache := rfl
@[simp] theorem State.setThread_windows : (s.setThread t f).windows = s.windows := rfl
@[simp] theorem State.setThread_winQ : (s.setThread t f).winQ = s.winQ := rfl
@[simp] theorem State.setThread_groups : (s.setThread t f).groups = s.groups := rfl
@[simp] theorem State.setThread_teams : (s.setThread t f).teams = s.teams := rfl
@[simp] theorem State.setThread_ops : (s.setThread t f).ops = s.ops := rfl
@[simp] theorem State.setThread_tiles : (s.setThread t f).tiles = s.tiles := rfl
@[simp] theorem State.setThread_handles : (s.setThread t f).handles = s.handles := rfl
@[simp] theorem State.setThread_tileQ : (s.setThread t f).tileQ = s.tileQ := rfl
@[simp] theorem State.setThread_channels : (s.setThread t f).channels = s.channels := rfl
@[simp] theorem State.setThread_copies : (s.setThread t f).copies = s.copies := rfl
@[simp] theorem State.setThread_units : (s.setThread t f).units = s.units := rfl
@[simp] theorem State.setThread_armed : (s.setThread t f).armed = s.armed := rfl
@[simp] theorem State.setThread_gathers : (s.setThread t f).gathers = s.gathers := rfl
@[simp] theorem State.setThread_mmas : (s.setThread t f).mmas = s.mmas := rfl
@[simp] theorem State.setThread_tmmacs : (s.setThread t f).tmmacs = s.tmmacs := rfl
@[simp] theorem State.setThread_shadows : (s.setThread t f).shadows = s.shadows := rfl
@[simp] theorem State.setThread_slots : (s.setThread t f).slots = s.slots := rfl
@[simp] theorem State.setThread_slotQ : (s.setThread t f).slotQ = s.slotQ := rfl
@[simp] theorem State.setThread_images : (s.setThread t f).images = s.images := rfl
@[simp] theorem State.setThread_laybys : (s.setThread t f).laybys = s.laybys := rfl
@[simp] theorem State.setThread_arrivals : (s.setThread t f).arrivals = s.arrivals := rfl
@[simp] theorem State.setThread_formed : (s.setThread t f).formed = s.formed := rfl
@[simp] theorem State.setThread_sets : (s.setThread t f).sets = s.sets := rfl
@[simp] theorem State.setThread_staging : (s.setThread t f).staging = s.staging := rfl
@[simp] theorem State.setThread_folds : (s.setThread t f).folds = s.folds := rfl
@[simp] theorem State.setThread_logs : (s.setThread t f).logs = s.logs := rfl
@[simp] theorem State.setThread_launches : (s.setThread t f).launches = s.launches := rfl
@[simp] theorem State.setThread_queued : (s.setThread t f).queued = s.queued := rfl
@[simp] theorem State.setThread_queues : (s.setThread t f).queues = s.queues := rfl
@[simp] theorem State.setThread_worlds : (s.setThread t f).worlds = s.worlds := rfl
@[simp] theorem State.setThread_parts : (s.setThread t f).parts = s.parts := rfl
@[simp] theorem State.setThread_faults : (s.setThread t f).faults = s.faults := rfl
@[simp] theorem State.setThread_s2 : (s.setThread t f).s2 = s.s2 := rfl
@[simp] theorem State.setThread_tensors : (s.setThread t f).tensors = s.tensors := rfl
@[simp] theorem State.setThread_regKeys : (s.setThread t f).regKeys = s.regKeys := rfl
@[simp] theorem State.setThread_kebase : (s.setThread t f).kebase = s.kebase := rfl
@[simp] theorem State.setThread_ketail : (s.setThread t f).ketail = s.ketail := rfl
@[simp] theorem State.setThread_kehead : (s.setThread t f).kehead = s.kehead := rfl
@[simp] theorem State.setThread_kenext : (s.setThread t f).kenext = s.kenext := rfl
@[simp] theorem State.setThread_remotes : (s.setThread t f).remotes = s.remotes := rfl
@[simp] theorem State.setThread_flits : (s.setThread t f).flits = s.flits := rfl
@[simp] theorem State.setThread_inbox : (s.setThread t f).inbox = s.inbox := rfl
@[simp] theorem State.setThread_links : (s.setThread t f).links = s.links := rfl
@[simp] theorem State.setThread_eth : (s.setThread t f).eth = s.eth := rfl
@[simp] theorem State.setThread_frames : (s.setThread t f).frames = s.frames := rfl
@[simp] theorem State.setThread_mgmt : (s.setThread t f).mgmt = s.mgmt := rfl
@[simp] theorem State.setThread_store : (s.setThread t f).store = s.store := rfl
@[simp] theorem State.setThread_doe : (s.setThread t f).doe = s.doe := rfl
@[simp] theorem State.setThread_read_group (c d : Nat) : (s.setThread t f).group c d = s.group c d := rfl
@[simp] theorem State.setThread_read_team (m : Nat) : (s.setThread t f).team m = s.team m := rfl
@[simp] theorem State.setThread_read_op_q (m : Nat) : (s.setThread t f).op? m = s.op? m := rfl
@[simp] theorem State.setThread_read_tile_q (m : Nat) : (s.setThread t f).tile? m = s.tile? m := rfl
@[simp] theorem State.setThread_read_handle_q (c : Nat) (k : BitVec 8) : (s.setThread t f).handle? c k = s.handle? c k := rfl
@[simp] theorem State.setThread_read_channel (c : Nat) (k : BitVec 4) : (s.setThread t f).channel c k = s.channel c k := rfl
@[simp] theorem State.setThread_read_copy_q (m : Nat) : (s.setThread t f).copy? m = s.copy? m := rfl
@[simp] theorem State.setThread_read_launch_q (m : Nat) : (s.setThread t f).launch? m = s.launch? m := rfl
@[simp] theorem State.setThread_read_world (m : Nat) : (s.setThread t f).world m = s.world m := rfl
@[simp] theorem State.setThread_read_queue (c d : Nat) : (s.setThread t f).queue c d = s.queue c d := rfl
@[simp] theorem State.setThread_read_slot (c : Nat) (k : BitVec 3) : (s.setThread t f).slot c k = s.slot c k := rfl
@[simp] theorem State.setThread_read_part_q (m : Nat) : (s.setThread t f).part? m = s.part? m := rfl
@[simp] theorem State.setThread_read_log_q (m : Nat) : (s.setThread t f).log? m = s.log? m := rfl
@[simp] theorem State.setThread_read_memByte (l : Loc) : (s.setThread t f).memByte l = s.memByte l := rfl

end

/-! ### setGroup -/

section

variable (s : State) (a b : Nat) (f : Group → Group)

@[simp] theorem State.setGroup_agenda : (s.setGroup a b f).agenda = s.agenda := rfl
@[simp] theorem State.setGroup_free : (s.setGroup a b f).free = s.free := rfl
@[simp] theorem State.setGroup_ids : (s.setGroup a b f).ids = s.ids := rfl
@[simp] theorem State.setGroup_issue : (s.setGroup a b f).issue = s.issue := rfl
@[simp] theorem State.setGroup_clock : (s.setGroup a b f).clock = s.clock := rfl
@[simp] theorem State.setGroup_power : (s.setGroup a b f).power = s.power := rfl
@[simp] theorem State.setGroup_halted : (s.setGroup a b f).halted = s.halted := rfl
@[simp] theorem State.setGroup_link : (s.setGroup a b f).link = s.link := rfl
@[simp] theorem State.setGroup_mem : (s.setGroup a b f).mem = s.mem := rfl
@[simp] theorem State.setGroup_hostMem : (s.setGroup a b f).hostMem = s.hostMem := rfl
@[simp] theorem State.setGroup_poison : (s.setGroup a b f).poison = s.poison := rfl
@[simp] theorem State.setGroup_seals : (s.setGroup a b f).seals = s.seals := rfl
@[simp] theorem State.setGroup_wbuf : (s.setGroup a b f).wbuf = s.wbuf := rfl
@[simp] theorem State.setGroup_marks : (s.setGroup a b f).marks = s.marks := rfl
@[simp] theorem State.setGroup_owned : (s.setGroup a b f).owned = s.owned := rfl
@[simp] theorem State.setGroup_prot : (s.setGroup a b f).prot = s.prot := rfl
@[simp] theorem State.setGroup_fetch : (s.setGroup a b f).fetch = s.fetch := rfl
@[simp] theorem State.setGroup_lastPage : (s.setGroup a b f).lastPage = s.lastPage := rfl
@[simp] theorem State.setGroup_tlb : (s.setGroup a b f).tlb = s.tlb := rfl
@[simp] theorem State.setGroup_walkCache : (s.setGroup a b f).walkCache = s.walkCache := rfl
@[simp] theorem State.setGroup_windows : (s.setGroup a b f).windows = s.windows := rfl
@[simp] theorem State.setGroup_winQ : (s.setGroup a b f).winQ = s.winQ := rfl
@[simp] theorem State.setGroup_threads : (s.setGroup a b f).threads = s.threads := rfl
@[simp] theorem State.setGroup_teams : (s.setGroup a b f).teams = s.teams := rfl
@[simp] theorem State.setGroup_ops : (s.setGroup a b f).ops = s.ops := rfl
@[simp] theorem State.setGroup_tiles : (s.setGroup a b f).tiles = s.tiles := rfl
@[simp] theorem State.setGroup_handles : (s.setGroup a b f).handles = s.handles := rfl
@[simp] theorem State.setGroup_tileQ : (s.setGroup a b f).tileQ = s.tileQ := rfl
@[simp] theorem State.setGroup_channels : (s.setGroup a b f).channels = s.channels := rfl
@[simp] theorem State.setGroup_copies : (s.setGroup a b f).copies = s.copies := rfl
@[simp] theorem State.setGroup_units : (s.setGroup a b f).units = s.units := rfl
@[simp] theorem State.setGroup_armed : (s.setGroup a b f).armed = s.armed := rfl
@[simp] theorem State.setGroup_gathers : (s.setGroup a b f).gathers = s.gathers := rfl
@[simp] theorem State.setGroup_mmas : (s.setGroup a b f).mmas = s.mmas := rfl
@[simp] theorem State.setGroup_tmmacs : (s.setGroup a b f).tmmacs = s.tmmacs := rfl
@[simp] theorem State.setGroup_shadows : (s.setGroup a b f).shadows = s.shadows := rfl
@[simp] theorem State.setGroup_slots : (s.setGroup a b f).slots = s.slots := rfl
@[simp] theorem State.setGroup_slotQ : (s.setGroup a b f).slotQ = s.slotQ := rfl
@[simp] theorem State.setGroup_images : (s.setGroup a b f).images = s.images := rfl
@[simp] theorem State.setGroup_laybys : (s.setGroup a b f).laybys = s.laybys := rfl
@[simp] theorem State.setGroup_arrivals : (s.setGroup a b f).arrivals = s.arrivals := rfl
@[simp] theorem State.setGroup_formed : (s.setGroup a b f).formed = s.formed := rfl
@[simp] theorem State.setGroup_sets : (s.setGroup a b f).sets = s.sets := rfl
@[simp] theorem State.setGroup_staging : (s.setGroup a b f).staging = s.staging := rfl
@[simp] theorem State.setGroup_folds : (s.setGroup a b f).folds = s.folds := rfl
@[simp] theorem State.setGroup_logs : (s.setGroup a b f).logs = s.logs := rfl
@[simp] theorem State.setGroup_launches : (s.setGroup a b f).launches = s.launches := rfl
@[simp] theorem State.setGroup_queued : (s.setGroup a b f).queued = s.queued := rfl
@[simp] theorem State.setGroup_queues : (s.setGroup a b f).queues = s.queues := rfl
@[simp] theorem State.setGroup_worlds : (s.setGroup a b f).worlds = s.worlds := rfl
@[simp] theorem State.setGroup_parts : (s.setGroup a b f).parts = s.parts := rfl
@[simp] theorem State.setGroup_faults : (s.setGroup a b f).faults = s.faults := rfl
@[simp] theorem State.setGroup_s2 : (s.setGroup a b f).s2 = s.s2 := rfl
@[simp] theorem State.setGroup_tensors : (s.setGroup a b f).tensors = s.tensors := rfl
@[simp] theorem State.setGroup_regKeys : (s.setGroup a b f).regKeys = s.regKeys := rfl
@[simp] theorem State.setGroup_kebase : (s.setGroup a b f).kebase = s.kebase := rfl
@[simp] theorem State.setGroup_ketail : (s.setGroup a b f).ketail = s.ketail := rfl
@[simp] theorem State.setGroup_kehead : (s.setGroup a b f).kehead = s.kehead := rfl
@[simp] theorem State.setGroup_kenext : (s.setGroup a b f).kenext = s.kenext := rfl
@[simp] theorem State.setGroup_remotes : (s.setGroup a b f).remotes = s.remotes := rfl
@[simp] theorem State.setGroup_flits : (s.setGroup a b f).flits = s.flits := rfl
@[simp] theorem State.setGroup_inbox : (s.setGroup a b f).inbox = s.inbox := rfl
@[simp] theorem State.setGroup_links : (s.setGroup a b f).links = s.links := rfl
@[simp] theorem State.setGroup_eth : (s.setGroup a b f).eth = s.eth := rfl
@[simp] theorem State.setGroup_frames : (s.setGroup a b f).frames = s.frames := rfl
@[simp] theorem State.setGroup_mgmt : (s.setGroup a b f).mgmt = s.mgmt := rfl
@[simp] theorem State.setGroup_store : (s.setGroup a b f).store = s.store := rfl
@[simp] theorem State.setGroup_doe : (s.setGroup a b f).doe = s.doe := rfl
@[simp] theorem State.setGroup_read_thread (u : TRef) : (s.setGroup a b f).thread u = s.thread u := rfl
@[simp] theorem State.setGroup_read_team (m : Nat) : (s.setGroup a b f).team m = s.team m := rfl
@[simp] theorem State.setGroup_read_op_q (m : Nat) : (s.setGroup a b f).op? m = s.op? m := rfl
@[simp] theorem State.setGroup_read_tile_q (m : Nat) : (s.setGroup a b f).tile? m = s.tile? m := rfl
@[simp] theorem State.setGroup_read_handle_q (c : Nat) (k : BitVec 8) : (s.setGroup a b f).handle? c k = s.handle? c k := rfl
@[simp] theorem State.setGroup_read_channel (c : Nat) (k : BitVec 4) : (s.setGroup a b f).channel c k = s.channel c k := rfl
@[simp] theorem State.setGroup_read_copy_q (m : Nat) : (s.setGroup a b f).copy? m = s.copy? m := rfl
@[simp] theorem State.setGroup_read_launch_q (m : Nat) : (s.setGroup a b f).launch? m = s.launch? m := rfl
@[simp] theorem State.setGroup_read_world (m : Nat) : (s.setGroup a b f).world m = s.world m := rfl
@[simp] theorem State.setGroup_read_queue (c d : Nat) : (s.setGroup a b f).queue c d = s.queue c d := rfl
@[simp] theorem State.setGroup_read_slot (c : Nat) (k : BitVec 3) : (s.setGroup a b f).slot c k = s.slot c k := rfl
@[simp] theorem State.setGroup_read_part_q (m : Nat) : (s.setGroup a b f).part? m = s.part? m := rfl
@[simp] theorem State.setGroup_read_log_q (m : Nat) : (s.setGroup a b f).log? m = s.log? m := rfl
@[simp] theorem State.setGroup_read_memByte (l : Loc) : (s.setGroup a b f).memByte l = s.memByte l := rfl

end

/-! ### setTeam -/

section

variable (s : State) (n : Nat) (f : Team → Team)

@[simp] theorem State.setTeam_agenda : (s.setTeam n f).agenda = s.agenda := rfl
@[simp] theorem State.setTeam_free : (s.setTeam n f).free = s.free := rfl
@[simp] theorem State.setTeam_ids : (s.setTeam n f).ids = s.ids := rfl
@[simp] theorem State.setTeam_issue : (s.setTeam n f).issue = s.issue := rfl
@[simp] theorem State.setTeam_clock : (s.setTeam n f).clock = s.clock := rfl
@[simp] theorem State.setTeam_power : (s.setTeam n f).power = s.power := rfl
@[simp] theorem State.setTeam_halted : (s.setTeam n f).halted = s.halted := rfl
@[simp] theorem State.setTeam_link : (s.setTeam n f).link = s.link := rfl
@[simp] theorem State.setTeam_mem : (s.setTeam n f).mem = s.mem := rfl
@[simp] theorem State.setTeam_hostMem : (s.setTeam n f).hostMem = s.hostMem := rfl
@[simp] theorem State.setTeam_poison : (s.setTeam n f).poison = s.poison := rfl
@[simp] theorem State.setTeam_seals : (s.setTeam n f).seals = s.seals := rfl
@[simp] theorem State.setTeam_wbuf : (s.setTeam n f).wbuf = s.wbuf := rfl
@[simp] theorem State.setTeam_marks : (s.setTeam n f).marks = s.marks := rfl
@[simp] theorem State.setTeam_owned : (s.setTeam n f).owned = s.owned := rfl
@[simp] theorem State.setTeam_prot : (s.setTeam n f).prot = s.prot := rfl
@[simp] theorem State.setTeam_fetch : (s.setTeam n f).fetch = s.fetch := rfl
@[simp] theorem State.setTeam_lastPage : (s.setTeam n f).lastPage = s.lastPage := rfl
@[simp] theorem State.setTeam_tlb : (s.setTeam n f).tlb = s.tlb := rfl
@[simp] theorem State.setTeam_walkCache : (s.setTeam n f).walkCache = s.walkCache := rfl
@[simp] theorem State.setTeam_windows : (s.setTeam n f).windows = s.windows := rfl
@[simp] theorem State.setTeam_winQ : (s.setTeam n f).winQ = s.winQ := rfl
@[simp] theorem State.setTeam_threads : (s.setTeam n f).threads = s.threads := rfl
@[simp] theorem State.setTeam_groups : (s.setTeam n f).groups = s.groups := rfl
@[simp] theorem State.setTeam_ops : (s.setTeam n f).ops = s.ops := rfl
@[simp] theorem State.setTeam_tiles : (s.setTeam n f).tiles = s.tiles := rfl
@[simp] theorem State.setTeam_handles : (s.setTeam n f).handles = s.handles := rfl
@[simp] theorem State.setTeam_tileQ : (s.setTeam n f).tileQ = s.tileQ := rfl
@[simp] theorem State.setTeam_channels : (s.setTeam n f).channels = s.channels := rfl
@[simp] theorem State.setTeam_copies : (s.setTeam n f).copies = s.copies := rfl
@[simp] theorem State.setTeam_units : (s.setTeam n f).units = s.units := rfl
@[simp] theorem State.setTeam_armed : (s.setTeam n f).armed = s.armed := rfl
@[simp] theorem State.setTeam_gathers : (s.setTeam n f).gathers = s.gathers := rfl
@[simp] theorem State.setTeam_mmas : (s.setTeam n f).mmas = s.mmas := rfl
@[simp] theorem State.setTeam_tmmacs : (s.setTeam n f).tmmacs = s.tmmacs := rfl
@[simp] theorem State.setTeam_shadows : (s.setTeam n f).shadows = s.shadows := rfl
@[simp] theorem State.setTeam_slots : (s.setTeam n f).slots = s.slots := rfl
@[simp] theorem State.setTeam_slotQ : (s.setTeam n f).slotQ = s.slotQ := rfl
@[simp] theorem State.setTeam_images : (s.setTeam n f).images = s.images := rfl
@[simp] theorem State.setTeam_laybys : (s.setTeam n f).laybys = s.laybys := rfl
@[simp] theorem State.setTeam_arrivals : (s.setTeam n f).arrivals = s.arrivals := rfl
@[simp] theorem State.setTeam_formed : (s.setTeam n f).formed = s.formed := rfl
@[simp] theorem State.setTeam_sets : (s.setTeam n f).sets = s.sets := rfl
@[simp] theorem State.setTeam_staging : (s.setTeam n f).staging = s.staging := rfl
@[simp] theorem State.setTeam_folds : (s.setTeam n f).folds = s.folds := rfl
@[simp] theorem State.setTeam_logs : (s.setTeam n f).logs = s.logs := rfl
@[simp] theorem State.setTeam_launches : (s.setTeam n f).launches = s.launches := rfl
@[simp] theorem State.setTeam_queued : (s.setTeam n f).queued = s.queued := rfl
@[simp] theorem State.setTeam_queues : (s.setTeam n f).queues = s.queues := rfl
@[simp] theorem State.setTeam_worlds : (s.setTeam n f).worlds = s.worlds := rfl
@[simp] theorem State.setTeam_parts : (s.setTeam n f).parts = s.parts := rfl
@[simp] theorem State.setTeam_faults : (s.setTeam n f).faults = s.faults := rfl
@[simp] theorem State.setTeam_s2 : (s.setTeam n f).s2 = s.s2 := rfl
@[simp] theorem State.setTeam_tensors : (s.setTeam n f).tensors = s.tensors := rfl
@[simp] theorem State.setTeam_regKeys : (s.setTeam n f).regKeys = s.regKeys := rfl
@[simp] theorem State.setTeam_kebase : (s.setTeam n f).kebase = s.kebase := rfl
@[simp] theorem State.setTeam_ketail : (s.setTeam n f).ketail = s.ketail := rfl
@[simp] theorem State.setTeam_kehead : (s.setTeam n f).kehead = s.kehead := rfl
@[simp] theorem State.setTeam_kenext : (s.setTeam n f).kenext = s.kenext := rfl
@[simp] theorem State.setTeam_remotes : (s.setTeam n f).remotes = s.remotes := rfl
@[simp] theorem State.setTeam_flits : (s.setTeam n f).flits = s.flits := rfl
@[simp] theorem State.setTeam_inbox : (s.setTeam n f).inbox = s.inbox := rfl
@[simp] theorem State.setTeam_links : (s.setTeam n f).links = s.links := rfl
@[simp] theorem State.setTeam_eth : (s.setTeam n f).eth = s.eth := rfl
@[simp] theorem State.setTeam_frames : (s.setTeam n f).frames = s.frames := rfl
@[simp] theorem State.setTeam_mgmt : (s.setTeam n f).mgmt = s.mgmt := rfl
@[simp] theorem State.setTeam_store : (s.setTeam n f).store = s.store := rfl
@[simp] theorem State.setTeam_doe : (s.setTeam n f).doe = s.doe := rfl
@[simp] theorem State.setTeam_read_thread (u : TRef) : (s.setTeam n f).thread u = s.thread u := rfl
@[simp] theorem State.setTeam_read_group (c d : Nat) : (s.setTeam n f).group c d = s.group c d := rfl
@[simp] theorem State.setTeam_read_op_q (m : Nat) : (s.setTeam n f).op? m = s.op? m := rfl
@[simp] theorem State.setTeam_read_tile_q (m : Nat) : (s.setTeam n f).tile? m = s.tile? m := rfl
@[simp] theorem State.setTeam_read_handle_q (c : Nat) (k : BitVec 8) : (s.setTeam n f).handle? c k = s.handle? c k := rfl
@[simp] theorem State.setTeam_read_channel (c : Nat) (k : BitVec 4) : (s.setTeam n f).channel c k = s.channel c k := rfl
@[simp] theorem State.setTeam_read_copy_q (m : Nat) : (s.setTeam n f).copy? m = s.copy? m := rfl
@[simp] theorem State.setTeam_read_launch_q (m : Nat) : (s.setTeam n f).launch? m = s.launch? m := rfl
@[simp] theorem State.setTeam_read_world (m : Nat) : (s.setTeam n f).world m = s.world m := rfl
@[simp] theorem State.setTeam_read_queue (c d : Nat) : (s.setTeam n f).queue c d = s.queue c d := rfl
@[simp] theorem State.setTeam_read_slot (c : Nat) (k : BitVec 3) : (s.setTeam n f).slot c k = s.slot c k := rfl
@[simp] theorem State.setTeam_read_part_q (m : Nat) : (s.setTeam n f).part? m = s.part? m := rfl
@[simp] theorem State.setTeam_read_log_q (m : Nat) : (s.setTeam n f).log? m = s.log? m := rfl
@[simp] theorem State.setTeam_read_memByte (l : Loc) : (s.setTeam n f).memByte l = s.memByte l := rfl

end

/-! ### setOp -/

section

variable (s : State) (n : Nat) (f : Op → Op)

@[simp] theorem State.setOp_agenda : (s.setOp n f).agenda = s.agenda := rfl
@[simp] theorem State.setOp_free : (s.setOp n f).free = s.free := rfl
@[simp] theorem State.setOp_ids : (s.setOp n f).ids = s.ids := rfl
@[simp] theorem State.setOp_issue : (s.setOp n f).issue = s.issue := rfl
@[simp] theorem State.setOp_clock : (s.setOp n f).clock = s.clock := rfl
@[simp] theorem State.setOp_power : (s.setOp n f).power = s.power := rfl
@[simp] theorem State.setOp_halted : (s.setOp n f).halted = s.halted := rfl
@[simp] theorem State.setOp_link : (s.setOp n f).link = s.link := rfl
@[simp] theorem State.setOp_mem : (s.setOp n f).mem = s.mem := rfl
@[simp] theorem State.setOp_hostMem : (s.setOp n f).hostMem = s.hostMem := rfl
@[simp] theorem State.setOp_poison : (s.setOp n f).poison = s.poison := rfl
@[simp] theorem State.setOp_seals : (s.setOp n f).seals = s.seals := rfl
@[simp] theorem State.setOp_wbuf : (s.setOp n f).wbuf = s.wbuf := rfl
@[simp] theorem State.setOp_marks : (s.setOp n f).marks = s.marks := rfl
@[simp] theorem State.setOp_owned : (s.setOp n f).owned = s.owned := rfl
@[simp] theorem State.setOp_prot : (s.setOp n f).prot = s.prot := rfl
@[simp] theorem State.setOp_fetch : (s.setOp n f).fetch = s.fetch := rfl
@[simp] theorem State.setOp_lastPage : (s.setOp n f).lastPage = s.lastPage := rfl
@[simp] theorem State.setOp_tlb : (s.setOp n f).tlb = s.tlb := rfl
@[simp] theorem State.setOp_walkCache : (s.setOp n f).walkCache = s.walkCache := rfl
@[simp] theorem State.setOp_windows : (s.setOp n f).windows = s.windows := rfl
@[simp] theorem State.setOp_winQ : (s.setOp n f).winQ = s.winQ := rfl
@[simp] theorem State.setOp_threads : (s.setOp n f).threads = s.threads := rfl
@[simp] theorem State.setOp_groups : (s.setOp n f).groups = s.groups := rfl
@[simp] theorem State.setOp_teams : (s.setOp n f).teams = s.teams := rfl
@[simp] theorem State.setOp_tiles : (s.setOp n f).tiles = s.tiles := rfl
@[simp] theorem State.setOp_handles : (s.setOp n f).handles = s.handles := rfl
@[simp] theorem State.setOp_tileQ : (s.setOp n f).tileQ = s.tileQ := rfl
@[simp] theorem State.setOp_channels : (s.setOp n f).channels = s.channels := rfl
@[simp] theorem State.setOp_copies : (s.setOp n f).copies = s.copies := rfl
@[simp] theorem State.setOp_units : (s.setOp n f).units = s.units := rfl
@[simp] theorem State.setOp_armed : (s.setOp n f).armed = s.armed := rfl
@[simp] theorem State.setOp_gathers : (s.setOp n f).gathers = s.gathers := rfl
@[simp] theorem State.setOp_mmas : (s.setOp n f).mmas = s.mmas := rfl
@[simp] theorem State.setOp_tmmacs : (s.setOp n f).tmmacs = s.tmmacs := rfl
@[simp] theorem State.setOp_shadows : (s.setOp n f).shadows = s.shadows := rfl
@[simp] theorem State.setOp_slots : (s.setOp n f).slots = s.slots := rfl
@[simp] theorem State.setOp_slotQ : (s.setOp n f).slotQ = s.slotQ := rfl
@[simp] theorem State.setOp_images : (s.setOp n f).images = s.images := rfl
@[simp] theorem State.setOp_laybys : (s.setOp n f).laybys = s.laybys := rfl
@[simp] theorem State.setOp_arrivals : (s.setOp n f).arrivals = s.arrivals := rfl
@[simp] theorem State.setOp_formed : (s.setOp n f).formed = s.formed := rfl
@[simp] theorem State.setOp_sets : (s.setOp n f).sets = s.sets := rfl
@[simp] theorem State.setOp_staging : (s.setOp n f).staging = s.staging := rfl
@[simp] theorem State.setOp_folds : (s.setOp n f).folds = s.folds := rfl
@[simp] theorem State.setOp_logs : (s.setOp n f).logs = s.logs := rfl
@[simp] theorem State.setOp_launches : (s.setOp n f).launches = s.launches := rfl
@[simp] theorem State.setOp_queued : (s.setOp n f).queued = s.queued := rfl
@[simp] theorem State.setOp_queues : (s.setOp n f).queues = s.queues := rfl
@[simp] theorem State.setOp_worlds : (s.setOp n f).worlds = s.worlds := rfl
@[simp] theorem State.setOp_parts : (s.setOp n f).parts = s.parts := rfl
@[simp] theorem State.setOp_faults : (s.setOp n f).faults = s.faults := rfl
@[simp] theorem State.setOp_s2 : (s.setOp n f).s2 = s.s2 := rfl
@[simp] theorem State.setOp_tensors : (s.setOp n f).tensors = s.tensors := rfl
@[simp] theorem State.setOp_regKeys : (s.setOp n f).regKeys = s.regKeys := rfl
@[simp] theorem State.setOp_kebase : (s.setOp n f).kebase = s.kebase := rfl
@[simp] theorem State.setOp_ketail : (s.setOp n f).ketail = s.ketail := rfl
@[simp] theorem State.setOp_kehead : (s.setOp n f).kehead = s.kehead := rfl
@[simp] theorem State.setOp_kenext : (s.setOp n f).kenext = s.kenext := rfl
@[simp] theorem State.setOp_remotes : (s.setOp n f).remotes = s.remotes := rfl
@[simp] theorem State.setOp_flits : (s.setOp n f).flits = s.flits := rfl
@[simp] theorem State.setOp_inbox : (s.setOp n f).inbox = s.inbox := rfl
@[simp] theorem State.setOp_links : (s.setOp n f).links = s.links := rfl
@[simp] theorem State.setOp_eth : (s.setOp n f).eth = s.eth := rfl
@[simp] theorem State.setOp_frames : (s.setOp n f).frames = s.frames := rfl
@[simp] theorem State.setOp_mgmt : (s.setOp n f).mgmt = s.mgmt := rfl
@[simp] theorem State.setOp_store : (s.setOp n f).store = s.store := rfl
@[simp] theorem State.setOp_doe : (s.setOp n f).doe = s.doe := rfl
@[simp] theorem State.setOp_read_thread (u : TRef) : (s.setOp n f).thread u = s.thread u := rfl
@[simp] theorem State.setOp_read_group (c d : Nat) : (s.setOp n f).group c d = s.group c d := rfl
@[simp] theorem State.setOp_read_team (m : Nat) : (s.setOp n f).team m = s.team m := rfl
@[simp] theorem State.setOp_read_tile_q (m : Nat) : (s.setOp n f).tile? m = s.tile? m := rfl
@[simp] theorem State.setOp_read_handle_q (c : Nat) (k : BitVec 8) : (s.setOp n f).handle? c k = s.handle? c k := rfl
@[simp] theorem State.setOp_read_channel (c : Nat) (k : BitVec 4) : (s.setOp n f).channel c k = s.channel c k := rfl
@[simp] theorem State.setOp_read_copy_q (m : Nat) : (s.setOp n f).copy? m = s.copy? m := rfl
@[simp] theorem State.setOp_read_launch_q (m : Nat) : (s.setOp n f).launch? m = s.launch? m := rfl
@[simp] theorem State.setOp_read_world (m : Nat) : (s.setOp n f).world m = s.world m := rfl
@[simp] theorem State.setOp_read_queue (c d : Nat) : (s.setOp n f).queue c d = s.queue c d := rfl
@[simp] theorem State.setOp_read_slot (c : Nat) (k : BitVec 3) : (s.setOp n f).slot c k = s.slot c k := rfl
@[simp] theorem State.setOp_read_part_q (m : Nat) : (s.setOp n f).part? m = s.part? m := rfl
@[simp] theorem State.setOp_read_log_q (m : Nat) : (s.setOp n f).log? m = s.log? m := rfl
@[simp] theorem State.setOp_read_memByte (l : Loc) : (s.setOp n f).memByte l = s.memByte l := rfl

end

/-! ### setTile -/

section

variable (s : State) (n : Nat) (f : Tile → Tile)

@[simp] theorem State.setTile_agenda : (s.setTile n f).agenda = s.agenda := rfl
@[simp] theorem State.setTile_free : (s.setTile n f).free = s.free := rfl
@[simp] theorem State.setTile_ids : (s.setTile n f).ids = s.ids := rfl
@[simp] theorem State.setTile_issue : (s.setTile n f).issue = s.issue := rfl
@[simp] theorem State.setTile_clock : (s.setTile n f).clock = s.clock := rfl
@[simp] theorem State.setTile_power : (s.setTile n f).power = s.power := rfl
@[simp] theorem State.setTile_halted : (s.setTile n f).halted = s.halted := rfl
@[simp] theorem State.setTile_link : (s.setTile n f).link = s.link := rfl
@[simp] theorem State.setTile_mem : (s.setTile n f).mem = s.mem := rfl
@[simp] theorem State.setTile_hostMem : (s.setTile n f).hostMem = s.hostMem := rfl
@[simp] theorem State.setTile_poison : (s.setTile n f).poison = s.poison := rfl
@[simp] theorem State.setTile_seals : (s.setTile n f).seals = s.seals := rfl
@[simp] theorem State.setTile_wbuf : (s.setTile n f).wbuf = s.wbuf := rfl
@[simp] theorem State.setTile_marks : (s.setTile n f).marks = s.marks := rfl
@[simp] theorem State.setTile_owned : (s.setTile n f).owned = s.owned := rfl
@[simp] theorem State.setTile_prot : (s.setTile n f).prot = s.prot := rfl
@[simp] theorem State.setTile_fetch : (s.setTile n f).fetch = s.fetch := rfl
@[simp] theorem State.setTile_lastPage : (s.setTile n f).lastPage = s.lastPage := rfl
@[simp] theorem State.setTile_tlb : (s.setTile n f).tlb = s.tlb := rfl
@[simp] theorem State.setTile_walkCache : (s.setTile n f).walkCache = s.walkCache := rfl
@[simp] theorem State.setTile_windows : (s.setTile n f).windows = s.windows := rfl
@[simp] theorem State.setTile_winQ : (s.setTile n f).winQ = s.winQ := rfl
@[simp] theorem State.setTile_threads : (s.setTile n f).threads = s.threads := rfl
@[simp] theorem State.setTile_groups : (s.setTile n f).groups = s.groups := rfl
@[simp] theorem State.setTile_teams : (s.setTile n f).teams = s.teams := rfl
@[simp] theorem State.setTile_ops : (s.setTile n f).ops = s.ops := rfl
@[simp] theorem State.setTile_handles : (s.setTile n f).handles = s.handles := rfl
@[simp] theorem State.setTile_tileQ : (s.setTile n f).tileQ = s.tileQ := rfl
@[simp] theorem State.setTile_channels : (s.setTile n f).channels = s.channels := rfl
@[simp] theorem State.setTile_copies : (s.setTile n f).copies = s.copies := rfl
@[simp] theorem State.setTile_units : (s.setTile n f).units = s.units := rfl
@[simp] theorem State.setTile_armed : (s.setTile n f).armed = s.armed := rfl
@[simp] theorem State.setTile_gathers : (s.setTile n f).gathers = s.gathers := rfl
@[simp] theorem State.setTile_mmas : (s.setTile n f).mmas = s.mmas := rfl
@[simp] theorem State.setTile_tmmacs : (s.setTile n f).tmmacs = s.tmmacs := rfl
@[simp] theorem State.setTile_slots : (s.setTile n f).slots = s.slots := rfl
@[simp] theorem State.setTile_slotQ : (s.setTile n f).slotQ = s.slotQ := rfl
@[simp] theorem State.setTile_images : (s.setTile n f).images = s.images := rfl
@[simp] theorem State.setTile_laybys : (s.setTile n f).laybys = s.laybys := rfl
@[simp] theorem State.setTile_arrivals : (s.setTile n f).arrivals = s.arrivals := rfl
@[simp] theorem State.setTile_formed : (s.setTile n f).formed = s.formed := rfl
@[simp] theorem State.setTile_sets : (s.setTile n f).sets = s.sets := rfl
@[simp] theorem State.setTile_staging : (s.setTile n f).staging = s.staging := rfl
@[simp] theorem State.setTile_folds : (s.setTile n f).folds = s.folds := rfl
@[simp] theorem State.setTile_logs : (s.setTile n f).logs = s.logs := rfl
@[simp] theorem State.setTile_launches : (s.setTile n f).launches = s.launches := rfl
@[simp] theorem State.setTile_queued : (s.setTile n f).queued = s.queued := rfl
@[simp] theorem State.setTile_queues : (s.setTile n f).queues = s.queues := rfl
@[simp] theorem State.setTile_worlds : (s.setTile n f).worlds = s.worlds := rfl
@[simp] theorem State.setTile_parts : (s.setTile n f).parts = s.parts := rfl
@[simp] theorem State.setTile_faults : (s.setTile n f).faults = s.faults := rfl
@[simp] theorem State.setTile_s2 : (s.setTile n f).s2 = s.s2 := rfl
@[simp] theorem State.setTile_tensors : (s.setTile n f).tensors = s.tensors := rfl
@[simp] theorem State.setTile_regKeys : (s.setTile n f).regKeys = s.regKeys := rfl
@[simp] theorem State.setTile_kebase : (s.setTile n f).kebase = s.kebase := rfl
@[simp] theorem State.setTile_ketail : (s.setTile n f).ketail = s.ketail := rfl
@[simp] theorem State.setTile_kehead : (s.setTile n f).kehead = s.kehead := rfl
@[simp] theorem State.setTile_kenext : (s.setTile n f).kenext = s.kenext := rfl
@[simp] theorem State.setTile_remotes : (s.setTile n f).remotes = s.remotes := rfl
@[simp] theorem State.setTile_flits : (s.setTile n f).flits = s.flits := rfl
@[simp] theorem State.setTile_inbox : (s.setTile n f).inbox = s.inbox := rfl
@[simp] theorem State.setTile_links : (s.setTile n f).links = s.links := rfl
@[simp] theorem State.setTile_eth : (s.setTile n f).eth = s.eth := rfl
@[simp] theorem State.setTile_frames : (s.setTile n f).frames = s.frames := rfl
@[simp] theorem State.setTile_mgmt : (s.setTile n f).mgmt = s.mgmt := rfl
@[simp] theorem State.setTile_store : (s.setTile n f).store = s.store := rfl
@[simp] theorem State.setTile_doe : (s.setTile n f).doe = s.doe := rfl
@[simp] theorem State.setTile_read_thread (u : TRef) : (s.setTile n f).thread u = s.thread u := rfl
@[simp] theorem State.setTile_read_group (c d : Nat) : (s.setTile n f).group c d = s.group c d := rfl
@[simp] theorem State.setTile_read_team (m : Nat) : (s.setTile n f).team m = s.team m := rfl
@[simp] theorem State.setTile_read_op_q (m : Nat) : (s.setTile n f).op? m = s.op? m := rfl
@[simp] theorem State.setTile_read_handle_q (c : Nat) (k : BitVec 8) : (s.setTile n f).handle? c k = s.handle? c k := rfl
@[simp] theorem State.setTile_read_channel (c : Nat) (k : BitVec 4) : (s.setTile n f).channel c k = s.channel c k := rfl
@[simp] theorem State.setTile_read_copy_q (m : Nat) : (s.setTile n f).copy? m = s.copy? m := rfl
@[simp] theorem State.setTile_read_launch_q (m : Nat) : (s.setTile n f).launch? m = s.launch? m := rfl
@[simp] theorem State.setTile_read_world (m : Nat) : (s.setTile n f).world m = s.world m := rfl
@[simp] theorem State.setTile_read_queue (c d : Nat) : (s.setTile n f).queue c d = s.queue c d := rfl
@[simp] theorem State.setTile_read_slot (c : Nat) (k : BitVec 3) : (s.setTile n f).slot c k = s.slot c k := rfl
@[simp] theorem State.setTile_read_part_q (m : Nat) : (s.setTile n f).part? m = s.part? m := rfl
@[simp] theorem State.setTile_read_log_q (m : Nat) : (s.setTile n f).log? m = s.log? m := rfl
@[simp] theorem State.setTile_read_memByte (l : Loc) : (s.setTile n f).memByte l = s.memByte l := rfl

end

/-! ### setHandle -/

section

variable (s : State) (a : Nat) (h : BitVec 8) (v : Option Handle)

@[simp] theorem State.setHandle_agenda : (s.setHandle a h v).agenda = s.agenda := rfl
@[simp] theorem State.setHandle_free : (s.setHandle a h v).free = s.free := rfl
@[simp] theorem State.setHandle_ids : (s.setHandle a h v).ids = s.ids := rfl
@[simp] theorem State.setHandle_issue : (s.setHandle a h v).issue = s.issue := rfl
@[simp] theorem State.setHandle_clock : (s.setHandle a h v).clock = s.clock := rfl
@[simp] theorem State.setHandle_power : (s.setHandle a h v).power = s.power := rfl
@[simp] theorem State.setHandle_halted : (s.setHandle a h v).halted = s.halted := rfl
@[simp] theorem State.setHandle_link : (s.setHandle a h v).link = s.link := rfl
@[simp] theorem State.setHandle_mem : (s.setHandle a h v).mem = s.mem := rfl
@[simp] theorem State.setHandle_hostMem : (s.setHandle a h v).hostMem = s.hostMem := rfl
@[simp] theorem State.setHandle_poison : (s.setHandle a h v).poison = s.poison := rfl
@[simp] theorem State.setHandle_seals : (s.setHandle a h v).seals = s.seals := rfl
@[simp] theorem State.setHandle_wbuf : (s.setHandle a h v).wbuf = s.wbuf := rfl
@[simp] theorem State.setHandle_marks : (s.setHandle a h v).marks = s.marks := rfl
@[simp] theorem State.setHandle_owned : (s.setHandle a h v).owned = s.owned := rfl
@[simp] theorem State.setHandle_prot : (s.setHandle a h v).prot = s.prot := rfl
@[simp] theorem State.setHandle_fetch : (s.setHandle a h v).fetch = s.fetch := rfl
@[simp] theorem State.setHandle_lastPage : (s.setHandle a h v).lastPage = s.lastPage := rfl
@[simp] theorem State.setHandle_tlb : (s.setHandle a h v).tlb = s.tlb := rfl
@[simp] theorem State.setHandle_walkCache : (s.setHandle a h v).walkCache = s.walkCache := rfl
@[simp] theorem State.setHandle_windows : (s.setHandle a h v).windows = s.windows := rfl
@[simp] theorem State.setHandle_winQ : (s.setHandle a h v).winQ = s.winQ := rfl
@[simp] theorem State.setHandle_threads : (s.setHandle a h v).threads = s.threads := rfl
@[simp] theorem State.setHandle_groups : (s.setHandle a h v).groups = s.groups := rfl
@[simp] theorem State.setHandle_teams : (s.setHandle a h v).teams = s.teams := rfl
@[simp] theorem State.setHandle_ops : (s.setHandle a h v).ops = s.ops := rfl
@[simp] theorem State.setHandle_tiles : (s.setHandle a h v).tiles = s.tiles := rfl
@[simp] theorem State.setHandle_tileQ : (s.setHandle a h v).tileQ = s.tileQ := rfl
@[simp] theorem State.setHandle_channels : (s.setHandle a h v).channels = s.channels := rfl
@[simp] theorem State.setHandle_copies : (s.setHandle a h v).copies = s.copies := rfl
@[simp] theorem State.setHandle_units : (s.setHandle a h v).units = s.units := rfl
@[simp] theorem State.setHandle_armed : (s.setHandle a h v).armed = s.armed := rfl
@[simp] theorem State.setHandle_gathers : (s.setHandle a h v).gathers = s.gathers := rfl
@[simp] theorem State.setHandle_mmas : (s.setHandle a h v).mmas = s.mmas := rfl
@[simp] theorem State.setHandle_tmmacs : (s.setHandle a h v).tmmacs = s.tmmacs := rfl
@[simp] theorem State.setHandle_shadows : (s.setHandle a h v).shadows = s.shadows := rfl
@[simp] theorem State.setHandle_slots : (s.setHandle a h v).slots = s.slots := rfl
@[simp] theorem State.setHandle_slotQ : (s.setHandle a h v).slotQ = s.slotQ := rfl
@[simp] theorem State.setHandle_images : (s.setHandle a h v).images = s.images := rfl
@[simp] theorem State.setHandle_laybys : (s.setHandle a h v).laybys = s.laybys := rfl
@[simp] theorem State.setHandle_arrivals : (s.setHandle a h v).arrivals = s.arrivals := rfl
@[simp] theorem State.setHandle_formed : (s.setHandle a h v).formed = s.formed := rfl
@[simp] theorem State.setHandle_sets : (s.setHandle a h v).sets = s.sets := rfl
@[simp] theorem State.setHandle_staging : (s.setHandle a h v).staging = s.staging := rfl
@[simp] theorem State.setHandle_folds : (s.setHandle a h v).folds = s.folds := rfl
@[simp] theorem State.setHandle_logs : (s.setHandle a h v).logs = s.logs := rfl
@[simp] theorem State.setHandle_launches : (s.setHandle a h v).launches = s.launches := rfl
@[simp] theorem State.setHandle_queued : (s.setHandle a h v).queued = s.queued := rfl
@[simp] theorem State.setHandle_queues : (s.setHandle a h v).queues = s.queues := rfl
@[simp] theorem State.setHandle_worlds : (s.setHandle a h v).worlds = s.worlds := rfl
@[simp] theorem State.setHandle_parts : (s.setHandle a h v).parts = s.parts := rfl
@[simp] theorem State.setHandle_faults : (s.setHandle a h v).faults = s.faults := rfl
@[simp] theorem State.setHandle_s2 : (s.setHandle a h v).s2 = s.s2 := rfl
@[simp] theorem State.setHandle_tensors : (s.setHandle a h v).tensors = s.tensors := rfl
@[simp] theorem State.setHandle_regKeys : (s.setHandle a h v).regKeys = s.regKeys := rfl
@[simp] theorem State.setHandle_kebase : (s.setHandle a h v).kebase = s.kebase := rfl
@[simp] theorem State.setHandle_ketail : (s.setHandle a h v).ketail = s.ketail := rfl
@[simp] theorem State.setHandle_kehead : (s.setHandle a h v).kehead = s.kehead := rfl
@[simp] theorem State.setHandle_kenext : (s.setHandle a h v).kenext = s.kenext := rfl
@[simp] theorem State.setHandle_remotes : (s.setHandle a h v).remotes = s.remotes := rfl
@[simp] theorem State.setHandle_flits : (s.setHandle a h v).flits = s.flits := rfl
@[simp] theorem State.setHandle_inbox : (s.setHandle a h v).inbox = s.inbox := rfl
@[simp] theorem State.setHandle_links : (s.setHandle a h v).links = s.links := rfl
@[simp] theorem State.setHandle_eth : (s.setHandle a h v).eth = s.eth := rfl
@[simp] theorem State.setHandle_frames : (s.setHandle a h v).frames = s.frames := rfl
@[simp] theorem State.setHandle_mgmt : (s.setHandle a h v).mgmt = s.mgmt := rfl
@[simp] theorem State.setHandle_store : (s.setHandle a h v).store = s.store := rfl
@[simp] theorem State.setHandle_doe : (s.setHandle a h v).doe = s.doe := rfl
@[simp] theorem State.setHandle_read_thread (u : TRef) : (s.setHandle a h v).thread u = s.thread u := rfl
@[simp] theorem State.setHandle_read_group (c d : Nat) : (s.setHandle a h v).group c d = s.group c d := rfl
@[simp] theorem State.setHandle_read_team (m : Nat) : (s.setHandle a h v).team m = s.team m := rfl
@[simp] theorem State.setHandle_read_op_q (m : Nat) : (s.setHandle a h v).op? m = s.op? m := rfl
@[simp] theorem State.setHandle_read_tile_q (m : Nat) : (s.setHandle a h v).tile? m = s.tile? m := rfl
@[simp] theorem State.setHandle_read_channel (c : Nat) (k : BitVec 4) : (s.setHandle a h v).channel c k = s.channel c k := rfl
@[simp] theorem State.setHandle_read_copy_q (m : Nat) : (s.setHandle a h v).copy? m = s.copy? m := rfl
@[simp] theorem State.setHandle_read_launch_q (m : Nat) : (s.setHandle a h v).launch? m = s.launch? m := rfl
@[simp] theorem State.setHandle_read_world (m : Nat) : (s.setHandle a h v).world m = s.world m := rfl
@[simp] theorem State.setHandle_read_queue (c d : Nat) : (s.setHandle a h v).queue c d = s.queue c d := rfl
@[simp] theorem State.setHandle_read_slot (c : Nat) (k : BitVec 3) : (s.setHandle a h v).slot c k = s.slot c k := rfl
@[simp] theorem State.setHandle_read_part_q (m : Nat) : (s.setHandle a h v).part? m = s.part? m := rfl
@[simp] theorem State.setHandle_read_log_q (m : Nat) : (s.setHandle a h v).log? m = s.log? m := rfl
@[simp] theorem State.setHandle_read_memByte (l : Loc) : (s.setHandle a h v).memByte l = s.memByte l := rfl

end

/-! ### setChannel -/

section

variable (s : State) (a : Nat) (h : BitVec 4) (f : Channel → Channel)

@[simp] theorem State.setChannel_agenda : (s.setChannel a h f).agenda = s.agenda := rfl
@[simp] theorem State.setChannel_free : (s.setChannel a h f).free = s.free := rfl
@[simp] theorem State.setChannel_ids : (s.setChannel a h f).ids = s.ids := rfl
@[simp] theorem State.setChannel_issue : (s.setChannel a h f).issue = s.issue := rfl
@[simp] theorem State.setChannel_clock : (s.setChannel a h f).clock = s.clock := rfl
@[simp] theorem State.setChannel_power : (s.setChannel a h f).power = s.power := rfl
@[simp] theorem State.setChannel_halted : (s.setChannel a h f).halted = s.halted := rfl
@[simp] theorem State.setChannel_link : (s.setChannel a h f).link = s.link := rfl
@[simp] theorem State.setChannel_mem : (s.setChannel a h f).mem = s.mem := rfl
@[simp] theorem State.setChannel_hostMem : (s.setChannel a h f).hostMem = s.hostMem := rfl
@[simp] theorem State.setChannel_poison : (s.setChannel a h f).poison = s.poison := rfl
@[simp] theorem State.setChannel_seals : (s.setChannel a h f).seals = s.seals := rfl
@[simp] theorem State.setChannel_wbuf : (s.setChannel a h f).wbuf = s.wbuf := rfl
@[simp] theorem State.setChannel_marks : (s.setChannel a h f).marks = s.marks := rfl
@[simp] theorem State.setChannel_owned : (s.setChannel a h f).owned = s.owned := rfl
@[simp] theorem State.setChannel_prot : (s.setChannel a h f).prot = s.prot := rfl
@[simp] theorem State.setChannel_fetch : (s.setChannel a h f).fetch = s.fetch := rfl
@[simp] theorem State.setChannel_lastPage : (s.setChannel a h f).lastPage = s.lastPage := rfl
@[simp] theorem State.setChannel_tlb : (s.setChannel a h f).tlb = s.tlb := rfl
@[simp] theorem State.setChannel_walkCache : (s.setChannel a h f).walkCache = s.walkCache := rfl
@[simp] theorem State.setChannel_windows : (s.setChannel a h f).windows = s.windows := rfl
@[simp] theorem State.setChannel_winQ : (s.setChannel a h f).winQ = s.winQ := rfl
@[simp] theorem State.setChannel_threads : (s.setChannel a h f).threads = s.threads := rfl
@[simp] theorem State.setChannel_groups : (s.setChannel a h f).groups = s.groups := rfl
@[simp] theorem State.setChannel_teams : (s.setChannel a h f).teams = s.teams := rfl
@[simp] theorem State.setChannel_ops : (s.setChannel a h f).ops = s.ops := rfl
@[simp] theorem State.setChannel_tiles : (s.setChannel a h f).tiles = s.tiles := rfl
@[simp] theorem State.setChannel_handles : (s.setChannel a h f).handles = s.handles := rfl
@[simp] theorem State.setChannel_tileQ : (s.setChannel a h f).tileQ = s.tileQ := rfl
@[simp] theorem State.setChannel_copies : (s.setChannel a h f).copies = s.copies := rfl
@[simp] theorem State.setChannel_units : (s.setChannel a h f).units = s.units := rfl
@[simp] theorem State.setChannel_armed : (s.setChannel a h f).armed = s.armed := rfl
@[simp] theorem State.setChannel_gathers : (s.setChannel a h f).gathers = s.gathers := rfl
@[simp] theorem State.setChannel_mmas : (s.setChannel a h f).mmas = s.mmas := rfl
@[simp] theorem State.setChannel_tmmacs : (s.setChannel a h f).tmmacs = s.tmmacs := rfl
@[simp] theorem State.setChannel_shadows : (s.setChannel a h f).shadows = s.shadows := rfl
@[simp] theorem State.setChannel_slots : (s.setChannel a h f).slots = s.slots := rfl
@[simp] theorem State.setChannel_slotQ : (s.setChannel a h f).slotQ = s.slotQ := rfl
@[simp] theorem State.setChannel_images : (s.setChannel a h f).images = s.images := rfl
@[simp] theorem State.setChannel_laybys : (s.setChannel a h f).laybys = s.laybys := rfl
@[simp] theorem State.setChannel_arrivals : (s.setChannel a h f).arrivals = s.arrivals := rfl
@[simp] theorem State.setChannel_formed : (s.setChannel a h f).formed = s.formed := rfl
@[simp] theorem State.setChannel_sets : (s.setChannel a h f).sets = s.sets := rfl
@[simp] theorem State.setChannel_staging : (s.setChannel a h f).staging = s.staging := rfl
@[simp] theorem State.setChannel_folds : (s.setChannel a h f).folds = s.folds := rfl
@[simp] theorem State.setChannel_logs : (s.setChannel a h f).logs = s.logs := rfl
@[simp] theorem State.setChannel_launches : (s.setChannel a h f).launches = s.launches := rfl
@[simp] theorem State.setChannel_queued : (s.setChannel a h f).queued = s.queued := rfl
@[simp] theorem State.setChannel_queues : (s.setChannel a h f).queues = s.queues := rfl
@[simp] theorem State.setChannel_worlds : (s.setChannel a h f).worlds = s.worlds := rfl
@[simp] theorem State.setChannel_parts : (s.setChannel a h f).parts = s.parts := rfl
@[simp] theorem State.setChannel_faults : (s.setChannel a h f).faults = s.faults := rfl
@[simp] theorem State.setChannel_s2 : (s.setChannel a h f).s2 = s.s2 := rfl
@[simp] theorem State.setChannel_tensors : (s.setChannel a h f).tensors = s.tensors := rfl
@[simp] theorem State.setChannel_regKeys : (s.setChannel a h f).regKeys = s.regKeys := rfl
@[simp] theorem State.setChannel_kebase : (s.setChannel a h f).kebase = s.kebase := rfl
@[simp] theorem State.setChannel_ketail : (s.setChannel a h f).ketail = s.ketail := rfl
@[simp] theorem State.setChannel_kehead : (s.setChannel a h f).kehead = s.kehead := rfl
@[simp] theorem State.setChannel_kenext : (s.setChannel a h f).kenext = s.kenext := rfl
@[simp] theorem State.setChannel_remotes : (s.setChannel a h f).remotes = s.remotes := rfl
@[simp] theorem State.setChannel_flits : (s.setChannel a h f).flits = s.flits := rfl
@[simp] theorem State.setChannel_inbox : (s.setChannel a h f).inbox = s.inbox := rfl
@[simp] theorem State.setChannel_links : (s.setChannel a h f).links = s.links := rfl
@[simp] theorem State.setChannel_eth : (s.setChannel a h f).eth = s.eth := rfl
@[simp] theorem State.setChannel_frames : (s.setChannel a h f).frames = s.frames := rfl
@[simp] theorem State.setChannel_mgmt : (s.setChannel a h f).mgmt = s.mgmt := rfl
@[simp] theorem State.setChannel_store : (s.setChannel a h f).store = s.store := rfl
@[simp] theorem State.setChannel_doe : (s.setChannel a h f).doe = s.doe := rfl
@[simp] theorem State.setChannel_read_thread (u : TRef) : (s.setChannel a h f).thread u = s.thread u := rfl
@[simp] theorem State.setChannel_read_group (c d : Nat) : (s.setChannel a h f).group c d = s.group c d := rfl
@[simp] theorem State.setChannel_read_team (m : Nat) : (s.setChannel a h f).team m = s.team m := rfl
@[simp] theorem State.setChannel_read_op_q (m : Nat) : (s.setChannel a h f).op? m = s.op? m := rfl
@[simp] theorem State.setChannel_read_tile_q (m : Nat) : (s.setChannel a h f).tile? m = s.tile? m := rfl
@[simp] theorem State.setChannel_read_handle_q (c : Nat) (k : BitVec 8) : (s.setChannel a h f).handle? c k = s.handle? c k := rfl
@[simp] theorem State.setChannel_read_copy_q (m : Nat) : (s.setChannel a h f).copy? m = s.copy? m := rfl
@[simp] theorem State.setChannel_read_launch_q (m : Nat) : (s.setChannel a h f).launch? m = s.launch? m := rfl
@[simp] theorem State.setChannel_read_world (m : Nat) : (s.setChannel a h f).world m = s.world m := rfl
@[simp] theorem State.setChannel_read_queue (c d : Nat) : (s.setChannel a h f).queue c d = s.queue c d := rfl
@[simp] theorem State.setChannel_read_slot (c : Nat) (k : BitVec 3) : (s.setChannel a h f).slot c k = s.slot c k := rfl
@[simp] theorem State.setChannel_read_part_q (m : Nat) : (s.setChannel a h f).part? m = s.part? m := rfl
@[simp] theorem State.setChannel_read_log_q (m : Nat) : (s.setChannel a h f).log? m = s.log? m := rfl
@[simp] theorem State.setChannel_read_memByte (l : Loc) : (s.setChannel a h f).memByte l = s.memByte l := rfl

end

/-! ### setCopy -/

section

variable (s : State) (n : Nat) (f : Copy → Copy)

@[simp] theorem State.setCopy_agenda : (s.setCopy n f).agenda = s.agenda := rfl
@[simp] theorem State.setCopy_free : (s.setCopy n f).free = s.free := rfl
@[simp] theorem State.setCopy_ids : (s.setCopy n f).ids = s.ids := rfl
@[simp] theorem State.setCopy_issue : (s.setCopy n f).issue = s.issue := rfl
@[simp] theorem State.setCopy_clock : (s.setCopy n f).clock = s.clock := rfl
@[simp] theorem State.setCopy_power : (s.setCopy n f).power = s.power := rfl
@[simp] theorem State.setCopy_halted : (s.setCopy n f).halted = s.halted := rfl
@[simp] theorem State.setCopy_link : (s.setCopy n f).link = s.link := rfl
@[simp] theorem State.setCopy_mem : (s.setCopy n f).mem = s.mem := rfl
@[simp] theorem State.setCopy_hostMem : (s.setCopy n f).hostMem = s.hostMem := rfl
@[simp] theorem State.setCopy_poison : (s.setCopy n f).poison = s.poison := rfl
@[simp] theorem State.setCopy_seals : (s.setCopy n f).seals = s.seals := rfl
@[simp] theorem State.setCopy_wbuf : (s.setCopy n f).wbuf = s.wbuf := rfl
@[simp] theorem State.setCopy_marks : (s.setCopy n f).marks = s.marks := rfl
@[simp] theorem State.setCopy_owned : (s.setCopy n f).owned = s.owned := rfl
@[simp] theorem State.setCopy_prot : (s.setCopy n f).prot = s.prot := rfl
@[simp] theorem State.setCopy_fetch : (s.setCopy n f).fetch = s.fetch := rfl
@[simp] theorem State.setCopy_lastPage : (s.setCopy n f).lastPage = s.lastPage := rfl
@[simp] theorem State.setCopy_tlb : (s.setCopy n f).tlb = s.tlb := rfl
@[simp] theorem State.setCopy_walkCache : (s.setCopy n f).walkCache = s.walkCache := rfl
@[simp] theorem State.setCopy_windows : (s.setCopy n f).windows = s.windows := rfl
@[simp] theorem State.setCopy_winQ : (s.setCopy n f).winQ = s.winQ := rfl
@[simp] theorem State.setCopy_threads : (s.setCopy n f).threads = s.threads := rfl
@[simp] theorem State.setCopy_groups : (s.setCopy n f).groups = s.groups := rfl
@[simp] theorem State.setCopy_teams : (s.setCopy n f).teams = s.teams := rfl
@[simp] theorem State.setCopy_ops : (s.setCopy n f).ops = s.ops := rfl
@[simp] theorem State.setCopy_tiles : (s.setCopy n f).tiles = s.tiles := rfl
@[simp] theorem State.setCopy_handles : (s.setCopy n f).handles = s.handles := rfl
@[simp] theorem State.setCopy_tileQ : (s.setCopy n f).tileQ = s.tileQ := rfl
@[simp] theorem State.setCopy_channels : (s.setCopy n f).channels = s.channels := rfl
@[simp] theorem State.setCopy_units : (s.setCopy n f).units = s.units := rfl
@[simp] theorem State.setCopy_armed : (s.setCopy n f).armed = s.armed := rfl
@[simp] theorem State.setCopy_gathers : (s.setCopy n f).gathers = s.gathers := rfl
@[simp] theorem State.setCopy_mmas : (s.setCopy n f).mmas = s.mmas := rfl
@[simp] theorem State.setCopy_tmmacs : (s.setCopy n f).tmmacs = s.tmmacs := rfl
@[simp] theorem State.setCopy_shadows : (s.setCopy n f).shadows = s.shadows := rfl
@[simp] theorem State.setCopy_slots : (s.setCopy n f).slots = s.slots := rfl
@[simp] theorem State.setCopy_slotQ : (s.setCopy n f).slotQ = s.slotQ := rfl
@[simp] theorem State.setCopy_images : (s.setCopy n f).images = s.images := rfl
@[simp] theorem State.setCopy_laybys : (s.setCopy n f).laybys = s.laybys := rfl
@[simp] theorem State.setCopy_arrivals : (s.setCopy n f).arrivals = s.arrivals := rfl
@[simp] theorem State.setCopy_formed : (s.setCopy n f).formed = s.formed := rfl
@[simp] theorem State.setCopy_sets : (s.setCopy n f).sets = s.sets := rfl
@[simp] theorem State.setCopy_staging : (s.setCopy n f).staging = s.staging := rfl
@[simp] theorem State.setCopy_folds : (s.setCopy n f).folds = s.folds := rfl
@[simp] theorem State.setCopy_logs : (s.setCopy n f).logs = s.logs := rfl
@[simp] theorem State.setCopy_launches : (s.setCopy n f).launches = s.launches := rfl
@[simp] theorem State.setCopy_queued : (s.setCopy n f).queued = s.queued := rfl
@[simp] theorem State.setCopy_queues : (s.setCopy n f).queues = s.queues := rfl
@[simp] theorem State.setCopy_worlds : (s.setCopy n f).worlds = s.worlds := rfl
@[simp] theorem State.setCopy_parts : (s.setCopy n f).parts = s.parts := rfl
@[simp] theorem State.setCopy_faults : (s.setCopy n f).faults = s.faults := rfl
@[simp] theorem State.setCopy_s2 : (s.setCopy n f).s2 = s.s2 := rfl
@[simp] theorem State.setCopy_tensors : (s.setCopy n f).tensors = s.tensors := rfl
@[simp] theorem State.setCopy_regKeys : (s.setCopy n f).regKeys = s.regKeys := rfl
@[simp] theorem State.setCopy_kebase : (s.setCopy n f).kebase = s.kebase := rfl
@[simp] theorem State.setCopy_ketail : (s.setCopy n f).ketail = s.ketail := rfl
@[simp] theorem State.setCopy_kehead : (s.setCopy n f).kehead = s.kehead := rfl
@[simp] theorem State.setCopy_kenext : (s.setCopy n f).kenext = s.kenext := rfl
@[simp] theorem State.setCopy_remotes : (s.setCopy n f).remotes = s.remotes := rfl
@[simp] theorem State.setCopy_flits : (s.setCopy n f).flits = s.flits := rfl
@[simp] theorem State.setCopy_inbox : (s.setCopy n f).inbox = s.inbox := rfl
@[simp] theorem State.setCopy_links : (s.setCopy n f).links = s.links := rfl
@[simp] theorem State.setCopy_eth : (s.setCopy n f).eth = s.eth := rfl
@[simp] theorem State.setCopy_frames : (s.setCopy n f).frames = s.frames := rfl
@[simp] theorem State.setCopy_mgmt : (s.setCopy n f).mgmt = s.mgmt := rfl
@[simp] theorem State.setCopy_store : (s.setCopy n f).store = s.store := rfl
@[simp] theorem State.setCopy_doe : (s.setCopy n f).doe = s.doe := rfl
@[simp] theorem State.setCopy_read_thread (u : TRef) : (s.setCopy n f).thread u = s.thread u := rfl
@[simp] theorem State.setCopy_read_group (c d : Nat) : (s.setCopy n f).group c d = s.group c d := rfl
@[simp] theorem State.setCopy_read_team (m : Nat) : (s.setCopy n f).team m = s.team m := rfl
@[simp] theorem State.setCopy_read_op_q (m : Nat) : (s.setCopy n f).op? m = s.op? m := rfl
@[simp] theorem State.setCopy_read_tile_q (m : Nat) : (s.setCopy n f).tile? m = s.tile? m := rfl
@[simp] theorem State.setCopy_read_handle_q (c : Nat) (k : BitVec 8) : (s.setCopy n f).handle? c k = s.handle? c k := rfl
@[simp] theorem State.setCopy_read_channel (c : Nat) (k : BitVec 4) : (s.setCopy n f).channel c k = s.channel c k := rfl
@[simp] theorem State.setCopy_read_launch_q (m : Nat) : (s.setCopy n f).launch? m = s.launch? m := rfl
@[simp] theorem State.setCopy_read_world (m : Nat) : (s.setCopy n f).world m = s.world m := rfl
@[simp] theorem State.setCopy_read_queue (c d : Nat) : (s.setCopy n f).queue c d = s.queue c d := rfl
@[simp] theorem State.setCopy_read_slot (c : Nat) (k : BitVec 3) : (s.setCopy n f).slot c k = s.slot c k := rfl
@[simp] theorem State.setCopy_read_part_q (m : Nat) : (s.setCopy n f).part? m = s.part? m := rfl
@[simp] theorem State.setCopy_read_log_q (m : Nat) : (s.setCopy n f).log? m = s.log? m := rfl
@[simp] theorem State.setCopy_read_memByte (l : Loc) : (s.setCopy n f).memByte l = s.memByte l := rfl

end

/-! ### setLaunch -/

section

variable (s : State) (n : Nat) (f : Launch → Launch)

@[simp] theorem State.setLaunch_agenda : (s.setLaunch n f).agenda = s.agenda := rfl
@[simp] theorem State.setLaunch_free : (s.setLaunch n f).free = s.free := rfl
@[simp] theorem State.setLaunch_ids : (s.setLaunch n f).ids = s.ids := rfl
@[simp] theorem State.setLaunch_issue : (s.setLaunch n f).issue = s.issue := rfl
@[simp] theorem State.setLaunch_clock : (s.setLaunch n f).clock = s.clock := rfl
@[simp] theorem State.setLaunch_power : (s.setLaunch n f).power = s.power := rfl
@[simp] theorem State.setLaunch_halted : (s.setLaunch n f).halted = s.halted := rfl
@[simp] theorem State.setLaunch_link : (s.setLaunch n f).link = s.link := rfl
@[simp] theorem State.setLaunch_mem : (s.setLaunch n f).mem = s.mem := rfl
@[simp] theorem State.setLaunch_hostMem : (s.setLaunch n f).hostMem = s.hostMem := rfl
@[simp] theorem State.setLaunch_poison : (s.setLaunch n f).poison = s.poison := rfl
@[simp] theorem State.setLaunch_seals : (s.setLaunch n f).seals = s.seals := rfl
@[simp] theorem State.setLaunch_wbuf : (s.setLaunch n f).wbuf = s.wbuf := rfl
@[simp] theorem State.setLaunch_marks : (s.setLaunch n f).marks = s.marks := rfl
@[simp] theorem State.setLaunch_owned : (s.setLaunch n f).owned = s.owned := rfl
@[simp] theorem State.setLaunch_prot : (s.setLaunch n f).prot = s.prot := rfl
@[simp] theorem State.setLaunch_fetch : (s.setLaunch n f).fetch = s.fetch := rfl
@[simp] theorem State.setLaunch_lastPage : (s.setLaunch n f).lastPage = s.lastPage := rfl
@[simp] theorem State.setLaunch_tlb : (s.setLaunch n f).tlb = s.tlb := rfl
@[simp] theorem State.setLaunch_walkCache : (s.setLaunch n f).walkCache = s.walkCache := rfl
@[simp] theorem State.setLaunch_windows : (s.setLaunch n f).windows = s.windows := rfl
@[simp] theorem State.setLaunch_winQ : (s.setLaunch n f).winQ = s.winQ := rfl
@[simp] theorem State.setLaunch_threads : (s.setLaunch n f).threads = s.threads := rfl
@[simp] theorem State.setLaunch_groups : (s.setLaunch n f).groups = s.groups := rfl
@[simp] theorem State.setLaunch_teams : (s.setLaunch n f).teams = s.teams := rfl
@[simp] theorem State.setLaunch_ops : (s.setLaunch n f).ops = s.ops := rfl
@[simp] theorem State.setLaunch_tiles : (s.setLaunch n f).tiles = s.tiles := rfl
@[simp] theorem State.setLaunch_handles : (s.setLaunch n f).handles = s.handles := rfl
@[simp] theorem State.setLaunch_tileQ : (s.setLaunch n f).tileQ = s.tileQ := rfl
@[simp] theorem State.setLaunch_channels : (s.setLaunch n f).channels = s.channels := rfl
@[simp] theorem State.setLaunch_copies : (s.setLaunch n f).copies = s.copies := rfl
@[simp] theorem State.setLaunch_units : (s.setLaunch n f).units = s.units := rfl
@[simp] theorem State.setLaunch_armed : (s.setLaunch n f).armed = s.armed := rfl
@[simp] theorem State.setLaunch_gathers : (s.setLaunch n f).gathers = s.gathers := rfl
@[simp] theorem State.setLaunch_mmas : (s.setLaunch n f).mmas = s.mmas := rfl
@[simp] theorem State.setLaunch_tmmacs : (s.setLaunch n f).tmmacs = s.tmmacs := rfl
@[simp] theorem State.setLaunch_shadows : (s.setLaunch n f).shadows = s.shadows := rfl
@[simp] theorem State.setLaunch_slots : (s.setLaunch n f).slots = s.slots := rfl
@[simp] theorem State.setLaunch_slotQ : (s.setLaunch n f).slotQ = s.slotQ := rfl
@[simp] theorem State.setLaunch_images : (s.setLaunch n f).images = s.images := rfl
@[simp] theorem State.setLaunch_laybys : (s.setLaunch n f).laybys = s.laybys := rfl
@[simp] theorem State.setLaunch_arrivals : (s.setLaunch n f).arrivals = s.arrivals := rfl
@[simp] theorem State.setLaunch_formed : (s.setLaunch n f).formed = s.formed := rfl
@[simp] theorem State.setLaunch_sets : (s.setLaunch n f).sets = s.sets := rfl
@[simp] theorem State.setLaunch_staging : (s.setLaunch n f).staging = s.staging := rfl
@[simp] theorem State.setLaunch_folds : (s.setLaunch n f).folds = s.folds := rfl
@[simp] theorem State.setLaunch_logs : (s.setLaunch n f).logs = s.logs := rfl
@[simp] theorem State.setLaunch_queued : (s.setLaunch n f).queued = s.queued := rfl
@[simp] theorem State.setLaunch_queues : (s.setLaunch n f).queues = s.queues := rfl
@[simp] theorem State.setLaunch_worlds : (s.setLaunch n f).worlds = s.worlds := rfl
@[simp] theorem State.setLaunch_parts : (s.setLaunch n f).parts = s.parts := rfl
@[simp] theorem State.setLaunch_faults : (s.setLaunch n f).faults = s.faults := rfl
@[simp] theorem State.setLaunch_s2 : (s.setLaunch n f).s2 = s.s2 := rfl
@[simp] theorem State.setLaunch_tensors : (s.setLaunch n f).tensors = s.tensors := rfl
@[simp] theorem State.setLaunch_regKeys : (s.setLaunch n f).regKeys = s.regKeys := rfl
@[simp] theorem State.setLaunch_kebase : (s.setLaunch n f).kebase = s.kebase := rfl
@[simp] theorem State.setLaunch_ketail : (s.setLaunch n f).ketail = s.ketail := rfl
@[simp] theorem State.setLaunch_kehead : (s.setLaunch n f).kehead = s.kehead := rfl
@[simp] theorem State.setLaunch_kenext : (s.setLaunch n f).kenext = s.kenext := rfl
@[simp] theorem State.setLaunch_remotes : (s.setLaunch n f).remotes = s.remotes := rfl
@[simp] theorem State.setLaunch_flits : (s.setLaunch n f).flits = s.flits := rfl
@[simp] theorem State.setLaunch_inbox : (s.setLaunch n f).inbox = s.inbox := rfl
@[simp] theorem State.setLaunch_links : (s.setLaunch n f).links = s.links := rfl
@[simp] theorem State.setLaunch_eth : (s.setLaunch n f).eth = s.eth := rfl
@[simp] theorem State.setLaunch_frames : (s.setLaunch n f).frames = s.frames := rfl
@[simp] theorem State.setLaunch_mgmt : (s.setLaunch n f).mgmt = s.mgmt := rfl
@[simp] theorem State.setLaunch_store : (s.setLaunch n f).store = s.store := rfl
@[simp] theorem State.setLaunch_doe : (s.setLaunch n f).doe = s.doe := rfl
@[simp] theorem State.setLaunch_read_thread (u : TRef) : (s.setLaunch n f).thread u = s.thread u := rfl
@[simp] theorem State.setLaunch_read_group (c d : Nat) : (s.setLaunch n f).group c d = s.group c d := rfl
@[simp] theorem State.setLaunch_read_team (m : Nat) : (s.setLaunch n f).team m = s.team m := rfl
@[simp] theorem State.setLaunch_read_op_q (m : Nat) : (s.setLaunch n f).op? m = s.op? m := rfl
@[simp] theorem State.setLaunch_read_tile_q (m : Nat) : (s.setLaunch n f).tile? m = s.tile? m := rfl
@[simp] theorem State.setLaunch_read_handle_q (c : Nat) (k : BitVec 8) : (s.setLaunch n f).handle? c k = s.handle? c k := rfl
@[simp] theorem State.setLaunch_read_channel (c : Nat) (k : BitVec 4) : (s.setLaunch n f).channel c k = s.channel c k := rfl
@[simp] theorem State.setLaunch_read_copy_q (m : Nat) : (s.setLaunch n f).copy? m = s.copy? m := rfl
@[simp] theorem State.setLaunch_read_world (m : Nat) : (s.setLaunch n f).world m = s.world m := rfl
@[simp] theorem State.setLaunch_read_queue (c d : Nat) : (s.setLaunch n f).queue c d = s.queue c d := rfl
@[simp] theorem State.setLaunch_read_slot (c : Nat) (k : BitVec 3) : (s.setLaunch n f).slot c k = s.slot c k := rfl
@[simp] theorem State.setLaunch_read_part_q (m : Nat) : (s.setLaunch n f).part? m = s.part? m := rfl
@[simp] theorem State.setLaunch_read_log_q (m : Nat) : (s.setLaunch n f).log? m = s.log? m := rfl
@[simp] theorem State.setLaunch_read_memByte (l : Loc) : (s.setLaunch n f).memByte l = s.memByte l := rfl

end

/-! ### setWorld -/

section

variable (s : State) (n : Nat) (f : World → World)

@[simp] theorem State.setWorld_agenda : (s.setWorld n f).agenda = s.agenda := rfl
@[simp] theorem State.setWorld_free : (s.setWorld n f).free = s.free := rfl
@[simp] theorem State.setWorld_ids : (s.setWorld n f).ids = s.ids := rfl
@[simp] theorem State.setWorld_issue : (s.setWorld n f).issue = s.issue := rfl
@[simp] theorem State.setWorld_clock : (s.setWorld n f).clock = s.clock := rfl
@[simp] theorem State.setWorld_power : (s.setWorld n f).power = s.power := rfl
@[simp] theorem State.setWorld_halted : (s.setWorld n f).halted = s.halted := rfl
@[simp] theorem State.setWorld_link : (s.setWorld n f).link = s.link := rfl
@[simp] theorem State.setWorld_mem : (s.setWorld n f).mem = s.mem := rfl
@[simp] theorem State.setWorld_hostMem : (s.setWorld n f).hostMem = s.hostMem := rfl
@[simp] theorem State.setWorld_poison : (s.setWorld n f).poison = s.poison := rfl
@[simp] theorem State.setWorld_seals : (s.setWorld n f).seals = s.seals := rfl
@[simp] theorem State.setWorld_wbuf : (s.setWorld n f).wbuf = s.wbuf := rfl
@[simp] theorem State.setWorld_marks : (s.setWorld n f).marks = s.marks := rfl
@[simp] theorem State.setWorld_owned : (s.setWorld n f).owned = s.owned := rfl
@[simp] theorem State.setWorld_prot : (s.setWorld n f).prot = s.prot := rfl
@[simp] theorem State.setWorld_fetch : (s.setWorld n f).fetch = s.fetch := rfl
@[simp] theorem State.setWorld_lastPage : (s.setWorld n f).lastPage = s.lastPage := rfl
@[simp] theorem State.setWorld_tlb : (s.setWorld n f).tlb = s.tlb := rfl
@[simp] theorem State.setWorld_walkCache : (s.setWorld n f).walkCache = s.walkCache := rfl
@[simp] theorem State.setWorld_windows : (s.setWorld n f).windows = s.windows := rfl
@[simp] theorem State.setWorld_winQ : (s.setWorld n f).winQ = s.winQ := rfl
@[simp] theorem State.setWorld_threads : (s.setWorld n f).threads = s.threads := rfl
@[simp] theorem State.setWorld_groups : (s.setWorld n f).groups = s.groups := rfl
@[simp] theorem State.setWorld_teams : (s.setWorld n f).teams = s.teams := rfl
@[simp] theorem State.setWorld_ops : (s.setWorld n f).ops = s.ops := rfl
@[simp] theorem State.setWorld_tiles : (s.setWorld n f).tiles = s.tiles := rfl
@[simp] theorem State.setWorld_handles : (s.setWorld n f).handles = s.handles := rfl
@[simp] theorem State.setWorld_tileQ : (s.setWorld n f).tileQ = s.tileQ := rfl
@[simp] theorem State.setWorld_channels : (s.setWorld n f).channels = s.channels := rfl
@[simp] theorem State.setWorld_copies : (s.setWorld n f).copies = s.copies := rfl
@[simp] theorem State.setWorld_units : (s.setWorld n f).units = s.units := rfl
@[simp] theorem State.setWorld_armed : (s.setWorld n f).armed = s.armed := rfl
@[simp] theorem State.setWorld_gathers : (s.setWorld n f).gathers = s.gathers := rfl
@[simp] theorem State.setWorld_mmas : (s.setWorld n f).mmas = s.mmas := rfl
@[simp] theorem State.setWorld_tmmacs : (s.setWorld n f).tmmacs = s.tmmacs := rfl
@[simp] theorem State.setWorld_shadows : (s.setWorld n f).shadows = s.shadows := rfl
@[simp] theorem State.setWorld_slots : (s.setWorld n f).slots = s.slots := rfl
@[simp] theorem State.setWorld_slotQ : (s.setWorld n f).slotQ = s.slotQ := rfl
@[simp] theorem State.setWorld_images : (s.setWorld n f).images = s.images := rfl
@[simp] theorem State.setWorld_laybys : (s.setWorld n f).laybys = s.laybys := rfl
@[simp] theorem State.setWorld_arrivals : (s.setWorld n f).arrivals = s.arrivals := rfl
@[simp] theorem State.setWorld_formed : (s.setWorld n f).formed = s.formed := rfl
@[simp] theorem State.setWorld_sets : (s.setWorld n f).sets = s.sets := rfl
@[simp] theorem State.setWorld_staging : (s.setWorld n f).staging = s.staging := rfl
@[simp] theorem State.setWorld_folds : (s.setWorld n f).folds = s.folds := rfl
@[simp] theorem State.setWorld_logs : (s.setWorld n f).logs = s.logs := rfl
@[simp] theorem State.setWorld_launches : (s.setWorld n f).launches = s.launches := rfl
@[simp] theorem State.setWorld_queued : (s.setWorld n f).queued = s.queued := rfl
@[simp] theorem State.setWorld_queues : (s.setWorld n f).queues = s.queues := rfl
@[simp] theorem State.setWorld_parts : (s.setWorld n f).parts = s.parts := rfl
@[simp] theorem State.setWorld_faults : (s.setWorld n f).faults = s.faults := rfl
@[simp] theorem State.setWorld_s2 : (s.setWorld n f).s2 = s.s2 := rfl
@[simp] theorem State.setWorld_tensors : (s.setWorld n f).tensors = s.tensors := rfl
@[simp] theorem State.setWorld_regKeys : (s.setWorld n f).regKeys = s.regKeys := rfl
@[simp] theorem State.setWorld_kebase : (s.setWorld n f).kebase = s.kebase := rfl
@[simp] theorem State.setWorld_ketail : (s.setWorld n f).ketail = s.ketail := rfl
@[simp] theorem State.setWorld_kehead : (s.setWorld n f).kehead = s.kehead := rfl
@[simp] theorem State.setWorld_kenext : (s.setWorld n f).kenext = s.kenext := rfl
@[simp] theorem State.setWorld_remotes : (s.setWorld n f).remotes = s.remotes := rfl
@[simp] theorem State.setWorld_flits : (s.setWorld n f).flits = s.flits := rfl
@[simp] theorem State.setWorld_inbox : (s.setWorld n f).inbox = s.inbox := rfl
@[simp] theorem State.setWorld_links : (s.setWorld n f).links = s.links := rfl
@[simp] theorem State.setWorld_eth : (s.setWorld n f).eth = s.eth := rfl
@[simp] theorem State.setWorld_frames : (s.setWorld n f).frames = s.frames := rfl
@[simp] theorem State.setWorld_mgmt : (s.setWorld n f).mgmt = s.mgmt := rfl
@[simp] theorem State.setWorld_store : (s.setWorld n f).store = s.store := rfl
@[simp] theorem State.setWorld_doe : (s.setWorld n f).doe = s.doe := rfl
@[simp] theorem State.setWorld_read_thread (u : TRef) : (s.setWorld n f).thread u = s.thread u := rfl
@[simp] theorem State.setWorld_read_group (c d : Nat) : (s.setWorld n f).group c d = s.group c d := rfl
@[simp] theorem State.setWorld_read_team (m : Nat) : (s.setWorld n f).team m = s.team m := rfl
@[simp] theorem State.setWorld_read_op_q (m : Nat) : (s.setWorld n f).op? m = s.op? m := rfl
@[simp] theorem State.setWorld_read_tile_q (m : Nat) : (s.setWorld n f).tile? m = s.tile? m := rfl
@[simp] theorem State.setWorld_read_handle_q (c : Nat) (k : BitVec 8) : (s.setWorld n f).handle? c k = s.handle? c k := rfl
@[simp] theorem State.setWorld_read_channel (c : Nat) (k : BitVec 4) : (s.setWorld n f).channel c k = s.channel c k := rfl
@[simp] theorem State.setWorld_read_copy_q (m : Nat) : (s.setWorld n f).copy? m = s.copy? m := rfl
@[simp] theorem State.setWorld_read_launch_q (m : Nat) : (s.setWorld n f).launch? m = s.launch? m := rfl
@[simp] theorem State.setWorld_read_queue (c d : Nat) : (s.setWorld n f).queue c d = s.queue c d := rfl
@[simp] theorem State.setWorld_read_slot (c : Nat) (k : BitVec 3) : (s.setWorld n f).slot c k = s.slot c k := rfl
@[simp] theorem State.setWorld_read_part_q (m : Nat) : (s.setWorld n f).part? m = s.part? m := rfl
@[simp] theorem State.setWorld_read_log_q (m : Nat) : (s.setWorld n f).log? m = s.log? m := rfl
@[simp] theorem State.setWorld_read_memByte (l : Loc) : (s.setWorld n f).memByte l = s.memByte l := rfl

end

/-! ### setQueue -/

section

variable (s : State) (a b : Nat) (f : Queue → Queue)

@[simp] theorem State.setQueue_agenda : (s.setQueue a b f).agenda = s.agenda := rfl
@[simp] theorem State.setQueue_free : (s.setQueue a b f).free = s.free := rfl
@[simp] theorem State.setQueue_ids : (s.setQueue a b f).ids = s.ids := rfl
@[simp] theorem State.setQueue_issue : (s.setQueue a b f).issue = s.issue := rfl
@[simp] theorem State.setQueue_clock : (s.setQueue a b f).clock = s.clock := rfl
@[simp] theorem State.setQueue_power : (s.setQueue a b f).power = s.power := rfl
@[simp] theorem State.setQueue_halted : (s.setQueue a b f).halted = s.halted := rfl
@[simp] theorem State.setQueue_link : (s.setQueue a b f).link = s.link := rfl
@[simp] theorem State.setQueue_mem : (s.setQueue a b f).mem = s.mem := rfl
@[simp] theorem State.setQueue_hostMem : (s.setQueue a b f).hostMem = s.hostMem := rfl
@[simp] theorem State.setQueue_poison : (s.setQueue a b f).poison = s.poison := rfl
@[simp] theorem State.setQueue_seals : (s.setQueue a b f).seals = s.seals := rfl
@[simp] theorem State.setQueue_wbuf : (s.setQueue a b f).wbuf = s.wbuf := rfl
@[simp] theorem State.setQueue_marks : (s.setQueue a b f).marks = s.marks := rfl
@[simp] theorem State.setQueue_owned : (s.setQueue a b f).owned = s.owned := rfl
@[simp] theorem State.setQueue_prot : (s.setQueue a b f).prot = s.prot := rfl
@[simp] theorem State.setQueue_fetch : (s.setQueue a b f).fetch = s.fetch := rfl
@[simp] theorem State.setQueue_lastPage : (s.setQueue a b f).lastPage = s.lastPage := rfl
@[simp] theorem State.setQueue_tlb : (s.setQueue a b f).tlb = s.tlb := rfl
@[simp] theorem State.setQueue_walkCache : (s.setQueue a b f).walkCache = s.walkCache := rfl
@[simp] theorem State.setQueue_windows : (s.setQueue a b f).windows = s.windows := rfl
@[simp] theorem State.setQueue_winQ : (s.setQueue a b f).winQ = s.winQ := rfl
@[simp] theorem State.setQueue_threads : (s.setQueue a b f).threads = s.threads := rfl
@[simp] theorem State.setQueue_groups : (s.setQueue a b f).groups = s.groups := rfl
@[simp] theorem State.setQueue_teams : (s.setQueue a b f).teams = s.teams := rfl
@[simp] theorem State.setQueue_ops : (s.setQueue a b f).ops = s.ops := rfl
@[simp] theorem State.setQueue_tiles : (s.setQueue a b f).tiles = s.tiles := rfl
@[simp] theorem State.setQueue_handles : (s.setQueue a b f).handles = s.handles := rfl
@[simp] theorem State.setQueue_tileQ : (s.setQueue a b f).tileQ = s.tileQ := rfl
@[simp] theorem State.setQueue_channels : (s.setQueue a b f).channels = s.channels := rfl
@[simp] theorem State.setQueue_copies : (s.setQueue a b f).copies = s.copies := rfl
@[simp] theorem State.setQueue_units : (s.setQueue a b f).units = s.units := rfl
@[simp] theorem State.setQueue_armed : (s.setQueue a b f).armed = s.armed := rfl
@[simp] theorem State.setQueue_gathers : (s.setQueue a b f).gathers = s.gathers := rfl
@[simp] theorem State.setQueue_mmas : (s.setQueue a b f).mmas = s.mmas := rfl
@[simp] theorem State.setQueue_tmmacs : (s.setQueue a b f).tmmacs = s.tmmacs := rfl
@[simp] theorem State.setQueue_shadows : (s.setQueue a b f).shadows = s.shadows := rfl
@[simp] theorem State.setQueue_slots : (s.setQueue a b f).slots = s.slots := rfl
@[simp] theorem State.setQueue_slotQ : (s.setQueue a b f).slotQ = s.slotQ := rfl
@[simp] theorem State.setQueue_images : (s.setQueue a b f).images = s.images := rfl
@[simp] theorem State.setQueue_laybys : (s.setQueue a b f).laybys = s.laybys := rfl
@[simp] theorem State.setQueue_arrivals : (s.setQueue a b f).arrivals = s.arrivals := rfl
@[simp] theorem State.setQueue_formed : (s.setQueue a b f).formed = s.formed := rfl
@[simp] theorem State.setQueue_sets : (s.setQueue a b f).sets = s.sets := rfl
@[simp] theorem State.setQueue_staging : (s.setQueue a b f).staging = s.staging := rfl
@[simp] theorem State.setQueue_folds : (s.setQueue a b f).folds = s.folds := rfl
@[simp] theorem State.setQueue_logs : (s.setQueue a b f).logs = s.logs := rfl
@[simp] theorem State.setQueue_launches : (s.setQueue a b f).launches = s.launches := rfl
@[simp] theorem State.setQueue_queued : (s.setQueue a b f).queued = s.queued := rfl
@[simp] theorem State.setQueue_worlds : (s.setQueue a b f).worlds = s.worlds := rfl
@[simp] theorem State.setQueue_parts : (s.setQueue a b f).parts = s.parts := rfl
@[simp] theorem State.setQueue_faults : (s.setQueue a b f).faults = s.faults := rfl
@[simp] theorem State.setQueue_s2 : (s.setQueue a b f).s2 = s.s2 := rfl
@[simp] theorem State.setQueue_tensors : (s.setQueue a b f).tensors = s.tensors := rfl
@[simp] theorem State.setQueue_regKeys : (s.setQueue a b f).regKeys = s.regKeys := rfl
@[simp] theorem State.setQueue_kebase : (s.setQueue a b f).kebase = s.kebase := rfl
@[simp] theorem State.setQueue_ketail : (s.setQueue a b f).ketail = s.ketail := rfl
@[simp] theorem State.setQueue_kehead : (s.setQueue a b f).kehead = s.kehead := rfl
@[simp] theorem State.setQueue_kenext : (s.setQueue a b f).kenext = s.kenext := rfl
@[simp] theorem State.setQueue_remotes : (s.setQueue a b f).remotes = s.remotes := rfl
@[simp] theorem State.setQueue_flits : (s.setQueue a b f).flits = s.flits := rfl
@[simp] theorem State.setQueue_inbox : (s.setQueue a b f).inbox = s.inbox := rfl
@[simp] theorem State.setQueue_links : (s.setQueue a b f).links = s.links := rfl
@[simp] theorem State.setQueue_eth : (s.setQueue a b f).eth = s.eth := rfl
@[simp] theorem State.setQueue_frames : (s.setQueue a b f).frames = s.frames := rfl
@[simp] theorem State.setQueue_mgmt : (s.setQueue a b f).mgmt = s.mgmt := rfl
@[simp] theorem State.setQueue_store : (s.setQueue a b f).store = s.store := rfl
@[simp] theorem State.setQueue_doe : (s.setQueue a b f).doe = s.doe := rfl
@[simp] theorem State.setQueue_read_thread (u : TRef) : (s.setQueue a b f).thread u = s.thread u := rfl
@[simp] theorem State.setQueue_read_group (c d : Nat) : (s.setQueue a b f).group c d = s.group c d := rfl
@[simp] theorem State.setQueue_read_team (m : Nat) : (s.setQueue a b f).team m = s.team m := rfl
@[simp] theorem State.setQueue_read_op_q (m : Nat) : (s.setQueue a b f).op? m = s.op? m := rfl
@[simp] theorem State.setQueue_read_tile_q (m : Nat) : (s.setQueue a b f).tile? m = s.tile? m := rfl
@[simp] theorem State.setQueue_read_handle_q (c : Nat) (k : BitVec 8) : (s.setQueue a b f).handle? c k = s.handle? c k := rfl
@[simp] theorem State.setQueue_read_channel (c : Nat) (k : BitVec 4) : (s.setQueue a b f).channel c k = s.channel c k := rfl
@[simp] theorem State.setQueue_read_copy_q (m : Nat) : (s.setQueue a b f).copy? m = s.copy? m := rfl
@[simp] theorem State.setQueue_read_launch_q (m : Nat) : (s.setQueue a b f).launch? m = s.launch? m := rfl
@[simp] theorem State.setQueue_read_world (m : Nat) : (s.setQueue a b f).world m = s.world m := rfl
@[simp] theorem State.setQueue_read_slot (c : Nat) (k : BitVec 3) : (s.setQueue a b f).slot c k = s.slot c k := rfl
@[simp] theorem State.setQueue_read_part_q (m : Nat) : (s.setQueue a b f).part? m = s.part? m := rfl
@[simp] theorem State.setQueue_read_log_q (m : Nat) : (s.setQueue a b f).log? m = s.log? m := rfl
@[simp] theorem State.setQueue_read_memByte (l : Loc) : (s.setQueue a b f).memByte l = s.memByte l := rfl

end

/-! ### setSlot -/

section

variable (s : State) (a : Nat) (h : BitVec 3) (f : Slot → Slot)

@[simp] theorem State.setSlot_agenda : (s.setSlot a h f).agenda = s.agenda := rfl
@[simp] theorem State.setSlot_free : (s.setSlot a h f).free = s.free := rfl
@[simp] theorem State.setSlot_ids : (s.setSlot a h f).ids = s.ids := rfl
@[simp] theorem State.setSlot_issue : (s.setSlot a h f).issue = s.issue := rfl
@[simp] theorem State.setSlot_clock : (s.setSlot a h f).clock = s.clock := rfl
@[simp] theorem State.setSlot_power : (s.setSlot a h f).power = s.power := rfl
@[simp] theorem State.setSlot_halted : (s.setSlot a h f).halted = s.halted := rfl
@[simp] theorem State.setSlot_link : (s.setSlot a h f).link = s.link := rfl
@[simp] theorem State.setSlot_mem : (s.setSlot a h f).mem = s.mem := rfl
@[simp] theorem State.setSlot_hostMem : (s.setSlot a h f).hostMem = s.hostMem := rfl
@[simp] theorem State.setSlot_poison : (s.setSlot a h f).poison = s.poison := rfl
@[simp] theorem State.setSlot_seals : (s.setSlot a h f).seals = s.seals := rfl
@[simp] theorem State.setSlot_wbuf : (s.setSlot a h f).wbuf = s.wbuf := rfl
@[simp] theorem State.setSlot_marks : (s.setSlot a h f).marks = s.marks := rfl
@[simp] theorem State.setSlot_owned : (s.setSlot a h f).owned = s.owned := rfl
@[simp] theorem State.setSlot_prot : (s.setSlot a h f).prot = s.prot := rfl
@[simp] theorem State.setSlot_fetch : (s.setSlot a h f).fetch = s.fetch := rfl
@[simp] theorem State.setSlot_lastPage : (s.setSlot a h f).lastPage = s.lastPage := rfl
@[simp] theorem State.setSlot_tlb : (s.setSlot a h f).tlb = s.tlb := rfl
@[simp] theorem State.setSlot_walkCache : (s.setSlot a h f).walkCache = s.walkCache := rfl
@[simp] theorem State.setSlot_windows : (s.setSlot a h f).windows = s.windows := rfl
@[simp] theorem State.setSlot_winQ : (s.setSlot a h f).winQ = s.winQ := rfl
@[simp] theorem State.setSlot_threads : (s.setSlot a h f).threads = s.threads := rfl
@[simp] theorem State.setSlot_groups : (s.setSlot a h f).groups = s.groups := rfl
@[simp] theorem State.setSlot_teams : (s.setSlot a h f).teams = s.teams := rfl
@[simp] theorem State.setSlot_ops : (s.setSlot a h f).ops = s.ops := rfl
@[simp] theorem State.setSlot_tiles : (s.setSlot a h f).tiles = s.tiles := rfl
@[simp] theorem State.setSlot_handles : (s.setSlot a h f).handles = s.handles := rfl
@[simp] theorem State.setSlot_tileQ : (s.setSlot a h f).tileQ = s.tileQ := rfl
@[simp] theorem State.setSlot_channels : (s.setSlot a h f).channels = s.channels := rfl
@[simp] theorem State.setSlot_copies : (s.setSlot a h f).copies = s.copies := rfl
@[simp] theorem State.setSlot_units : (s.setSlot a h f).units = s.units := rfl
@[simp] theorem State.setSlot_armed : (s.setSlot a h f).armed = s.armed := rfl
@[simp] theorem State.setSlot_gathers : (s.setSlot a h f).gathers = s.gathers := rfl
@[simp] theorem State.setSlot_mmas : (s.setSlot a h f).mmas = s.mmas := rfl
@[simp] theorem State.setSlot_tmmacs : (s.setSlot a h f).tmmacs = s.tmmacs := rfl
@[simp] theorem State.setSlot_shadows : (s.setSlot a h f).shadows = s.shadows := rfl
@[simp] theorem State.setSlot_slotQ : (s.setSlot a h f).slotQ = s.slotQ := rfl
@[simp] theorem State.setSlot_images : (s.setSlot a h f).images = s.images := rfl
@[simp] theorem State.setSlot_laybys : (s.setSlot a h f).laybys = s.laybys := rfl
@[simp] theorem State.setSlot_arrivals : (s.setSlot a h f).arrivals = s.arrivals := rfl
@[simp] theorem State.setSlot_formed : (s.setSlot a h f).formed = s.formed := rfl
@[simp] theorem State.setSlot_sets : (s.setSlot a h f).sets = s.sets := rfl
@[simp] theorem State.setSlot_staging : (s.setSlot a h f).staging = s.staging := rfl
@[simp] theorem State.setSlot_folds : (s.setSlot a h f).folds = s.folds := rfl
@[simp] theorem State.setSlot_logs : (s.setSlot a h f).logs = s.logs := rfl
@[simp] theorem State.setSlot_launches : (s.setSlot a h f).launches = s.launches := rfl
@[simp] theorem State.setSlot_queued : (s.setSlot a h f).queued = s.queued := rfl
@[simp] theorem State.setSlot_queues : (s.setSlot a h f).queues = s.queues := rfl
@[simp] theorem State.setSlot_worlds : (s.setSlot a h f).worlds = s.worlds := rfl
@[simp] theorem State.setSlot_parts : (s.setSlot a h f).parts = s.parts := rfl
@[simp] theorem State.setSlot_faults : (s.setSlot a h f).faults = s.faults := rfl
@[simp] theorem State.setSlot_s2 : (s.setSlot a h f).s2 = s.s2 := rfl
@[simp] theorem State.setSlot_tensors : (s.setSlot a h f).tensors = s.tensors := rfl
@[simp] theorem State.setSlot_regKeys : (s.setSlot a h f).regKeys = s.regKeys := rfl
@[simp] theorem State.setSlot_kebase : (s.setSlot a h f).kebase = s.kebase := rfl
@[simp] theorem State.setSlot_ketail : (s.setSlot a h f).ketail = s.ketail := rfl
@[simp] theorem State.setSlot_kehead : (s.setSlot a h f).kehead = s.kehead := rfl
@[simp] theorem State.setSlot_kenext : (s.setSlot a h f).kenext = s.kenext := rfl
@[simp] theorem State.setSlot_remotes : (s.setSlot a h f).remotes = s.remotes := rfl
@[simp] theorem State.setSlot_flits : (s.setSlot a h f).flits = s.flits := rfl
@[simp] theorem State.setSlot_inbox : (s.setSlot a h f).inbox = s.inbox := rfl
@[simp] theorem State.setSlot_links : (s.setSlot a h f).links = s.links := rfl
@[simp] theorem State.setSlot_eth : (s.setSlot a h f).eth = s.eth := rfl
@[simp] theorem State.setSlot_frames : (s.setSlot a h f).frames = s.frames := rfl
@[simp] theorem State.setSlot_mgmt : (s.setSlot a h f).mgmt = s.mgmt := rfl
@[simp] theorem State.setSlot_store : (s.setSlot a h f).store = s.store := rfl
@[simp] theorem State.setSlot_doe : (s.setSlot a h f).doe = s.doe := rfl
@[simp] theorem State.setSlot_read_thread (u : TRef) : (s.setSlot a h f).thread u = s.thread u := rfl
@[simp] theorem State.setSlot_read_group (c d : Nat) : (s.setSlot a h f).group c d = s.group c d := rfl
@[simp] theorem State.setSlot_read_team (m : Nat) : (s.setSlot a h f).team m = s.team m := rfl
@[simp] theorem State.setSlot_read_op_q (m : Nat) : (s.setSlot a h f).op? m = s.op? m := rfl
@[simp] theorem State.setSlot_read_tile_q (m : Nat) : (s.setSlot a h f).tile? m = s.tile? m := rfl
@[simp] theorem State.setSlot_read_handle_q (c : Nat) (k : BitVec 8) : (s.setSlot a h f).handle? c k = s.handle? c k := rfl
@[simp] theorem State.setSlot_read_channel (c : Nat) (k : BitVec 4) : (s.setSlot a h f).channel c k = s.channel c k := rfl
@[simp] theorem State.setSlot_read_copy_q (m : Nat) : (s.setSlot a h f).copy? m = s.copy? m := rfl
@[simp] theorem State.setSlot_read_launch_q (m : Nat) : (s.setSlot a h f).launch? m = s.launch? m := rfl
@[simp] theorem State.setSlot_read_world (m : Nat) : (s.setSlot a h f).world m = s.world m := rfl
@[simp] theorem State.setSlot_read_queue (c d : Nat) : (s.setSlot a h f).queue c d = s.queue c d := rfl
@[simp] theorem State.setSlot_read_part_q (m : Nat) : (s.setSlot a h f).part? m = s.part? m := rfl
@[simp] theorem State.setSlot_read_log_q (m : Nat) : (s.setSlot a h f).log? m = s.log? m := rfl
@[simp] theorem State.setSlot_read_memByte (l : Loc) : (s.setSlot a h f).memByte l = s.memByte l := rfl

end

/-! ### setPart -/

section

variable (s : State) (n : Nat) (f : Partition → Partition)

@[simp] theorem State.setPart_agenda : (s.setPart n f).agenda = s.agenda := rfl
@[simp] theorem State.setPart_free : (s.setPart n f).free = s.free := rfl
@[simp] theorem State.setPart_ids : (s.setPart n f).ids = s.ids := rfl
@[simp] theorem State.setPart_issue : (s.setPart n f).issue = s.issue := rfl
@[simp] theorem State.setPart_clock : (s.setPart n f).clock = s.clock := rfl
@[simp] theorem State.setPart_power : (s.setPart n f).power = s.power := rfl
@[simp] theorem State.setPart_halted : (s.setPart n f).halted = s.halted := rfl
@[simp] theorem State.setPart_link : (s.setPart n f).link = s.link := rfl
@[simp] theorem State.setPart_mem : (s.setPart n f).mem = s.mem := rfl
@[simp] theorem State.setPart_hostMem : (s.setPart n f).hostMem = s.hostMem := rfl
@[simp] theorem State.setPart_poison : (s.setPart n f).poison = s.poison := rfl
@[simp] theorem State.setPart_seals : (s.setPart n f).seals = s.seals := rfl
@[simp] theorem State.setPart_wbuf : (s.setPart n f).wbuf = s.wbuf := rfl
@[simp] theorem State.setPart_marks : (s.setPart n f).marks = s.marks := rfl
@[simp] theorem State.setPart_owned : (s.setPart n f).owned = s.owned := rfl
@[simp] theorem State.setPart_prot : (s.setPart n f).prot = s.prot := rfl
@[simp] theorem State.setPart_fetch : (s.setPart n f).fetch = s.fetch := rfl
@[simp] theorem State.setPart_lastPage : (s.setPart n f).lastPage = s.lastPage := rfl
@[simp] theorem State.setPart_tlb : (s.setPart n f).tlb = s.tlb := rfl
@[simp] theorem State.setPart_walkCache : (s.setPart n f).walkCache = s.walkCache := rfl
@[simp] theorem State.setPart_windows : (s.setPart n f).windows = s.windows := rfl
@[simp] theorem State.setPart_winQ : (s.setPart n f).winQ = s.winQ := rfl
@[simp] theorem State.setPart_threads : (s.setPart n f).threads = s.threads := rfl
@[simp] theorem State.setPart_groups : (s.setPart n f).groups = s.groups := rfl
@[simp] theorem State.setPart_teams : (s.setPart n f).teams = s.teams := rfl
@[simp] theorem State.setPart_ops : (s.setPart n f).ops = s.ops := rfl
@[simp] theorem State.setPart_tiles : (s.setPart n f).tiles = s.tiles := rfl
@[simp] theorem State.setPart_handles : (s.setPart n f).handles = s.handles := rfl
@[simp] theorem State.setPart_tileQ : (s.setPart n f).tileQ = s.tileQ := rfl
@[simp] theorem State.setPart_channels : (s.setPart n f).channels = s.channels := rfl
@[simp] theorem State.setPart_copies : (s.setPart n f).copies = s.copies := rfl
@[simp] theorem State.setPart_units : (s.setPart n f).units = s.units := rfl
@[simp] theorem State.setPart_armed : (s.setPart n f).armed = s.armed := rfl
@[simp] theorem State.setPart_gathers : (s.setPart n f).gathers = s.gathers := rfl
@[simp] theorem State.setPart_mmas : (s.setPart n f).mmas = s.mmas := rfl
@[simp] theorem State.setPart_tmmacs : (s.setPart n f).tmmacs = s.tmmacs := rfl
@[simp] theorem State.setPart_shadows : (s.setPart n f).shadows = s.shadows := rfl
@[simp] theorem State.setPart_slots : (s.setPart n f).slots = s.slots := rfl
@[simp] theorem State.setPart_slotQ : (s.setPart n f).slotQ = s.slotQ := rfl
@[simp] theorem State.setPart_images : (s.setPart n f).images = s.images := rfl
@[simp] theorem State.setPart_laybys : (s.setPart n f).laybys = s.laybys := rfl
@[simp] theorem State.setPart_arrivals : (s.setPart n f).arrivals = s.arrivals := rfl
@[simp] theorem State.setPart_formed : (s.setPart n f).formed = s.formed := rfl
@[simp] theorem State.setPart_sets : (s.setPart n f).sets = s.sets := rfl
@[simp] theorem State.setPart_staging : (s.setPart n f).staging = s.staging := rfl
@[simp] theorem State.setPart_folds : (s.setPart n f).folds = s.folds := rfl
@[simp] theorem State.setPart_logs : (s.setPart n f).logs = s.logs := rfl
@[simp] theorem State.setPart_launches : (s.setPart n f).launches = s.launches := rfl
@[simp] theorem State.setPart_queued : (s.setPart n f).queued = s.queued := rfl
@[simp] theorem State.setPart_queues : (s.setPart n f).queues = s.queues := rfl
@[simp] theorem State.setPart_worlds : (s.setPart n f).worlds = s.worlds := rfl
@[simp] theorem State.setPart_faults : (s.setPart n f).faults = s.faults := rfl
@[simp] theorem State.setPart_s2 : (s.setPart n f).s2 = s.s2 := rfl
@[simp] theorem State.setPart_tensors : (s.setPart n f).tensors = s.tensors := rfl
@[simp] theorem State.setPart_regKeys : (s.setPart n f).regKeys = s.regKeys := rfl
@[simp] theorem State.setPart_kebase : (s.setPart n f).kebase = s.kebase := rfl
@[simp] theorem State.setPart_ketail : (s.setPart n f).ketail = s.ketail := rfl
@[simp] theorem State.setPart_kehead : (s.setPart n f).kehead = s.kehead := rfl
@[simp] theorem State.setPart_kenext : (s.setPart n f).kenext = s.kenext := rfl
@[simp] theorem State.setPart_remotes : (s.setPart n f).remotes = s.remotes := rfl
@[simp] theorem State.setPart_flits : (s.setPart n f).flits = s.flits := rfl
@[simp] theorem State.setPart_inbox : (s.setPart n f).inbox = s.inbox := rfl
@[simp] theorem State.setPart_links : (s.setPart n f).links = s.links := rfl
@[simp] theorem State.setPart_eth : (s.setPart n f).eth = s.eth := rfl
@[simp] theorem State.setPart_frames : (s.setPart n f).frames = s.frames := rfl
@[simp] theorem State.setPart_mgmt : (s.setPart n f).mgmt = s.mgmt := rfl
@[simp] theorem State.setPart_store : (s.setPart n f).store = s.store := rfl
@[simp] theorem State.setPart_doe : (s.setPart n f).doe = s.doe := rfl
@[simp] theorem State.setPart_read_thread (u : TRef) : (s.setPart n f).thread u = s.thread u := rfl
@[simp] theorem State.setPart_read_group (c d : Nat) : (s.setPart n f).group c d = s.group c d := rfl
@[simp] theorem State.setPart_read_team (m : Nat) : (s.setPart n f).team m = s.team m := rfl
@[simp] theorem State.setPart_read_op_q (m : Nat) : (s.setPart n f).op? m = s.op? m := rfl
@[simp] theorem State.setPart_read_tile_q (m : Nat) : (s.setPart n f).tile? m = s.tile? m := rfl
@[simp] theorem State.setPart_read_handle_q (c : Nat) (k : BitVec 8) : (s.setPart n f).handle? c k = s.handle? c k := rfl
@[simp] theorem State.setPart_read_channel (c : Nat) (k : BitVec 4) : (s.setPart n f).channel c k = s.channel c k := rfl
@[simp] theorem State.setPart_read_copy_q (m : Nat) : (s.setPart n f).copy? m = s.copy? m := rfl
@[simp] theorem State.setPart_read_launch_q (m : Nat) : (s.setPart n f).launch? m = s.launch? m := rfl
@[simp] theorem State.setPart_read_world (m : Nat) : (s.setPart n f).world m = s.world m := rfl
@[simp] theorem State.setPart_read_queue (c d : Nat) : (s.setPart n f).queue c d = s.queue c d := rfl
@[simp] theorem State.setPart_read_slot (c : Nat) (k : BitVec 3) : (s.setPart n f).slot c k = s.slot c k := rfl
@[simp] theorem State.setPart_read_log_q (m : Nat) : (s.setPart n f).log? m = s.log? m := rfl
@[simp] theorem State.setPart_read_memByte (l : Loc) : (s.setPart n f).memByte l = s.memByte l := rfl

end

/-! ### setLog -/

section

variable (s : State) (n : Nat) (f : OrderLog → OrderLog)

@[simp] theorem State.setLog_agenda : (s.setLog n f).agenda = s.agenda := rfl
@[simp] theorem State.setLog_free : (s.setLog n f).free = s.free := rfl
@[simp] theorem State.setLog_ids : (s.setLog n f).ids = s.ids := rfl
@[simp] theorem State.setLog_issue : (s.setLog n f).issue = s.issue := rfl
@[simp] theorem State.setLog_clock : (s.setLog n f).clock = s.clock := rfl
@[simp] theorem State.setLog_power : (s.setLog n f).power = s.power := rfl
@[simp] theorem State.setLog_halted : (s.setLog n f).halted = s.halted := rfl
@[simp] theorem State.setLog_link : (s.setLog n f).link = s.link := rfl
@[simp] theorem State.setLog_mem : (s.setLog n f).mem = s.mem := rfl
@[simp] theorem State.setLog_hostMem : (s.setLog n f).hostMem = s.hostMem := rfl
@[simp] theorem State.setLog_poison : (s.setLog n f).poison = s.poison := rfl
@[simp] theorem State.setLog_seals : (s.setLog n f).seals = s.seals := rfl
@[simp] theorem State.setLog_wbuf : (s.setLog n f).wbuf = s.wbuf := rfl
@[simp] theorem State.setLog_marks : (s.setLog n f).marks = s.marks := rfl
@[simp] theorem State.setLog_owned : (s.setLog n f).owned = s.owned := rfl
@[simp] theorem State.setLog_prot : (s.setLog n f).prot = s.prot := rfl
@[simp] theorem State.setLog_fetch : (s.setLog n f).fetch = s.fetch := rfl
@[simp] theorem State.setLog_lastPage : (s.setLog n f).lastPage = s.lastPage := rfl
@[simp] theorem State.setLog_tlb : (s.setLog n f).tlb = s.tlb := rfl
@[simp] theorem State.setLog_walkCache : (s.setLog n f).walkCache = s.walkCache := rfl
@[simp] theorem State.setLog_windows : (s.setLog n f).windows = s.windows := rfl
@[simp] theorem State.setLog_winQ : (s.setLog n f).winQ = s.winQ := rfl
@[simp] theorem State.setLog_threads : (s.setLog n f).threads = s.threads := rfl
@[simp] theorem State.setLog_groups : (s.setLog n f).groups = s.groups := rfl
@[simp] theorem State.setLog_teams : (s.setLog n f).teams = s.teams := rfl
@[simp] theorem State.setLog_ops : (s.setLog n f).ops = s.ops := rfl
@[simp] theorem State.setLog_tiles : (s.setLog n f).tiles = s.tiles := rfl
@[simp] theorem State.setLog_handles : (s.setLog n f).handles = s.handles := rfl
@[simp] theorem State.setLog_tileQ : (s.setLog n f).tileQ = s.tileQ := rfl
@[simp] theorem State.setLog_channels : (s.setLog n f).channels = s.channels := rfl
@[simp] theorem State.setLog_copies : (s.setLog n f).copies = s.copies := rfl
@[simp] theorem State.setLog_units : (s.setLog n f).units = s.units := rfl
@[simp] theorem State.setLog_armed : (s.setLog n f).armed = s.armed := rfl
@[simp] theorem State.setLog_gathers : (s.setLog n f).gathers = s.gathers := rfl
@[simp] theorem State.setLog_mmas : (s.setLog n f).mmas = s.mmas := rfl
@[simp] theorem State.setLog_tmmacs : (s.setLog n f).tmmacs = s.tmmacs := rfl
@[simp] theorem State.setLog_shadows : (s.setLog n f).shadows = s.shadows := rfl
@[simp] theorem State.setLog_slots : (s.setLog n f).slots = s.slots := rfl
@[simp] theorem State.setLog_slotQ : (s.setLog n f).slotQ = s.slotQ := rfl
@[simp] theorem State.setLog_images : (s.setLog n f).images = s.images := rfl
@[simp] theorem State.setLog_laybys : (s.setLog n f).laybys = s.laybys := rfl
@[simp] theorem State.setLog_arrivals : (s.setLog n f).arrivals = s.arrivals := rfl
@[simp] theorem State.setLog_formed : (s.setLog n f).formed = s.formed := rfl
@[simp] theorem State.setLog_sets : (s.setLog n f).sets = s.sets := rfl
@[simp] theorem State.setLog_staging : (s.setLog n f).staging = s.staging := rfl
@[simp] theorem State.setLog_folds : (s.setLog n f).folds = s.folds := rfl
@[simp] theorem State.setLog_launches : (s.setLog n f).launches = s.launches := rfl
@[simp] theorem State.setLog_queued : (s.setLog n f).queued = s.queued := rfl
@[simp] theorem State.setLog_queues : (s.setLog n f).queues = s.queues := rfl
@[simp] theorem State.setLog_worlds : (s.setLog n f).worlds = s.worlds := rfl
@[simp] theorem State.setLog_parts : (s.setLog n f).parts = s.parts := rfl
@[simp] theorem State.setLog_faults : (s.setLog n f).faults = s.faults := rfl
@[simp] theorem State.setLog_s2 : (s.setLog n f).s2 = s.s2 := rfl
@[simp] theorem State.setLog_tensors : (s.setLog n f).tensors = s.tensors := rfl
@[simp] theorem State.setLog_regKeys : (s.setLog n f).regKeys = s.regKeys := rfl
@[simp] theorem State.setLog_kebase : (s.setLog n f).kebase = s.kebase := rfl
@[simp] theorem State.setLog_ketail : (s.setLog n f).ketail = s.ketail := rfl
@[simp] theorem State.setLog_kehead : (s.setLog n f).kehead = s.kehead := rfl
@[simp] theorem State.setLog_kenext : (s.setLog n f).kenext = s.kenext := rfl
@[simp] theorem State.setLog_remotes : (s.setLog n f).remotes = s.remotes := rfl
@[simp] theorem State.setLog_flits : (s.setLog n f).flits = s.flits := rfl
@[simp] theorem State.setLog_inbox : (s.setLog n f).inbox = s.inbox := rfl
@[simp] theorem State.setLog_links : (s.setLog n f).links = s.links := rfl
@[simp] theorem State.setLog_eth : (s.setLog n f).eth = s.eth := rfl
@[simp] theorem State.setLog_frames : (s.setLog n f).frames = s.frames := rfl
@[simp] theorem State.setLog_mgmt : (s.setLog n f).mgmt = s.mgmt := rfl
@[simp] theorem State.setLog_store : (s.setLog n f).store = s.store := rfl
@[simp] theorem State.setLog_doe : (s.setLog n f).doe = s.doe := rfl
@[simp] theorem State.setLog_read_thread (u : TRef) : (s.setLog n f).thread u = s.thread u := rfl
@[simp] theorem State.setLog_read_group (c d : Nat) : (s.setLog n f).group c d = s.group c d := rfl
@[simp] theorem State.setLog_read_team (m : Nat) : (s.setLog n f).team m = s.team m := rfl
@[simp] theorem State.setLog_read_op_q (m : Nat) : (s.setLog n f).op? m = s.op? m := rfl
@[simp] theorem State.setLog_read_tile_q (m : Nat) : (s.setLog n f).tile? m = s.tile? m := rfl
@[simp] theorem State.setLog_read_handle_q (c : Nat) (k : BitVec 8) : (s.setLog n f).handle? c k = s.handle? c k := rfl
@[simp] theorem State.setLog_read_channel (c : Nat) (k : BitVec 4) : (s.setLog n f).channel c k = s.channel c k := rfl
@[simp] theorem State.setLog_read_copy_q (m : Nat) : (s.setLog n f).copy? m = s.copy? m := rfl
@[simp] theorem State.setLog_read_launch_q (m : Nat) : (s.setLog n f).launch? m = s.launch? m := rfl
@[simp] theorem State.setLog_read_world (m : Nat) : (s.setLog n f).world m = s.world m := rfl
@[simp] theorem State.setLog_read_queue (c d : Nat) : (s.setLog n f).queue c d = s.queue c d := rfl
@[simp] theorem State.setLog_read_slot (c : Nat) (k : BitVec 3) : (s.setLog n f).slot c k = s.slot c k := rfl
@[simp] theorem State.setLog_read_part_q (m : Nat) : (s.setLog n f).part? m = s.part? m := rfl
@[simp] theorem State.setLog_read_memByte (l : Loc) : (s.setLog n f).memByte l = s.memByte l := rfl

end

end Sys2Proof.Machine
end

