-- ==== Sys2Proof/Laws/Memory.lean ====
section
/-! SUPPORT. Memory: reading after a write, the canonical form that every operation over memory keeps, and what each of these
operations leaves unchanged. -/

namespace Sys2Proof.Machine

/-! ### Bytes and cells -/

/-- Every listed address lies above a. -/
def memAbove (a : Nat) (m : List Host.Cell) : Prop := ∀ c ∈ m, a < c.1

theorem memRead_above {m : List Host.Cell} {a : Nat} (h : memAbove a m) : memRead m a = blank := by
  induction m with
  | nil => rfl
  | cons c r ih =>
    have h1 := h c (by simp)
    simp only [memRead, Nat.ne_of_gt h1, if_false]
    exact ih fun d hd => h d (by simp [hd])

theorem memWf_cons {a : Nat} {b : Byte} {r : List Host.Cell} :
    memWf ((a, b) :: r) = true ↔ b ≠ blank ∧ memWf r = true ∧ memAbove a r := by
  induction r generalizing a b with
  | nil => simp [memWf, memAbove]
  | cons c r ih =>
    obtain ⟨x, v⟩ := c
    rw [memWf]
    simp only [Bool.and_eq_true, bne_iff_ne, decide_eq_true_eq]
    constructor
    · rintro ⟨⟨h1, h2⟩, h3⟩
      refine ⟨h1, h2, fun c hc => ?_⟩
      rcases List.mem_cons.1 hc with rfl | hc
      · exact h3
      · exact Nat.lt_trans h3 ((ih.1 h2).2.2 c hc)
    · rintro ⟨h1, h2, h3⟩
      exact ⟨⟨h1, h2⟩, h3 (x, v) (by simp)⟩

theorem memAbove_write {m : List Host.Cell} {a k : Nat} {b : Byte} (h : memAbove k m) (hk : k < a) : memAbove k (memWrite m a b) := by
  induction m with
  | nil =>
    unfold memWrite
    split <;> intro c hc <;> simp_all
  | cons c r ih =>
    obtain ⟨x, v⟩ := c
    have hr : memAbove k r := fun d hd => h d (by simp [hd])
    have hx : k < x := h (x, v) (by simp)
    unfold memWrite
    intro d hd
    split at hd
    · rcases List.mem_cons.1 hd with rfl | hd
      · exact hx
      · exact ih hr d hd
    · split at hd
      · split at hd
        · exact hr d hd
        · rcases List.mem_cons.1 hd with rfl | hd
          · exact hk
          · exact hr d hd
      · split at hd
        · exact h d hd
        · rcases List.mem_cons.1 hd with rfl | hd
          · exact hk
          · exact h d hd

/-- A write keeps the canonical form. -/
theorem memWf_memWrite {m : List Host.Cell} (h : memWf m = true) (a : Nat) (b : Byte) : memWf (memWrite m a b) = true := by
  induction m with
  | nil =>
    unfold memWrite
    split
    · rfl
    · rename_i hb
      exact memWf_cons.2 ⟨hb, rfl, by simp [memAbove]⟩
  | cons c r ih =>
    obtain ⟨x, v⟩ := c
    obtain ⟨hv, hr, ha⟩ := memWf_cons.1 h
    unfold memWrite
    split
    · rename_i hx
      exact memWf_cons.2 ⟨hv, ih hr, memAbove_write ha hx⟩
    · rename_i hx
      split
      · rename_i he
        split
        · exact hr
        · rename_i hb
          exact memWf_cons.2 ⟨hb, hr, he ▸ ha⟩
      · rename_i he
        split
        · exact h
        · rename_i hb
          refine memWf_cons.2 ⟨hb, h, fun d hd => ?_⟩
          have : a < x := by omega
          rcases List.mem_cons.1 hd with rfl | hd
          · exact this
          · exact Nat.lt_trans this (ha d hd)

/-- A read after a write to the same address gives what was written. -/
theorem memRead_memWrite {m : List Host.Cell} (h : memWf m = true) (a : Nat) (b : Byte) : memRead (memWrite m a b) a = b := by
  induction m with
  | nil =>
    unfold memWrite
    split
    · rename_i hb
      rw [hb]; rfl
    · simp [memRead]
  | cons c r ih =>
    obtain ⟨x, v⟩ := c
    obtain ⟨_, hr, ha⟩ := memWf_cons.1 h
    unfold memWrite
    split
    · rename_i hx
      simp only [memRead, Nat.ne_of_lt hx, if_false]
      exact ih hr
    · rename_i hx
      split
      · rename_i he
        split
        · rename_i hb
          rw [hb]
          exact memRead_above (he ▸ ha)
        · simp [memRead]
      · rename_i he
        split
        · rename_i hb
          rw [hb]
          refine memRead_above fun d hd => ?_
          have : a < x := by omega
          rcases List.mem_cons.1 hd with rfl | hd
          · exact this
          · exact Nat.lt_trans this (ha d hd)
        · simp [memRead]

/-- A write leaves every other address alone. -/
theorem memRead_memWrite_ne (m : List Host.Cell) {a c : Nat} (b : Byte) (hc : c ≠ a) : memRead (memWrite m a b) c = memRead m c := by
  induction m with
  | nil =>
    unfold memWrite
    split
    · rfl
    · simp [memRead, Ne.symm hc]
  | cons d r ih =>
    obtain ⟨x, v⟩ := d
    unfold memWrite
    split
    · simp only [memRead, ih]
    · split
      · rename_i he
        subst he
        split <;> simp [memRead, Ne.symm hc]
      · split
        · rfl
        · simp [memRead, Ne.symm hc]

/-! ### The invariant -/

theorem State.memOk_reset : State.reset.MemOk := ⟨rfl, rfl⟩

theorem State.memOk_recordDirty {s : State} (h : s.MemOk) (a : Nat) : (s.recordDirty a).MemOk := by
  unfold State.recordDirty
  split
  · exact h
  · dsimp only
    split
    · exact ⟨memWf_memWrite h.1 _ _, h.2⟩
    · exact h

/-- Sealing changes nothing but the seals. -/
theorem State.setSeal_eq (s : State) (n : Nat) : s.setSeal n = { s with seals := (s.setSeal n).seals } := by
  unfold State.setSeal
  split
  · rfl
  · split <;> rfl

theorem State.sealWrite_eq (s : State) (n : Nat) : s.sealWrite n = { s with seals := (s.sealWrite n).seals } := by
  unfold State.sealWrite
  split
  · rfl
  · exact State.setSeal_eq s n

theorem State.memOk_sealWrite {s : State} (h : s.MemOk) (n : Nat) : (s.sealWrite n).MemOk := by
  rw [State.sealWrite_eq]; exact h

@[simp] theorem State.sealWrite_mem (s : State) (n : Nat) : (s.sealWrite n).mem = s.mem := by rw [State.sealWrite_eq]

@[simp] theorem State.sealWrite_hostMem (s : State) (n : Nat) : (s.sealWrite n).hostMem = s.hostMem := by rw [State.sealWrite_eq]

@[simp] theorem State.sealWrite_world (s : State) (n w : Nat) : (s.sealWrite n).world w = s.world w := by
  rw [State.sealWrite_eq]; rfl

theorem State.memOk_writeByte {s : State} (h : s.MemOk) (l : Loc) (b : Byte) : (s.writeByte l b).MemOk := by
  unfold State.writeByte
  split
  · split
    · exact ⟨h.1, memWf_memWrite h.2 _ _⟩
    · exact h
  · split
    · exact h
    · have hs := State.memOk_sealWrite h l.line
      refine State.memOk_recordDirty (s := { s.sealWrite l.line with mem := _ }) ⟨memWf_memWrite hs.1 _ _, hs.2⟩ _

theorem State.memOk_writeBytes {s : State} (h : s.MemOk) (bs : List (Loc × Byte)) : (s.writeBytes bs).MemOk := by
  unfold State.writeBytes
  induction bs generalizing s with
  | nil => exact h
  | cons x r ih => exact ih (State.memOk_writeByte h _ _)

theorem State.memOk_writeRun {s : State} (h : s.MemOk) (l : Loc) (bs : List Byte) : (s.writeRun l bs).MemOk :=
  State.memOk_writeBytes h _

theorem State.memOk_writeNat {s : State} (h : s.MemOk) (l : Loc) (n x : Nat) : (s.writeNat l n x).MemOk :=
  State.memOk_writeRun h _ _

theorem State.memOk_hostWrite {s : State} (h : s.MemOk) (a : Nat) (bs : List Byte) : (s.hostWrite a bs).MemOk := by
  refine ⟨h.1, ?_⟩
  show memWf ((bs.zipIdx a).foldl (fun m x => memWrite m x.2 x.1) s.hostMem) = true
  generalize bs.zipIdx a = l
  have := h.2
  generalize s.hostMem = m at this
  induction l generalizing m with
  | nil => exact this
  | cons x r ih => exact ih _ (memWf_memWrite this _ _)

/-! ### What writes change -/

/-- Two states differ only in memory and in what its lines are sealed under. -/
def State.SameButMem (s s' : State) : Prop := s' = { s with mem := s'.mem, hostMem := s'.hostMem, seals := s'.seals }

theorem State.SameButMem.refl (s : State) : State.SameButMem s s := rfl

theorem State.SameButMem.trans {a b c : State} (h : State.SameButMem a b) (k : State.SameButMem b c) : State.SameButMem a c := by
  unfold State.SameButMem at *
  rw [k, h]

theorem State.sameButMem_recordDirty (s : State) (a : Nat) : State.SameButMem s (s.recordDirty a) := by
  unfold State.recordDirty
  split
  · rfl
  · dsimp only
    split <;> rfl

theorem State.sameButMem_writeByte (s : State) (l : Loc) (b : Byte) : State.SameButMem s (s.writeByte l b) := by
  unfold State.writeByte
  split
  · split <;> rfl
  · split
    · rfl
    · refine State.SameButMem.trans (b := { s.sealWrite l.line with mem := memWrite s.mem l.addr b }) ?_ ?_
      · unfold State.SameButMem
        rw [State.sealWrite_eq]
      · have := State.sameButMem_recordDirty { s.sealWrite l.line with mem := memWrite s.mem l.addr b } l.addr
        rwa [← State.sealWrite_mem s l.line] at this ⊢

/-- A write of bytes changes memory and nothing else. -/
theorem State.sameButMem_writeBytes (s : State) (bs : List (Loc × Byte)) : State.SameButMem s (s.writeBytes bs) := by
  unfold State.writeBytes
  induction bs generalizing s with
  | nil => rfl
  | cons x r ih => exact State.SameButMem.trans (State.sameButMem_writeByte s _ _) (ih _)

theorem State.sameButMem_writeNat (s : State) (l : Loc) (n x : Nat) : State.SameButMem s (s.writeNat l n x) :=
  State.sameButMem_writeBytes s _

/-- While no world records dirty blocks, a write of a local byte is read back. -/
theorem State.recordDirty_off {s : State} (h : ∀ w, bit (s.world w).dbmctl.toNat 0 = false) (a : Nat) : s.recordDirty a = s := by
  unfold State.recordDirty
  split
  · rfl
  · simp [h]

theorem State.memByte_writeByte {s : State} (hm : s.MemOk) (h : ∀ w, bit (s.world w).dbmctl.toNat 0 = false) {l : Loc}
    (hl : l.isLocal = true) (b : Byte) : (s.writeByte l b).memByte l = b := by
  simp only [Loc.isLocal, Bool.and_eq_true, Bool.not_eq_true', decide_eq_true_eq] at hl
  have hp : l.isPeer = false := by
    have hlt := hl.2
    simp only [Loc.isPeer, hl.1, Bool.not_false, Bool.true_and, decide_eq_false_iff_not]
    omega
  unfold State.writeByte
  rw [if_neg (by simp [hl.1]), if_neg (by simp [hp])]
  dsimp only
  rw [State.recordDirty_off fun w => by
    show bit ((s.sealWrite l.line).world w).dbmctl.toNat 0 = false
    rw [State.sealWrite_world]; exact h w]
  simp [State.memByte, hl.1, hp, memRead_memWrite hm.1]

/-- A write leaves every other byte alone. -/
theorem State.memByte_writeByte_ne {s : State} (h : ∀ w, bit (s.world w).dbmctl.toNat 0 = false) {l k : Loc} (hk : k ≠ l) (b : Byte) :
    (s.writeByte l b).memByte k = s.memByte k := by
  unfold State.writeByte
  split
  · rename_i hh
    split
    · unfold State.memByte
      split
      · rename_i hk'
        refine memRead_memWrite_ne _ _ fun e => hk ?_
        cases k; cases l; simp_all
      · rfl
    · rfl
  · rename_i hh
    split
    · rfl
    · rename_i hp
      dsimp only
      rw [State.recordDirty_off fun w => by
        show bit ((s.sealWrite l.line).world w).dbmctl.toNat 0 = false
        rw [State.sealWrite_world]; exact h w]
      unfold State.memByte
      simp only [State.sealWrite_hostMem, State.sealWrite_mem]
      split
      · rfl
      · split
        · rw [State.sealWrite_eq]
        · refine memRead_memWrite_ne _ _ fun e => hk ?_
          cases k; cases l; simp_all

theorem State.world_writeByte (s : State) (l : Loc) (b : Byte) (w : Nat) : (s.writeByte l b).world w = s.world w := by
  have := State.sameButMem_writeByte s l b
  unfold State.SameButMem at this
  rw [this]; rfl

theorem State.memByte_writeBytes_ne {s : State} (h : ∀ w, bit (s.world w).dbmctl.toNat 0 = false) {k : Loc} (bs : List (Loc × Byte))
    (hk : k ∉ bs.map (·.1)) : (s.writeBytes bs).memByte k = s.memByte k := by
  unfold State.writeBytes
  induction bs generalizing s with
  | nil => rfl
  | cons x r ih =>
    simp only [List.map_cons, List.mem_cons, not_or] at hk
    rw [List.foldl_cons, ih (s := s.writeByte x.1 x.2) (fun w => by rw [State.world_writeByte]; exact h w) hk.2,
      State.memByte_writeByte_ne h hk.1]

/-- Each of some different local bytes reads as it was written. -/
theorem State.memByte_writeBytes {s : State} (hm : s.MemOk) (h : ∀ w, bit (s.world w).dbmctl.toNat 0 = false) (bs : List (Loc × Byte))
    (hl : ∀ p ∈ bs, p.1.isLocal = true) (hn : (bs.map (·.1)).Nodup) : ∀ p ∈ bs, (s.writeBytes bs).memByte p.1 = p.2 := by
  induction bs generalizing s with
  | nil => simp
  | cons x r ih =>
    simp only [List.map_cons, List.nodup_cons] at hn
    have hw : ∀ w, bit ((s.writeByte x.1 x.2).world w).dbmctl.toNat 0 = false := fun w => by
      rw [State.world_writeByte]; exact h w
    intro p hp
    show ((s.writeByte x.1 x.2).writeBytes r).memByte p.1 = p.2
    rcases List.mem_cons.1 hp with rfl | hp
    · rw [State.memByte_writeBytes_ne hw r hn.1, State.memByte_writeByte hm h (hl _ (by simp))]
    · exact ih (State.memOk_writeByte hm _ _) hw (fun q hq => hl q (by simp [hq])) hn.2 p hp

end Sys2Proof.Machine
end

