-- ==== Sys2Proof/Laws/Ops.lean ====
section
/-! SUPPORT. What the shared operations of variable-latency instructions can do: starting an instruction, completing it, its
trap, and the translation of an address. -/

namespace Sys2Proof.Machine

/-! ### Start -/

/-- The scoreboard of a thread after a start (R42). -/
def Thread.busy (x : Thread) (c : Ctl) : Thread :=
  { x with sb := if c.setEn then x.sb ||| (1#8 <<< c.setSlot.toNat) else x.sb }

/-- The instruction is the last of the incomplete ones. -/
theorem State.ops_start (s : State) (t : TRef) (i : Instr) (c : Common) (a b cc x : Nat) :
    (s.start t i c a b cc x).2.ops = s.ops ++ [(s.start t i c a b cc x).1] := by
  unfold State.start
  dsimp only
  split <;> rfl

/-- A start changes the names, the incomplete instructions and the threads. -/
theorem State.start_rest (s : State) (t : TRef) (i : Instr) (c : Common) (a b cc x : Nat) :
    (s.start t i c a b cc x).2 =
      { s with ids := s.ids + 1, ops := s.ops ++ [(s.start t i c a b cc x).1], threads := (s.start t i c a b cc x).2.threads } := by
  unfold State.start
  dsimp only
  split <;> rfl

theorem State.thread_start (s : State) (t : TRef) (i : Instr) (c : Common) (a b cc x : Nat) (h : s.hasThread t)
    (hc : codeCanonical ((s.thread t).pc + 16) = true) :
    (s.start t i c a b cc x).2.thread t = ((s.thread t).busy c.ctl).past c := by
  unfold State.start
  dsimp only
  split
  · rename_i he
    have k := (State.hasThread_setThread { s with ids := s.ids + 1, ops := s.ops ++ [(s.start t i c a b cc x).1] } t t
      (fun y => { y with sb := y.sb ||| (1#8 <<< c.ctl.setSlot.toNat) }) fun _ => rfl).2 h
    have e := State.thread_setThread { s with ids := s.ids + 1, ops := s.ops ++ [(s.start t i c a b cc x).1] } t
      (fun y => { y with sb := y.sb ||| (1#8 <<< c.ctl.setSlot.toNat) }) (fun _ => rfl) h
    refine (State.thread_advance _ t c k (by rw [e]; exact hc)).trans ?_
    rw [e]
    simp only [Thread.busy, he, if_true]
    rfl
  · rename_i he
    refine (State.thread_advance { s with ids := s.ids + 1, ops := s.ops ++ [(s.start t i c a b cc x).1] } t c h hc).trans ?_
    show (s.thread t).past c = _
    simp only [Thread.busy, he, Bool.false_eq_true, if_false]

theorem State.thread_start_ne (s : State) (t u : TRef) (i : Instr) (c : Common) (a b cc x : Nat) (hu : u ≠ t) :
    (s.start t i c a b cc x).2.thread u = s.thread u := by
  unfold State.start
  dsimp only
  refine ((State.touch_advance _ t c.ctl).others u hu).trans ?_
  split
  · exact State.thread_setThread_ne { s with ids := s.ids + 1, ops := _ } t u _ (fun _ => rfl) hu
  · rfl

/-! ### Completion -/

/-- A completion changes the incomplete instructions and the threads. -/
theorem State.complete_rest (s : State) (o : Op) : s.complete o = { s with ops := s.ops.filter (·.id ≠ o.id), threads := (s.complete o).threads } := by
  unfold State.complete
  dsimp only
  split <;> rfl

theorem State.ops_complete (s : State) (o : Op) : (s.complete o).ops = s.ops.filter (·.id ≠ o.id) := by rw [State.complete_rest]

/-- The scoreboard slot of an instruction, if it has one, is free (R42). -/
def Thread.freed (x : Thread) (o : Op) : Thread :=
  { x with sb := match o.slot with | some j => x.sb &&& ~~~(1#8 <<< j.toNat) | none => x.sb }

theorem State.thread_complete (s : State) (o : Op) (h : s.hasThread o.who) : (s.complete o).thread o.who = (s.thread o.who).freed o := by
  unfold State.complete
  dsimp only
  split
  · rename_i j e
    refine (State.thread_setThread { s with ops := s.ops.filter (·.id ≠ o.id) } o.who
      (fun x => { x with sb := x.sb &&& ~~~(1#8 <<< j.toNat) }) (fun _ => rfl) h).trans ?_
    simp only [Thread.freed, e]
    rfl
  · rename_i e
    simp only [Thread.freed, e]
    rfl

theorem State.thread_complete_ne (s : State) (o : Op) (u : TRef) (hu : u ≠ o.who) : (s.complete o).thread u = s.thread u := by
  unfold State.complete
  dsimp only
  split
  · exact State.thread_setThread_ne { s with ops := _ } o.who u _ (fun _ => rfl) hu
  · rfl

/-- Where no later instruction has written the slices, a late write sets them. -/
theorem State.writeLate_eq (s : State) (o : Op) (start w v : Nat) (h : o.clobber = 0) :
    s.writeLate o start w v = s.setThread o.who fun x => { x with slices := slicesSet x.slices start w v } := by
  unfold State.writeLate
  rw [if_pos h]

/-- A completion with a value writes it in the destination and frees the slot. -/
theorem State.thread_completeWith (s : State) (o : Op) (v : Nat) (c : Common) (hc : o.instr.common = some c) (h0 : o.clobber = 0)
    (h : s.hasThread o.who) :
    (s.completeWith o v).thread o.who = ((s.thread o.who).withBits c.d.start.toNat c.d.w.bits v).freed o := by
  unfold State.completeWith
  simp only [hc]
  rw [State.writeLate_eq _ _ _ _ _ h0]
  refine (State.thread_complete _ _ ((State.hasThread_setThread s o.who o.who
    (fun x => { x with slices := slicesSet x.slices c.d.start.toNat c.d.w.bits v }) fun _ => rfl).2 h)).trans ?_
  rw [State.thread_setThread s o.who (fun x => { x with slices := slicesSet x.slices c.d.start.toNat c.d.w.bits v }) (fun _ => rfl) h]
  rfl

theorem State.ops_completeWith (s : State) (o : Op) (v : Nat) (h0 : o.clobber = 0) :
    (s.completeWith o v).ops = s.ops.filter (·.id ≠ o.id) := by
  unfold State.completeWith
  split
  · rw [State.ops_complete, State.writeLate_eq _ _ _ _ _ h0]
    rfl
  · exact State.ops_complete s o

/-- It leaves everything but threads and incomplete instructions. -/
theorem State.completeWith_rest (s : State) (o : Op) (v : Nat) (h0 : o.clobber = 0) :
    s.completeWith o v = { s with ops := s.ops.filter (·.id ≠ o.id), threads := (s.completeWith o v).threads } := by
  unfold State.completeWith
  split
  · rw [State.writeLate_eq _ _ _ _ _ h0]
    exact State.complete_rest _ o
  · exact State.complete_rest s o

/-- An instruction that traps is over, and its thread has the trap, to be resumed at the instruction (R47, R176). -/
theorem State.thread_trapOp (s : State) (o : Op) (code info : BitVec 8) (addr : W64) (h : s.hasThread o.who) :
    (s.trapOp o code info addr).thread o.who = ((s.thread o.who).freed o).addTrap ⟨code, info, o.pc, o.pc, addr, false⟩ := by
  unfold State.trapOp State.raiseAt
  have k : (s.complete o).hasThread o.who := by
    unfold State.complete
    dsimp only
    split
    · rename_i j _
      exact (State.hasThread_setThread { s with ops := s.ops.filter (·.id ≠ o.id) } o.who o.who
        (fun x => { x with sb := x.sb &&& ~~~(1#8 <<< j.toNat) }) fun _ => rfl).2 h
    · exact h
  rw [State.thread_setThread _ _ _ (fun _ => Thread.addTrap_id _ _) k, State.thread_complete s o h]

theorem State.ops_trapOp (s : State) (o : Op) (code info : BitVec 8) (addr : W64) :
    (s.trapOp o code info addr).ops = s.ops.filter (·.id ≠ o.id) := State.ops_complete s o

/-! ### An issue of one thread -/

/-- Where the issue has one thread and it runs the instruction, the issue is its effect. -/
theorem State.forIssue_one (s : State) (t : TRef) (i : Instr) (c : Common) (f : TRef → State → State) (h : s.Runs t i c)
    (ht : s.issue.threads = [t]) : s.forIssue i c f = f t s := by
  unfold State.forIssue
  rw [ht]
  simp [h.guard, h.slices]

/-! ### Translation -/

/-- Two states differ in memory and in what caches translations only. -/
def State.SameButXlat (s s' : State) : Prop :=
  s' = { s with mem := s'.mem, hostMem := s'.hostMem, seals := s'.seals, tlb := s'.tlb, walkCache := s'.walkCache, lastPage := s'.lastPage }

theorem State.SameButXlat.refl (s : State) : State.SameButXlat s s := rfl

theorem State.SameButXlat.trans {a b c : State} (h : State.SameButXlat a b) (k : State.SameButXlat b c) : State.SameButXlat a c := by
  unfold State.SameButXlat at *
  rw [k, h]

theorem State.SameButMem.xlat {a b : State} (h : State.SameButMem a b) : State.SameButXlat a b := by
  unfold State.SameButMem at h
  unfold State.SameButXlat
  rw [h]

theorem State.sameButXlat_loadLastPage (s : State) (c : XCtx) (acc : Acc) (x : Xlat) :
    State.SameButXlat s (s.loadLastPage c acc x) := by
  unfold State.loadLastPage
  split
  · rfl
  · split <;> rfl

theorem State.memOk_loadLastPage {s : State} (h : s.MemOk) (c : XCtx) (acc : Acc) (x : Xlat) : (s.loadLastPage c acc x).MemOk := by
  unfold State.loadLastPage
  split
  · exact h
  · split <;> exact h

/-- Keeping a translation changes the caches of translations only. -/
theorem State.keepXlat_spec (s : State) (c : XCtx) (acc : Acc) (va : Nat) (l : Leaf) (z : BitVec 2) (o : Loc) (r w x : Bool) :
    State.SameButXlat s (s.keepXlat c acc va l z o r w x) ∧ (s.MemOk → (s.keepXlat c acc va l z o r w x).MemOk) := by
  have k : ∀ (m : List Xlat) (e : Xlat), State.SameButXlat s (({ s with tlb := m } : State).loadLastPage c acc e) ∧
      (s.MemOk → (({ s with tlb := m } : State).loadLastPage c acc e).MemOk) := fun m e =>
    ⟨State.SameButXlat.trans (b := { s with tlb := m }) rfl (State.sameButXlat_loadLastPage _ c acc e),
      fun h => State.memOk_loadLastPage (s := { s with tlb := m }) h c acc e⟩
  exact k _ _

theorem State.sameButMem_setAD (s : State) (w : Nat) (l : Leaf) (b : Bool) : State.SameButMem s (s.setAD w l b) := by
  unfold State.setAD
  generalize marked l.entry b = e
  dsimp only
  split
  · rfl
  · split
    · exact State.sameButMem_writeNat _ _ _ _
    · rfl

theorem State.memOk_setAD {s : State} (h : s.MemOk) (w : Nat) (l : Leaf) (b : Bool) : (s.setAD w l b).MemOk := by
  unfold State.setAD
  generalize marked l.entry b = e
  dsimp only
  split
  · exact h
  · split
    · exact State.memOk_writeNat h _ _ _
    · exact h

/-- A walk sets A and D in memory, and fills the caches of translations. -/
theorem State.translateWalk_spec (s : State) (c : XCtx) (acc : Acc) (va : Nat) :
    State.SameButXlat s (s.translateWalk c acc va).2 ∧ (s.MemOk → (s.translateWalk c acc va).2.MemOk) := by
  unfold State.translateWalk
  split
  · exact ⟨rfl, id⟩
  · exact ⟨rfl, id⟩
  · exact ⟨rfl, id⟩
  · rename_i l0 path _
    have h0 : State.SameButXlat s (s.keepWalk c va path) ∧ (s.MemOk → (s.keepWalk c va path).MemOk) := ⟨rfl, id⟩
    generalize s.keepWalk c va path = s₀ at h0 ⊢
    have kept : ∀ (l : Leaf) (z : BitVec 2) (o : Loc) (r w x : Bool),
        State.SameButXlat s ((s₀.setAD c.world l acc.writes).keepXlat c acc va l z o r w x) ∧
        (s.MemOk → ((s₀.setAD c.world l acc.writes).keepXlat c acc va l z o r w x).MemOk) := fun l z o r w x =>
      have k := State.keepXlat_spec (s₀.setAD c.world l acc.writes) c acc va l z o r w x
      ⟨h0.1.trans ((State.sameButMem_setAD s₀ c.world l acc.writes).xlat.trans k.1),
        fun h => k.2 (State.memOk_setAD (h0.2 h) c.world l acc.writes)⟩
    dsimp only
    split
    · exact h0
    · split
      · exact h0
      · split
        · split
          · exact kept _ _ _ _ _ _
          · exact h0
        · split
          · exact h0
          · exact h0
          · exact kept _ _ _ _ _ _

/-- A translation changes memory (A and D) and the caches of translations, and nothing else; memory keeps its form. -/
theorem State.translate_spec (s : State) (c : XCtx) (acc : Acc) (va : W64) :
    State.SameButXlat s (s.translate c acc va).2 ∧ (s.MemOk → (s.translate c acc va).2.MemOk) := by
  have w := State.translateWalk_spec s c acc va.toNat
  unfold State.translate
  dsimp only
  split
  · exact ⟨rfl, id⟩
  · split
    · split
      · exact ⟨w.1.trans rfl, w.2⟩
      · split
        · exact ⟨State.sameButXlat_loadLastPage _ _ _ _, fun h => State.memOk_loadLastPage h _ _ _⟩
        · exact w
    · exact w

/-- So does the translation of a run. -/
theorem State.translateRun_spec (s : State) (c : XCtx) (acc : Acc) (va : W64) (n : Nat) (done : List Loc) :
    State.SameButXlat s (s.translateRun c acc va n done).2 ∧ (s.MemOk → (s.translateRun c acc va n done).2.MemOk) := by
  induction n generalizing s done with
  | zero => exact ⟨rfl, id⟩
  | succ n ih =>
    have go : ∀ (l : List Loc), (∀ l', State.SameButXlat s (s.translateRun c acc va n l').2 ∧
        (s.MemOk → (s.translateRun c acc va n l').2.MemOk)) := fun _ l' => ih s l'
    have tr : ∀ (a : W64) (i : Nat) (f : Loc → List Loc),
        State.SameButXlat s (match s.translate c acc a with
          | (.ok l, s) => s.translateRun c acc va n (f l)
          | (x, s) => (.inr (x, i), s)).2 ∧
        (s.MemOk → (match s.translate c acc a with
          | (.ok l, s) => s.translateRun c acc va n (f l)
          | (x, s) => (.inr (x, i), s)).2.MemOk) := by
      intro a i f
      have h := State.translate_spec s c acc a
      cases e : s.translate c acc a with
      | mk r s₁ =>
        rw [e] at h
        cases r with
        | ok l => exact ⟨h.1.trans (ih s₁ _).1, fun k => (ih s₁ _).2 (h.2 k)⟩
        | _ => exact h
    unfold State.translateRun
    dsimp only
    split
    · split
      · exact go [] _
      · exact tr _ _ _
    · exact tr _ _ _

end Sys2Proof.Machine
end

