-- ==== Sys2Proof/Laws/PerInstr.lean ====
section
/-! SUPPORT. For each instruction as syntax: it has a word exactly where it has scheduling fields and operands, so that every
instruction which passes the checks of R47 has a word, and no step of an engine, the host or the platform has one. -/

namespace Sys2Proof.Laws.Encodes

/-- The instruction has a word exactly where it has the fields that every word has (R35). -/
def Statement (i : Instr) : Prop := (encode i).isSome = i.common.isSome

theorem nop : ∀ a, Statement (.nop a) := fun _ => rfl
theorem mov : ∀ a, Statement (.mov a) := fun _ => rfl
theorem movi : ∀ a, Statement (.movi a) := fun _ => rfl
theorem sel : ∀ a, Statement (.sel a) := fun _ => rfl
theorem add : ∀ a, Statement (.add a) := fun _ => rfl
theorem sub : ∀ a, Statement (.sub a) := fun _ => rfl
theorem mul : ∀ a, Statement (.mul a) := fun _ => rfl
theorem mulh : ∀ a, Statement (.mulh a) := fun _ => rfl
theorem mad : ∀ a, Statement (.mad a) := fun _ => rfl
theorem addc : ∀ a, Statement (.addc a) := fun _ => rfl
theorem subb : ∀ a, Statement (.subb a) := fun _ => rfl
theorem min : ∀ a, Statement (.min a) := fun _ => rfl
theorem max : ∀ a, Statement (.max a) := fun _ => rfl
theorem abs : ∀ a, Statement (.abs a) := fun _ => rfl
theorem neg : ∀ a, Statement (.neg a) := fun _ => rfl
theorem sadd : ∀ a, Statement (.sadd a) := fun _ => rfl
theorem ssub : ∀ a, Statement (.ssub a) := fun _ => rfl
theorem and : ∀ a, Statement (.and a) := fun _ => rfl
theorem or : ∀ a, Statement (.or a) := fun _ => rfl
theorem xor : ∀ a, Statement (.xor a) := fun _ => rfl
theorem not : ∀ a, Statement (.not a) := fun _ => rfl
theorem andn : ∀ a, Statement (.andn a) := fun _ => rfl
theorem shl : ∀ a, Statement (.shl a) := fun _ => rfl
theorem shr : ∀ a, Statement (.shr a) := fun _ => rfl
theorem sar : ∀ a, Statement (.sar a) := fun _ => rfl
theorem rot : ∀ a, Statement (.rot a) := fun _ => rfl
theorem popc : ∀ a, Statement (.popc a) := fun _ => rfl
theorem clz : ∀ a, Statement (.clz a) := fun _ => rfl
theorem brev : ∀ a, Statement (.brev a) := fun _ => rfl
theorem bfx : ∀ a, Statement (.bfx a) := fun _ => rfl
theorem bfi : ∀ a, Statement (.bfi a) := fun _ => rfl
theorem cmp : ∀ a, Statement (.cmp a) := fun _ => rfl
theorem plog : ∀ a, Statement (.plog a) := fun _ => rfl
theorem addr : ∀ a, Statement (.addr a) := fun _ => rfl
theorem pack : ∀ a, Statement (.pack a) := fun _ => rfl
theorem unpack : ∀ a, Statement (.unpack a) := fun _ => rfl
theorem fadd : ∀ a, Statement (.fadd a) := fun _ => rfl
theorem fsub : ∀ a, Statement (.fsub a) := fun _ => rfl
theorem fmul : ∀ a, Statement (.fmul a) := fun _ => rfl
theorem fma : ∀ a, Statement (.fma a) := fun _ => rfl
theorem fmin : ∀ a, Statement (.fmin a) := fun _ => rfl
theorem fmax : ∀ a, Statement (.fmax a) := fun _ => rfl
theorem fcmp : ∀ a, Statement (.fcmp a) := fun _ => rfl
theorem frcp : ∀ a, Statement (.frcp a) := fun _ => rfl
theorem frsq : ∀ a, Statement (.frsq a) := fun _ => rfl
theorem fsqrt : ∀ a, Statement (.fsqrt a) := fun _ => rfl
theorem fdiv : ∀ a, Statement (.fdiv a) := fun _ => rfl
theorem fexp2 : ∀ a, Statement (.fexp2 a) := fun _ => rfl
theorem flog2 : ∀ a, Statement (.flog2 a) := fun _ => rfl
theorem fsin : ∀ a, Statement (.fsin a) := fun _ => rfl
theorem fcos : ∀ a, Statement (.fcos a) := fun _ => rfl
theorem ftanh : ∀ a, Statement (.ftanh a) := fun _ => rfl
theorem fclass : ∀ a, Statement (.fclass a) := fun _ => rfl
theorem frnd : ∀ a, Statement (.frnd a) := fun _ => rfl
theorem cvt : ∀ a, Statement (.cvt a) := fun _ => rfl
theorem fscale : ∀ a, Statement (.fscale a) := fun _ => rfl
theorem shfl : ∀ a, Statement (.shfl a) := fun _ => rfl
theorem vote : ∀ a, Statement (.vote a) := fun _ => rfl
theorem gred : ∀ a, Statement (.gred a) := fun _ => rfl
theorem gscan : ∀ a, Statement (.gscan a) := fun _ => rfl
theorem gets : ∀ a, Statement (.gets a) := fun _ => rfl
theorem sets : ∀ a, Statement (.sets a) := fun _ => rfl
theorem kmov : ∀ a, Statement (.kmov a) := fun _ => rfl
theorem matchLanes : ∀ a, Statement (.matchLanes a) := fun _ => rfl
theorem rdclk : ∀ a, Statement (.rdclk a) := fun _ => rfl
theorem elect : ∀ a, Statement (.elect a) := fun _ => rfl
theorem ld : ∀ a, Statement (.ld a) := fun _ => rfl
theorem st : ∀ a, Statement (.st a) := fun _ => rfl
theorem ldk : ∀ a, Statement (.ldk a) := fun _ => rfl
theorem atom : ∀ a, Statement (.atom a) := fun _ => rfl
theorem atomr : ∀ a, Statement (.atomr a) := fun _ => rfl
theorem cas : ∀ a, Statement (.cas a) := fun _ => rfl
theorem fence : ∀ a, Statement (.fence a) := fun _ => rfl
theorem pref : ∀ a, Statement (.pref a) := fun _ => rfl
theorem spill : ∀ a, Statement (.spill a) := fun _ => rfl
theorem fill : ∀ a, Statement (.fill a) := fun _ => rfl
theorem salloc : ∀ a, Statement (.salloc a) := fun _ => rfl
theorem cmo : ∀ a, Statement (.cmo a) := fun _ => rfl
theorem prep : ∀ a, Statement (.prep a) := fun _ => rfl
theorem prepv : ∀ a, Statement (.prepv a) := fun _ => rfl
theorem xfer : ∀ a, Statement (.xfer a) := fun _ => rfl
theorem xferShed : ∀ a, Statement (.xferShed a) := fun _ => rfl
theorem xcall : ∀ a, Statement (.xcall a) := fun _ => rfl
theorem ret : ∀ a, Statement (.ret a) := fun _ => rfl
theorem cset : ∀ a, Statement (.cset a) := fun _ => rfl
theorem sign : ∀ a, Statement (.sign a) := fun _ => rfl
theorem join : ∀ a, Statement (.join a) := fun _ => rfl
theorem exit : ∀ a, Statement (.exit a) := fun _ => rfl
theorem trap : ∀ a, Statement (.trap a) := fun _ => rfl
theorem brk : ∀ a, Statement (.brk a) := fun _ => rfl
theorem yield : ∀ a, Statement (.yield a) := fun _ => rfl
theorem sethdl : ∀ a, Statement (.sethdl a) := fun _ => rfl
theorem hret : ∀ a, Statement (.hret a) := fun _ => rfl
theorem icinv : ∀ a, Statement (.icinv a) := fun _ => rfl
theorem wmclr : ∀ a, Statement (.wmclr a) := fun _ => rfl
theorem sleep : ∀ a, Statement (.sleep a) := fun _ => rfl
theorem talloc : ∀ a, Statement (.talloc a) := fun _ => rfl
theorem tfree : ∀ a, Statement (.tfree a) := fun _ => rfl
theorem tld : ∀ a, Statement (.tld a) := fun _ => rfl
theorem tst : ∀ a, Statement (.tst a) := fun _ => rfl
theorem tfill : ∀ a, Statement (.tfill a) := fun _ => rfl
theorem tinfo : ∀ a, Statement (.tinfo a) := fun _ => rfl
theorem tbind : ∀ a, Statement (.tbind a) := fun _ => rfl
theorem cpy : ∀ a, Statement (.cpy a) := fun _ => rfl
theorem cpys : ∀ a, Statement (.cpys a) := fun _ => rfl
theorem cpym : ∀ a, Statement (.cpym a) := fun _ => rfl
theorem cpya : ∀ a, Statement (.cpya a) := fun _ => rfl
theorem cpyx : ∀ a, Statement (.cpyx a) := fun _ => rfl
theorem mile : ∀ a, Statement (.mile a) := fun _ => rfl
theorem mileFault : ∀ a, Statement (.mileFault a) := fun _ => rfl
theorem binit : ∀ a, Statement (.binit a) := fun _ => rfl
theorem barr : ∀ a, Statement (.barr a) := fun _ => rfl
theorem bexp : ∀ a, Statement (.bexp a) := fun _ => rfl
theorem bwait : ∀ a, Statement (.bwait a) := fun _ => rfl
theorem btest : ∀ a, Statement (.btest a) := fun _ => rfl
theorem mma : ∀ a, Statement (.mma a) := fun _ => rfl
theorem tmma : ∀ a, Statement (.tmma a) := fun _ => rfl
theorem tmmac : ∀ a, Statement (.tmmac a) := fun _ => rfl
theorem mfin : ∀ a, Statement (.mfin a) := fun _ => rfl
theorem fcvti : ∀ a, Statement (.fcvti a) := fun _ => rfl
theorem fcvto : ∀ a, Statement (.fcvto a) := fun _ => rfl
theorem fqnt : ∀ a, Statement (.fqnt a) := fun _ => rfl
theorem fdqnt : ∀ a, Statement (.fdqnt a) := fun _ => rfl
theorem fload : ∀ a, Statement (.fload a) := fun _ => rfl
theorem floadClr : ∀ a, Statement (.floadClr a) := fun _ => rfl
theorem fstat : ∀ a, Statement (.fstat a) := fun _ => rfl
theorem fstatHash : ∀ a, Statement (.fstatHash a) := fun _ => rfl
theorem fsync : ∀ a, Statement (.fsync a) := fun _ => rfl
theorem fmode : ∀ a, Statement (.fmode a) := fun _ => rfl
theorem spawn : ∀ a, Statement (.spawn a) := fun _ => rfl
theorem wput : ∀ a, Statement (.wput a) := fun _ => rfl
theorem wtake : ∀ a, Statement (.wtake a) := fun _ => rfl
theorem qidle : ∀ a, Statement (.qidle a) := fun _ => rfl
theorem qtest : ∀ a, Statement (.qtest a) := fun _ => rfl
theorem launch : ∀ a, Statement (.launch a) := fun _ => rfl
theorem lwait : ∀ a, Statement (.lwait a) := fun _ => rfl
theorem tlbiVa : ∀ a, Statement (.tlbiVa a) := fun _ => rfl
theorem tlbiRange : ∀ a, Statement (.tlbiRange a) := fun _ => rfl
theorem tlbiDom : ∀ a, Statement (.tlbiDom a) := fun _ => rfl
theorem tlbiWorld : ∀ a, Statement (.tlbiWorld a) := fun _ => rfl
theorem xlate : ∀ a, Statement (.xlate a) := fun _ => rfl
theorem gate : ∀ a, Statement (.gate a) := fun _ => rfl
theorem gret : ∀ a, Statement (.gret a) := fun _ => rfl
theorem tktTurn : ∀ a, Statement (.tktTurn a) := fun _ => rfl
theorem tktLap : ∀ a, Statement (.tktLap a) := fun _ => rfl
theorem ordmark : ∀ a, Statement (.ordmark a) := fun _ => rfl
theorem hashrd : ∀ a, Statement (.hashrd a) := fun _ => rfl
theorem psaved : ∀ a, Statement (.psaved a) := fun _ => rfl
theorem rput : ∀ a, Statement (.rput a) := fun _ => rfl
theorem rget : ∀ a, Statement (.rget a) := fun _ => rfl
theorem cred : ∀ a, Statement (.cred a) := fun _ => rfl
theorem credb : ∀ a, Statement (.credb a) := fun _ => rfl
theorem fbar : ∀ a, Statement (.fbar a) := fun _ => rfl
theorem fbwait : ∀ a, Statement (.fbwait a) := fun _ => rfl
theorem fevt : ∀ a, Statement (.fevt a) := fun _ => rfl
theorem trapDelivery : ∀ a, Statement (.trapDelivery a) := fun _ => rfl
theorem memoryAccessComplete : ∀ a, Statement (.memoryAccessComplete a) := fun _ => rfl
theorem writeBufferDrain : ∀ a, Statement (.writeBufferDrain a) := fun _ => rfl
theorem recallComplete : ∀ a, Statement (.recallComplete a) := fun _ => rfl
theorem stackWindowTransfer : ∀ a b c, Statement (.stackWindowTransfer a b c) := fun _ _ _ => rfl
theorem returnStackTransfer : ∀ a b, Statement (.returnStackTransfer a b) := fun _ _ => rfl
theorem waymarkPrefetchDone : ∀ a b, Statement (.waymarkPrefetchDone a b) := fun _ _ => rfl
theorem sleepExpiry : ∀ a, Statement (.sleepExpiry a) := fun _ => rfl
theorem convergenceDeadlock : ∀ a, Statement (.convergenceDeadlock a) := fun _ => rfl
theorem tallocGrant : ∀ a, Statement (.tallocGrant a) := fun _ => rfl
theorem tileDeadlock : ∀ a, Statement (.tileDeadlock a) := fun _ => rfl
theorem tileRelease : ∀ a, Statement (.tileRelease a) := fun _ => rfl
theorem tileOpComplete : ∀ a, Statement (.tileOpComplete a) := fun _ => rfl
theorem copyDeliveryUnit : ∀ a, Statement (.copyDeliveryUnit a) := fun _ => rfl
theorem copyComplete : ∀ a, Statement (.copyComplete a) := fun _ => rfl
theorem copyFault : ∀ a, Statement (.copyFault a) := fun _ => rfl
theorem cpymGather : ∀ a, Statement (.cpymGather a) := fun _ => rfl
theorem mmaTeamComplete : ∀ a, Statement (.mmaTeamComplete a) := fun _ => rfl
theorem tmmaComplete : ∀ a, Statement (.tmmaComplete a) := fun _ => rfl
theorem tmmacRendezvous : ∀ a, Statement (.tmmacRendezvous a) := fun _ => rfl
theorem tmmacComplete : ∀ a, Statement (.tmmacComplete a) := fun _ => rfl
theorem formatOpComplete : ∀ a, Statement (.formatOpComplete a) := fun _ => rfl
theorem imageVerifyDone : ∀ a, Statement (.imageVerifyDone a) := fun _ => rfl
theorem slotDrainDone : ∀ a b, Statement (.slotDrainDone a b) := fun _ _ => rfl
theorem slotReconfigDone : ∀ a b, Statement (.slotReconfigDone a b) := fun _ _ => rfl
theorem slotReload : ∀ a b, Statement (.slotReload a b) := fun _ _ => rfl
theorem laybyTimerExpiry : ∀ a b, Statement (.laybyTimerExpiry a b) := fun _ _ => rfl
theorem formedGroupStart : ∀ a b, Statement (.formedGroupStart a b) := fun _ _ => rfl
theorem spawnPlacement : ∀ a, Statement (.spawnPlacement a) := fun _ => rfl
theorem quiescenceClose : ∀ a, Statement (.quiescenceClose a) := fun _ => rfl
theorem dispatchLaunch : ∀ a b, Statement (.dispatchLaunch a b) := fun _ _ => rfl
theorem dependenceMet : ∀ a b, Statement (.dependenceMet a b) := fun _ _ => rfl
theorem teamResidence : ∀ a b, Statement (.teamResidence a b) := fun _ _ => rfl
theorem launchEnd : ∀ a, Statement (.launchEnd a) := fun _ => rfl
theorem contextSave : ∀ a, Statement (.contextSave a) := fun _ => rfl
theorem contextRestore : ∀ a b c, Statement (.contextRestore a b c) := fun _ _ _ => rfl
theorem quantumExpiry : ∀ a, Statement (.quantumExpiry a) := fun _ => rfl
theorem worldSwitch : ∀ a, Statement (.worldSwitch a) := fun _ => rfl
theorem timeCapReached : ∀ a, Statement (.timeCapReached a) := fun _ => rfl
theorem periodStart : ∀ a, Statement (.periodStart a) := fun _ => rfl
theorem quietPointSave : ∀ a, Statement (.quietPointSave a) := fun _ => rfl
theorem g1Expiry : ∀ a, Statement (.g1Expiry a) := fun _ => rfl
theorem g2Expiry : ∀ a, Statement (.g2Expiry a) := fun _ => rfl
theorem ladderLapse : ∀ a, Statement (.ladderLapse a) := fun _ => rfl
theorem faultSwap : ∀ a, Statement (.faultSwap a) := fun _ => rfl
theorem faultRecordWrite : ∀ a, Statement (.faultRecordWrite a) := fun _ => rfl
theorem dbmSwapDone : ∀ a, Statement (.dbmSwapDone a) := fun _ => rfl
theorem pullTimeout : ∀ a b, Statement (.pullTimeout a b) := fun _ _ => rfl
theorem gateSlotRelease : ∀ a b, Statement (.gateSlotRelease a b) := fun _ _ => rfl
theorem turnStart : ∀ a, Statement (.turnStart a) := fun _ => rfl
theorem replayHoldTimeout : ∀ a, Statement (.replayHoldTimeout a) := fun _ => rfl
theorem tollgatePass : ∀ a, Statement (.tollgatePass a) := fun _ => rfl
theorem flitWrite : ∀ a, Statement (.flitWrite a) := fun _ => rfl
theorem flitReadRequest : ∀ a, Statement (.flitReadRequest a) := fun _ => rfl
theorem flitReadData : ∀ a, Statement (.flitReadData a) := fun _ => rfl
theorem flitRmwRequest : ∀ a, Statement (.flitRmwRequest a) := fun _ => rfl
theorem flitRmwResult : ∀ a, Statement (.flitRmwResult a) := fun _ => rfl
theorem flitAcknowledgement : ∀ a, Statement (.flitAcknowledgement a) := fun _ => rfl
theorem flitContribution : ∀ a, Statement (.flitContribution a) := fun _ => rfl
theorem flitRelease : ∀ a, Statement (.flitRelease a) := fun _ => rfl
theorem remoteTimeout : ∀ a, Statement (.remoteTimeout a) := fun _ => rfl
theorem stage2Event : ∀ a, Statement (.stage2Event a) := fun _ => rfl
theorem firmwareVerifyDone : Statement .firmwareVerifyDone := rfl
theorem ethernetFrameSent : ∀ a, Statement (.ethernetFrameSent a) := fun _ => rfl
theorem instructionFetchDone : ∀ a, Statement (.instructionFetchDone a) := fun _ => rfl
theorem translationOpComplete : ∀ a, Statement (.translationOpComplete a) := fun _ => rfl
theorem gateCallComplete : ∀ a b, Statement (.gateCallComplete a b) := fun _ _ => rfl
theorem spawnEngineComplete : ∀ a, Statement (.spawnEngineComplete a) := fun _ => rfl
theorem fabricBarrierArrival : ∀ a, Statement (.fabricBarrierArrival a) := fun _ => rfl
theorem barrierUpdateComplete : ∀ a, Statement (.barrierUpdateComplete a) := fun _ => rfl
theorem qtailDoorbell : ∀ a b c, Statement (.qtailDoorbell a b c) := fun _ _ _ => rfl
theorem notify : ∀ a b, Statement (.notify a b) := fun _ _ => rfl
theorem priResponse : ∀ a b, Statement (.priResponse a b) := fun _ _ => rfl
theorem atsInvalidation : ∀ a b c, Statement (.atsInvalidation a b c) := fun _ _ _ => rfl
theorem dbmctlSwap : ∀ a b, Statement (.dbmctlSwap a b) := fun _ _ => rfl
theorem pullComplete : ∀ a b c, Statement (.pullComplete a b c) := fun _ _ _ => rfl
theorem flitRetransmit : ∀ a, Statement (.flitRetransmit a) := fun _ => rfl
theorem barrierBroken : ∀ a b c, Statement (.barrierBroken a b c) := fun _ _ _ => rfl
theorem fbcfgBrkClear : ∀ a b c, Statement (.fbcfgBrkClear a b c) := fun _ _ _ => rfl
theorem fbcfgOvrClear : ∀ a b c, Statement (.fbcfgOvrClear a b c) := fun _ _ _ => rfl
theorem pmcntOvfClear : ∀ a b, Statement (.pmcntOvfClear a b) := fun _ _ => rfl
theorem registerWrite : ∀ a b c, Statement (.registerWrite a b c) := fun _ _ _ => rfl
theorem krtailDoorbell : ∀ a b, Statement (.krtailDoorbell a b) := fun _ _ => rfl
theorem krsynctCheck : ∀ a b, Statement (.krsynctCheck a b) := fun _ _ => rfl
theorem bind : ∀ a b, Statement (.bind a b) := fun _ _ => rfl
theorem unbind : ∀ a, Statement (.unbind a) := fun _ => rfl
theorem s2map : ∀ a b c d e f g h i, Statement (.s2map a b c d e f g h i) := fun _ _ _ _ _ _ _ _ _ => rfl
theorem s2unmap : ∀ a b c, Statement (.s2unmap a b c) := fun _ _ _ => rfl
theorem s2refuse : ∀ a b c, Statement (.s2refuse a b c) := fun _ _ _ => rfl
theorem tdef : ∀ a b c d, Statement (.tdef a b c d) := fun _ _ _ _ => rfl
theorem trekey : ∀ a b, Statement (.trekey a b) := fun _ _ => rfl
theorem tretire : ∀ a b, Statement (.tretire a b) := fun _ _ => rfl
theorem keyreg : ∀ a b c, Statement (.keyreg a b c) := fun _ _ _ => rfl
theorem keydrop : ∀ a b, Statement (.keydrop a b) := fun _ _ => rfl
theorem imgput : ∀ a b, Statement (.imgput a b) := fun _ _ => rfl
theorem fkeyLoad : ∀ a b c, Statement (.fkeyLoad a b c) := fun _ _ _ => rfl
theorem fkeySend : ∀ a b, Statement (.fkeySend a b) := fun _ _ => rfl
theorem preempt : ∀ a b c, Statement (.preempt a b c) := fun _ _ _ => rfl
theorem wexport : ∀ a b c, Statement (.wexport a b c) := fun _ _ _ => rfl
theorem wimport : ∀ a b, Statement (.wimport a b) := fun _ _ => rfl
theorem pullset : ∀ a b c d, Statement (.pullset a b c d) := fun _ _ _ _ => rfl
theorem partset : ∀ a b, Statement (.partset a b) := fun _ _ => rfl
theorem span : ∀ a b c d, Statement (.span a b c d) := fun _ _ _ _ => rfl
theorem fenceCoreOrPage : ∀ a b c, Statement (.fenceCoreOrPage a b c) := fun _ _ _ => rfl
theorem lockInterfaceRequest : ∀ a, Statement (.lockInterfaceRequest a) := fun _ => rfl
theorem startInterfaceRequest : ∀ a b, Statement (.startInterfaceRequest a b) := fun _ _ => rfl
theorem stopInterfaceRequest : ∀ a, Statement (.stopInterfaceRequest a) := fun _ => rfl
theorem tdispError : ∀ a, Statement (.tdispError a) := fun _ => rfl
theorem spdmSessionEstablish : ∀ a b, Statement (.spdmSessionEstablish a b) := fun _ _ => rfl
theorem keyUpdate : ∀ a, Statement (.keyUpdate a) := fun _ => rfl
theorem getMeasurements : ∀ a, Statement (.getMeasurements a) := fun _ => rfl
theorem perstRelease : Statement .perstRelease := rfl
theorem powerLoss : Statement .powerLoss := rfl
theorem thermalTrip : Statement .thermalTrip := rfl
theorem fclkAdjust : ∀ a, Statement (.fclkAdjust a) := fun _ => rfl
theorem eccError : ∀ a b c, Statement (.eccError a b c) := fun _ _ _ => rfl
theorem patrolScrub : ∀ a, Statement (.patrolScrub a) := fun _ => rfl
theorem mgfwcmdGo : Statement .mgfwcmdGo := rfl
theorem hostLinkDown : Statement .hostLinkDown := rfl
theorem ettxtDoorbell : ∀ a b, Statement (.ettxtDoorbell a b) := fun _ _ => rfl
theorem etrxtDoorbell : ∀ a b, Statement (.etrxtDoorbell a b) := fun _ _ => rfl
theorem ethernetFrameReceived : ∀ a b c, Statement (.ethernetFrameReceived a b c) := fun _ _ _ => rfl
theorem hostLinkRetrain : Statement .hostLinkRetrain := rfl
theorem perstAssert : Statement .perstAssert := rfl
theorem keheadWrite : ∀ a, Statement (.keheadWrite a) := fun _ => rfl

end Sys2Proof.Laws.Encodes

namespace Sys2Proof

/-- A well-formed instruction has a word. -/
theorem encode_isSome {i : Instr} (s : Laws.Encodes.Statement i) (h : i.WellFormed) : (encode i).isSome = true := by
  rw [s]
  unfold Instr.WellFormed Instr.illegal at h
  split at h
  · rename_i e
    rw [e]; rfl
  · cases h

end Sys2Proof
end

