-- ==== Sys2Proof/Tests/Slice0.lean ====
section
/-! SUPPORT. Tests: ill-formed terms, words of the specification, single steps on small states, and for each statement
with hypotheses a state that meets them. -/

namespace Sys2Proof.Tests

open Sys2Proof Sys2Proof.Machine

set_option Elab.async false

/-! ### Small states -/

def t0 : TRef := ⟨1, 0, 0⟩

/-- A thread at lane l of the only group of team 1, with its data stack from 0x1800 to 0x2000. -/
def lane (l : Nat) : Thread :=
  { Thread.init ⟨1, 0, l⟩ 0x1000 with base := 0x2000, sp := 0x2000, stklim := 0x1800, retbase := 0x2000, retlim := 0x2080 }

/-- A team of one group with the given threads, all of them in the issue; its launch is number 2. -/
def small (ts : List Thread) : State :=
  { State.reset with
    ids := 10
    issue := ⟨0, 0, ts.map (·.id), 9⟩
    threads := ts
    groups := [Group.init 1 0 0 false 1024 0]
    teams := [{ Team.absent with id := 1, launch := 2, teamdim := 0x100010001, griddim := 0x1000100000001,
                                 cregs := List.replicate 16 (CReg.init 1) }]
    launches := [{ id := 2, world := 0, queue := 0, ticket := 0, state := .running, record := 0, kd := 0, args := [],
                   taken := true, next := 1, deps := [], forms := 0, status := 0, reason := 0, started := 0, g1 := none,
                   g2 := none, cause := 0, fault := none, fatal := none, restore := 0 }] }

def one : State := small [lane 0]

/-- The checks of `State.Passes` as a Boolean. -/
def passes (s : State) (t : TRef) (i : Instr) (c : Common) : Bool :=
  s.issue.threads.contains t && decide s.issue.threads.Nodup && s.threads.any (fun x => x.id = t) && s.guard t c.ctl &&
    s.slicesOk t i && (s.thread t).trap.isNone && codeCanonical ((s.thread t).pc + 16)

theorem passes_of {s : State} {t : TRef} {i : Instr} {c : Common} (h : passes s t i c = true) : s.Passes t i c := by
  simp only [passes, Bool.and_eq_true, List.contains_iff_mem, decide_eq_true_eq, List.any_eq_true, Option.isNone_iff_eq_none] at h
  obtain ⟨⟨⟨⟨⟨⟨a, b⟩, c⟩, d⟩, e⟩, f⟩, g⟩ := h
  exact ⟨⟨a, b, c, d, e, f⟩, g⟩

theorem alone_of {s : State} {t : TRef} {i : Instr} {c : Common} (h : passes s t i c = true) (a : s.issue.threads = [t]) :
    s.Alone t i c := ⟨passes_of h, a⟩


/-! ### Lane instructions -/

/-- A word of the lane class with plain scheduling fields. -/
def lf (ty : Ty) (d : Dst) (a b : Opnd) (c : Opnd := .zero) : LaneF := ⟨⟨Ctl.plain, ty, d, a, b, c⟩, 0, 0, 0, false, 0, 0, 0, .rne⟩

def s32d : Dst := ⟨.w32, 40⟩
def s0 : Opnd := .slice .w32 0
def s8 : Opnd := .slice .w32 8
def s16 : Opnd := .slice .w64 16

/-- A thread with two values in s0:32 and s8:32. -/
def with2 (a b : Nat) : State := small [{ lane 0 with slices := BitVec.ofNat 4096 (a + b * 2 ^ 32) }]

def intF : LaneF := lf .s32 s32d s0 s8
def fltF : LaneF := lf .f32 s32d s0 s8

theorem witness_IntegerArithmetic : intF.ty.isInt = true ∧
    (∀ e ∈ intSpec, (with2 0x7FFFFFFF 1).Passes t0 (e.1 intF) intF.toCommon) ∧
    ∀ e ∈ bitSpec, (with2 0x7FFFFFFF 31).Passes t0 (e.1 intF) intF.toCommon :=
  have h : ∀ e ∈ intSpec, passes (with2 0x7FFFFFFF 1) t0 (e.1 intF) intF.toCommon = true := by decide +kernel
  have g : ∀ e ∈ bitSpec, passes (with2 0x7FFFFFFF 31) t0 (e.1 intF) intF.toCommon = true := by decide +kernel
  ⟨rfl, fun e m => passes_of (h e m), fun e m => passes_of (g e m)⟩

theorem witness_MovesAndFields : intF.ty ≠ .slot ∧ one.Passes t0 (.nop intF) intF.toCommon ∧ one.Passes t0 (.mov intF) intF.toCommon ∧
    one.Passes t0 (.sel intF) intF.toCommon ∧ one.Passes t0 (.movi ⟨intF.toCommon, 5⟩) intF.toCommon ∧
    one.Passes t0 (.addr intF) intF.toCommon ∧ one.Passes t0 (.bfx intF) intF.toCommon ∧ one.Passes t0 (.bfi intF) intF.toCommon ∧
    one.Passes t0 (.pack intF) intF.toCommon ∧ one.Passes t0 (.unpack intF) intF.toCommon ∧
    intF.aux1.toNat + intF.aux2.toNat + 1 ≤ intF.ty.bits :=
  ⟨by decide, passes_of (by decide +kernel), passes_of (by decide +kernel), passes_of (by decide +kernel),
   passes_of (by decide +kernel), passes_of (by decide +kernel), passes_of (by decide +kernel), passes_of (by decide +kernel),
   passes_of (by decide +kernel), passes_of (by decide +kernel), by decide⟩

theorem witness_PredicateResults : ∀ i ∈ [Instr.addc intF, .subb intF, .cmp intF, .plog intF],
    (with2 5 6).Passes t0 i intF.toCommon :=
  have h : ∀ i ∈ [Instr.addc intF, .subb intF, .cmp intF, .plog intF], passes (with2 5 6) t0 i intF.toCommon = true := by
    decide +kernel
  fun i m => passes_of (h i m)

/-- 1.0 and 2.0 in f32. -/
def floats : State := with2 0x3F800000 0x40000000

/-- The same thread with every trap enable set. -/
def trapping : State := small [{ lane 0 with slices := BitVec.ofNat 4096 (0x3F800000 + 0x7FA00000 * 2 ^ 32), fpflags := 0x3F00 }]

theorem witness_FloatingArithmetic : fltF.ty.isFloat = true ∧
    (∀ e ∈ floatSpec, floats.Passes t0 (e.1 fltF) fltF.toCommon) ∧
    (∀ e ∈ floatSpec, (floats.thread t0).traps (floats.floatResult t0 fltF e).2 = false) ∧
    trapping.Runs t0 (.fadd fltF) fltF.toCommon ∧
    ∃ e ∈ floatSpec, (e.1 fltF) = .fadd fltF ∧ (trapping.thread t0).traps (trapping.floatResult t0 fltF e).2 = true :=
  have h : ∀ e ∈ floatSpec, passes floats t0 (e.1 fltF) fltF.toCommon = true := by decide +kernel
  ⟨rfl, fun e m => passes_of (h e m), by decide +kernel, (passes_of (by decide +kernel)).toRuns, by decide +kernel⟩


theorem witness_FloatingSelections :
    let f : LaneF := { fltF with pd := 1, ps := 7 }
    let g : LaneF := { lf .s16 s32d s0 s8 with subop := 12 }
    f.ty.isFloat = true ∧ (∀ i ∈ [Instr.fmin f, .fmax f, .fcmp f, .fscale f], floats.Passes t0 i f.toCommon) ∧
      floats.Passes t0 (.cvt g) g.toCommon ∧ g.ty.isInt = true ∧ (cvtFrom g).isFloat = true ∧
      (floats.thread t0).traps 0 = false :=
  have h : ∀ i ∈ [Instr.fmin { fltF with pd := 1, ps := 7 }, .fmax { fltF with pd := 1, ps := 7 },
      .fcmp { fltF with pd := 1, ps := 7 }, .fscale { fltF with pd := 1, ps := 7 }], passes floats t0 i fltF.toCommon = true := by
    decide +kernel
  ⟨rfl, fun i m => passes_of (h i m), passes_of (by decide +kernel), by decide, by decide, by decide +kernel⟩

theorem witness_RoundingIsExact : fmtB16 ∈ [fmtF16, fmtB16, fmtF32, fmtF64] ∧ 0x0001 < 2 ^ fmtB16.width ∧
    (fmtB16.decode 0x0001).isNan = false := by decide +kernel

/-- The sheet of an 8-bit format with four exponent and three fraction bits and no infinities (R266). -/
def sheet8 : List Byte :=
  toBytes (8 * 2 ^ 8 + 2 * 2 ^ 16 + 4 * 2 ^ 24 + 3 * 2 ^ 32 + 7 * 2 ^ 40 + 2 ^ 56 + 2 * 2 ^ 64 + 15 * 2 ^ 72 + 3 * 2 ^ 88 +
    8 * 2 ^ 104 + 0x1F * 2 ^ 112) 128

/-- A state whose slot 0 holds that sheet. -/
def withSlot (s : State) : State := { s with slots := [⟨0, 0, .stable, sheet8, 0, 0, false, 1, 0⟩] }

def d8 : Dst := ⟨.w8, 40⟩
def a8 : Opnd := .slice .w8 0
def b8 : Opnd := .slice .w8 8
def slotF : LaneF := { lf .slot d8 a8 b8 with pd := 1 }

theorem witness_SlotArithmetic :
    let s := withSlot (with2 0x38 0x40)
    let sl := s.slot (s.worldOf t0) slotF.slot
    slotF.ty = .slot ∧ sl.none? = false ∧ slotF.d.w = slotWd sl.form.ew ∧ slotOpndOk sl.form.ew a8 = true ∧
      slotOpndOk sl.form.ew b8 = true ∧ bit sl.form.lanes 4 = true ∧ bit sl.form.lanes SlotOp.add.bit = true ∧
      sl.form.offers (sl.effRm slotF.rm) = true ∧ (s.thread t0).traps 0 = false ∧
      (∀ i ∈ [Instr.fadd slotF, .mov slotF, .sel slotF, .fcmp slotF], s.Passes t0 i slotF.toCommon) ∧
      ((with2 0 0).slot 0 0).none? = true ∧ (with2 0 0).Runs t0 (.fadd slotF) slotF.toCommon :=
  have h : ∀ i ∈ [Instr.fadd slotF, .mov slotF, .sel slotF, .fcmp slotF],
      passes (withSlot (with2 0x38 0x40)) t0 i slotF.toCommon = true := by decide +kernel
  ⟨rfl, by decide +kernel, by decide +kernel, by decide +kernel, by decide +kernel, by decide +kernel, by decide +kernel,
   by decide +kernel, by decide +kernel, fun i m => passes_of (h i m), by decide +kernel,
   (passes_of (by decide +kernel)).toRuns⟩

/-! ### Cross-lane instructions -/

/-- Two lanes of one group, with different values in s0:32; lane 1 has q0 set. -/
def two : State :=
  small [{ lane 0 with slices := BitVec.ofNat 4096 7 },
         { lane 1 with slices := BitVec.ofNat 4096 9, preds := 1 }]

def t1 : TRef := ⟨1, 0, 1⟩

theorem two_oneGroup : two.OneGroup := ⟨1, 0, by decide⟩

theorem witness_CrossLaneMoves :
    let up : LaneF := { lf .n32 s32d s0 .zero with subop := 1, aux1 := 63, pd := 1 }
    two.OneGroup ∧ (∀ i ∈ [Instr.shfl up, .vote up, .matchLanes up, .elect up], two.Passes t1 i up.toCommon) ∧
      two.shflSource t1 up = some t0.lane ∧ t0 ∈ two.activeLanes (.shfl up) up.toCommon ∧
      (∀ u ∈ two.activeLanes (.shfl up) up.toCommon, two.shflSource t0 up ≠ some u.lane) ∧
      (∀ v ∈ two.activeLanes (.elect up) up.toCommon, v.lane ≤ t1.lane) :=
  have h : ∀ i ∈ [Instr.shfl { lf .n32 s32d s0 .zero with subop := 1, aux1 := 63, pd := 1 },
      .vote { lf .n32 s32d s0 .zero with subop := 1, aux1 := 63, pd := 1 },
      .matchLanes { lf .n32 s32d s0 .zero with subop := 1, aux1 := 63, pd := 1 },
      .elect { lf .n32 s32d s0 .zero with subop := 1, aux1 := 63, pd := 1 }], passes two t1 i (lf .n32 s32d s0 .zero).toCommon = true := by
    decide +kernel
  ⟨two_oneGroup, fun i m => passes_of (h i m), by decide +kernel, by decide +kernel, by decide +kernel, by decide +kernel⟩

theorem witness_Reductions : intF.ty.isInt = true ∧ intF.subop.toNat < 6 ∧ two.OneGroup ∧
    two.Passes t1 (.gred intF) intF.toCommon ∧ two.Passes t1 (.gscan intF) intF.toCommon ∧
    (two.thread t1).traps (two.reduce (two.activeLanes (.gred intF) intF.toCommon) intF fun _ => true).2 = false :=
  ⟨rfl, by decide, two_oneGroup, passes_of (by decide +kernel), passes_of (by decide +kernel), by decide +kernel⟩

theorem witness_SpecialAndUniformRegisters :
    let g : LaneF := lf .n32 s32d (.sreg .lane) .zero
    let f : LaneF := lf .n32 ⟨.w8, 0x00C⟩ s0 .zero
    let r : LaneF := { lf .n64 ⟨.w64, 40⟩ .zero .zero with subop := 1 }
    two.Passes t1 (.gets g) g.toCommon ∧ (∀ n ∈ [0x00C, 0x00D, 0x00E], two.Passes t1 (.sets { f with d := ⟨.w8, n⟩ }) f.toCommon) ∧
      two.Passes t1 (.rdclk r) r.toCommon ∧ r.subop = 1 ∧ two.opsOf t1 = [] ∧ two.Passes t1 (.kmov intF) intF.toCommon ∧
      two.activeLanes (.kmov intF) intF.toCommon = t0 :: [t1] ∧ two.groups.any (fun g => g.team = 1 && g.gid = 0) = true :=
  have h : ∀ n ∈ [(0x00C : BitVec 10), 0x00D, 0x00E],
      passes two t1 (.sets { lf .n32 ⟨.w8, 0x00C⟩ s0 .zero with d := ⟨.w8, n⟩ }) (lf .n32 ⟨.w8, 0x00C⟩ s0 .zero).toCommon = true := by
    decide +kernel
  ⟨passes_of (by decide +kernel), fun n m => passes_of (h n m), passes_of (by decide +kernel), rfl, by decide +kernel,
   passes_of (by decide +kernel), by decide +kernel, by decide +kernel⟩

theorem witness_LaneFrame : laneClass (.add intF) = true ∧ (∃ s', exec (.add intF) one = .next s') ∧
    (Instr.add intF).common = some intF.toCommon ∧ t0 ∈ one.issue.threads ∧ one.issue.threads.Nodup ∧
    (∃ x ∈ one.threads, x.id = t0) ∧ codeCanonical ((one.thread t0).pc + 16) = true ∧
    one.guard t0 { Ctl.plain with neg := true } = false ∧ one.guard t0 Ctl.plain = true ∧
    { one with groups := [Group.init 1 0 0 false 32 0] }.slicesOk t0 (.add intF) = false ∧ (one.thread t0).trap = none :=
  ⟨rfl, ⟨_, rfl⟩, rfl, by decide, by decide, by decide +kernel, by decide +kernel, by decide +kernel, by decide +kernel,
   by decide +kernel, by decide +kernel⟩


/-! ### Memory -/

/-- A page table at 0x10000 whose leaf maps the first 2 MiB to themselves, of which stage 2 maps 128 KiB. -/
def mapped (s : State) : State :=
  { s with
    mem := [(0x10000, 1), (0x10001, 0x10), (0x10002, 1), (0x11000, 1), (0x11001, 0x20), (0x11002, 1),
            (0x12000, 1), (0x12001, 0x30), (0x12002, 1), (0x13000, 0x3F)]
    s2 := [⟨0, 0, 0x20000, 0, true, true, true, 0, false, 0⟩]
    worlds := [{ World.init 0 with droot := 0x10001 :: List.replicate 15 0 }] }

/-- The state after an instruction. -/
def after (i : Instr) (s : State) : State :=
  match exec i s with
  | .next s' => s'
  | _ => s

/-- The same with no translation in a cache, so that no free choice of a cached entry is made. -/
def cold (s : State) : State := { s with tlb := [], lastPage := [], walkCache := [] }

/-- The only incomplete instruction of a state. -/
def opIn (s : State) : Op := s.ops.headD (s.start t0 (.nop intF) intF.toCommon 0 0 0 0).1

/-- A thread with an address in s16:64 and values in s0:32 and s8:32. -/
def at_ (a : Nat) (x y : Nat := 0) : State :=
  mapped (small [{ lane 0 with slices := BitVec.ofNat 4096 (x + y * 2 ^ 32 + a * 2 ^ 64) }])

theorem dbm_off {s : State} (h : ∀ x ∈ s.worlds, x.dbmctl = 0) : ∀ w, bit (s.world w).dbmctl.toNat 0 = false := by
  intro w
  have : (s.world w).dbmctl = 0 := by
    simp only [State.world]
    cases e : s.worlds.find? fun x => x.w = w with
    | none => rfl
    | some x => exact h x (List.mem_of_find?_eq_some e)
  rw [this]; rfl

/-- A word of the memory class: address s16:64. -/
def mf (ty : Ty) (d : Dst) (b c : Opnd := .zero) : MemF := ⟨⟨Ctl.plain, ty, d, s16, b, c⟩, 0, 0, 0, .team, .relaxed⟩

def ldF : MemF := mf .n32 s32d
def stF : MemF := mf .n32 .zero s0
def atF : MemF := mf .n32 s32d s0 (.imm 0)
def casF : MemF := mf .n32 s32d s0 s8

theorem witness_AccessesIssue :
    (∀ e ∈ [(Instr.ld ldF, Acc.read, false, true), (.st stF, .write, false, false), (.atom { atF with d := .zero }, .rmw, true, true),
        (.atomr atF, .rmw, true, true), (.cas casF, .rmw, true, true)],
      ∀ c, e.1.common = some c → (at_ 0x1100).Alone t0 e.1 c ∧
        (at_ 0x1100).Reaches t0 e.1 c e.2.1 e.2.2.1 e.2.2.2 0x1100 4 1 ((List.range 4).map fun j => ⟨false, 0x1100 + j⟩)) ∧
    ((at_ 0x1100).window? 1 0 = none ∧ (at_ 0x1100).staging = [] ∧ (at_ 0x1100).deterministic 2 = false) ∧
    (∀ l ∈ (List.range 4).map fun j => Loc.mk false (0x1100 + j), l.host = false ∧ l.isPeer = false) ∧
    (let f : MemF := { mf .n4 ⟨.w32, 4⟩ with scope := .thread }
     (at_ 0x1100).Alone t0 (.ldk f) f.toCommon ∧ (at_ 0x1100).FreshOps ∧
       (at_ 0x1100).Reaches t0 (.ldk f) f.toCommon .read true true ((at_ 0x1100).eaOf t0 f) 4 (f.d.w.bits / 32)
         ((List.range 4).map fun j => ⟨false, 0x1100 + j⟩)) :=
  have h : ∀ e ∈ [(Instr.ld ldF, Acc.read, false, true), (.st stF, .write, false, false), (.atom { atF with d := .zero }, .rmw, true, true),
        (.atomr atF, .rmw, true, true), (.cas casF, .rmw, true, true)],
      passes (at_ 0x1100) t0 e.1 ((e.1.common).getD intF.toCommon) = true ∧ e.1.common.isSome = true ∧
        (at_ 0x1100).Reaches t0 e.1 ((e.1.common).getD intF.toCommon) e.2.1 e.2.2.1 e.2.2.2 0x1100 4 1
          ((List.range 4).map fun j => ⟨false, 0x1100 + j⟩) := by
    unfold State.Reaches; decide +kernel
  ⟨fun e m c hc => by have := h e m; rw [hc] at this; exact ⟨alone_of this.1 rfl, this.2.2⟩,
   by decide +kernel, by decide, alone_of (by decide +kernel) rfl, by unfold State.FreshOps; decide,
   by unfold State.Reaches; decide +kernel⟩


theorem witness_AccessChecksTrap :
    let ea := fun (s : State) => BitVec.ofNat 64 (s.opnd64 t0 ldF.a) + ldF.offset.signExtend 64
    (at_ 0x1100).FreshOps ∧ (∀ a ∈ [2 ^ 60, 0x1102], (at_ a).Alone t0 (.ld ldF) ldF.toCommon ∧ (at_ a).Alone t0 (.cas casF) casF.toCommon) ∧
      canonical (ea (at_ (2 ^ 60))) = false ∧ canonical (ea (at_ 0x1102)) = true ∧
      canonical (ea (at_ 0x1102) + BitVec.ofNat 64 3) = true ∧ (ea (at_ 0x1102)).toNat % 4 ≠ 0 :=
  have h : ∀ a ∈ [2 ^ 60, 0x1102], passes (at_ a) t0 (.ld ldF) ldF.toCommon = true ∧ passes (at_ a) t0 (.cas casF) casF.toCommon = true := by
    decide +kernel
  ⟨by unfold State.FreshOps; decide, fun a m => ⟨alone_of (h a m).1 rfl, alone_of (h a m).2 rfl⟩, by decide +kernel,
   by decide +kernel, by decide +kernel, by decide +kernel⟩

/-- FENCE, PREF and CMO with the scope device. -/
def fenceF : MemF := ⟨⟨Ctl.plain, .n4, .zero, .zero, .zero, .zero⟩, 0, 0, 0, .device, .acqRel⟩
def prefF : MemF := { mf .n4 .zero with order := .relaxed, scope := .thread }
def cmoF : MemF := mf .n4 .zero .zero (.imm 1)
/-- SPILL and FILL of s0 to s7. -/
def spillF : MemF := ⟨⟨Ctl.plain, .n4, .zero, .slice .w4 0, .slice .w4 7, .zero⟩, 0, 0, 0, .thread, .relaxed⟩
def fillF : MemF := { spillF with offset := 8 }
def sallocF : MemF := ⟨⟨Ctl.plain, .n64, ⟨.w64, 40⟩, s0, .zero, .zero⟩, 0, 0, 0, .thread, .relaxed⟩

/-- A thread whose %sp stands 0x100 below the base of its data stack. -/
def stacked (x : Nat) : State := mapped (small [{ lane 0 with slices := BitVec.ofNat 4096 x, sp := 0x1F00 }])

/-- The four bytes of a SPILL or FILL of s0 to s7 lie in the data stack, computed exactly (R155). -/
def spillInside (k : BitVec 24) : Bool :=
  let x := (stacked 7).thread t0
  let p : Int := x.sp.toNat + k.toInt
  decide ((x.stklim.toNat : Int) ≤ p) && decide (p + 4 ≤ (x.base.toNat : Int))

theorem witness_StackAndFenceIssue :
    let s := at_ 0x1140
    s.FreshOps ∧ s.Alone t0 (.fence fenceF) fenceF.toCommon ∧ s.Alone t0 (.pref prefF) prefF.toCommon ∧
      s.Alone t0 (.cmo cmoF) cmoF.toCommon ∧
      (let r := s.start t0 (.cmo cmoF) cmoF.toCommon 0 0 0 0
       r.2.checkLines (r.2.opCtx r.1) [0x1100] [] = some [⟨false, 0x1100⟩]) ∧
      (let ls := (List.range 4).map fun j => Loc.mk false (0x1F00 + j)
       (stacked 7).Alone t0 (.spill spillF) spillF.toCommon ∧ (stacked 7).Alone t0 (.fill spillF) spillF.toCommon ∧
        (stacked 7).Reaches t0 (.spill spillF) spillF.toCommon .write false false 0x1F00 1 4 ls ∧
        (stacked 7).Reaches t0 (.fill spillF) spillF.toCommon .read false true 0x1F00 1 4 ls ∧
        spillInside spillF.offset = true ∧
        (stacked 7).Alone t0 (.spill { spillF with offset := 0x100 }) spillF.toCommon ∧
        (stacked 7).Alone t0 (.fill { spillF with offset := 0x100 }) spillF.toCommon ∧ spillInside 0x100 = false ∧
        spillInside 0xFFF8FC = false) ∧
      (∀ x ∈ [0x100, 0x108, 0x1000], (stacked x).Alone t0 (.salloc sallocF) sallocF.toCommon) ∧
      (let n := fun x => (((stacked x).thread t0).sp.toNat : Int) - (BitVec.ofNat 64 ((stacked x).opnd t0 sallocF.a sallocF.ty)).toInt
       n 0x100 % 16 = 0 ∧ 0x1800 ≤ n 0x100 ∧ n 0x100 ≤ 0x2000 ∧ n 0x108 % 16 ≠ 0 ∧ n 0x1000 % 16 = 0 ∧ n 0x1000 < 0x1800) ∧
      (let f := { sallocF with a := .slice .w64 0 }
       let s := stacked (2 ^ 64 - 0x200)
       let n : Int := (s.thread t0).sp.toNat - (BitVec.ofNat 64 (s.opnd t0 f.a f.ty)).toInt
       s.Alone t0 (.salloc f) f.toCommon ∧ n % 16 = 0 ∧ 0x2000 < n) :=
  have h : ∀ x ∈ [0x100, 0x108, 0x1000], passes (stacked x) t0 (.salloc sallocF) sallocF.toCommon = true := by
    decide +kernel
  ⟨by unfold State.FreshOps; decide, alone_of (by decide +kernel) rfl, alone_of (by decide +kernel) rfl,
   alone_of (by decide +kernel) rfl, by decide +kernel,
   ⟨alone_of (by decide +kernel) rfl, alone_of (by decide +kernel) rfl, by unfold State.Reaches; decide +kernel,
    by unfold State.Reaches; decide +kernel, by decide +kernel, alone_of (by decide +kernel) rfl, alone_of (by decide +kernel) rfl,
    by decide +kernel, by decide +kernel⟩,
   fun x m => alone_of (h x m) rfl, by decide +kernel, alone_of (by decide +kernel) rfl, by decide +kernel⟩

/-- What MEMORY_ACCESS_COMPLETE of a load needs before its lines are read, and once they are. -/
def loadsOk (i : Instr) (f : MemF) (s : State) : Bool :=
  let o := opIn s
  let s' := after (.memoryAccessComplete o.id) s
  let o' := opIn s'
  [(s, o), (s', o')].all (fun e => decide (e.1.op? e.2.id = some e.2) && e.1.threads.any (fun x => x.id = e.2.who) &&
    decide (e.2.instr = i) && decide (e.2.phase = .pending) && decide (e.2.lead = e.2.id) && !e.1.hostLost e.2.locs &&
    !e.1.needsRecall e.2 f) &&
  o.nextLine.isSome && o.unread.all (fun l => !l.isPeer) && o.locs.all (fun l => l.addr < 2 ^ 60) && decide (s.ops = [o]) &&
  o'.locs.all (fun l => (o'.received l).isSome) && o'.c ≠ 1 && o'.clobber = 0

theorem witness_LoadsComplete :
    loadsOk (.ld ldF) ldF (after (.ld ldF) (at_ 0x1100)) = true ∧
    loadsOk (.fill spillF) spillF (after (.fill spillF) (stacked 7)) = true ∧
    (let f : MemF := { mf .n4 ⟨.w32, 4⟩ with scope := .thread }
     loadsOk (.ldk f) f (after (.ldk f) (at_ 0x1100)) = true ∧ ∃ g ∈ (at_ 0x1100).groups, g.team = 1 ∧ g.gid = 0) := by
  decide +kernel

theorem mapped_off (x : State) : ∀ w, bit ((mapped x).world w).dbmctl.toNat 0 = false :=
  dbm_off (by intro y m; simp only [mapped, List.mem_singleton] at m; subst m; rfl)

theorem witness_StoresPerform :
    (let s := after (.st stF) (at_ 0x1100 5)
     s.MemOk ∧ s.HasOp (opIn s) ∧ (opIn s).phase = .pending ∧ (opIn s).instr = .st stF ∧ orderReleases stF.order = false ∧
       s.behindLower (opIn s) = false ∧ s.hostLost (opIn s).locs = false ∧ (∀ l ∈ (opIn s).locs, l.isLocal = true) ∧
       (opIn s).locs.Nodup ∧ (opIn s).data = [] ∧ (∀ w ∈ s.worlds, w.dbmctl = 0) ∧ (opIn s).locs.length = 4 ∧
       scopeNarrow stF.scope = true) ∧
    (let s := after (.memoryAccessComplete 10) (after (.st stF) (at_ 0x1100 5))
     s.MemOk ∧ ∃ e ∈ s.wbuf, (∀ y ∈ s.wbuf, y.id = e.id → y = e) ∧ s.wbuf.Nodup ∧ s.canDrain e = true ∧
       (∀ x ∈ e.bytes, x.1.isLocal = true) ∧ (e.bytes.map (·.1)).Nodup ∧ e.bytes ≠ []) := by
  unfold State.HasOp State.MemOk; decide +kernel

theorem witness_AtomicsPerform :
    ∀ e ∈ [(Instr.atom { atF with d := .zero }, { atF with d := .zero }), (.atomr atF, atF), (.cas casF, casF)],
      let s := after e.1 (at_ 0x1100 5 6)
      let o := opIn s
      s.MemOk ∧ s.HasOp o ∧ o.instr = e.1 ∧ o.phase = .pending ∧ o.who.lane < 32 ∧ o.b < 2 ^ 32 ∧ o.c < 2 ^ 32 ∧ o.clobber = 0 ∧
        o.locs = (List.range 4).map (Loc.mk false 0x1100).add ∧ (∀ j < 4, ((Loc.mk false 0x1100).add j).isLocal = true) ∧
        s.together o = [o] ∧ s.rmwReady o e.2 = true ∧ s.rmwBehind o = false ∧ s.needsRecall o e.2 = false ∧
        s.hostLost o.locs = false ∧ s.log? (s.team o.who.team).launch = none ∧ (∀ w ∈ s.worlds, w.dbmctl = 0) := by
  unfold State.HasOp State.MemOk; decide +kernel

theorem witness_FencesAndHintsComplete :
    (∀ e ∈ [(Instr.fence fenceF, at_ 0x1100), (.pref prefF, at_ 0x1100), (.cmo cmoF, at_ 0x1100), (.salloc sallocF, stacked 0x100)],
      let s := after e.1 e.2
      let o := opIn s
      s.HasOp o ∧ o.instr = e.1 ∧ o.clobber = 0 ∧ s.wbuf = [] ∧ s.remotes = [] ∧ s.hostLost o.locs = false ∧ o.lead = o.id ∧
        s.earlier o = [] ∧ s.anyOwned o.locs = false) ∧
    (∀ e ∈ [(Instr.fence fenceF, at_ 0x1100), (.pref prefF, at_ 0x1100), (.cmo cmoF, at_ 0x1100)],
      (opIn (after e.1 e.2)).phase = .pending) ∧
    (opIn (after (.salloc sallocF) (stacked 0x100))).phase = .result ∧
    (opIn (after (.salloc sallocF) (stacked 0x100))).data = [0x1E00] := by
  unfold State.HasOp; decide +kernel


/-! ### Control -/

def cf (arg : BitVec 24 := 0) (a b : Opnd := .zero) : CtlF := ⟨⟨Ctl.plain, .n4, .zero, a, b, .zero⟩, arg, 2, 1⟩

/-- A thread whose waymark m1 is valid in domain d with target 0x2000. -/
def marked (d : BitVec 4) : State := small [{ lane 0 with wm := (lane 0).wm.set 1 ⟨true, d, 0x200, 3⟩ }]

theorem witness_Waymarks :
    one.Passes t0 (.prep (cf 4)) (cf 4).toCommon ∧ codeCanonical ((one.thread t0).pc + ((4 : BitVec 24).signExtend 64 <<< 4)) = true ∧
      (let low := small [{ lane 0 with pc := 0xFFF8000000000000 }]
       low.Passes t0 (.prep (cf (-1))) (cf (-1)).toCommon ∧
         codeCanonical ((low.thread t0).pc + ((-1 : BitVec 24).signExtend 64 <<< 4)) = false) ∧
      (∀ a ∈ [0x2000, 0x2008, 2 ^ 62], (at_ a).Passes t0 (.prepv (cf 0 s16)) (cf 0 s16).toCommon) ∧
      (codeCanonical 0x2000 = true ∧ codeCanonical (BitVec.ofNat 64 (2 ^ 62)) = false) ∧
      (one.Runs t0 (.xfer cf) cf.toCommon ∧ ((one.thread t0).wm.getD 1 Waymark.none).valid = false) ∧
      (∀ d ∈ [(0 : BitVec 4), 3], (marked d).Runs t0 (.xfer cf) cf.toCommon) ∧
      (((marked 3).thread t0).wm.getD 1 Waymark.none).domain ≠ (marked 3).domainOf t0 :=
  have h : ∀ a ∈ [0x2000, 0x2008, 2 ^ 62], passes (at_ a) t0 (.prepv (cf 0 s16)) (cf 0 s16).toCommon = true := by decide +kernel
  have g : ∀ d ∈ [(0 : BitVec 4), 3], passes (marked d) t0 (.xfer cf) cf.toCommon = true := by decide +kernel
  ⟨passes_of (by decide +kernel), by decide +kernel, ⟨passes_of (by decide +kernel), by decide +kernel⟩,
   fun a m => passes_of (h a m), by decide +kernel, ⟨(passes_of (by decide +kernel)).toRuns, by decide +kernel⟩,
   fun d m => (passes_of (g d m)).toRuns, by decide +kernel⟩

/-- A thread with n entries of domain d in its return stack and no room to spill. -/
def returns (n : Nat) (d : Nat) : State :=
  small [{ lane 0 with wm := (lane 0).wm.set 1 ⟨true, 0, 0x200, 3⟩, ret := List.replicate n (BitVec.ofNat 64 (0x300 + d * 2 ^ 48)),
                       retlim := 0x2000 }]

theorem witness_CallsAndReturns :
    (∀ n ∈ [0, 3, 4], (returns n 0).Runs t0 (.xcall cf) cf.toCommon ∧ (returns n 0).Runs t0 (.ret cf) cf.toCommon) ∧
      (one.Runs t0 (.xcall cf) cf.toCommon ∧ (marked 3).Runs t0 (.xcall cf) cf.toCommon) ∧
      (let x := (returns 4 0).thread t0
       4 ≤ x.ret.length ∧ x.retlim.toNat < x.retbase.toNat + 8 * (x.n + (x.ret.length - 4) + 1)) ∧
      (((returns 0 0).thread t0).ret = [] ∧ ((returns 0 0).thread t0).n = 0) ∧
      (let s := small [{ lane 0 with n := 1 }]
       s.Runs t0 (.ret cf) cf.toCommon ∧ (s.thread t0).ret = [] ∧ (s.thread t0).n ≠ 0) ∧ (returns 1 5).Runs t0 (.ret cf) cf.toCommon ∧
      ((returns 1 5).thread t0).ret = [] ++ [BitVec.ofNat 64 (0x300 + 5 * 2 ^ 48)] ∧
      (BitVec.ofNat 64 (0x300 + 5 * 2 ^ 48)).extractLsb' 48 4 ≠ (returns 1 5).domainOf t0 ∧
      (BitVec.ofNat 64 0x300).extractLsb' 48 4 = (returns 1 0).domainOf t0 :=
  have h : ∀ n ∈ [0, 3, 4], passes (returns n 0) t0 (.xcall cf) cf.toCommon = true ∧ passes (returns n 0) t0 (.ret cf) cf.toCommon = true := by
    decide +kernel
  ⟨fun n m => ⟨(passes_of (h n m).1).toRuns, (passes_of (h n m).2).toRuns⟩,
   ⟨(passes_of (by decide +kernel)).toRuns, (passes_of (by decide +kernel)).toRuns⟩, by decide +kernel, by decide +kernel,
   ⟨(passes_of (by decide +kernel)).toRuns, by decide +kernel⟩,
   (passes_of (by decide +kernel)).toRuns, by decide +kernel, by decide +kernel, by decide +kernel⟩

/-- A team of one group and one live thread whose convergence register 2 is as given. -/
def converging (r : CReg) (x : Thread := lane 0) : State :=
  let s := small [x]
  { s with teams := s.teams.map fun m => { m with cregs := m.cregs.set 2 r } }

/-- The same with a second live thread that has not signed. -/
def converging2 (r : CReg) (x : Thread := lane 0) : State :=
  let s := converging r x
  { s with threads := s.threads ++ [lane 1] }

def signs (x : Thread) : Thread := { x with await := 4 }

theorem witness_Convergence :
    (∀ r ∈ [CReg.mk 1 false 0, ⟨1, false, 1⟩], (converging r).Alone t0 (.cset (cf 0 s0)) (cf 0 s0).toCommon) ∧
      (∀ r ∈ [CReg.mk 1 false 0, ⟨0, false, 0⟩, ⟨1, false, 1⟩], (converging r).Alone t0 (.sign cf) cf.toCommon ∧
        (converging2 r).Alone t0 (.sign cf) cf.toCommon ∧ (converging2 r).Alone t0 (.join cf) cf.toCommon) ∧
      (∀ p ∈ [true, false], (converging ⟨1, p, 0⟩ (signs (lane 0))).Alone t0 (.join cf) cf.toCommon) ∧
      (let s := converging ⟨0, false, 0⟩ { lane 0 with joins := true }
       s.Alone t0 (.join cf) cf.toCommon ∧ (s.thread t0).joins = true) ∧
      (∀ r ∈ [CReg.mk 1 false 0], ∀ y ∈ (converging r).threads, y.live = true → y.id.team = 1 → r.set.getLsbD y.id.gid = true →
        y.id = t0 ∨ r.signed.getLsbD (32 * y.id.gid + y.id.lane) = true) ∧
      ¬ (∀ y ∈ (converging2 ⟨1, false, 0⟩).threads, y.live = true → y.id = t0) ∧
      2 < ((converging ⟨1, false, 0⟩).team 1).cregs.length ∧ (∃ y ∈ (converging ⟨1, false, 0⟩).teams, y.id = 1) ∧
      (∀ y ∈ (converging2 ⟨1, false, 0⟩).threads, y.id.lane < 32) :=
  have h : ∀ r ∈ [CReg.mk 1 false 0, ⟨1, false, 1⟩], passes (converging r) t0 (.cset (cf 0 s0)) (cf 0 s0).toCommon = true := by
    decide +kernel
  have g : ∀ r ∈ [CReg.mk 1 false 0, ⟨0, false, 0⟩, ⟨1, false, 1⟩], passes (converging r) t0 (.sign cf) cf.toCommon = true ∧
      passes (converging2 r) t0 (.sign cf) cf.toCommon = true ∧ passes (converging2 r) t0 (.join cf) cf.toCommon = true := by
    decide +kernel
  have k : ∀ p ∈ [true, false], passes (converging ⟨1, p, 0⟩ (signs (lane 0))) t0 (.join cf) cf.toCommon = true := by decide +kernel
  ⟨fun r m => alone_of (h r m) rfl, fun r m => ⟨alone_of (g r m).1 rfl, alone_of (g r m).2.1 rfl, alone_of (g r m).2.2 rfl⟩,
   fun p m => alone_of (k p m) rfl, ⟨alone_of (by decide +kernel) rfl, by decide +kernel⟩, by decide +kernel, by decide +kernel,
   by decide +kernel, by decide +kernel, by decide +kernel⟩

theorem witness_ThreadControl :
    (∀ i ∈ [Instr.exit cf, .trap (cf 7), .brk (cf 7), .yield cf, .sleep (cf 5), .icinv cf], one.Alone t0 i (cf 7).toCommon) ∧
      ((∀ o ∈ one.opsOf t0, o.la = 15) ∧ (one.thread t0).ret.length ≤ 4 ∧ one.armed = []) ∧
      ((returns 5 0).Alone t0 (.exit cf) cf.toCommon ∧ 4 < ((returns 5 0).thread t0).ret.length) ∧
      (let s := after (.ld ldF) (at_ 0x1100)
       s.Alone t0 (.exit cf) cf.toCommon ∧ ∃ o ∈ s.opsOf t0, o.la ≠ 15) ∧
      (let s := small [{ lane 0 with sleep := some ⟨0, false⟩ }]
       (s.thread t0).sleep = some ⟨0, false⟩ ∧ 0 ≤ s.clock ∧ (s.thread t0).live = true ∧ s.resident 1 = true ∧
         codeCanonical ((s.thread t0).pc + 16) = true ∧ ∃ y ∈ s.threads, y.id = t0) ∧
      (∀ a ∈ [0, 0x2000, 0x2008, 2 ^ 62], (at_ a).Alone t0 (.sethdl (cf 0 s16)) (cf 0 s16).toCommon) ∧
      (∃ g ∈ (at_ 0).groups, g.team = 1 ∧ g.gid = 0) :=
  have h : ∀ i ∈ [Instr.exit cf, .trap (cf 7), .brk (cf 7), .yield cf, .sleep (cf 5), .icinv cf],
      passes one t0 i (cf 7).toCommon = true := by decide +kernel
  have g : ∀ a ∈ [0, 0x2000, 0x2008, 2 ^ 62], passes (at_ a) t0 (.sethdl (cf 0 s16)) (cf 0 s16).toCommon = true := by decide +kernel
  ⟨fun i m => alone_of (h i m) rfl, by decide +kernel, ⟨alone_of (by decide +kernel) rfl, by decide +kernel⟩,
   ⟨alone_of (by decide +kernel) (by decide +kernel), by decide +kernel⟩, by decide +kernel, fun a m => alone_of (g a m) rfl,
   by decide +kernel⟩

/-- A thread with a trap of its own and a handler at 0x4000. -/
def trapped (hdl : W64) : State :=
  let s := mapped (small [{ lane 0 with trap := some ⟨0x0C, 7, 0x1000, 0x1010, 0, false⟩ }])
  { s with groups := s.groups.map fun g => { g with hdl := hdl } }

/-- The same thread in its handler, at the record. -/
def handling : State :=
  let s := after (.trapDelivery t0) (trapped 0x4000)
  { s with issue := ⟨0, 0, [t0], 9⟩ }

def record32 : List Loc := (List.range 32).map fun j => ⟨false, 0x1FE0 + j⟩

theorem witness_TrapEntry :
    (let s := trapped 0x4000
     let x := s.thread t0
     s.MemOk ∧ s.trapDue t0 = true ∧ x.turn = none ∧ x.async = [] ∧ x.trap = some ⟨0x0C, 7, 0x1000, 0x1010, 0, false⟩ ∧
       (∃ y ∈ s.threads, y.id = t0) ∧ (s.groupOf t0).hdl ≠ 0 ∧ codeCanonical (s.groupOf t0).hdl = true ∧ x.handler = false ∧
       x.sp.toNat % 16 = 0 ∧ 32 ≤ x.sp.toNat ∧ x.stklim ≤ x.sp - 32 ∧ canonical (x.sp - 32) = true ∧
       (s.translateRun (s.xctx t0) .write (x.sp - 32) 32 []).1 = .inl record32 ∧ record32.Nodup ∧
       (∀ l ∈ record32, l.isLocal = true) ∧ (∀ w ∈ s.worlds, w.dbmctl = 0)) ∧
    (let s := trapped 0
     s.trapDue t0 = true ∧ (s.groupOf t0).hdl = 0 ∧ (s.groupOf t0).gfp = 0 ∧
       ∃ l, s.launch? (s.team 1).launch = some l ∧ l.fatal = none) ∧
    (one.Runs t0 (.hret cf) cf.toCommon ∧ (one.thread t0).handler = false) ∧
    (let s := handling
     let s₁ := (s.translateRun (s.xctx t0) .read 0x1FE0 32 []).2
     let resume : W64 := (BitVec.ofNat 256 (ofBytes (record32.map (s₁.seenByte 0)))).extractLsb' 128 64
     passes s t0 (.hret cf) cf.toCommon = true ∧ s.issue.threads = [t0] ∧ (s.thread t0).sp = 0x1FE0 ∧ (s.thread t0).handler = true ∧
       (∀ o ∈ s.opsOf t0, o.la = 15) ∧ (s.translateRun (s.xctx t0) .read 0x1FE0 32 []).1 = .inl record32 ∧
       (∀ l ∈ record32, s₁.poisoned l = false) ∧ s₁.anyOwned record32 = false ∧ resume = 0x1010) := by
  refine ⟨by unfold State.MemOk; decide +kernel, ⟨by decide +kernel, by decide +kernel, by decide +kernel, _, rfl, rfl⟩,
    ⟨(passes_of (by decide +kernel)).toRuns, by decide +kernel⟩, by decide +kernel⟩


/-- A thread with one spilled return entry and none on chip, whose waymark m1 is being prefetched: its two lines lie on both sides
of 2^48, the first at the end of 2 MiB that the page table maps twice. -/
def fetchingOne : State :=
  let s := mapped (small [{ lane 0 with n := 1, wm := (lane 0).wm.set 1 ⟨true, 0, 0xFFFFFFFFFF8, 1⟩, prefetch := 2 }])
  { s with
    mem := s.mem ++ [(0x10008, 1), (0x10009, 0x10), (0x1000A, 1), (0x11FF8, 1), (0x11FF9, 0x20), (0x11FFA, 1), (0x12FF8, 1),
                     (0x12FF9, 0x30), (0x12FFA, 1), (0x13FF8, 0x3F)]
    s2 := [⟨0, 0, 0x200000, 0, true, true, true, 0, false, 0⟩] }

/-- The line that a fetch gives. -/
def lineOf : Fetched × State → Option FetchLine
  | (.line l, _) => some l
  | _ => none

/-- A fetched line whose first word is w. -/
def fetched (w : Option Word) (n : Nat) : List FetchLine := [⟨0, 0, 0, 0, n, (w.getD 0).setWidth 1024⟩]

/-- The thread of a team stands at JOIN, and nobody is left to sign. -/
def stuckJoin : State :=
  { converging ⟨3, false, 1⟩ { signs (lane 0) with joins := true } with fetch := fetched (encode (.join { cf with m := 0 })) 32 }

theorem witness_ControlBackground :
    (let s := fetchingOne
     let x := s.thread t0
     let w := x.wm.getD 1 Waymark.none
     let a := entryAddr w.target
     let r := s.fetchAt t0 w.domain a
     let l := s.translate (s.xctx t0) .fetch x.pc
     let t := s.translateRun (s.xctx t0) .read 0x2000 8 []
     (∃ y ∈ s.threads, y.id = t0) ∧ x.wm.length = 8 ∧ s.prefetching t0 1 = true ∧ a = 0xFFFFFFFFFF80 ∧
       (lineOf r).any (fun l₁ => (lineOf ((r.2.addFetchLine l₁).fetchAt t0 w.domain
         (a - BitVec.ofNat 64 (a.toNat % 128) + 128))).any fun l₂ => l₁.line + 1 = l₂.line) = true ∧
       s.fetching t0 = true ∧ l.1 = .ok ⟨false, 0x1000⟩ ∧ l.2.ownedLine 0x20 = false ∧ l.2.poisoned ⟨false, 0x1000⟩ = false ∧
       l.2.hostLost [⟨false, 0x1000⟩] = false ∧
       s.stackTransferDue t0 true = true ∧ x.retbase + BitVec.ofNat 64 (8 * (x.n - 1)) = 0x2000 ∧ canonical 0x2000 = true ∧
       t.1 = .inl ((List.range 8).map fun j => ⟨false, 0x2000 + j⟩) ∧
       (∀ j < 8, t.2.poisoned ⟨false, 0x2000 + j⟩ = false) ∧ t.2.anyOwned ((List.range 8).map fun j => ⟨false, 0x2000 + j⟩) = false) ∧
    (stuckJoin.deadlocked 1 = true ∧ ∃ y ∈ stuckJoin.threads, y.id.team = 1 ∧ y.live = true) := by
  decide +kernel

/-! ### Tiles -/

/-- A tile of 4 rows of 16 elements of 32 bits, element (r, c) being 100r + c + 1. -/
def tile4 (id : Nat) : Tile :=
  { id := id, core := 0, team := 1, world := 0, level := false, rows := 4, cols := 16, ew := 32,
    lines := (List.range 4).map fun r =>
      (r, BitVec.ofNat 1024 ((List.range 16).foldl (fun n i => n + (100 * r + i + 1) * 2 ^ (32 * i)) 0)),
    poison := [], releasing := false, fromReserve := 0 }

/-- A state with that tile under handle h3. -/
def withTile (s : State) : State := { s with ids := 40, tiles := [tile4 30], handles := [⟨1, 3, .allocated 30, none⟩] }

def tf (ty : Ty) (d : Dst) (a b : Opnd) (c : Opnd := .zero) (h : BitVec 8 := 3) : TileF := ⟨⟨Ctl.plain, ty, d, a, b, c⟩, 0, 0, false, h⟩

def tallocF : TileF := tf .n32 s32d s0 .zero .zero 5
def tldF : TileF := tf .n32 ⟨.w64, 40⟩ s0 s8
def tstF : TileF := tf .n32 .zero s0 s8 (.slice .w64 16)
def tfillF : TileF := tf .n32 .zero s0 .zero
def tfreeF : TileF := tf .n32 s32d .zero .zero
def tbindF : TileF := { tf .n32 s32d .zero .zero .zero 5 with hp := 3, peer := 1 }

/-- A shape of 4 by 16 elements of 32 bits. -/
def shape4 : Nat := 3 + 15 * 2 ^ 12 + 31 * 2 ^ 24

def tiled (x y : Nat) : State := withTile (with2 x y)

/-- Team 1 is rank 0 of a cluster grid of two; team 2, rank 1, holds the tile under its h3. -/
def grid2 : State :=
  let s := withTile one
  { s with teams := [{ s.team 1 with cgrid := 2 }, { s.team 1 with id := 2, index := 1, cgrid := 2 }]
           threads := s.threads ++ [{ lane 0 with id := ⟨2, 0, 0⟩ }]
           tiles := [{ tile4 30 with team := 2 }], handles := [⟨2, 3, .allocated 30, none⟩] }

theorem witness_TileInstructionsIssue :
    (tiled shape4 0).FreshOps ∧ (tiled shape4 0).Alone t0 (.talloc tallocF) tallocF.toCommon ∧
      (shapeOk ((tiled shape4 0).opnd32 t0 tallocF.a) false = true ∧ (tiled shape4 0).handle? 1 5 = none ∧
        shapeGranules ((tiled shape4 0).opnd32 t0 tallocF.a) ≤ (tiled shape4 0).reserveLeft 1 + (tiled shape4 0).unreserved 0) ∧
      (tiled 0 0).Alone t0 (.tfree tfreeF) tfreeF.toCommon ∧ (tiled 0 0).handle? 1 3 = some ⟨1, 3, .allocated 30, none⟩ ∧
      ((tiled 0 0).tileOf 1 3).toOption = some (tile4 30) ∧ (tiled 0 0).armed = [] ∧
      ((tiled 3 15).Alone t0 (.tld tldF) tldF.toCommon ∧ (tiled 3 15).Alone t0 (.tst tstF) tstF.toCommon ∧
        (tiled 3 15).opnd32 t0 tldF.a < 4 ∧ (tiled 3 15).opnd32 t0 tldF.b < 16) ∧
      (tiled 3 15).Alone t0 (.tfill tfillF) tfillF.toCommon ∧
      (grid2.Alone t0 (.tbind tbindF) tbindF.toCommon ∧ grid2.handle? 1 5 = none ∧ grid2.bindSource 1 tbindF = some 30 ∧
        grid2.tableUsed (grid2.coreOf t0) < 1024) ∧
      -- the traps
      (shapeOk ((tiled 0 0).opnd32 t0 tallocF.a) false = false ∧ (tiled 0 0).Alone t0 (.talloc tallocF) tallocF.toCommon) ∧
      ((tiled shape4 0).Alone t0 (.talloc { tallocF with h := 3 }) tallocF.toCommon ∧ ((tiled shape4 0).handle? 1 3).isSome = true) ∧
      grid2.Alone t0 (.tbind { tbindF with h := 3 }) tbindF.toCommon ∧
      (let s : State := { tiled shape4 0 with handles := [⟨1, 3, .releasing 30 false 4 16 32 false, none⟩] }
       (∀ i ∈ [Instr.talloc { tallocF with h := 3 }, .tbind { tbindF with h := 3 }, .tfree tfreeF, .tld tldF, .tst tstF, .tfill tfillF],
         ∀ c, i.common = some c → s.Alone t0 i c) ∧
         (∃ h, s.handle? 1 3 = some h ∧ h.state.isReleasing = true)) ∧
      (tiled 0 0).Alone t0 (.tld { tldF with h := 9 }) tldF.toCommon ∧
      (tiled 4 0).Alone t0 (.tld tldF) tldF.toCommon ∧ (tiled 0 16).Alone t0 (.tst tstF) tstF.toCommon ∧
      ((tiled 0 0).Alone t0 (.tld { tldF with d := d8 }) { tldF with d := d8 }.toCommon ∧ d8.w.bits < 32) :=
  have h : ∀ i ∈ [Instr.talloc { tallocF with h := 3 }, .tbind { tbindF with h := 3 }, .tfree tfreeF, .tld tldF, .tst tstF, .tfill tfillF],
      ({ tiled shape4 0 with handles := [⟨1, 3, .releasing 30 false 4 16 32 false, none⟩] } : State).issue.threads = [t0] ∧
        passes { tiled shape4 0 with handles := [⟨1, 3, .releasing 30 false 4 16 32 false, none⟩] } t0 i
          ((i.common).getD intF.toCommon) = true := by decide +kernel
  ⟨by unfold State.FreshOps; decide, alone_of (by decide +kernel) rfl, by decide +kernel, alone_of (by decide +kernel) rfl,
   by decide +kernel, by decide +kernel, by decide, ⟨alone_of (by decide +kernel) rfl, alone_of (by decide +kernel) rfl,
   by decide +kernel, by decide +kernel⟩, alone_of (by decide +kernel) rfl,
   ⟨alone_of (by decide +kernel) rfl, by decide +kernel, by decide +kernel⟩, ⟨by decide +kernel, alone_of (by decide +kernel) rfl⟩,
   ⟨alone_of (by decide +kernel) rfl, by decide +kernel⟩, alone_of (by decide +kernel) rfl,
   ⟨fun i m c e => by have := (h i m).2; rw [e] at this; exact alone_of this rfl, ⟨_, rfl, rfl⟩⟩,
   alone_of (by decide +kernel) rfl, alone_of (by decide +kernel) rfl,
   alone_of (by decide +kernel) rfl, alone_of (by decide +kernel) rfl, by decide⟩

/-- A team that holds a tile asks for all 512 granules. -/
def waitsForTile : State := after (.talloc tallocF) (tiled (0xFFF + 511 * 2 ^ 12 + 7 * 2 ^ 24) 0)

theorem witness_TileSteps :
    (let s := after (.talloc tallocF) (tiled shape4 0)
     s.HasOp (opIn s) ∧ (opIn s).instr = .talloc tallocF ∧ s.grantable (opIn s) = true ∧ (opIn s).clobber = 0) ∧
    (let y : Tile := { tile4 30 with releasing := true }
     let s : State := { after (.tfree tfreeF) (tiled 0 0) with tiles := [y] }
     s.tile? y.id = some y ∧ y.releasing = true ∧ s.tileBusy y.id = false ∧ s.HasOp (opIn s) ∧ (opIn s).instr = .tfree tfreeF ∧
       (opIn s).tiles = [y.id] ∧ (opIn s).x = 0 ∧ (opIn s).clobber = 0 ∧ s.ops = [opIn s]) ∧
    (let s := { after (.tfree tfreeF) (tiled 0 0) with handles := [⟨1, 3, .releasing 30 false 4 16 32 false, none⟩, ⟨1, 4, .view 30, none⟩] }
     ∃ h ∈ s.handles, h.state = .view 30) ∧
    (let s := waitsForTile
     s.tileDeadlocked 0 = true ∧ s.waitingOn 0 = [] ++ [opIn s] ∧ s.HasOp (opIn s) ∧ (opIn s).instr = .talloc tallocF ∧
       (opIn s).clobber = 0) := by
  unfold State.HasOp; decide +kernel

theorem witness_TileOperationsComplete :
    (∀ i ∈ [Instr.tld tldF, .tst tstF, .tfill tfillF],
      let s := after i (tiled 1 3)
      let o := opIn s
      let y := tile4 30
      s.HasOp o ∧ o.clobber = 0 ∧ o.instr = i ∧ s.tile? y.id = some y ∧ o.tiles = [y.id] ∧ o.phase = .pending ∧ 1 ≤ y.ew ∧
        (y.lines.map (·.1)).Pairwise (· < ·) ∧ y.poison = [] ∧ (∀ p ∈ s.ops, p.isProduct = false) ∧ s.tileOpDue o = true ∧ o.a < y.rows ∧ o.b < y.cols) ∧
    (let s := after (.tbind tbindF) grid2
     let o := opIn s
     s.HasOp o ∧ o.clobber = 0 ∧ o.instr = .tbind tbindF ∧ o.phase = .result ∧ o.data.length = 1) := by
  unfold State.HasOp; decide +kernel


/-- XFER.shed of s0 to s7 where q0 is set. -/
def shedF : CtlF := { cf 0 (.slice .w4 0) (.slice .w4 7) with toCommon := { (cf 0 (.slice .w4 0) (.slice .w4 7)).toCommon with ctl := { Ctl.plain with gp := 0 } }, cr := 0 }

/-- Three lanes, of which lane 0 takes the branch and has a valid waymark. -/
def three : State := small [{ lane 0 with preds := 1, wm := (lane 0).wm.set 1 ⟨true, 0, 0x200, 2⟩ }, lane 1, lane 2]

theorem witness_Shed :
    (let s := small [{ lane 0 with preds := 1 }]
     passes s t0 (.xferShed shedF) shedF.toCommon = true ∧ s.issue.threads = [t0]) ∧
    (let s := three
     let us : List TRef := [⟨1, 0, 1⟩, ⟨1, 0, 2⟩]
     s.issue.threads = t0 :: us ∧ 2 ≤ us.length ∧ passes s t0 (.xferShed shedF) shedF.toCommon = true ∧
       (∀ u ∈ us, s.guard u shedF.ctl = false ∧ codeCanonical ((s.thread u).pc + 16) = true ∧ ∃ y ∈ s.threads, y.id = u) ∧
       (∀ u ∈ t0 :: us, s.deterministic (s.team u.team).launch = false) ∧ ((s.thread t0).wm.getD 1 Waymark.none).valid = true ∧
       ((s.thread t0).wm.getD 1 Waymark.none).domain = s.domainOf t0 ∧ s.laybys = [] ∧ s.arrivals = [] ∧ s.armed = [] ∧
       (s.thread t0).live = true ∧ s.resident 1 = true ∧ (∀ y ∈ s.threads, y.shed = none) ∧ (s.thread t0).ret.length ≤ 4 ∧
       (∀ o ∈ s.opsOf t0, o.la = 15) ∧ s.anyPending t0 0 8 = false) := by decide +kernel


/-! ### Copies and barriers -/

/-- Nonzero bytes of a number as cells of memory. -/
def cells (a n v : Nat) : List Host.Cell :=
  ((List.range n).map fun i => (a + i, BitVec.ofNat 8 (v / 256 ^ i))).filter fun c => c.2 ≠ 0

/-- The same tile with 64 elements of 8 bits to a row. -/
def tileC (id : Nat) : Tile := { tile4 id with cols := 64, ew := 8 }

/-- A record at 0x1100 of 4 rows of 16 elements of 8 bits from 0x1200, with a box of one element. -/
def record : Nat := 0x1200 + 8 * 2 ^ 57 + 2 * 2 ^ 64 + 16 * 2 ^ 128 + 4 * 2 ^ 160 + 16 * 2 ^ 288 + 2 ^ 448 + 2 ^ 458

/-- Threads that may copy that box into tile h3: the record's address in s16:64, the coordinates 0 in s32:128, a byte
count in s0:32, the address 0x1600 of a barrier object with one arrival in s64:64; bytes to copy from 0x1200. -/
def copying (ts : List Nat) (addr : Nat := 0x1100) (n : Nat := 128) : State :=
  let s := withTile (mapped (small (ts.map fun l =>
    { lane l with slices := BitVec.ofNat 4096 (n + addr * 2 ^ 64 + 0x1600 * 2 ^ 256) })))
  { s with tiles := [tileC 30], mem := cells 0x1100 64 record ++ cells 0x1200 4 0x04030201 ++ cells 0x1600 16 (1 + 2 ^ 32) ++ s.mem }

def cpf (b : Opnd) (c : Opnd := .imm 0) (ben : Bool := false) : CopyF :=
  ⟨⟨Ctl.plain, .n32, s32d, s16, b, c⟩, false, 0, ben, ben, ben, false, 0, 3, 2⟩

def cpyF : CopyF := cpf (.slice .w128 32)
def cpysF : CopyF := cpf s0
def cpyaF : CopyF := cpf (.slice .w128 32) (.slice .w64 64) true
def cpyxF : CopyF := { cpf .zero .zero with toCommon := ⟨Ctl.plain, .n32, s32d, .zero, .zero, .zero⟩ }

/-- The checks of a copy pass, with a tile, a record and an object. -/
def checkedOk (y : Tile) (r : Nat) (b : Option BarRef) : Checked → Bool
  | .ok y' r' b' => decide (y' = y ∧ r' = r ∧ b' = b)
  | _ => false

theorem checked_of {y : Tile} {r : Nat} {b : Option BarRef} {c : Checked} (h : checkedOk y r b c = true) : c = .ok y r b := by
  cases c <;> simp_all [checkedOk]

def issued (s : State) (i : Instr) (f : CopyF) (b c : Nat) : Op × State := s.issuedOp t0 i f.toCommon (s.opnd64 t0 f.a) b c 1

theorem witness_CopiesIssue :
    let s := copying [0]
    (s.Alone t0 (.cpy cpyF) cpyF.toCommon ∧ s.queueFull 1 2 = false ∧ s.coordTrap t0 cpyF.b (recRank record) = none ∧
      s.recordReason (s.worldOf t0) (tileC 30) record true = none ∧ s.wbuf = [] ∧
      (let r := issued s (.cpy cpyF) cpyF (s.coordBits t0 cpyF.b) 0
       (r.2.checkCopy r.1 cpyF true .rmw).1 = .ok (tileC 30) record none)) ∧
    ((copying [0] 0x1200).Alone t0 (.cpys cpysF) cpysF.toCommon ∧ (tileC 30).rowWhole = true ∧
      (copying [0] 0x1200).opnd32 t0 cpysF.b ≤ (tileC 30).rows * (tileC 30).rowBytes ∧ 1 ≤ (copying [0] 0x1200).opnd32 t0 cpysF.b ∧
      (let s := copying [0] 0x1200
       let r := issued s (.cpys cpysF) cpysF 128 0
       (r.2.checkCopy r.1 cpysF false .rmw).1 = .ok (tileC 30) 0 none)) ∧
    ((copying [0] 0x1200 0).Alone t0 (.cpys cpysF) cpysF.toCommon ∧ (copying [0] 0x1200 0).opnd32 t0 cpysF.b = 0 ∧
      (copying [0] 0x1200 0).FreshOps) ∧
    (s.Alone t0 (.cpya cpyaF) cpyaF.toCommon ∧ s.armed = [] ∧
      (let r := issued s (.cpya cpyaF) cpyaF 0 0x1600
       (r.2.checkCopy r.1 cpyaF true .read).1 = .ok (tileC 30) record (some (.mem ⟨false, 0x1600⟩)) ∧
         (let q := (r.2.checkCopy r.1 cpyaF true .read).2.obj (.mem ⟨false, 0x1600⟩)
          q.malformed = false ∧ q.phase ≠ cpyaF.parity))) ∧
    (s.Alone t0 (.cpyx cpyxF) cpyxF.toCommon ∧ s.Alone t0 (.mile cpyxF) cpyxF.toCommon ∧
      s.Alone t0 (.mileFault cpyxF) cpyxF.toCommon) ∧
    (let s := { after (.cpya cpyaF) { copying [0, 1] with issue := ⟨0, 0, [⟨1, 0, 1⟩], 9⟩ } with issue := ⟨0, 0, [t0], 50⟩ }
     passes s t0 (.cpyx cpyxF) cpyxF.toCommon = true ∧ s.FreshOps ∧
       (∃ a ∈ s.armed, s.armed.find? (fun z => z.team = 1 && z.ch = 2 && z.arm = 0) = some a ∧ a.copy.op = (opIn s).id) ∧
       s.HasOp (opIn s) ∧ (opIn s).instr = .cpya cpyaF ∧ (opIn s).who ≠ t0 ∧ (opIn s).clobber = 0 ∧
       s.ops.filter (fun q => q.lead = (opIn s).id) = [opIn s] ∧ bit (opIn s).x (opIn s).who.lane = true) := by
  refine ⟨⟨alone_of (by decide +kernel) rfl, by decide +kernel, by decide +kernel, by decide +kernel, by decide, checked_of (by decide +kernel)⟩,
    ⟨alone_of (by decide +kernel) rfl, by decide +kernel, by decide +kernel, by decide +kernel, checked_of (by decide +kernel)⟩,
    ⟨alone_of (by decide +kernel) rfl, by decide +kernel, by unfold State.FreshOps; decide +kernel⟩,
    ⟨alone_of (by decide +kernel) rfl, by decide, checked_of (by decide +kernel), by decide +kernel, by decide +kernel⟩,
    ⟨alone_of (by decide +kernel) rfl, alone_of (by decide +kernel) rfl, alone_of (by decide +kernel) rfl⟩, ?_⟩
  unfold State.HasOp State.FreshOps; decide +kernel


def u0 : TRef := ⟨2, 0, 0⟩

/-- A cluster grid of two teams, each with its tile under h3, a thread that names the record, and the mask of both ranks
in s64:64. -/
def gridded : State :=
  let s := copying [0]
  let x := { lane 0 with slices := BitVec.ofNat 4096 (0x1100 * 2 ^ 64 + 3 * 2 ^ 256) }
  { s with
    threads := [x, { x with id := u0 }]
    groups := [Group.init 1 0 0 false 1024 0, Group.init 2 0 0 false 1024 0]
    teams := [{ s.team 1 with cgrid := 2 }, { s.team 1 with id := 2, index := 1, cgrid := 2 }]
    tiles := [tileC 30, { tileC 31 with team := 2 }]
    handles := [⟨1, 3, .allocated 30, none⟩, ⟨2, 3, .allocated 31, none⟩] }

def cpymF : CopyF := cpf (.slice .w128 32) (.slice .w64 64)

/-- Both teams have arrived at their CPYM. -/
def arrived : State :=
  cold (after (.cpym cpymF) { cold (after (.cpym cpymF) gridded) with issue := ⟨0, 0, [u0], 39⟩ })

def gatherIn (s : State) : Gather := s.gathers.headD ⟨0, 0, 0, 0, 0, [], gridded.newCopy (opIn gridded) cpyF .box 0 0 none⟩

def copyIn (s : State) : Copy := s.copies.headD (gatherIn s).copy

/-- The same with the second team ended before it arrived. -/
def abandoned : State :=
  let s := cold (after (.cpym cpymF) gridded)
  { s with threads := s.threads.map fun x => if x.id = u0 then { x with live := false } else x }

def movedOk : Moved → Bool
  | .ok _ _ => true
  | _ => false

theorem witness_ClusterCopies :
    (let s := gridded
     let r := s.issuedOp t0 (.cpym cpymF) cpymF.toCommon (s.opnd64 t0 cpymF.a) (s.coordBits t0 cpymF.b) 3 1
     s.Alone t0 (.cpym cpymF) cpymF.toCommon ∧ s.queueFull 1 2 = false ∧ s.FreshOps ∧ s.opnd64 t0 cpymF.c = 3 ∧
       (r.2.checkCopy r.1 cpymF true .read).1 = .ok (tileC 30) record none ∧ s.coordTrap t0 cpymF.b (recRank record) = none ∧
       s.recordReason 0 (tileC 30) record false = none ∧ State.maskOk (s.team 1) 3 = true) ∧
    (let s := arrived
     let g := gatherIn s
     s.gathers.find? (fun z => z.id = g.id) = some g ∧ g.mask = 3 ∧
       (∀ n ∈ [0, 1], (s.gatherRow g n).1.isSome = true) ∧ (s.gatherRow g 0).1.any (fun z => z.digest = g.digest) = true) ∧
    (let s := abandoned
     let g := gatherIn s
     s.gathers.find? (fun z => z.id = g.id) = some g ∧ s.gatherRow g 1 = (none, false) ∧
       (s.gatherRow g 0).1.any (fun z => z.digest = g.digest) = true) ∧
    (let s := cold (after (.cpymGather (gatherIn arrived).id) arrived)
     let c := copyIn s
     s.copy? c.id = some c ∧ (s.copies.map (·.id)).Nodup ∧ c.kind = .multi ∧ s.unitDue c = true ∧ c.nextUnit = some 0 ∧
       movedOk ((s.serve c).tryUnit c 0) = true) := by
  refine ⟨⟨alone_of (by decide +kernel) rfl, by decide +kernel, by unfold State.FreshOps; decide +kernel, by decide +kernel,
    checked_of (by decide +kernel), by decide +kernel, by decide +kernel, by decide +kernel⟩, by decide +kernel, by decide +kernel,
    by decide +kernel⟩

/-- CPYS of n bytes from an address, with the fault ring on. -/
def bytesFrom (a n : Nat) : State :=
  let s := copying [0] a n
  cold (after (.cpys cpysF) { s with worlds := s.worlds.map fun w => { w with frbase := 6 } })

/-- What a copy stops with: a reason, and whether a fault opens that it waits for. -/
def stops (s : State) (c : Copy) : Moved → Option (Nat × Bool)
  | .stop s₁ _ none r _ => some (r, s₁.faults.length != s.faults.length)
  | .stop s₁ _ (some x) r va =>
    match (s₁.openFault (.copy c.id) c.world c.domain x .read va 0 c.ch.toNat).1 with
    | .wait _ => some (r, true)
    | .deny _ => none
  | _ => none

/-- The premises on the places of an element. -/
def placed (s : State) (c : Copy) (e : Elem) : Bool :=
  match (s.elemPlaces c .read e.addrs []), (s.elemPlaces c .write e.addrs []) with
  | (.inl ls, s₁), (.inl ls', s₂) => ls.all (·.isLocal) && decide ls.Nodup && ls.all (fun l => !s₁.poisoned l) && !s₁.anyOwned ls &&
      ls' == ls && s₂.wbuf.isEmpty && memWf s₂.mem && memWf s₂.hostMem && decide ((e.vbit % 8).toNat + e.w ≤ 8 * ls.length) &&
      s₂.worlds.all fun w => w.dbmctl == 0
  | _, _ => false

theorem witness_CopyDelivery :
    (∀ s ∈ [cold (after (.cpy cpyF) (copying [0])), bytesFrom 0x1200 1],
      let c := copyIn s
      s.copy? c.id = some c ∧ (c.kind = .box ∨ c.kind = .bytes) ∧ c.bar = none ∧ c.group = 0 ∧ s.unitDue c = true ∧
        c.nextUnit = some 0 ∧ movedOk ((s.serve c).tryUnit c 0) = true) ∧
    (let s := bytesFrom 0x1200 1
     let c := copyIn s
     let y := tileC 30
     ∃ e ∈ c.unitElems y.rowBytes y.ew 0, e.inb = true ∧ e.exact = true ∧ e.w ≤ 32 ∧ s.tile? y.id = some y ∧
       (y.lines.map (·.1)).Pairwise (· < ·) ∧ y.poison = [] ∧ c.bad = [] ∧ c.seen = [] ∧ placed s c e = true) ∧
    (let s := bytesFrom 0x1200 1
     let c := copyIn s
     ∃ e ∈ c.unitElems 64 8 0, ∀ l ∈ (match (s.elemPlaces c .write e.addrs []).1 with | .inl ls => ls | _ => []),
       (l.line, c.id) ∈ ({ (s.elemPlaces c .write e.addrs []).2 with owned := [(0x24, c.id)] } : State).owned) ∧
    (∀ a ∈ [(2 ^ 60, 4, false), (0x200000, 0, true)],
      let s := bytesFrom a.1 1
      let c := copyIn s
      s.copy? c.id = some c ∧ c.kind = .bytes ∧ c.group = 0 ∧ s.unitDue c = true ∧ c.nextUnit = some 0 ∧
        stops s c (s.tryUnit c 0) = some a.2) ∧
    (let s := after (.copyDeliveryUnit (copyIn (bytesFrom 0x1200 1)).id) (bytesFrom 0x1200 1)
     let c := copyIn s
     let o := opIn s
     s.copy? c.id = some c ∧ s.copyDone c = true ∧ c.tag = none ∧ c.bar = none ∧ s.HasOp o ∧ o.id = c.op ∧ o.instr = .cpys cpysF ∧
       o.clobber = 0 ∧ s.ops.filter (fun p => p.lead = o.id) = [o] ∧ bit o.x o.who.lane = true) := by
  unfold State.HasOp; decide +kernel


/-- A barrier instruction on the object at 0x1600. -/
def brf (a : Opnd) (b : Opnd := .zero) : CopyF :=
  ⟨⟨Ctl.plain, .n32, s32d, a, b, .slice .w64 64⟩, false, 0, false, true, true, false, 0, 0, 0⟩

/-- The object at 0x1600 as given. -/
def object (v : Nat) : State :=
  let s := copying [0]
  { s with mem := cells 0x1100 64 record ++ cells 0x1600 16 v ++ (mapped one).mem }

def namedOk (q : BarRef) : Named → Bool
  | .ok q' => decide (q' = q)
  | _ => false

theorem named_of {q : BarRef} {c : Named} (h : namedOk q c = true) : c = .ok q := by
  cases c <;> simp_all [namedOk]

/-- The name of the object as an instruction finds it at its issue. -/
def names (s : State) (i : Instr) (f : CopyF) (a b : Nat) (acc : Acc) : Named :=
  let r := s.issuedOp t0 i f.toCommon a b (s.barOpnd t0 f) 0
  (r.2.nameObject (r.2.opCtx r.1) 1 f acc (s.barOpnd t0 f)).1

/-- A wait on the object at 0x1600 for the end of phase 0: before it has begun, while it stands, and once it is released. -/
def waiting (b : Option Bool) : State :=
  let s := object (1 + 2 ^ 32)
  { s with threads := s.threads.map fun x => { x with bwait := b.map fun r => ⟨x.pc, .mem ⟨false, 0x1600⟩, false, r, false, 0⟩ } }

theorem witness_BarrierInstructionsIssue :
    let f := brf (.imm 1) (.imm 1)
    let w := brf (.imm 0x100)
    let v := brf (.imm 0)
    let q := BarRef.mem ⟨false, 0x1600⟩
    let s := object (1 + 2 ^ 32)
    (s.Alone t0 (.binit f) f.toCommon ∧ s.Alone t0 (.barr f) f.toCommon ∧ s.Alone t0 (.bexp f) f.toCommon ∧
      names s (.binit f) f 1 1 .rmw = .ok (.mem ⟨false, 0x1600⟩)) ∧
    (s.Alone t0 (.bwait w) w.toCommon ∧ s.Alone t0 (.btest w) w.toCommon ∧
      names s (.bwait w) w 0x100 0 .read = .ok q ∧ s.bwaitObj t0 w = .ok q ∧ (s.thread t0).bwait = none ∧ q.peer = false ∧
      s.objOwned q = false ∧ (objOf (s.objSeen 0 q)).phase ≠ (0x100 : Nat).testBit 8) ∧
    (∀ b ∈ [none, some false, some true], passes (waiting b) t0 (.bwait v) v.toCommon = true ∧ namedOk q ((waiting b).bwaitObj t0 v) = true ∧
      (waiting b).opnd32 t0 v.a = 0 ∧ (objOf ((waiting b).objSeen 0 q)).malformed = false ∧
      (objOf ((waiting b).objSeen 0 q)).phase = false) ∧
    ((waiting none).thread t0).bwait = none ∧
    (∀ b ∈ [false, true], ∃ z, ((waiting (some b)).thread t0).bwait = some z ∧ z.pc = ((waiting (some b)).thread t0).pc ∧ z.obj = q ∧
      z.released = b ∧ z.asked = q.peer) := by
  refine ⟨⟨alone_of (by decide +kernel) rfl, alone_of (by decide +kernel) rfl, alone_of (by decide +kernel) rfl, named_of (by decide +kernel)⟩,
    ⟨alone_of (by decide +kernel) rfl, alone_of (by decide +kernel) rfl, named_of (by decide +kernel), named_of (by decide +kernel),
     by decide +kernel, by decide +kernel, by decide +kernel, by decide +kernel⟩, by decide +kernel, by decide +kernel,
    fun b _ => ⟨⟨0x1000, .mem ⟨false, 0x1600⟩, false, b, false, 0⟩, rfl, rfl, rfl, rfl, rfl⟩⟩

/-- The premises of a barrier update: the instruction, the object's number before it, and its operands. -/
def updates (i : Instr) (v a b : Nat) : Bool :=
  let s := after i (object v)
  let o := opIn s
  decide (s.op? o.id = some o) && s.threads.any (fun x => x.id = o.who) && decide (o.clobber = 0 ∧ (s.thread o.who).trap = none ∧
    o.instr = i ∧ o.phase = .pending ∧ s.armed = [] ∧ s.deterministic 2 = false ∧ s.log? 2 = none ∧ o.obj = .mem ⟨false, 0x1600⟩ ∧
    o.a = a ∧ o.b = b) && s.barrierDue o && memWf s.mem && memWf s.hostMem && s.worlds.all (fun w => w.dbmctl == 0) &&
    ((List.range 16).all fun j => ((Loc.mk false 0x1600).add j).isLocal) && decide (s.objGet o.obj = v)

theorem witness_BarrierUpdates :
    updates (.binit (brf (.imm 1) (.imm 5))) (1 + 2 ^ 32) 1 5 = true ∧
      updates (.bexp (brf (.imm 7))) (1 + 2 ^ 32 + 9 * 2 ^ 64) 7 0 = true ∧
      updates (.bexp (brf (.imm 7))) (1 + 2 ^ 32 + 0xFFFFFFFE * 2 ^ 64) 7 0 = true ∧
      updates (.barr (brf (.imm 1))) (2 + 2 * 2 ^ 32) 1 0 = true ∧
      updates (.barr (brf (.imm 2))) (2 + 2 * 2 ^ 32) 2 0 = true ∧
      updates (.barr (brf (.imm 3))) (2 + 2 * 2 ^ 32) 3 0 = true ∧
      (let s := after (.bwait (brf (.imm 0))) (waiting (some true))
       s.HasOp (opIn s) ∧ (opIn s).instr = .bwait (brf (.imm 0)) ∧ (opIn s).phase = .result ∧ (opIn s).data.length = 1) ∧
      (∀ i ∈ [Instr.btest (brf (.imm 0x100)), .bwait (brf (.imm 0x100))],
        let s := after i (object (1 + 2 ^ 32))
        s.HasOp (opIn s) ∧ (opIn s).instr = i ∧ (opIn s).phase = .pending ∧ s.barrierDue (opIn s) = true ∧ (opIn s).clobber = 0 ∧
          (s.thread t0).trap = none ∧ (opIn s).obj = .mem ⟨false, 0x1600⟩ ∧ s.objSeen 0 (opIn s).obj = 1 + 2 ^ 32) ∧
      (let s := after (.cpya cpyaF) (copying [0])
       let z := s.armed.headD ⟨0, 0, 0, false, .mem ⟨false, 0⟩, copyIn s⟩
       let q := BarRef.mem ⟨false, 0x1600⟩
       s.armed = [z] ∧ z.trigger = q ∧ z.copy.team = z.team ∧ z.copy.ch = z.ch ∧ z.parity = !(s.obj q).phase ∧
         (s.obj q).arrivals ≠ 0 ∧ (s.obj q).bytes = 0 ∧ (s.obj q).reload < 2 ^ 32) := by
  unfold State.HasOp; decide +kernel


/-! ### Products -/

def mmaF : MatF := ⟨⟨Ctl.plain, .f16, ⟨.w128, 512⟩, .slice .w128 0, .slice .w128 256, .slice .w128 512⟩, 0, 0, 0, 2, 0, 0⟩
def halves : MatPair := ⟨.real, .f16, none, none, .rne⟩

/-- A released team MMA of one thread. -/
def released : State := { one with mmas := [⟨8, 1, 2, [(t0, .mma mmaF)], true, false⟩] }

theorem witness_TeamProducts :
    (released.Alone t0 (.mma mmaF) mmaF.toCommon ∧ released.mmaOf t0 = some ⟨8, 1, 2, [(t0, .mma mmaF)], true, false⟩ ∧
      released.matHeld 0 mmaF = false ∧ released.matPair 0 mmaF = some halves ∧
      mmaOverlapOk mmaF (8 * halves.ea) (4 * halves.eb) = true ∧ mmaTop mmaF halves.ea halves.eb ≤ (released.groupOf t0).budget ∧
      mmaAgrees mmaF (.mma mmaF) = true) ∧
    (let s := converging ⟨0, false, 0⟩
     s.Alone t0 (.mma mmaF) mmaF.toCommon ∧ s.mmaOf t0 = none ∧ ((s.team 1).cregs.getD 2 ⟨0, false, 0⟩).set.getLsbD 0 = false ∧
       (s.thread t0).joins = false) ∧
    (let s := converging2 ⟨1, false, 0⟩
     let r := (s.team 1).cregs.getD 2 ⟨0, false, 0⟩
     s.Alone t0 (.mma mmaF) mmaF.toCommon ∧ s.mmaOf t0 = none ∧ 2 < (s.team 1).cregs.length ∧ (s.mmas.map (·.id)).Nodup ∧
       (∃ y ∈ s.teams, y.id = 1) ∧ r.set.getLsbD 0 = true ∧ (s.thread t0).await.getLsbD 2 = false ∧ r.signed.getLsbD 0 = false ∧
       ∃ y ∈ s.threads, y.live = true ∧ y.id.team = 1 ∧ y.id ≠ t0 ∧ y.id.lane < 32 ∧ r.set.getLsbD y.id.gid = true ∧
         r.signed.getLsbD (32 * y.id.gid + y.id.lane) = false) ∧
    (let s := after (.mma mmaF) released
     ∃ g ∈ s.mmas, s.mmas.find? (fun z => z.id = g.id) = some g ∧ s.mmaDue g = true ∧ ((s.mmaOps g).map (·.who)).Nodup ∧
       (∀ o ∈ s.mmaOps g, o.instr = .mma mmaF ∧ o.clobber = 0 ∧ s.matPair (s.worldOf o.who) mmaF = some halves ∧
         s.op? o.id = some o ∧ (∃ x ∈ s.threads, x.id = o.who) ∧ 0 ≤ o.who.gid ∧ o.who.gid < 32) ∧
       ∃ o ∈ s.mmaOps g, o.who.gid = 0) := by
  refine ⟨⟨alone_of (by decide +kernel) rfl, by decide +kernel⟩, ⟨alone_of (by decide +kernel) rfl, by decide +kernel⟩,
    ⟨alone_of (by decide +kernel) rfl, by decide +kernel⟩, by decide +kernel⟩

/-- A tile of zeros. -/
def blank (id rows cols ew : Nat) : Tile := { tile4 id with rows := rows, cols := cols, ew := ew, lines := [] }

/-- A of 2 by 4 and B of 4 by 2 in f16, with ones in their first elements, and C of 2 by 2. -/
def products (ts : List Nat) : State :=
  { small (ts.map lane) with
    ids := 40
    tiles := [{ blank 30 2 4 16 with lines := [(0, 0x3C00)] }, { blank 31 4 2 16 with lines := [(0, 0x3C00)] }, blank 32 2 2 32]
    handles := [⟨1, 1, .allocated 30, none⟩, ⟨1, 2, .allocated 31, none⟩, ⟨1, 3, .allocated 32, none⟩] }

def tmmaF (ty : Ty := .f16) (hc : BitVec 8 := 3) : MatF := ⟨⟨Ctl.plain, ty, s32d, .imm 0, .zero, .zero⟩, hc, 2, 1, 0, 0, 0⟩
def mfinF : MatF := ⟨⟨Ctl.plain, .n32, s32d, .zero, .zero, .zero⟩, 3, 0, 0, 0, 0, 0⟩
def shapes (a b c : Tile) : Bool := decide (a.cols = b.rows) && decide (a.rows = c.rows) && decide (b.cols = c.cols)

def productOk (e : Except (BitVec 8) Product) (y : Product) : Bool :=
  match e with
  | .ok z => decide (z = y)
  | .error _ => false

def productErr (e : Except (BitVec 8) Product) : Option (BitVec 8) :=
  match e with
  | .ok _ => none
  | .error r => some r

/-- TMMA of lane 0 and MFIN of lane 1 are incomplete. -/
def finishing : State :=
  after (.mfin mfinF) { after (.tmma tmmaF) { products [0, 1] with issue := ⟨0, 0, [t0], 9⟩ } with issue := ⟨0, 0, [t1], 39⟩ }

theorem witness_TileProducts :
    let s := products [0]
    let y : Product := ⟨{ blank 30 2 4 16 with lines := [(0, 0x3C00)] }, { blank 31 4 2 16 with lines := [(0, 0x3C00)] },
      blank 32 2 2 32, none, none, [], 0⟩
    (s.Alone t0 (.tmma tmmaF) tmmaF.toCommon ∧ s.matHeld 0 tmmaF = false ∧ s.matPair 0 tmmaF = some halves ∧
      productOk (s.product 1 tmmaF halves (s.opnd32 t0 tmmaF.a) shapes) y = true) ∧
    (s.Alone t0 (.tmma (tmmaF .f16 9)) tmmaF.toCommon ∧
      productErr (s.product 1 (tmmaF .f16 9) halves (s.opnd32 t0 tmmaF.a) shapes) = some 1) ∧
    (s.Alone t0 (.tmma (tmmaF .slot)) (tmmaF .slot).toCommon ∧ s.matHeld 0 (tmmaF .slot) = false ∧ s.matPair 0 (tmmaF .slot) = none) ∧
    (s.Alone t0 (.mfin mfinF) mfinF.toCommon ∧ (s.tileOf 1 mfinF.hc).toOption = some (blank 32 2 2 32)) ∧
    (let s := { after (.tmma tmmaF) { products [0, 1] with issue := ⟨0, 0, [t0], 9⟩ } with issue := ⟨0, 0, [t1], 39⟩ }
     passes s t1 (.mfin mfinF) mfinF.toCommon = true ∧
       ((s.ops.filter fun o => o.isProduct && o.who.team = 1 && o.tiles.getD 2 0 = 32).map (·.id)) ≠ []) ∧
    (let s := after (.tmma tmmaF) (products [0])
     let o := opIn s
     s.HasOp o ∧ o.instr = .tmma tmmaF ∧ o.isProduct = true ∧ s.productBehind o = false ∧ s.resident 1 = true ∧ o.clobber = 0 ∧
       s.oldTiles o.id = [] ∧ s.productNow o = some y ∧ y.c.ew = 32 ∧ (y.c.lines.map (·.1)).Pairwise (· < ·) ∧ y.a.poison = [] ∧ y.b.poison = [] ∧
       y.c.poison = []) ∧
    (let s := finishing
     let o := opIn s
     ∃ m ∈ s.ops, s.op? m.id = some m ∧ (∃ x ∈ s.threads, x.id = m.who) ∧ m.instr = .mfin mfinF ∧ m.data = [o.id] ∧ m.x = 0 ∧
       m.clobber = 0 ∧ m.who ≠ o.who ∧ s.HasOp o ∧ s.productNow o = some y) := by
  refine ⟨⟨alone_of (by decide +kernel) rfl, by decide +kernel⟩, ⟨alone_of (by decide +kernel) rfl, by decide +kernel⟩,
    ⟨alone_of (by decide +kernel) rfl, by decide +kernel⟩, ⟨alone_of (by decide +kernel) rfl, by decide +kernel⟩, ?_⟩
  unfold State.HasOp; decide +kernel


/-- A cluster grid of 64 teams of one thread, whose phase of register 2 is complete, with tiles of 128 by 32, 32 by 128 and
128 by 128 under h1, h2 and h3. -/
def cluster64 : State :=
  let ns := List.range 64
  let x := fun n => { lane 0 with id := ⟨n + 1, 0, 0⟩, await := 4, sphase := 4 }
  { small [x 0] with
    ids := 1000
    threads := ns.map x
    groups := ns.map fun n => Group.init (n + 1) 0 0 false 1024 0
    teams := ns.map fun n => { small [lane 0] |>.team 1 with id := n + 1, index := n, core := n, cgrid := 64,
                                                             cregs := List.replicate 16 ⟨1, false, 0⟩, started := 1 }
    tiles := ns.flatMap fun n =>
      [{ blank (100 + n) 128 32 16 with team := n + 1 }, { blank (200 + n) 32 128 16 with team := n + 1 },
       { blank (300 + n) 128 128 32 with team := n + 1 }]
    handles := ns.flatMap fun n =>
      [⟨n + 1, 1, .allocated (100 + n), none⟩, ⟨n + 1, 2, .allocated (200 + n), none⟩, ⟨n + 1, 3, .allocated (300 + n), none⟩] }

def tmmacF : MatF := { tmmaF with cr := 2 }

/-- The grid with the first n teams waiting at their TMMAC, met or not. -/
def waiting64 (met : Option Nat) : State :=
  let s := cluster64
  let o := opIn (after (.tmmac tmmacF) cluster64)
  let ns := List.range 64
  { s with
    ids := 3000
    ops := ns.map fun n => { o with id := 2000 + n, lead := 2000 + n, iss := 1000 + n, who := ⟨n + 1, 0, 0⟩, x := 1,
                                    tiles := [100 + n, 200 + n, 300 + n] }
    tmmacs := ns.map fun n => ⟨2100 + n, 2000 + n, n + 1, 1, [7], met⟩ }

/-- The first team of the grid, some TMMACs changed and only the first n teams there: the set meets and fails. -/
def failing64 (g : Tmmac → Tmmac) (n : Nat) : Bool :=
  let s := { waiting64 none with tmmacs := ((waiting64 none).tmmacs.take n).map g, threads := (waiting64 none).threads.take n }
  match s.tmmacs, s.ops with
  | x :: _, o :: _ => decide (s.tmmacs.find? (fun z => z.id = x.id) = some x) && s.tmmacMeets x &&
      ((s.tmmacGrid x).any s.tmmacGone || s.tmmacs.any fun y => decide (y.digest ≠ x.digest)) &&
      decide (s.op? o.id = some o ∧ o.id = x.op ∧ o.instr = .tmmac tmmacF ∧ o.clobber = 0) &&
      decide (s.ops.filter (fun q => q.lead = o.id) = [o]) && bit o.x o.who.lane && decide (s.ops.map (·.who)).Nodup
  | _, _ => false

theorem witness_ClusterProducts :
    (let s := cluster64
     let y : Product := ⟨blank 100 128 32 16, blank 200 32 128 16, blank 300 128 128 32, none, none, [], 0⟩
     passes s t0 (.tmmac tmmacF) tmmacF.toCommon = true ∧ s.issue.threads = [t0] ∧ s.inSet t0 2 = true ∧
       (s.thread t0).await.getLsbD 2 = true ∧ s.phaseOpen t0 2 = false ∧ s.matHeld 0 tmmacF = false ∧
       s.matPair 0 tmmacF = some halves ∧ productOk (s.product 1 tmmacF halves (s.opnd32 t0 tmmacF.a) tmmacShape) y = true ∧
       (s.team 1).cgrid = 64 ∧ ∀ o ∈ s.ops, o.iss ≠ s.issue.id) ∧
    (let s := waiting64 none
     ∃ x ∈ s.tmmacs, s.tmmacs.find? (fun z => z.id = x.id) = some x ∧ s.tmmacMeets x = true ∧
       (s.tmmacGrid x).any s.tmmacGone = false) ∧
    (failing64 (fun y => if y.team = 9 then { y with digest := [8] } else y) 64 = true ∧ failing64 id 63 = true) ∧
    (let s := waiting64 (some 5)
     let os := (s.metMembers 5).filterMap fun x => s.op? x.op
     let ps := os.filterMap s.productNow
     s.tmmacDue 5 = true ∧ ps.length = 64 ∧ (∀ o ∈ os, o.instr = .tmmac tmmacF ∧ s.matPair (s.worldOf o.who) tmmacF = some halves) ∧
       (ps.map (·.c.id)).Nodup ∧ (os.map (·.who)).Nodup ∧ os.all (fun o => decide (s.op? o.id = some o ∧ o.clobber = 0 ∧
         s.ops.filter (fun q => q.lead = o.id) = [o]) && bit o.x o.who.lane && s.threads.any (·.id = o.who)) = true ∧
       ps.all (fun y => y.old.isEmpty && decide (y.c.ew = 32) && y.c.lines.isEmpty && y.a.poison.isEmpty && y.b.poison.isEmpty &&
         y.c.poison.isEmpty && y.sa.isNone && y.sb.isNone) = true) := by
  decide +kernel


/-! ### Background of memory, and formats -/

/-- A load that waits for a line that nobody owns. -/
def recalled : State :=
  let s := after (.ld ldF) (at_ 0x1100)
  { s with ops := s.ops.map fun o => { o with phase := .recall } }

/-- A stack window of the group with the lines ls, and a thread whose stack holds line 0x3E. -/
def windowed (ls : List WinLine) : State := { stacked 7 with windows := [⟨0, 1, 0, ls⟩] }

theorem witness_MemoryBackground :
    (let s := recalled
     let o := opIn s
     s.HasOp o ∧ o.phase = .recall ∧ o.instr = .ld ldF ∧ o.lead = o.id ∧ o.nextLine = some 34 ∧ s.anyOwned o.locs = false ∧
       (∀ l ∈ o.locs, l.isPeer = false ∧ l.addr < 2 ^ 60) ∧ ldF.order = .relaxed) ∧
    (let s := windowed []
     s.stackThread 1 0 0x1F00 = some t0 ∧ canonical 0x1F00 = true ∧ s.window? 1 0 = some ⟨0, 1, 0, []⟩ ∧
       (s.translate (s.xctx t0) .read 0x1F00).1 = .ok ⟨false, 0x1F00⟩ ∧ (Loc.mk false 0x1F00).isLocal = true) ∧
    (let x : WinLine := ⟨0x3E, 0x3E, 0⟩
     let s := windowed [x]
     let s₀ := s.setWindow 1 0 fun y => { y with lines := y.lines.filter (· ≠ x) }
     s.stackThread 1 0 0x1F00 = some t0 ∧ s.window? 1 0 = some ⟨0, 1, 0, [x]⟩ ∧ s.furthest ⟨0, 1, 0, [x]⟩ = some x ∧
       (s₀.translate (s₀.xctx t0) .write 0x1F00).1 = .ok ⟨false, 0x1F00⟩) := by
  unfold State.HasOp; decide +kernel

/-- A word of the format class on slot 0. -/
def ff (ty : Ty) (d : Dst) (a : Opnd) (subop : BitVec 4 := 0) : FmtF := ⟨⟨Ctl.plain, ty, d, a, .zero, .zero⟩, 31, 30, subop, .rne, 0⟩

def cviF : FmtF := ff .f32 s32d a8
def cvoF : FmtF := ff .f32 d8 s0
def quantF : FmtF := ff .f32 s32d (.imm 32)

/-- Tiles of 2 by 4 under h30 (b bits an element) and h31 (8 bits), and a scale tile of 2 by 4 under h32. -/
def quants (b1 b2 : Nat) : State :=
  { withSlot (small [lane 0]) with
    ids := 40
    tiles := [blank 30 2 4 b1, blank 31 2 4 b2, blank 32 2 4 8]
    handles := [⟨1, 30, .allocated 30, none⟩, ⟨1, 31, .allocated 31, none⟩, ⟨1, 32, .allocated 32, none⟩] }

def quantOk (e : Except (BitVec 8) (Tile × Tile × Option Tile)) (y : Tile × Tile × Option Tile) : Bool :=
  match e with
  | .ok z => decide (z = y)
  | .error _ => false

theorem witness_FormatConversions :
    (let s := withSlot (with2 0x38 0x3F800000)
     let sl := s.slot 0 0
     s.Alone t0 (.fcvti cviF) cviF.toCommon ∧ s.Alone t0 (.fcvto cvoF) cvoF.toCommon ∧ sl.none? = false ∧
       slotOpndOk sl.form.ew cviF.a = true ∧ sl.form.offers (sl.effRm cvoF.rm) = true ∧ cvoF.d.w = slotWd sl.form.ew) ∧
    (∀ q ∈ [true, false], let i := if q then Instr.fqnt quantF else .fdqnt quantF
      let s := if q then quants 32 8 else quants 8 32
      s.Alone t0 i quantF.toCommon ∧
        quantOk (s.quantTiles 1 quantF 8 q (s.opnd32 t0 quantF.a))
          (blank 30 2 4 (if q then 32 else 8), blank 31 2 4 (if q then 8 else 32), some (blank 32 2 4 8)) = true) ∧
    (∀ i ∈ [Instr.fcvti cviF, .fcvto cvoF, .fqnt quantF, .fdqnt quantF], one.Runs t0 i cviF.toCommon) ∧
      (one.slot 0 0).none? = true ∧
    (∀ e ∈ [(Instr.fcvti cviF, 0), (.fcvto cvoF, 1)],
      let s := after e.1 (withSlot (with2 0x38 0x3F800000))
      let o := opIn s
      s.HasOp o ∧ o.clobber = 0 ∧ o.instr = e.1 ∧ o.phase = .result ∧ o.data.length = 2 ∧ (s.thread o.who).trap = none) ∧
    (∀ q ∈ [true, false], let i := if q then Instr.fqnt quantF else .fdqnt quantF
      let s := after i (if q then quants 32 8 else quants 8 32)
      let o := opIn s
      s.HasOp o ∧ o.clobber = 0 ∧ o.phase = .queued ∧ o.tiles = [30, 31, 32] ∧ o.instr = i ∧ s.oldTiles o.id = []) := by
  have h : ∀ q ∈ [true, false], passes (if q then quants 32 8 else quants 8 32) t0 (if q then Instr.fqnt quantF else .fdqnt quantF)
      quantF.toCommon = true := by decide +kernel
  have g : ∀ i ∈ [Instr.fcvti cviF, .fcvto cvoF, .fqnt quantF, .fdqnt quantF], passes one t0 i cviF.toCommon = true := by
    decide +kernel
  refine ⟨⟨alone_of (by decide +kernel) rfl, alone_of (by decide +kernel) rfl, by decide +kernel⟩,
    fun q m => ⟨alone_of (h q m) (by cases q <;> rfl), by revert q; decide +kernel⟩, fun i m => (passes_of (g i m)).toRuns, ?_⟩
  unfold State.HasOp; decide +kernel

/-- The partition of bring-up, in which world 0 is resident. -/
def part0 : Partition := ⟨0, BitVec.ofNat 1024 (2 ^ 513 - 1), some 0, 0, none, 0, (0, 0), false, 0, 0, true⟩

/-- World 0 is here. -/
def here (s : State) : State := { s with parts := [part0] }

def fldF : FmtF := ff .n32 s32d s16
def fmdF (a : Opnd) : FmtF := ff .n32 s32d a
def fstF : FmtF := ff .n64 ⟨.w64, 40⟩ .zero

/-- The load of an image at 0x1100 into slot 0 has a job at a stage, and the slot a state. -/
def loading (i : Instr) (stage : Nat) (x : Option SlotState) : State :=
  let s := after i (here (withSlot (at_ 0x1100 1)))
  { s with
    slots := s.slots.map fun y => match x with | some x => { y with state := x } | none => y
    slotQ := s.slotQ.map fun (j : SlotJob) => { j with stage := stage, sheet := sheet8 } }

def jobIn (s : State) : SlotJob := s.slotQ.headD ⟨0, 0, 0, 0, 0, 0, 0, 0, 0, 0, 0, [], 0, none⟩

/-- The image's 128 and its stated bytes are readable. -/
def imageReadable (s : State) (j : SlotJob) : Bool :=
  match s.translateRun { core := j.core, lane := none, world := j.world, domain := j.domain } .read j.addr 128 [] with
  | (.inl ls, s₁) =>
    let head := ls.map (s₁.seenByte j.core)
    let len := if imageLengthOk (imageLength head) = true then imageLength head else 128
    canonical (j.addr + BitVec.ofNat 64 (len - 1)) && match s₁.translateRun
      { core := j.core, lane := none, world := j.world, domain := j.domain } .read j.addr (len - 128) ls.reverse with
    | (.inl ls₂, s₂) => ls₂.all fun l => !s₂.poisoned l && !s₂.broken l.line
    | _ => false
  | _ => false

theorem witness_FormatSlots :
    (∀ a ∈ [0x1100, 0x1110, 2 ^ 60], (at_ a).Alone t0 (.fload fldF) fldF.toCommon ∧ (at_ a).FreshOps) ∧
      (at_ 0x1100).slotJobs 0 0 = [] ∧
    (let s := here (at_ 0 1)
     let y := withSlot s
     y.slotJobs 0 0 = [] ∧ y.worldHere 0 = true ∧ (y.slot 0 0).pending = false ∧ y.tmmacs = [] ∧
       s.Alone t0 (.floadClr fldF) fldF.toCommon ∧ (s.slot 0 0).state = .empty ∧ y.Alone t0 (.floadClr fldF) fldF.toCommon ∧
       (y.slot 0 0).state ≠ .empty ∧ s.Alone t0 (.fmode (fmdF s0)) (fmdF s0).toCommon ∧
       y.Alone t0 (.fmode (fmdF s0)) (fmdF s0).toCommon ∧ optionsOk (y.slot 0 0).form (y.opnd32 t0 s0) = true ∧
       y.Alone t0 (.fmode (fmdF (.imm 8))) (fmdF (.imm 8)).toCommon ∧ optionsOk (y.slot 0 0).form (y.opnd32 t0 (.imm 8)) = false ∧
       y.Alone t0 (.fstat fstF) fstF.toCommon ∧ y.Alone t0 (.fstatHash fstF) fstF.toCommon ∧ y.Alone t0 (.fsync fldF) fldF.toCommon) ∧
    (∀ i ∈ [Instr.fstat fstF, .fstatHash fstF, .fsync fstF],
      let s := after i (withSlot one)
      let o := opIn s
      s.HasOp o ∧ o.clobber = 0 ∧ o.instr = i ∧ (∀ j ∈ s.slotQ, j.id ∉ o.data) ∧
        (o.phase = .result ∧ o.data.length = 1 ∨ o.phase = .pending)) ∧
    (∀ e ∈ [(Instr.fload fldF, 0, some SlotState.empty), (.fload fldF, 2, some .draining), (.floadClr fldF, 2, none),
        (.fmode (fmdF s0), 2, none), (.fload fldF, 3, some .reconfiguring)],
      let s := loading e.1 e.2.1 e.2.2
      let o := opIn s
      let j := jobIn s
      s.HasOp o ∧ o.clobber = 0 ∧ j.op = o.id ∧ o.instr = e.1 ∧ s.slotQ.find? (fun z => z.id = j.id) = some j ∧
        s.slotQ.filter (fun z => z.id = j.id) = [j] ∧ s.slotJobs j.world j.f = [j] ∧ s.worldHere j.world = true ∧ s.tmmacs = [] ∧
        (e.2.1 = 0 → s.verifyDue j = true ∧ imageReadable s j = true) ∧
        (e.2.1 = 2 → s.drainDue j.world j.f = true) ∧ (e.2.1 = 3 → j.stage = 3 ∧ (s.slot 0 0).state = .reconfiguring)) ∧
    (let s : State := { here one with slots := [⟨0, 0, .reconfiguring, sheet8, 0, 0, false, 1, 0⟩] }
     s.reloadDue 0 0 = true ∧ s.slotJobs 0 0 = []) := by
  have h : ∀ a ∈ [0x1100, 0x1110, 2 ^ 60], passes (at_ a) t0 (.fload fldF) fldF.toCommon = true := by decide +kernel
  refine ⟨fun a m => ⟨alone_of (h a m) rfl, by unfold State.FreshOps; exact fun o m => nomatch m⟩, by decide,
    ⟨by decide, by decide +kernel, by decide +kernel, by decide, alone_of (by decide +kernel) rfl, by decide +kernel,
     alone_of (by decide +kernel) rfl, by decide +kernel, alone_of (by decide +kernel) rfl, alone_of (by decide +kernel) rfl,
     by decide +kernel, alone_of (by decide +kernel) rfl, by decide +kernel, alone_of (by decide +kernel) rfl,
     alone_of (by decide +kernel) rfl, alone_of (by decide +kernel) rfl⟩, ?_⟩
  unfold State.HasOp; decide +kernel


/-! ### Spawning, work lists and launches -/

theorem fresh_of {s : State} (h : s.ops = []) : s.FreshOps := by
  intro o m; rw [h] at m; cases m

/-- A launch record: descriptor 0x1400, one team of 32 threads of 64 slices, completion record 0x1500, stacks from 0x4000, for
spawned groups four from 0x8000. -/
def record1 : Nat :=
  0x1400 + 2 ^ 128 + 2 ^ 160 + 2 ^ 176 + 31 * 2 ^ 224 + 2 * 2 ^ 254 + 2 ^ 332 + 0x1500 * 2 ^ 384 + 0x4000 * 2 ^ 544 + 0x8000 * 2 ^ 608 +
    4 * 2 ^ 672

/-- Its descriptor: entry 0x3000, 32 stack bytes and 16 spill bytes a thread. -/
def descriptor1 : Nat := 0x3000 + 2 ^ 64 + 31 * 2 ^ 80 + 2 * 2 ^ 118 + 32 * 2 ^ 192 + 16 * 2 ^ 224

/-- The launch of team 1 is that one, in world 0, which is bound, runs and has room for frames. -/
def launched (s : State) : State :=
  { here s with
    launches := s.launches.map fun l => { l with record := BitVec.ofNat 1024 record1, kd := BitVec.ofNat 1024 descriptor1 }
    worlds := s.worlds.map fun w => { w with bound := true, tdi := .run, ctxsize := 0xFFFFFFF000 } }

def wf (d : Dst) (a : Opnd) (b c : Opnd := .zero) (nargs : BitVec 7 := 0) : SpawnF := ⟨⟨Ctl.plain, .n32, d, a, b, c⟩, 0, nargs⟩

/-- SPAWN at s16:64 with the argument bytes s0 to s7. -/
def spawnF : SpawnF := wf s32d s16 (.slice .w4 0) .zero 4

/-- A lay-by of that thread's cluster with a number and entry. -/
def laybyOf (s : State) (n : Nat) (entry : W64) : Layby := ⟨7, 0, some n, 0, 0, 2, entry, [⟨entry, 0, 8, [1, 2, 3, 4], 0⟩], s.clock, false⟩

def formed1 : Formed := ⟨8, 0, 3, 0, 0, 2, 0x2000, [⟨0x2000, 0, 8, [1, 2, 3, 4], 0⟩], 0⟩

theorem witness_Spawning :
    (∀ a ∈ [0x2000, 0x2008, 2 ^ 62], ∀ s ∈ [at_ a 5, launched (at_ a 5)], s.Alone t0 (.spawn spawnF) spawnF.toCommon) ∧
      (at_ 0 0).deterministic 2 = false ∧ bits ((at_ 0 0).launchRec 2) 672 16 = 0 ∧ bits ((launched (at_ 0 0)).launchRec 2) 672 16 ≠ 0 ∧
    (let s := { at_ 0x2000 with groups := [Group.init 1 0 0 false 132 0] }
     let f : SpawnF := { wf s32d s16 (.slice .w4 128) .zero 4 with nargs := 4 }
     s.Alone t0 (.spawn f) f.toCommon ∧ (s.groupOf t0).budget < f.b.start + 2 * f.nargs.toNat) ∧
    (let s := after (.spawn spawnF) (launched (at_ 0x2000 5))
     let o := opIn s
     let q := { s with ops := s.ops.map fun p => { p with phase := .queued }, arrivals := [.spawn o.id] }
     s.HasOp o ∧ o.clobber = 0 ∧ o.instr = .spawn spawnF ∧ o.phase = .pending ∧ s.spawnDue o = true ∧ s.laybys = [] ∧
       q.HasOp (opIn q) ∧ (opIn q).instr = .spawn spawnF ∧ q.shedNext (q.clusterOf t0) = none ∧
       (q.waitingIn (q.clusterOf t0)).head? = some (.spawn (opIn q).id) ∧ q.HasOp (opIn q) ∧ s.arrivals = [] ∧
       (let l := laybyOf s 5 0x2000
        l.cluster = s.clusterOf o.who ∧ l.domain = o.domain ∧ l.entry = BitVec.ofNat 64 o.a ∧
          { s with laybys := [l] }.spawnDue o = true)) ∧
    (let s := { launched (at_ 0) with laybys := [laybyOf one 5 0x2000] }
     s.timerDue (laybyOf one 5 0x2000) = true) ∧
    (let s := { launched (at_ 0) with formed := [formed1] }
     s.formed.find? (fun z => z.id = formed1.id) = some formed1 ∧ (s.formedRoom formed1 9).isSome = true ∧
       (∀ y ∈ s.threads, y.id.team < s.ids) ∧ (∀ y ∈ s.groups, y.team < s.ids) ∧ ∀ y ∈ s.teams, y.id < s.ids) := by
  have h : ∀ a ∈ [0x2000, 0x2008, 2 ^ 62], ∀ s ∈ [at_ a 5, launched (at_ a 5)], passes s t0 (.spawn spawnF) spawnF.toCommon = true ∧
      s.issue.threads = [t0] := by decide +kernel
  refine ⟨fun a m s n => alone_of (h a m s n).1 (h a m s n).2, by decide +kernel, by decide +kernel, by decide +kernel,
    ⟨alone_of (by decide +kernel) (by decide +kernel), by decide +kernel⟩, ?_⟩
  unfold State.HasOp; decide +kernel

/-- A work list set of one list of 16 items at 0x1200, of which `head` are taken and `tail` appended. -/
def listed (head tail : Nat) : State :=
  let s := at_ 0x1200 5
  { s with mem := cells 0x1200 1 4 ++ cells 0x1280 16 (head + tail * 2 ^ 64) ++ cells 0x1300 8 0x77 ++ s.mem }

def wputF : SpawnF := wf s32d s16 (.imm 0) (.slice .w64 64)
def wtakeF : SpawnF := wf ⟨.w128, 64⟩ s16
def qidleF : SpawnF := wf s32d s16

/-- The set comes into use, and the control line of list 0 is translated. -/
def namesList (s : State) (i : Instr) (f : SpawnF) (b c : Nat) : Bool :=
  let r := s.issuedOp t0 i f.toCommon 0x1200 b c 0
  match r.2.translate (r.2.opCtx r.1) .read 0x1200 with
  | (.ok l, s₁) =>
    l.isLocal && !s₁.ownedLine l.line && !s₁.poisoned l && match listHeader (ofBytes ((List.range 128).map fun m => s₁.seenByte 0 (l.add m))) with
    | some (n, cap) =>
      (match s₁.nameSet r.1 l n cap with
       | some s₂ => decide (0 < n) && (match s₂.translate (s₂.opCtx r.1) .rmw 0x1280 with | (.ok k, s₃) => k.isLocal && !s₃.poisoned k | _ => false)
       | none => false)
    | none => false
  | _ => false

def setIn (s : State) : WorkSet := s.sets.headD ⟨0, 0, ⟨false, 0⟩, 0, 0, 0, 0, 0, [], false, []⟩

/-- An issued instruction of the list that is about to be performed; its set may be closed. -/
def working (i : Instr) (head tail : Nat) (closed : Bool) : State :=
  let s := after i (listed head tail)
  { s with sets := s.sets.map fun x => { x with closed := closed } }

/-- A page can be written or read, and memory stays in order. -/
def reaches (s : State) (acc : Acc) (a : W64) : Bool :=
  canonical a && match s.translate (s.opCtx (opIn s)) acc a with
  | (.ok m, s₁) => decide (m = ⟨false, a.toNat⟩) && !s₁.ownedLine m.line && !s₁.poisoned m && memWf s₁.mem && memWf s₁.hostMem && memWf s.mem && memWf s.hostMem
  | _ => false

theorem witness_WorkLists :
    (∀ e ∈ [(Instr.wput wputF, wputF), (.wtake wtakeF, wtakeF), (.qidle qidleF, qidleF), (.qtest qidleF, qidleF)],
      (listed 0 0).Alone t0 e.1 e.2.toCommon ∧ (listed 0 0).FreshOps ∧ (listed 0 0).deterministic 2 = false ∧
        namesList (listed 0 0) e.1 e.2 0 0 = true) ∧
    (∀ e ∈ [(Instr.wput wputF, 0, 0), (.wput wputF, 0, 16), (.wtake wtakeF, 0, 0), (.wtake wtakeF, 0, 3), (.qidle qidleF, 0, 0),
        (.qtest qidleF, 0, 0)], ∀ closed ∈ [true, false],
      let s := working e.1 e.2.1 e.2.2 closed
      let o := opIn s
      let x := setIn s
      (s.HasOp o ∧ o.clobber = 0 ∧ s.ops.filter (fun p => p.lead = o.id) = [o]) ∧ s.spawnDue o = true ∧ o.phase = .pending ∧
        o.instr = e.1 ∧ (o.locs = [⟨false, 0x1200⟩, ⟨false, 0x1280⟩] ∨
          o.locs = [⟨false, 0x1200⟩] ∧ (o.instr = .qidle qidleF ∨ o.instr = .qtest qidleF)) ∧ s.setAt ⟨false, 0x1200⟩ = some x ∧
        (∀ y ∈ s.sets, y.id = x.id → y = x) ∧ x.closed = closed ∧ s.log? 2 = none) ∧
    (reaches (working (.wput wputF) 0 0 false) .write 0x1300 = true ∧ reaches (working (.wtake wtakeF) 0 3 false) .read 0x1300 = true ∧
      ∀ w ∈ (listed 0 0).worlds, w.dbmctl = 0) ∧
    (let s := working (.qidle qidleF) 0 0 false
     let s := { s with ops := [], sets := s.sets.map fun x => { x with idle := [0] } }
     s.sets.find? (fun z => z.id = (setIn s).id) = some (setIn s) ∧ s.setQuiet (setIn s) = true ∧
       s.deterministic (setIn s).launch = false) := by
  have h : ∀ e ∈ [(Instr.wput wputF, wputF), (.wtake wtakeF, wtakeF), (.qidle qidleF, qidleF), (.qtest qidleF, qidleF)],
      passes (listed 0 0) t0 e.1 e.2.toCommon = true ∧ namesList (listed 0 0) e.1 e.2 0 0 = true := by decide +kernel
  refine ⟨fun e m => ⟨alone_of (h e m).1 (by decide +kernel), fresh_of (by decide +kernel), by decide +kernel, (h e m).2⟩, ?_⟩
  unfold State.HasOp; decide +kernel

/-- A thread with s16:64 the address of the record at 0x1600, and queue 0 with ticket 1 ended with status 0. -/
def enqueuing (cfg : Nat) (a : Nat := 0x1600) (ended : List (BitVec 16 × Nat) := [(1, 0)]) : State :=
  let s := at_ a 0x10000
  { s with mem := cells 0x1600 128 record1 ++ s.mem, queues := [{ Queue.init 0 0 with cfg := BitVec.ofNat 64 cfg, ticket := 5, ended := ended }] }

def launchF : SpawnF := wf s32d s16
def lwaitF : SpawnF := wf s32d s0

theorem witness_LaunchInstructions :
    (∀ a ∈ [0x1600, 0x1608, 2 ^ 60], passes (enqueuing 5 a) t0 (.launch launchF) launchF.toCommon = true ∧
      (enqueuing 5 a).issue.threads = [t0] ∧ (enqueuing 5 a).ops = [] ∧ (enqueuing 5 a).poison = []) ∧
    (let r := (enqueuing 5).issuedOp t0 (.launch launchF) launchF.toCommon 0x1600 0 0 0
     let z := r.2.translate (r.2.opCtx r.1) .read 0x1600
     z.1 = .ok ⟨false, 0x1600⟩ ∧ z.2.ownedLine (Loc.mk false 0x1600).line = false ∧ z.2.poisoned ⟨false, 0x1600⟩ = false) ∧
    (Launch.of 0 0 0 0 (BitVec.ofNat 1024 record1)).recordOk = true ∧
    (passes (enqueuing 5) t0 (.lwait lwaitF) lwaitF.toCommon = true ∧ (enqueuing 5).lwaitStatus t0 0 1 = some 0 ∧
      passes (enqueuing 5 0 []) t0 (.lwait lwaitF) lwaitF.toCommon = true ∧ (enqueuing 5 0 []).lwaitStatus t0 0 1 = none ∧
      (BitVec.ofNat 32 ((enqueuing 5).opnd32 t0 lwaitF.a)).extractLsb' 16 16 = 1) ∧
    (∀ cfg ∈ [5, 1],
      let s := after (.launch launchF) (enqueuing cfg)
      let o := opIn s
      s.HasOp o ∧ o.clobber = 0 ∧ o.instr = .launch launchF ∧ o.phase = .pending ∧ o.data = [record1] ∧ s.spawnDue o = true) ∧
    (let s := after (.lwait lwaitF) (enqueuing 5)
     s.HasOp (opIn s) ∧ (opIn s).clobber = 0 ∧ (opIn s).instr = .lwait lwaitF ∧ (opIn s).phase = .result ∧ (opIn s).data.length = 1) := by
  unfold State.HasOp; decide +kernel


/-! ### The dispatcher and the ladder -/

/-- World 0 is served; the descriptor of `record1` is in memory. -/
def served (s : State) : State :=
  let s := launched s
  { s with link := true, mem := cells 0x1400 128 descriptor1 ++ cells 0x1600 16 (1 + 2 ^ 32) ++ s.mem }

/-- That partition without its cores. -/
def noCores : Partition := { part0 with desc := BitVec.ofNat 1024 (2 ^ 512) }

/-- A record in queue 1, which is enabled and has 16 places from 0x2000. -/
def dispatching (e : QEntry) (p : Partition := part0) (kd : Bool := true) : State :=
  let s := if kd then served (at_ 0) else { launched (at_ 0) with link := true }
  { s with queued := [e], queues := [{ Queue.init 0 1 with cfg := 0x2081, tail := 1 }], parts := [p] }

def entry1 (r : Nat) : QEntry := ⟨0, 1, 4, false, BitVec.ofNat 1024 r, 0⟩

/-- The record of a persistent launch of 2^17 teams. -/
def record2 : Nat := record1 + 2 ^ 145 + 2 ^ 272

/-- The descriptor and the argument block of a record can be read; the launch with them has a property. -/
def reads (r : Nat) (s : State) (p : State → Launch → Bool) : Bool :=
  let e := entry1 r
  let mine := Launch.of s.ids 0 1 e.ticket e.record
  let s₁ := { s with ids := s.ids + 1, queued := s.queued.erase e, launches := s.launches ++ [mine] }
  match s₁.launchRead mine (BitVec.ofNat 64 (mine.rec_ 0 64)) 128 with
  | .ok kd s₂ =>
    (match s₂.launchRead mine (BitVec.ofNat 64 (mine.rec_ 64 64)) (4 * mine.rec_ 306 7 + mine.rec_ 313 9) with
     | .ok args _ => mine.recordOk && p s { mine with kd := BitVec.ofNat 1024 (ofBytes kd), args := args }
     | _ => false)
  | _ => false

/-- The launch of team 1 with a change. -/
def running (f : Launch → Launch) (s : State := served (at_ 0)) : State := { s with launches := s.launches.map f }

/-- A launch of priority 3 for which no core is left, beside the launch of team 1. -/
def starving : State :=
  let s := served (at_ 0)
  { s with
    launches := s.launches ++ [{ Launch.of 5 0 1 4 (BitVec.ofNat 1024 record1) with state := .running }]
    queues := [{ Queue.init 0 1 with cfg := 0x2099 }], parts := [noCores] }

/-- The launch of team 1 waits for dependence 3. -/
def depending (d : Nat) : State :=
  let s := running fun l => { l with
    state := .waiting, deps := [true, true, true, false], record := BitVec.ofNat 1024 (record1 + d * 2 ^ 960) }
  { s with queues := [{ Queue.init 0 1 with ticket := 5, ended := [(4, 0)] }] }

/-- The launch of team 1 with its threads ended. -/
def concluded (f : Launch → Launch) : State :=
  let s := running f
  { s with threads := s.threads.map fun x => { x with live := false } }

theorem witness_LaunchDispatch :
    (∀ r ∈ [0, record1], let s := dispatching (entry1 r)
      s.takeDue 0 1 = true ∧ s.activeIn 0 1 = none ∧ s.pendingIn 0 1 = [entry1 r] ∧ (∀ x ∈ s.launches, x.id < s.ids)) ∧
    (Launch.of 0 0 1 4 0).recordOk = false ∧
    (let e : QEntry := ⟨0, 1, 4, true, 0, 0⟩
     let s := dispatching e
     s.takeDue 0 1 = true ∧ s.activeIn 0 1 = none ∧ s.pendingIn 0 1 = [e] ∧
       (match s.stage2 0 ((s.queue 0 1).base + 128 * ((s.queue 0 1).head.toNat % 2 ^ (s.queue 0 1).lgn)) .read with
        | .ok pa => decide (pa = 0x2000)
        | _ => false) = true ∧
       s.poisoned ⟨false, 0x2000⟩ = false ∧ (Launch.of 0 0 1 4 (BitVec.ofNat 1024 (s.memNat ⟨false, 0x2000⟩ 128))).recordOk = false) ∧
    (reads record1 (dispatching (entry1 record1) part0 false) fun _ l => !(l.descOk && l.agrees)) = true ∧
    (reads record1 (dispatching (entry1 record1)) fun s l => l.descOk && l.agrees && l.cgrid = 0 && s.shapeReason l = 0 &&
      (List.range 4).all (fun i => bits (l.dep i) 62 2 = 0) &&
      ((s.world 0).droot[l.dom.toNat]?.any fun x => x.getLsbD 0) && l.rec_ 276 2 = 0) = true ∧
    (reads record2 (dispatching (entry1 record2)) fun s l => l.descOk && l.agrees && l.cgrid = 0 && s.shapeReason l = 5) = true ∧
    (reads record1 (dispatching (entry1 record1) noCores) fun s l =>
      l.descOk && l.agrees && l.cgrid = 0 && s.shapeReason l = 6) = true := by
  decide +kernel

theorem witness_LaunchDispatch_goes_on :
    (starving.takeDue 0 1 = false ∧ starving.victimDue 0 1 = true ∧ (starving.victim 0).map (·.id) = some 2) ∧
    (∀ d ∈ [2 ^ 63 + 2 ^ 57 + 4, 2 ^ 62 + 2 ^ 61 + 0x1600], let s := depending d
      s.depDue 2 3 = true ∧ (s.launch? 2).any (fun l => l.rec_ 276 2 = 0 && l.deps.length = 4 && l.dep 3 = d) = true) ∧
    ((4, 0) ∈ ((depending 0).queue 0 1).ended ∧
      (let l := (depending (2 ^ 62 + 2 ^ 61 + 0x1600)).launches.headD (Launch.of 0 0 0 0 0)
       (match (depending (2 ^ 62 + 2 ^ 61 + 0x1600)).launchRead l 0x1600 16 with
        | .ok bs _ => !(objOf (ofBytes bs)).phase
        | _ => false) = true)) ∧
    (let s := running fun l => { l with next := 0 }
     (s.launch? 2).any (fun l => s.turnOf l && s.partOf l.world = some part0 && (s.usable part0).contains 9 &&
       l.cgrid = 0 && l.persistent = false && s.frameRoom l.world l.frame &&
       (s.roomFor 9 ((List.range l.teamGroups).map l.budgetOf) l.granules l.stageEntries).isSome) = true ∧
       (∀ x ∈ s.threads, x.id.team < s.ids) ∧ (∀ x ∈ s.groups, x.team < s.ids) ∧ ∀ x ∈ s.teams, x.id < s.ids) ∧
    ((∀ st ∈ [LState.running, .stopped], let s := concluded fun l => { l with state := st, fatal := some (⟨5, 0, 0, 0, 0, false⟩, t0) }
      s.endDue 2 = true ∧ (s.launch? 2).any (fun l => s.written l && decide (l.state = st)) = true) ∧
      (let s := concluded id
       s.endDue 2 = true ∧ s.log? 2 = none ∧ (s.launch? 2).any (fun l => l.fatal = none && l.state = .running && l.rec_ 384 64 = 0x1500) = true ∧
       (match s.translateRun { core := 512, lane := none, world := 0, domain := 0 } .write 0x1500 16 [] with
        | (.inl ls, s₁) => decide (ls = (List.range 16).map fun i => ⟨false, 0x1500 + i⟩) && memWf s₁.mem && memWf s₁.hostMem
        | _ => false) = true ∧ ∀ w ∈ s.worlds, w.dbmctl = 0)) := by
  decide +kernel

/-- The launch of team 1 in a stage of the ladder, at cycle 1000. -/
def onLadder (st : LState) (cause : Nat) : State :=
  { running fun l => { l with state := st, g1 := some 1000, g2 := some 1000, cause := cause } with clock := 1000 }

def psF : SysF := ⟨⟨Ctl.plain, .n32, s32d, .slice .w4 0, .slice .w4 247, .zero⟩, 0, 0, 0⟩

/-- Partition 0 with a change; world 1 is bound to it and may have a record to take. -/
def sharing (f : Partition → Partition) (work : Bool) : State :=
  let s := served (at_ 0)
  { s with
    clock := 5000000
    parts := [f part0]
    worlds := s.worlds ++ [{ World.init 1 with bound := true, tdi := .run }]
    queues := [{ Queue.init 1 0 with cfg := 0x2081 }]
    queued := if work then [⟨1, 0, 0, false, 0, 0⟩] else [] }

theorem witness_PreemptionLadder :
    ((onLadder .soft 4).g1Due 2 = true ∧ (onLadder .grace 4).g2Due 2 = true ∧ (onLadder .soft 2).lapseDue 2 = true ∧
      ∀ st ∈ [LState.soft, .grace], ((onLadder st 4).launch? 2).any (onLadder st 4).written = true) ∧
    (∀ s ∈ [at_ 0, onLadder .grace 4], s.Alone t0 (.psaved psF) psF.toCommon ∧ s.FreshOps) ∧
    ((at_ 0).inGrace 1 = false ∧ (onLadder .grace 4).inGrace 1 = true ∧
      ∃ g ∈ (onLadder .grace 4).groups, g.team = t0.team ∧ g.gid = t0.gid) ∧
    (∀ work ∈ [true, false], let s := sharing id work
      s.part? 0 = some part0 ∧ s.quantumDue 0 = true ∧ s.nextWorld part0 = if work then some 1 else none) ∧
    ((sharing (fun p => { p with desc := p.desc ||| BitVec.ofNat 1024 (2 ^ 952) }) false).capDue 0 = true) ∧
    ((sharing (fun p => { p with period := 0 }) false).periodDue 0 = false ∧
      ({ sharing id false with clock := 40000000 } : State).periodDue 0 = true) ∧
    (let s := { sharing (fun p => { p with switching := some 1 }) true with threads := [], teams := [] }
     s.power = true ∧ s.switchTo 0 = some 1 ∧ (s.world 1).notes = []) := by
  have h : ∀ s ∈ [at_ 0, onLadder .grace 4], passes s t0 (.psaved psF) psF.toCommon = true ∧ s.issue.threads = [t0] ∧ s.ops = [] := by
    decide +kernel
  refine ⟨by decide +kernel, fun s m => ⟨alone_of (h s m).1 (h s m).2.1, fresh_of (h s m).2.2⟩, by decide +kernel⟩

/-- Team 1 in the grace stage with its group parked, in a quiet point at YIELD, or with a fault of its thread. -/
def parkedTeam : State :=
  let s := onLadder .grace 4
  { s with groups := s.groups.map fun g => { g with parked := some (0, 247) } }

def yielding : State :=
  let s := onLadder .soft 4
  { s with threads := s.threads.map fun x => { x with sleep := some ⟨2000, true⟩ } }

def faulted : State :=
  let s := running id
  let f : FaultRec := ⟨8, 0, .thread t0, 1, 0, 0, 0, 0, 0x5000, 0x1000, 0, 0, 0, none, false, false, false, 0, 0⟩
  { s with faults := [f], threads := s.threads.map fun x => { x with fault := some 8 } }

theorem witness_ContextSaves :
    (parkedTeam.graceSave 1 = true ∧ yielding.quietDue 1 = true ∧ faulted.swapDue 1 = true ∧
      ∀ s ∈ [parkedTeam, yielding, faulted], ∃ x ∈ s.teams, x.id = 1) ∧
    (let s := { onLadder .soft 4 with threads := [] }
     s.graceSave 1 = false ∧ s.parkOpen 1 = true ∧ (s.launch? (s.team 1).launch).isSome = true) ∧
    (let s := after (.contextSave 1) parkedTeam
     let x := s.team 1
     x.id = 1 ∧ (∃ y ∈ s.teams, y.id = 1) ∧ x.place = .frame ∧ (s.liveOfTeam 1).isEmpty = false ∧ s.teamFaulted 1 = false ∧
       (s.launch? x.launch).any (fun l => s.mayReturn l && !l.persistent) = true ∧
       s.partOf x.world = some part0 ∧ x.cgrid = 0 ∧ 9 ∈ s.usable part0 ∧ s.restoreRoom x 9 = true ∧
       s.slotsHere x.world = true ∧ (s.launch? x.launch).any (fun l => s.written l && decide (l.world = x.world ∧ l.restore ≠ 8)) = true ∧
       { s with slots := [⟨0, 0, .stable, sheet8, 5, 0, false, 1, 0⟩] }.slotsHere x.world = false ∧ s.ops = [] ∧
       s.channels = [] ∧ (s.teams.map (·.id)).Nodup) := by
  decide +kernel


/-! ### Translation and faults -/

def sf (d : Dst) (a : Opnd) (b c : Opnd := .zero) : SysF := ⟨⟨Ctl.plain, .n64, d, a, b, c⟩, 0, 0, 0⟩

/-- TLBI of s16:64 in the domain of s0:32; s8:32 is the number of pages. -/
def tlbiF : SysF := sf .zero s16 s0 s8
def xlateF : SysF := sf ⟨.w64, 40⟩ s16 s0

/-- A translation of the page of 2 MiB at 0 is cached. -/
def caching (a : Nat) (d n : Nat := 0) : State := { at_ a d n with tlb := [⟨0, 0, 0, 2, 0, ⟨false, 0⟩, true, true, true, 2, 0⟩] }

def sweeps : List Instr := [.tlbiVa tlbiF, .tlbiRange tlbiF, .tlbiDom tlbiF, .tlbiWorld tlbiF]

theorem witness_TranslationInstructions :
    (∀ i ∈ .xlate xlateF :: sweeps, ∀ a ∈ [(0x1100, 0), (2 ^ 60, 0), (0x1100, 16)],
      passes (caching a.1 a.2 1) t0 i (if i = .xlate xlateF then xlateF.toCommon else tlbiF.toCommon) = true ∧
        (caching a.1 a.2 1).issue.threads = [t0]) ∧
    (∀ i ∈ sweeps,
      let s := after i (caching 0x1100 0 1)
      let o := opIn s
      let r := after (.translationOpComplete o.id) s
      s.HasOp o ∧ o.clobber = 0 ∧ o.instr = i ∧ s.translationDue o = true ∧ o.phase = .pending ∧ o.b < 16 ∧
        r.HasOp (opIn r) ∧ (opIn r).clobber = 0 ∧ (opIn r).instr = i ∧ r.translationDue (opIn r) = true ∧ (opIn r).phase = .result) ∧
    (opIn (after (.tlbiRange tlbiF) (caching 0x1100 0 1))).c = 1 ∧ (opIn (after (.tlbiRange tlbiF) (caching 0x1100))).c = 0 ∧
    (∀ a ∈ [0x1100, 2 ^ 60],
      let s := after (.xlate xlateF) (at_ a)
      let o := opIn s
      s.HasOp o ∧ o.clobber = 0 ∧ o.instr = .xlate xlateF ∧ o.phase = .pending ∧ s.tlb = [] ∧ s.walkCache = []) := by
  unfold State.HasOp; decide +kernel

/-- A fault with a source and a number. -/
def faultOf (src : Source) (num : Option (BitVec 32) := none) : FaultRec :=
  ⟨8, 0, src, 1, 3, 0, 0, 0, 0x5000, 0x1000, 0, 0, 0, num, false, false, false, 0, 0⟩

/-- World 0 is here, its fault ring of 64 records at 0x3000. -/
def ringing (fs : List FaultRec) : State :=
  let s := served (at_ 0)
  { s with faults := fs, worlds := s.worlds.map fun w => { w with frbase := 0x3006 } }

/-- The launch of team 1 waits for a fault. -/
def launchWaits (pri : Bool) : State :=
  let s := ringing [{ faultOf (.launch 2) (some 4) with pri := pri }]
  { s with launches := s.launches.map fun l => { l with fault := some 8 } }

/-- The thread waits for its fetch fault. -/
def fetchWaits : State :=
  let s := ringing [faultOf (.thread t0) (some 4)]
  { s with threads := s.threads.map fun x => { x with fault := some 8 } }

/-- A stage-2 event, with the event ring at page 1 of the host. -/
def eventful : State :=
  let s := ringing [{ faultOf (.launch 2) with kind := 0x14, ipa := 0x5000 }]
  { s with kebase := 0x1004, mgmt := { s.mgmt with boot := 2 } }

/-- The page 0x4000 of world 0 is to be pulled. -/
def pulling (fs : List FaultRec) : State :=
  let s := ringing fs
  { s with s2 := [⟨0, 0x4000, 0x1000, 0x4000, true, true, true, 0, true, 9⟩] }

theorem witness_FaultDispositions :
    (let s := ringing [faultOf (.launch 2)]
     s.nextRecord 0 = some (faultOf (.launch 2)) ∧ (s.world 0).ringOn = true ∧ (s.world 0).ringRoom = true ∧
       (match s.ringPlace 0 with | .ok pa => decide (pa = 0x3000) | _ => false) = true ∧ s.MemOk ∧ ∀ w ∈ s.worlds, w.dbmctl = 0) ∧
    (one.power = true ∧ (ringing []).power = true ∧ eventful.power = true ∧ eventful.mgmt.boot = 2) ∧
    ((one.worldHere 0 = false) ∧ (ringing []).worldHere 0 = true ∧ (ringing []).openRecord 0 4 = none) ∧
    (∀ pri ∈ [true, false],
      let s := launchWaits pri
      let f := { faultOf (.launch 2) (some 4) with pri := pri }
      f ∈ s.faults ∧ (∀ g ∈ s.faults, g.id = f.id → g = f) ∧ f.source = .launch 2 ∧
        (s.launch? 2).any (fun l => l.fault = some f.id) = true ∧ s.worldHere 0 = true ∧ s.openRecord 0 4 = some f) ∧
    (let s := fetchWaits
     let f := faultOf (.thread t0) (some 4)
     s.worldHere 0 = true ∧ s.openRecord 0 4 = some f ∧ f ∈ s.faults ∧ f.access = 3 ∧
       (∀ g ∈ s.faults, g.twin f = true → g.id = f.id) ∧ s.threads.filter (fun y => y.fault = some f.id) = [s.thread t0] ∧ (s.thread t0).trap = none ∧ s.ops = []) ∧
    (eventful.fault? 8 = eventful.faults.head? ∧ eventful.eventDue 8 = true ∧ eventful.eventsOn = true ∧ eventful.MemOk ∧
      eventful.link = true) ∧
    (let s := { one with worlds := [{ World.init 0 with dbmctl := 8 }] }
     s.swapBusy 0 = true) ∧
    ((pulling []).pullPage 0 0x4000 = some 0x4000 ∧ (pulling []).pullFaults 0 0x4000 = [] ∧ (pulling []).MemOk ∧
      (∀ w ∈ (pulling []).worlds, w.dbmctl = 0) ∧
      (pulling [{ faultOf (.launch 2) with pull := true, ipa := 0x4000 }]).pullLate 0 0x4000 = true) := by
  unfold State.MemOk
  refine ⟨?_, ?_, ?_, ?_, ?_, ?_, ?_, ?_⟩ <;> decide +kernel


/-! ### Gates and order -/

/-- An entry of the gate table: pc 0x2000, the root of domain 0, callable from domain 0, a window of 16 slices from s40,
slots of 16 KiB in 0x14000 to 0x19000, and a scrub mask. -/
def gateEntry (valid callable : Bool) (root wcnt scrub zs : Nat) : Nat :=
  0x2000 + root * 2 ^ 128 + (if valid then 2 ^ 224 else 0) + 40 * 2 ^ 243 + wcnt * 2 ^ 253 + scrub * 2 ^ 264 +
    (if callable then 2 ^ 272 else 0) + zs * 2 ^ 288 + 0x14000 * 2 ^ 320 + 0x19000 * 2 ^ 384

def goodEntry : Nat := gateEntry true true 0x10 16 6 4

/-- The gate table of world 0 stands at 0x3000; entry 2 is as given. -/
def gated (e : Nat) (gt : W64 := 0x3007) (bm : Nat := 0) : State :=
  let s := at_ 0
  { s with mem := cells 0x3080 64 e ++ s.mem ++ cells 0x18E00 1 bm, worlds := s.worlds.map fun w => { w with gtbase := gt } }

def gateF : SysF := { sf ⟨.w32, 40⟩ (.imm 0) .zero with entry := 2 }
def gretF : SysF := sf .zero .zero .zero

/-- The group is in a call of that gate: its frame is at 0x14E00, its slot taken. -/
def inside : State :=
  let s := gated goodEntry 0x3007 1
  let e := gateHeader goodEntry 2 0 (Dst.field gateF.d) 1 0 0x10 0 0 0x1010
  { s with
    ids := 48
    issue := ⟨0, 0, [t0], 47⟩
    mem := (s.mem.filter fun c => c.1 < 0x14E00) ++ cells 0x14E00 128 e ++ cells 0x14E80 160 (lane 0).gateRecord ++ cells 0x18E00 1 1
    groups := s.groups.map fun g => { g with gfp := 0x14E00 }
    threads := s.threads.map fun x => { x.enterGate goodEntry 0x14E00 with pc := 0x2000 } }

/-- The lane waits at its GATE. -/
def calling (bm : Nat) : State := after (.gate gateF) (gated goodEntry 0x3007 bm)

/-- The places of the bitmap, of the frame and of the caller's record are there, and memory stays in order. -/
def callReady (s : State) : Bool :=
  let o := opIn s
  let ctx := s.gateCtx t0 0
  match s.translate ctx .rmw 0x18E00 with
  | (.ok bm, s₁) =>
    decide (lowestClear (ofBytes ((List.range 512).map fun j => s₁.seenByte 0 (bm.add j))) (entSlots goodEntry) = some 0) &&
      (List.range 4).all (fun i => !s₁.poisoned (bm.add (128 * i))) &&
      (match s₁.translateRun ctx .write 0x14E00 128 [] with
       | (.inl _, s₂) =>
         (match s₂.frameRecords 0 .write 0x14E00 [t0] with
          | (.inl [(t, _)], s₃) => decide (t = t0) && memWf s₃.mem && memWf s₃.hostMem && o.data == [goodEntry]
          | _ => false)
       | _ => false)
  | _ => false

/-- The frame of the group's call can be read and its slot's bit reached. -/
def returnReady (s : State) (unwinds : Bool) : Bool :=
  match s.readFrame t0 (s.groupOf t0).gfp with
  | (some (h, [(t, _)]), s₁) =>
    let bma := w64 h 384 - 512 + BitVec.ofNat 64 (bits h 193 12 / 8)
    decide (t = t0) && !bit (bits h 205 8) 4 && canonical bma && canonical ((s.groupOf t0).gfp + 5248) &&
      (!(unwinds || bit (bits h 205 8) 0) || s.windowFree 1 0 (bits h 213 10) (bits h 223 11)) &&
      (match s₁.translate (s.gateCtx t0 (s.groupOf t0).domain) .rmw bma with
       | (.ok b, s₃) => b.isLocal && !s₃.poisoned b && memWf s₃.mem && memWf s₃.hostMem
       | _ => false)
  | _ => false

/-- The group of the call has ended in its callee. -/
def leaving : State :=
  let s := inside
  { s with teams := s.teams.map fun m => { m with releases := [(0, (s.groupOf t0).gfp)] },
           threads := s.threads.map fun x => { x with live := false } }

def releaseReady (s : State) : Bool :=
  let frame := (s.nextRelease 1 0).getD 0
  let ctx := s.gateCtx t0 (s.group 1 0).domain
  canonical frame && match s.translateRun ctx .read frame 128 [] with
  | (.inl ls, s₁) =>
    let h := ofBytes (ls.map s₁.memByte)
    let bma := w64 h 384 - 512 + BitVec.ofNat 64 (bits h 193 12 / 8)
    canonical bma && ls.all (fun l => !s₁.poisoned l) && (match s₁.translate ctx .rmw bma with
      | (.ok b, s₂) => b.isLocal && !s₂.poisoned b && memWf s₂.mem && memWf s₂.hostMem
      | _ => false)
  | _ => false

theorem witness_GateCalls :
    (∀ g ∈ [0, 0x3001], passes (gated goodEntry (BitVec.ofNat 64 g)) t0 (.gate gateF) gateF.toCommon = true) ∧
    (∀ e ∈ [goodEntry, gateEntry true true 0x10 16 6 2, gateEntry false true 0x10 16 6 4, gateEntry true false 0x10 16 6 4,
        gateEntry true true 0x11 16 6 4, gateEntry true true 0x10 900 6 4],
      let s := { gated e with groups := [Group.init 1 0 0 false 512 0] }
      passes s t0 (.gate gateF) gateF.toCommon = true ∧ s.issue.threads = [t0] ∧ s.ops = [] ∧ s.stalled t0 = true ∧
        (s.groupOf t0).gfp = 0 ∧
        (match s.stage2 0 0x3080 .read with | .ok pa => decide (pa = 0x3080) | _ => false) = true ∧ s.poisoned ⟨false, 0x3080⟩ = false ∧
        s.anyOwned [⟨false, 0x3080⟩] = false ∧
        (let s' := { s with owned := [(0x3080 / 128, 1)] }
         s'.anyOwned [⟨false, 0x3080⟩] = true ∧ passes s' t0 (.gate gateF) gateF.toCommon = true ∧ s'.stalled t0 = true) ∧
        (bit e 224 = false ∨ entMalformed e = true ∨ bit e 272 = false ∨ bits e 128 40 ≠ 0x10 ∨ 512 < bits e 243 10 + bits e 253 11 ∨
          e = goodEntry)) ∧
    ((inside).Runs t0 (.gret gretF) gretF.toCommon ∧ (inside).stalled t0 = true ∧ (inside.groupOf t0).gfp ≠ 0 ∧
      passes one t0 (.gret gretF) gretF.toCommon = true ∧ one.stalled t0 = true ∧ (one.groupOf t0).gfp = 0) ∧
    (∀ bm ∈ [0, 1], let s := calling bm
      s.HasOp (opIn s) ∧ (opIn s).clobber = 0 ∧ s.ops.filter (fun p => p.lead = (opIn s).id) = [opIn s] ∧ (opIn s).instr = .gate gateF ∧
        (opIn s).data = [goodEntry] ∧ bit (opIn s).x 0 = true ∧ s.owned = [] ∧ s.ops = [opIn s] ∧ s.gateDue 1 0 = true ∧
        s.gateOp 1 0 = some (opIn s) ∧ s.liveOfGroup 1 0 = [t0] ∧ (∃ y ∈ s.groups, y.team = 1 ∧ y.gid = 0)) ∧
    (callReady (calling 0) = true ∧
      lowestClear (ofBytes ((List.range 512).map fun j => (calling 1).seenByte 0 ⟨false, 0x18E00 + j⟩)) (entSlots goodEntry) = none) ∧
    (let s := after (.gret gretF) inside
     s.HasOp (opIn s) ∧ (opIn s).clobber = 0 ∧ s.ops.filter (fun p => p.lead = (opIn s).id) = [opIn s] ∧ (opIn s).who = t0 ∧
       (opIn s).instr = .gret gretF ∧ s.gateDue 1 0 = true ∧ s.gateOp 1 0 = some (opIn s) ∧ s.liveOfGroup 1 0 = [t0] ∧ s.owned = [] ∧
       returnReady s false = true) ∧
    (let s := { inside with groups := inside.groups.map fun g => { g with unwind := some 5 } }
     s.gateDue 1 0 = true ∧ s.gateOp 1 0 = none ∧ (s.groupOf t0).unwind = some 5 ∧ returnReady s true = true) ∧
    (leaving.releaseDue 1 0 = true ∧ releaseReady leaving = true ∧ ∀ w ∈ leaving.worlds, w.dbmctl = 0) := by
  refine ⟨by decide +kernel, by decide +kernel, ⟨(passes_of (by decide +kernel)).toRuns, by decide +kernel⟩, ?_⟩
  unfold State.HasOp; decide +kernel


/-! ### The order engine -/

/-- World 0 is served, and the launch of team 1 is deterministic. -/
def ordered (a : Nat := 0) (x y : Nat := 0) : State :=
  let s := served (at_ a x y)
  running (fun l => { l with record := BitVec.ofNat 1024 (record1 + 2 ^ 273), kd := BitVec.ofNat 1024 (descriptor1 + 2 ^ 131) }) s

def tktF : SysF := sf s32d .zero .zero
def hashF (sub : BitVec 4) : SysF := { sf ⟨.w64, 40⟩ .zero .zero with subop := sub }
def markF : SysF := { sf .zero .zero .zero with mark := 9 }

/-- A log of the launch of team 1 at 0x4000: two entries a bank, one place of a checkpoint. -/
def log1 (replay : Bool) : OrderLog := ⟨2, replay, 0x4000, 2, 1, 0, false, false, [], [], []⟩

def logging (g : OrderLog) (s : State := at_ 0) : State := { s with logs := [g] }

/-- The log of the bank of 0x1100 has one entry of team 0. -/
def replaying (a : Nat := 0x1100) : State :=
  let s := at_ a 5 6
  logging (log1 true) { s with mem := cells 0x42A0 8 (chunkEntry 3 0 0) ++ s.mem }

/-- The thread stands at a turn point, with a staged write of 0x1100 of its own. -/
def turning (i : Instr) (lap : Bool) : State :=
  let s := after i (ordered 0)
  { s with
    threads := s.threads.map fun x => { x with turn := some lap }
    staging := [⟨s.ids, 1, 0, 0, ⟨false, 0x1100⟩, [(⟨false, 0x1100⟩, 7), (⟨false, 0x1101⟩, 0)], none, ⟨false, 0x1100⟩, 0x1100, 0, 0, 0, 0, 8⟩]
    ids := s.ids + 1 }

/-- The RMW is held. -/
def holding (i : Instr) : State :=
  let s := after i (replaying)
  { s with ops := s.ops.map fun o => { o with phase := .hold } }

/-- An RMW of another team's chunk is held. -/
def heldOver : State :=
  let s := at_ 0x1100 5 6
  let s := served { s with mem := s.mem }
  let s := logging (log1 true) { s with mem := cells 0x1400 128 descriptor1 ++ cells 0x42A0 8 (chunkEntry 3 0 1) ++ (at_ 0).mem }
  let s := after (.atomr atF) s
  { s with clock := 200000, ops := s.ops.map fun o => { o with phase := .hold } }

theorem witness_OrderInstructions :
    (∀ i ∈ [Instr.tktTurn tktF, .tktLap tktF], passes one t0 i tktF.toCommon = true ∧ passes (ordered) t0 i tktF.toCommon = true) ∧
    (one.deterministic (one.team 1).launch = false ∧ (ordered).deterministic ((ordered).team 1).launch = true ∧
      one.issue.threads = [t0] ∧ (ordered).issue.threads = [t0]) ∧
    (∀ sub ∈ [0, 1], passes one t0 (.hashrd (hashF sub)) (hashF sub).toCommon = true) ∧ (∃ y ∈ one.groups, y.team = 1 ∧ y.gid = 0) ∧
    (∀ s ∈ [at_ 0, logging { log1 false with stopped := true }, logging (log1 false), logging { log1 false with ckused := 1 },
        logging { log1 true with diverged := true }, logging (log1 true)], passes s t0 (.ordmark markF) markF.toCommon = true ∧
          s.issue.threads = [t0]) ∧
    ((at_ 0).log? 2 = none ∧ (at_ 0).MemOk ∧ (∀ x ∈ (at_ 0).worlds, x.dbmctl = 0) ∧
      (logging (log1 false)).launchPlace 2 .write 0x4380 = some ⟨false, 0x4380⟩ ∧ (∀ j < 16, (Loc.add ⟨false, 0x4380⟩ j).isLocal = true) ∧
      (logging (log1 true)).findCheckpoint (log1 true) 9 0 0 = none) ∧
    (∀ h ∈ [0, 77], let g : OrderLog := { log1 true with ckused := 1 }
      let s := at_ 0
      let s := logging g { s with mem := cells 0x4380 16 (2 ^ 48 * 9 + h * 2 ^ 64) ++ s.mem }
      passes s t0 (.ordmark markF) markF.toCommon = true ∧ s.findCheckpoint g 9 0 0 = some (0, 2 ^ 48 * 9 + h * 2 ^ 64)) ∧
    (∀ e ∈ [(Instr.tktTurn tktF, false), (.tktLap tktF, true)], let s := turning e.1 e.2
      s.turnDue 1 = true ∧ s.teamStages 1 = s.staging ∧ (s.staging.map (·.rmw)) = [none] ∧
        (∀ st ∈ s.staging, (∀ p ∈ st.bytes, p.1.isLocal = true) ∧ (st.bytes.map (·.1)).Nodup) ∧ s.turnOps 1 = [opIn s] ∧
        s.HasOp (opIn s) ∧ (opIn s).clobber = 0 ∧ (opIn s).instr = e.1 ∧ s.wbuf = [] ∧ s.sets = [] ∧ s.MemOk ∧
        (∀ x ∈ s.worlds, x.dbmctl = 0)) ∧
    (∀ i ∈ [Instr.atom { atF with d := .zero }, .atomr atF, .cas casF], let s := holding i
      s.MemOk ∧ s.HasOp (opIn s) ∧ (opIn s).b < 2 ^ 32 ∧ (opIn s).c < 2 ^ 32 ∧ (opIn s).clobber = 0 ∧ (opIn s).instr = i ∧
        (opIn s).locs = (List.range 4).map (Loc.add ⟨false, 0x1100⟩) ∧ (∀ j < 4, (Loc.add ⟨false, 0x1100⟩ j).isLocal = true) ∧
        s.tollDue (opIn s) = true ∧ s.log? 2 = some (log1 true) ∧ (∀ x ∈ s.worlds, x.dbmctl = 0)) ∧
    (heldOver.op? (opIn heldOver).id = some (opIn heldOver) ∧ heldOver.heldLong (opIn heldOver) = true ∧
      heldOver.log? 2 = some (log1 true) ∧ heldOver.tollDue (opIn heldOver) = false) := by
  unfold State.HasOp State.MemOk
  refine ⟨?_, ?_, ?_, ?_, ?_, ?_, ?_, ?_, ?_, ?_⟩ <;> decide +kernel


/-! ### The fabric -/

def cw (ty : Ty) (d : Dst) (a b : Opnd) (c : Opnd := .zero) (ten : Bool := false) (pod : Bool := false) : CwF :=
  ⟨⟨Ctl.plain, ty, d, a, b, c⟩, pod, 0, ten, 5, 3, 2⟩

def rputF : CwF := cw .n32 s32d s16 s0 s8 true
def fevtF (c : Opnd) : CwF := cw .n32 s32d .zero .zero c
def fbarF (pod : Bool := false) : CwF := cw .n32 s32d s0 s8 .zero false pod
def credF : CwF := cw .n32 ⟨.w128, 64⟩ s0 s8
def credbF : CwF := cw .n32 s32d .zero s8

/-- World 0 with the given domain barriers. -/
def fabbed (bs : List FabBar) (s : State) : State := { s with worlds := s.worlds.map fun w => { w with fab := bs } }

/-- Domain barrier 0 in use: enabled, with a number of local arrivals. -/
def bar0 (n : Nat) : FabBar := { ({ FabBar.init false 0 with cfg := 2 ^ 32 + BitVec.ofNat 64 n } : FabBar) with }

/-- The bytes from 0x20000 are those of device 3. -/
def peered (a : Nat) (x y : Nat := 0) : State :=
  let s := at_ a x y
  { s with s2 := s.s2 ++ [⟨0, 0x20000, 0x10000, 2 ^ 51 + 3 * 2 ^ 42, true, true, true, 0, false, 0⟩] }

/-- The thread waits to arrive. -/
def arriving (i : Instr) (b : FabBar) (s : State) : State := after i (fabbed [b] s)

/-- A load of 0x1100 waits for device 3, since longer than the limit. -/
def lateLoad : State :=
  let s := after (.ld ldF) (at_ 0x1100)
  { s with
    clock := 200001
    worlds := s.worlds.map fun w => { w with frbase := 0x3006 }
    ops := s.ops.map fun o => { o with phase := .remote, locs := (List.range 4).map fun i => ⟨false, 2 ^ 51 + 3 * 2 ^ 42 + i⟩ }
    remotes := [⟨60, (opIn s).id, 0, 0, 3, 2 ^ 51 + 3 * 2 ^ 42, 4, flRead, 0, 0, false, 60, .own⟩] }

/-- The name of a memory object at an address. -/
def names64 (s : State) (i : Instr) (f : CwF) : Option Loc :=
  let r := s.issuedOp t0 i f.toCommon 0 0 (s.opnd64 t0 f.c) 0
  match (r.2.memObject (r.2.opCtx r.1) .rmw (BitVec.ofNat 64 (s.opnd64 t0 f.c))).1 with
  | .ok (.mem l) => some l
  | _ => none

theorem witness_FabricInstructions :
    (∀ i ∈ [Instr.rput rputF, .rget rputF], ∀ s ∈ [one, copying [0] 0x1200 128, copying [0] 0x1200 (2 ^ 31), copying [0] 0x1200 0],
      passes s t0 i rputF.toCommon = true ∧ s.issue.threads = [t0] ∧ s.queueFull 1 2 = false ∧ s.ops = [] ∧ s.atIssue 1 2 = [] ∧
        s.wbuf = []) ∧
    ((match one.tileOf 1 3 with | .error _ => true | _ => false) = true ∧
      (match (copying [0]).tileOf 1 3 with | .ok y => decide (y = tileC 30) | _ => false) = true ∧
      (tileC 30).rowWhole = true ∧ (tileC 30).rows * (tileC 30).rowBytes = 256) ∧
    (∀ e ∈ [(Opnd.imm 0x3FF, one), (.imm 0, copying [0]), (.imm 0, one), (s16, at_ (2 ^ 60)), (s16, at_ 0x1104), (s16, at_ 0x1100),
        (s16, peered 0x20000)],
      passes e.2 t0 (.fevt (fevtF e.1)) (fevtF e.1).toCommon = true ∧ e.2.issue.threads = [t0] ∧ e.2.ops = [] ∧
        (e.1.bits = 64 ↔ e.1 = s16)) ∧
    (names64 (at_ 0x1100) (.fevt (fevtF s16)) (fevtF s16) = some ⟨false, 0x1100⟩ ∧
      (names64 (peered 0x20000) (.fevt (fevtF s16)) (fevtF s16)).map (·.isLocal) = some false ∧
      (match (copying [0]).tileObject 1 3 0 with | .ok q => decide (q = .tile 30 0) | _ => false) = true) ∧
    (∀ f ∈ [fbarF, fbarF true], passes (at_ 0 1 0) t0 (.fbar f) f.toCommon = true ∧ (at_ 0 1 0).barRefuses 0 f.pod 0 = true ∧
      passes (at_ 0 0x100 0) t0 (.fbwait f) f.toCommon = true ∧ passes (at_ 0 0 0) t0 (.fbwait f) f.toCommon = true ∧
      passes (at_ 0 0 32) t0 (.fbwait f) f.toCommon = true) ∧
    (let s := fabbed [bar0 2] (at_ 0 1 0)
     passes s t0 (.fbar fbarF) fbarF.toCommon = true ∧ s.barRefuses 0 false 0 = false ∧ passes s t0 (.cred credF) credF.toCommon = true ∧
       (s.barNow 0 false 0).phase = false ∧ (at_ 0 1 0).barRefuses 0 false 0 = true) ∧
    (let s := fabbed [{ bar0 2 with brk := true }] (at_ 0 0x100 0)
     passes s t0 (.fbwait fbarF) fbarF.toCommon = true) ∧
    (∀ s ∈ [one, copying [0], fabbed [bar0 1] (withTile (copying [0] 0x1100 0)), withTile one],
      passes s t0 (.credb credbF) credbF.toCommon = true ∧ s.issue.threads = [t0] ∧ s.ops = []) ∧
    ((fabbed [bar0 1] (withTile (copying [0] 0x1100 0))).barRefuses 0 false 0 = false ∧ (withTile one).barRefuses 0 false 0 = true ∧
      (let s := { one with ids := 40, tiles := [{ tile4 30 with ew := 16 }], handles := [⟨1, 3, .allocated 30, none⟩] }
       passes s t0 (.credb credbF) credbF.toCommon = true)) ∧
    (∀ e ∈ [(Instr.fbar fbarF, bar0 2, at_ 0 1 0), (.fbar fbarF, bar0 1, at_ 0 1 0), (.fbar fbarF, bar0 1, at_ 0 2 0),
        (.cred credF, bar0 1, at_ 0 7 0), (.cred credF, { (bar0 1).use with current := [(credKind 0 Ty.n32.code, [5])] }, at_ 0 7 0),
        (.credb credbF, bar0 1, withTile (copying [0] 0x1100 0))],
      let s := arriving e.1 e.2.1 e.2.2
      let o := opIn s
      s.HasOp o ∧ o.clobber = 0 ∧ o.phase = .pending ∧ s.arrivalDue o = true ∧ o.instr = e.1 ∧ s.ops = [o] ∧
        s.barRefuses 0 false o.b = false ∧ s.relay 0 false = (none, []) ∧
        (let b := s.barNow 0 false o.b
         b.sent = false ∧ b.held = false ∧ b.heard = [] ∧ b.next = [] ∧ (b.current = [] ∨ b.current = [(credKind 0 Ty.n32.code, [5])])) ∧
        (o.instr = .credb credbF → o.tiles = [30] ∧ s.tile? 30 = some (tile4 30))) ∧
    (let s := lateLoad
     let o := opIn s
     ∃ r ∈ s.remotes, s.remotes = [r] ∧ s.remoteLate r = true ∧ r.copy = 0 ∧ s.copy? 0 = none ∧ r.op = o.id ∧ r.use = .own ∧ s.askers r = [o] ∧
       (o.locs.head?.map (·.line)) = some (Loc.line ⟨false, r.addr⟩) ∧ s.HasOp o ∧
       o.instr = .ld ldF ∧ o.phase = .remote ∧ (s.world r.world).ringOn = true ∧ (s.thread o.who).trap = none) := by
  unfold State.HasOp
  refine ⟨?_, ?_, ?_, ?_, ?_, ?_, ?_, ?_, ?_, ?_, ?_⟩ <;> decide +kernel


/-! ### Flits -/

/-- The device is on the fabric with a number, and world 0 has key generation 7 and spans. -/
def meshed (s : State) (num : Nat := 0) (span : List Nat := []) : State :=
  { s with
    power := true
    mgmt := { s.mgmt with cfg := BitVec.ofNat 64 (num * 2 ^ 32) }
    worlds := s.worlds.map fun w => { w with fcur := some (7, 1), fsend := 7, dspan := span } }

/-- A flit of world 0 from device 3 to device 0 under that generation. -/
def flit (kind : BitVec 4) (addr n xfer : Nat) (payload : List Byte) : Flit :=
  { mkFlit kind 0 0 addr n xfer payload with gen := 7, src := 3 }

/-- A tagged one whose bytes are performed. -/
def tagged (payload : List Byte) : Flit := { flit flWrite 0x1100 4 1 payload with ev := true, tag := 5, first := 127, last := 0 }

/-- An instruction waits for device 3. -/
def asking (i : Instr) (kind : BitVec 4) (p : Phase) (n : Nat := 4) : State :=
  let s := meshed (after i (at_ 0x1100 5 6))
  { s with
    ops := s.ops.map fun o => { o with phase := p, locs := (List.range n).map fun i => ⟨false, 2 ^ 51 + 3 * 2 ^ 42 + i⟩ }
    wbuf := []
    remotes := [⟨60, (opIn s).id, 0, 0, 3, 2 ^ 51 + 3 * 2 ^ 42, n, kind, 0, 0, false, 60, .own⟩] }

/-- Domain barrier 0 with a phase under way. -/
def open0 (sent : Bool) : FabBar := { (bar0 1).use with awake := true, sent := sent }

/-- A flit about domain barrier 0 from a device. -/
def barFlit (kind : BitVec 4) (src dst : Nat) (payload : List Byte) (gen : BitVec 16 := 7) : Flit :=
  { mkFlit kind 0 dst 0 1 0 payload with gen := gen, src := BitVec.ofNat 9 src, tag := 0 }

theorem witness_FabricFlits :
    (let s := meshed (at_ 0)
     (∀ x ∈ [flit flWrite 0x1100 4 1 [1, 2, 3, 4], flit flWrite 0x1100 4 1 [], flit flRead 0x1100 4 1 [],
        flit flRmw 0x1100 4 1 (toBytes (3 + Ty.n32.code * 256) 8 ++ toBytes 5 8 ++ toBytes 6 8), { flit flWrite 0x1100 4 1 [] with gen := 9 },
        flit flWrite 0x30000 4 1 [], tagged []], s.Gets x) ∧
      (∀ acc ∈ [Acc.read, .write, .rmw], s.refusal (flit flWrite 0x1100 4 1 []) acc = none ∧
        s.refusal (flit flWrite 0x30000 4 1 []) acc = some 2 ∧ s.refusal { flit flWrite 0x1100 4 1 [] with gen := 9 } acc = some 3) ∧
      s.ownedLine 34 = false ∧ s.MemOk ∧ (∀ x ∈ s.worlds, x.dbmctl = 0) ∧ s.poisoned ⟨false, 0x1100⟩ = false ∧
      ({ s with poison := [34] } : State).poisoned ⟨false, 0x1100⟩ = true ∧
      (flit flWrite 0x1100 4 1 []).first ≤ (flit flWrite 0x1100 4 1 []).last ∧ (tagged []).last < (tagged []).first ∧
      (s.world 0).events.find? (fun e => e.1 = 5) = none ∧
      workItem (flit flRmw 0x1100 4 1 (toBytes (3 + Ty.n32.code * 256) 8 ++ toBytes 5 8 ++ toBytes 6 8)).payload = none) ∧
    (let s := meshed (object 1)
     let s : State := { s with worlds := s.worlds.map fun (w : World) => { w with events := [(5, .mem ⟨false, 0x1600⟩, 0)] } }
     let x := tagged (toBytes 4 8)
     s.Gets x ∧ (s.world 0).events.find? (fun e => e.1 = x.tag) = some (x.tag, .mem ⟨false, 0x1600⟩, 0) ∧
       (s.obj (.mem ⟨false, 0x1600⟩)).malformed = false ∧ s.ownMemory 0 ⟨false, 0x1600⟩ 16 .rmw = true ∧ 8 ≤ x.payload.length) ∧
    (∀ e ∈ [(Instr.ld ldF, flRead, Phase.remote, flit flData 0 1 60 [0, 1, 2, 3, 4]), (.ld ldF, flRead, .remote, flit flData 0 1 60 [1]),
        (.ld ldF, flRead, .remote, flit flData 0 1 60 [2]), (.atomr atF, flRmw, .remote, flit flResult 0 1 60 (0 :: toBytes 9 8)),
        (.atomr atF, flRmw, .remote, flit flResult 0 1 60 [1]), (.atomr atF, flRmw, .remote, flit flResult 0 1 60 [2]),
        (.st stF, flWrite, .buffered, flit flAck 0 1 60 [0])],
      let s := asking e.1 e.2.1 e.2.2.1
      let o := opIn s
      s.Gets e.2.2.2 ∧ s.copy? 0 = none ∧ s.HasOp o ∧ o.clobber = 0 ∧ o.instr = e.1 ∧ o.phase = e.2.2.1 ∧ (s.thread o.who).trap = none ∧
        s.wbuf = [] ∧ ∃ r ∈ s.remotes, s.remotes = [r] ∧ r.copy = 0 ∧ r.op = o.id ∧ r.use = .own ∧
          (e.2.1 = flRead → s.askers r = [o] ∧ (o.locs.head?.map (·.line)) = some (Loc.line ⟨false, r.addr⟩)) ∧ r.id % 2 ^ 22 = e.2.2.2.xfer.toNat ∧
          r.target = e.2.2.2.src.toNat ∧ r.done = false ∧ r.kind = e.2.1 ∧ r.bytes = 4) ∧
    (∀ e ∈ [(0, [0, 3], false, barFlit flContribution 3 0 (contribBytes false [(0, [])])),
        (1, List.range 10, true, barFlit flContribution 9 1 (contribBytes false [(0, [])])),
        (0, [0, 3], true, barFlit flContribution 3 0 (contribBytes false [(0, [])])),
        (0, [0, 3], true, barFlit flContribution 3 0 (contribBytes false [(0, [])]) 8)],
      let s := fabbed [open0 e.2.2.1] (meshed (at_ 0) e.1 e.2.1)
      let b := s.barNow 0 false 0
      s.Gets e.2.2.2 ∧ flitPod e.2.2.2 = false ∧ flitBar e.2.2.2 = 0 ∧ e.2.2.2.payload ≠ [] ∧ b.awake = true ∧ b.brk = false ∧ b.sentUp = false ∧
        b.heard = [] ∧ b.enNow = true ∧ s.bar 0 false 0 = b ∧ b.sent = e.2.2.1 ∧ b.held = false ∧ b.next = [] ∧ b.current = [] ∧
        s.relay 0 false = (if e.1 = 1 then some 0 else none, [flitSender e.2.2.2])) ∧
    (let s := arriving (.cred credF) (bar0 1) (meshed (at_ 0 7 0) 1 [0, 1])
     let s := after (.fabricBarrierArrival (opIn s).id) s
     let x := barFlit flReleased 0 1 (0 :: toBytes 2 8 ++ toBytes 9 8)
     s.Gets x ∧ (s.relay 0 false).1 = some (flitSender x) ∧ x.payload ≠ [] ∧
       (s.redsOf 0 false 0 (some (s.barNow 0 false 0).phase)).map (·.id) = [(opIn s).id] ∧ s.resident 1 = true) := by
  unfold State.HasOp State.Gets State.MemOk
  refine ⟨?_, ?_, ?_, ?_, ?_⟩ <;> decide +kernel


/-! ### Command rings -/

/-- Record 5 of a ring: a command of an opcode for world w. -/
def cmdRecord (w op : Nat) : Nat := 5 + op * 2 ^ 64 + w * 2 ^ 72 + 0x9000 * 2 ^ 128

/-- A command of an opcode is the only record of the ring of world 0 or 1, number 5; both worlds run and are bound. -/
def heading (w op : Nat) (x : World → World := id) (s : State := served (at_ 0)) : State :=
  { s with
    power := true
    mgmt := { s.mgmt with boot := 2 }
    hostMem := cells 0x100000 128 (cmdRecord w op)
    worlds := (s.worlds ++ [{ World.init 1 with bound := true, tdi := .run }]).map fun (y : World) =>
      if y.w = w then x { y with ring := { y.ring with base := 0x100004, tail := 1, state := .run, seq := 5, wrap := 1000,
                                                         passed := some (cmdRecord w op) } } else y }

def cmd (w : Nat) : Cmd := ⟨w, 5, 0x9000⟩

/-- The device has the tensor 1 of world 0, mapped or not. -/
def tensored (y : Tensor) (used : Bool) : State :=
  let s := heading 0 7
  { s with tensors := [y], s2 := if used then s.s2.map fun m => { m with tensor := 1 } else s.s2 }

def tensor1 : Tensor := ⟨1, 0, 77, 0, 0, false, 0⟩

/-- A stage-2 event of the launch of team 1 is open. -/
def refusing : State :=
  let f : FaultRec := { faultOf (.launch 2) (some 4) with kind := 0x14, ipa := 0x5000 }
  let s := heading 0 5
  { s with faults := [f], launches := s.launches.map fun l => { l with fault := some 8 } }

/-- A load of world 0 is under way. -/
def accessing (op : Nat) : State := heading 0 op id (served (after (.ld ldF) (at_ 0x1100)))

def onlyTop1 : BitVec 1024 := BitVec.ofNat 1024 (2 ^ 920 + 2 ^ 512)

theorem witness_Commands :
    (∀ e ∈ [(1, 1), (1, 2), (0, 2), (1, 0x20), (0, 0x20), (1, 0x21), (0, 0x21), (1, 0x22), (0, 0x22), (0, 3), (0, 4), (0, 5), (0, 6), (0, 7),
        (0, 8), (0, 9), (0, 10), (0, 11), (0, 12), (0, 13), (0, 14), (0, 15), (0, 16)],
      (heading e.1 e.2).Heads (cmd e.1) e.2 ∧ (heading e.1 e.2).accepts e.1 = true) ∧
    (let s := heading 1 1 fun y => { y with tdi := .locked, bound := false }
     s.Heads (cmd 1) 1 ∧ (s.world 1).tdi = .locked ∧ (s.world 1).bound = false ∧ s.leaf 0 = true ∧ s.leaf 9 = false) ∧
    (∀ op ∈ [3, 4, 5, 6, 8, 9, 10, 11, 12, 13, 14, 15, 16],
      let s := heading 1 op fun y => { y with bound := false }
      s.Heads (cmd 1) op ∧ s.accepts 1 = false ∧ s.s2InUse 1 0 4096 = false ∧ s.s2InUse 1 0 0 = false) ∧
    (let s := heading 0 3
     (∀ e ∈ [(0x40000, 0x40000), (0x40001, 0x40000), (0, 2 ^ 50)], s.s2InUse 0 e.1 (e.1 + 4096) = false) ∧ s2RangeOk 0 0 = true ∧
       s2RangeOk 0x40000 0 = true ∧ s2RangeOk 0x40001 0 = false ∧ localBytes < 2 ^ 50 + 4096 ∧ ¬ localBytes < 0x40000 + 4096 ∧
       s.s2Conflict 0 0x40000 4096 = false ∧ s.s2Faults 0 = [] ∧
       ({ s with mgmt := { s.mgmt with pages := [0x40] } } : State).s2Conflict 0 0x40000 4096 = true ∧
       ({ s with mgmt := { s.mgmt with pages := [0x40] } } : State).Heads (cmd 0) 3) ∧
    (∀ op ∈ [3, 4, 16], (accessing op).Heads (cmd 0) op ∧ (accessing op).accepts 0 = true ∧ (accessing op).s2InUse 0 0x1000 0x2000 = true) ∧
    (let f : FaultRec := { faultOf (.launch 2) (some 4) with kind := 0x14, ipa := 0x5000 }
     refusing.Heads (cmd 0) 5 ∧ refusing.s2Faults 0 = [f] ∧ f.num = some (BitVec.ofNat 32 4) ∧ f ∈ refusing.faults ∧
       (∀ g ∈ refusing.faults, g.id = f.id → g = f) ∧ f.source = .launch 2 ∧
       (refusing.launch? 2).any (fun l => l.fault = some f.id) = true) ∧
    (∀ y ∈ [tensor1, { tensor1 with version := BitVec.allOnes 32 }, { tensor1 with rekeying := true },
        { tensor1 with rekeying := true, cursor := 0x400 }],
      let s := tensored y true
      s.Heads (cmd 0) 7 ∧ s.accepts 0 = true ∧ s.tensor? 0 1 = some y ∧ s.tensorLines y = 0x400 ∧
        (s.cursorPlace y).all (fun l => !s.ownedLine l.line) = true) ∧
    ((let s : State := { tensored { tensor1 with rekeying := true } true with owned := [⟨0, 0⟩] }
      (s.cursorPlace { tensor1 with rekeying := true }).any (fun l => s.ownedLine l.line) = true) ∧
      (heading 0 7).tensor? 0 1 = none) ∧
    (∀ used ∈ [true, false], let s : State := { heading 0 8 with tensors := [tensor1], s2 := (tensored tensor1 used).s2 }
      s.Heads (cmd 0) 8 ∧ s.tensor? 0 1 = some tensor1 ∧ ((∃ m ∈ s.s2, m.world = 0 ∧ m.tensor = 1) ↔ used = true)) ∧
    (∀ w ∈ [0, 1], ∀ op ∈ [9, 10], let s : State := { heading 0 op with regKeys := [(3, w, 9)] }
      s.Heads (cmd 0) op ∧ s.accepts 0 = true) ∧
    (∀ e ∈ [none, some (4, 1)], let s := heading 0 12 fun y => { y with fcur := e, fsend := 4 }
      s.Heads (cmd 0) 12 ∧ s.accepts 0 = true ∧ (s.world 0).fcur = e) ∧
    ((heading 0 13).launches.any (fun l => l.world = 0 && l.queue = 0 && l.ticket.toNat = 0 && (l.state = .running || l.onLadder)) = true) ∧
    (let s := heading 0 0x20
     s.descriptorOk onlyTop1 = true ∧ s.partBusy 32 = false ∧ s.descriptorOk (BitVec.ofNat 1024 (2 ^ 512)) = true ∧ s.partBusy 0 = true ∧
       s.descriptorOk (BitVec.ofNat 1024 (17 * 2 ^ 928)) = false) ∧
    (∀ s ∈ [heading 0 7, heading 1 7], (s.world 0).ring.head = (s.world 0).ring.tail ∨ (s.world 1).ring.head = (s.world 1).ring.tail) ∧
    (let s := heading 0 7 fun y => { y with ring := { y.ring with passed := none } }
     s.power = true ∧ s.link = true ∧ s.mgmt.boot = 2 ∧ (s.world 0).ring.shown = .run ∧ (s.world 0).ring.head + 1 = 1 ∧
       (s.world 0).ring.passed = none) ∧
    (let s := heading 1 7 fun y => { y with ring := { y.ring with state := .halted, tail := 0, sync := 8 } }
     s.power = true ∧ s.mgmt.boot = 2 ∧ (s.world 1).ring.shown = .halted ∧ (s.world 1).ring.head = (s.world 1).ring.tail ∧ (s.world 0).ring.shown ≠ .halted) := by
  unfold State.Heads State.MemOk
  refine ⟨?_, ?_, ?_, ?_, ?_, ?_, ?_, ?_, ?_, ?_, ?_, ?_, ?_, ?_, ?_, ?_⟩ <;> decide +kernel


/-! ### The host and the platform, and rules of one instruction -/

/-- The device is up; port 0 is an Ethernet port with rings of 16 descriptors, one of them for a frame of 4 bytes each way. -/
def up : State :=
  let s := served (at_ 0)
  { s with
    power := true
    mgmt := { s.mgmt with boot := 2, cfg := 1 }
    hostMem := cells 0x100000 16 (0x3000 + 4 * 2 ^ 64) ++ cells 0x110000 16 0x3100
    eth := [{ EthPort.init 0 with tx := 0x100004, rx := 0x110004, txt := 1, rxt := 1 }] }

theorem witness_HostAndPlatform :
    (let s := { up with queues := [{ Queue.init 0 1 with cfg := 0x2081 }] }
     let x := s.queue 0 1
     (up.queue 0 1).enabled = false ∧ x.enabled = true ∧ x.lgn = 4 ∧ (3 - x.head).toNat ≤ 16 ∧ (3 - x.tail).toNat ≤ 16) ∧
    (3 < (up.world 0).pmcnt.length ∧ 7 < (up.world 0).pmsel.length ∧ 15 < (up.world 0).droot.length) ∧
    ((∀ off ∈ [0x0, 0x80, 0x1000, 0x1280, 0x2000, 0x2148, 0x10000, 0x20000, 0x30048, 0x31000], up.reachable 0 off = true) ∧
      up.reachable 1 0 = false ∧ ∀ p ∈ [0, 1], (up.isEth p = true ↔ p = 0)) ∧
    ((up.world 0).ring.head = (up.world 0).ring.tail ∧ (up.world 3).tdi = .unlocked ∧ (up.world 3).bound = false ∧ (up.world 0).bound = true) ∧
    (up.mgmt.boot ≠ 0 ∧ State.reset.mgmt.boot = 0 ∧ up.mgmt.fwst ≠ 1 ∧
      ({ up with mgmt := { up.mgmt with fwst := 1 } } : State).mgmt.fwst = 1) ∧
    (up.threads[0]? = some (up.thread t0) ∧ (up.thread t0).live = true ∧ up.thread (up.thread t0).id = up.thread t0 ∧
      (up.thread t0).async = [] ∧ (up.thread t0).handler = false ∧ (up.sealOf 34).any (fun z => decide (z.off ≠ 2 ^ 64)) = true) ∧
    (up.power = true ∧ ∀ w < 64, (up.world w).ring.head = (up.world w).ring.tail) ∧
    (bits (up.memNat (ethPlace (up.ethPort 0).tx (up.ethPort 0).txh) 16) 80 48 = 0 ∧
      bits (up.memNat (ethPlace (up.ethPort 0).rx (up.ethPort 0).rxh) 16) 80 48 = 0 ∧
      (let s : State := { up with hostMem := cells 0x100000 16 (0x3000 + 4 * 2 ^ 64 + 2 ^ 80) }
       s.txDue 0 = true ∧ bits (s.memNat (ethPlace (s.ethPort 0).tx (s.ethPort 0).txh) 16) 80 48 ≠ 0)) ∧
    (up.txDue 0 = true ∧ up.MemOk ∧ up.link = true ∧ ethOn (up.ethPort 0).rx = true ∧ (up.ethPort 0).rxh ≠ (up.ethPort 0).rxt ∧
      0x3100 + 4 ≤ (ethPlace (up.ethPort 0).rx (up.ethPort 0).rxh).addr) := by
  unfold State.MemOk
  refine ⟨?_, ?_, ?_, ?_, ?_, ?_, ?_, ?_, ?_⟩ <;> decide +kernel

theorem witness_ClassMasks :
    ∀ e ∈ ([(.f16, 5, 10), (.b16, 8, 7), (.f32, 8, 23), (.f64, 11, 52)] : List (Ty × Nat × Nat)),
      let f := lf e.1 s32d (if e.1 = .f64 then s16 else if e.1 = .f32 then s0 else .slice .w16 0) .zero
      f.ty = e.1 ∧ passes (with2 0x7FA00000 0) t0 (.fclass f) f.toCommon = true := by decide +kernel

theorem witness_WaymarkClear :
    (passes (marked 0) t0 (.wmclr (cf 2)) (cf 2).toCommon = true) ∧
    (let f : CtlF := { cf 2 with toCommon := { (cf 2).toCommon with ctl := { Ctl.plain with gp := 0 } } }
     t0 ∈ (marked 0).issue.threads ∧ (marked 0).issue.threads.Nodup ∧ (∃ y ∈ (marked 0).threads, y.id = t0) ∧
       (marked 0).guard t0 f.ctl = false) := by decide +kernel

/-- The thread's TINFO of a handle in a state. -/
def asksTile (h : List Handle) : State := after (.tinfo tfreeF) { withTile one with handles := h }

theorem witness_TileInformation :
    (passes one t0 (.tinfo tfreeF) tfreeF.toCommon = true ∧ one.issue.threads = [t0]) ∧
    (∀ h ∈ [[], [⟨1, 3, .waiting 5, none⟩], [⟨1, 3, .stale 4 16 32 true, some 2⟩], [⟨1, 3, .allocated 30, none⟩], [⟨1, 3, .view 30, none⟩],
        [⟨1, 3, .releasing 30 false 4 16 32 false, none⟩], [⟨1, 3, .releasing 30 true 4 16 32 true, some 2⟩]],
      let s := asksTile h
      let o := opIn s
      s.HasOp o ∧ o.clobber = 0 ∧ o.instr = .tinfo tfreeF ∧ o.phase = .pending ∧ s.handle? o.who.team tfreeF.h = h.head? ∧
        s.tile? 30 = some (tile4 30)) := by
  unfold State.HasOp; decide +kernel

/-! ### The whole machine -/

/-- A word of 16 bytes in every place of a line. -/
def wordLine (w : Nat) : List Byte := (List.range 8).flatMap fun _ => toBytes w 16

/-- The thread stands in a line of one word, and its quad issues next. -/
def standing (w : Nat) : State :=
  { one with
    power := true, agenda := [.issue 0 0 0], issue := ⟨0, 0, [], 9⟩, fetch := [⟨0, 0, 0, 0, 0x1000 / 128, lineBits (wordLine w)⟩] }

theorem witness_StepRunsDecoded :
    (∀ w ∈ [0x0000_0000_1800_0050_2280_1448_0000_1C04, 2 ^ 128 - 1],
      let s := standing w
      let s₁ := ({ s with agenda := [] } : State).tick
      s.agenda = [.issue 0 0 0] ∧ (wordLine w).length = 128 ∧ s₁.pick (s₁.readyIn 0 0 0) = [t0] ∧
        s.fetchLine? (s.coreOf t0) (s.groupOf t0).quad (s.worldOf t0) (s.groupOf t0).domain (s.thread t0).pc =
          some ⟨0, 0, 0, 0, 0x1000 / 128, lineBits (wordLine w)⟩ ∧ (∃ x ∈ s.threads, x.id = t0)) ∧
    (match (standing 0x0000_0000_1800_0050_2280_1448_0000_1C04).nextInstr t0 with
     | some (.ok i) => decide (i = Instr.add { intF with ty := .n32, d := ⟨.w32, 72⟩ })
     | _ => false) = true ∧
    (match (standing (2 ^ 128 - 1)).nextInstr t0 with | some (.error _) => true | _ => false) = true ∧
    ({ standing 0 with fetch := [] } : State).nextInstr t0 = none ∧
    (let s : State := { standing 0x0000_0000_1800_0050_2280_1448_0000_1C04 with agenda := [.second 0 0 [t0]] }
     let s₁ : State := { s with agenda := [], free := s.free + 1 }
     s.agenda = [.second 0 0 [t0]] ∧ [t0].filter s₁.isReady = [t0] ∧ (match s₁.nextInstr t0 with | some (.ok _) => true | _ => false) = true) ∧
    ({ standing 0 with agenda := [.second 0 0 []] } : State).agenda = [.second 0 0 []] ∧
    ({ one with agenda := [.event .thermalTrip] } : State).agenda = [.event .thermalTrip] ∧
    ({ one with agenda := [.write 0x100 [1, 2]] } : State).agenda = [.write 0x100 [1, 2]] ∧ one.MemOk := by
  unfold State.MemOk
  refine ⟨?_, ?_, ?_, ?_, ?_, ?_, ?_, ?_, ?_⟩ <;> decide +kernel

theorem witness_EncodeDecode :
    (Instr.add intF).WellFormed ∧ (encode (.add intF)).isSome = true ∧
    ((encode (.add intF)).any fun w => match decode w with | .ok i => decide (i = .add intF) | _ => false) = true := by
  decide +kernel

theorem witness_StepKeepsInvariant :
    (∀ s ∈ [State.reset, standing 0], s.Inv) ∧
      (∃ s', step { State.reset with agenda := [.event .thermalTrip] } = .next s') := by
  refine ⟨?_, _, rfl⟩
  unfold State.Inv State.MemOk State.NamesOk; decide +kernel


/-! ### Ill-formed terms, one for each check of R47 -/

/-- Check 1: no word stands for a step of the machine. -/
theorem test_illformed_opcode : Instr.thermalTrip.illegal = some .opcode := by decide

/-- Check 2, scheduling fields: a lane instruction has fixed latency (R41). -/
theorem test_illformed_latency :
    (Instr.add { intF with toCommon := { intF.toCommon with ctl := { Ctl.plain with la := 3 } } }).illegal = some .encoding := by decide

/-- Check 2, operand A: a slice that holds a float has the float's width (R39). -/
theorem test_illformed_a : (Instr.fadd { fltF with toCommon := { fltF.toCommon with a := s16 } }).illegal = some .encoding := by decide

/-- Check 2, operand B: NEG has none. -/
theorem test_illformed_b : (Instr.neg intF).illegal = some .encoding := by decide

/-- Check 2, operand C: ADD has none. -/
theorem test_illformed_c : (Instr.add { intF with toCommon := { intF.toCommon with c := s8 } }).illegal = some .encoding := by decide

/-- Check 2, destination: CMP has none. -/
theorem test_illformed_d : (Instr.cmp intF).illegal = some .encoding := by decide

/-- Check 2, class fields: ADD lists no sub-function. -/
theorem test_illformed_field : (Instr.add { intF with subop := 1 }).illegal = some .encoding := by decide

/-- Check 3: FADD takes no integer type. -/
theorem test_illformed_type : (Instr.fadd intF).illegal = some .type := by decide

/-- Check 4: a slice of 64 bits starts at a multiple of 8 (R36). -/
theorem test_illformed_align : (Instr.mov (lf .n64 ⟨.w64, 41⟩ s16 .zero)).illegal = some .align := by decide

theorem test_wellformed_add : (Instr.add intF).WellFormed := by decide

/-! ### Words written out from the encoding tables -/

theorem test_decode_add : decodeTableWord 128 0x0000_0000_1800_0050_2280_1448_0000_1C04 =
    some (.add { intF with ty := .n32, d := ⟨.w32, 72⟩ }) := by decide +kernel

/-- Words of which only the mnemonic is checked: ATOMR, SPILL, PREP, XFER, TALLOC, MILE, TMMA, MFIN, FLOAD, LWAIT, XLATE, GRET, TKT,
HASHRD. -/
def isOp (w : Nat) (p : Instr → Bool) : Bool := (decodeTableWord 128 w).any p

theorem test_decode_memory : isOp 0x0000_0004_1A80_0010_0702_1440_0000_04C4 (fun i => match i with | .atomr _ => true | _ => false) = true ∧
    isOp 0x0000_0000_0000_0001_3809_0000_0000_1CC8 (fun i => match i with | .spill _ => true | _ => false) = true := by decide +kernel

theorem test_decode_control : isOp 0x0000_0600_0000_0000_0000_0000_0000_0900 (fun i => match i with | .prep _ => true | _ => false) = true ∧
    isOp 0x0000_0001_C000_0000_0000_0000_0000_1102 (fun i => match i with | .xfer _ => true | _ => false) = true := by decide +kernel

theorem test_decode_tile : isOp 0x0000_0000_D810_0000_0280_9408_000C_8540 (fun i => match i with | .talloc _ => true | _ => false) = true ∧
    isOp 0x0000_0000_A020_0000_0000_18C0_0000_0585 (fun i => match i with | .mile _ => true | _ => false) = true := by decide +kernel

theorem test_decode_matrix : isOp 0x0302_0100_2C20_0000_0000_1408_0017_C5C1 (fun i => match i with | .tmma _ => true | _ => false) = true ∧
    isOp 0x0300_0000_1800_0000_0000_14C8_0000_05C3 (fun i => match i with | .mfin _ => true | _ => false) = true := by decide +kernel

theorem test_decode_format : isOp 0x0000_0000_9800_0000_0306_14B0_001F_C604 (fun i => match i with | .fload _ => true | _ => false) = true := by
  decide +kernel

theorem test_decode_spawn : isOp 0x0000_0060_1800_0000_0281_1418_0000_1E46 (fun i => match i with | .lwait _ => true | _ => false) = true := by
  decide +kernel

theorem test_decode_system : isOp 0x0000_0000_6080_0000_0302_1840_0014_1E81 (fun i => match i with | .xlate _ => true | _ => false) = true ∧
    isOp 0x0000_0000_5800_0000_0000_1408_000C_1E84 (fun i => match i with | .tktLap _ => true | _ => false) = true ∧
    isOp 0x0000_0000_2000_0000_0000_1840_0000_1E86 (fun i => match i with | .hashrd _ => true | _ => false) = true := by decide +kernel

/-! ### Single steps -/

/-- From reset with one word placed, a step runs it: the ADD of above writes s72:32 and goes on. -/
theorem test_step_add :
    (match step (State.reset.withFetchWord 128 0x0000_0000_1800_0050_2280_1448_0000_1C04) with
     | .next s => decide (s.threads.map (·.pc) = [0x1010])
     | _ => false) = true := by decide +kernel

/-- A sum wraps to the width of its type. -/
theorem test_add_wraps : ((after (.add { intF with ty := .n32 }) (with2 0xFFFFFFFF 2)).thread t0).slices.toNat / 2 ^ 160 % 2 ^ 32 = 1 := by
  decide +kernel

/-- 1.0 + 2.0 is 3.0. -/
theorem test_fadd : ((after (.fadd fltF) floats).thread t0).slices.toNat / 2 ^ 160 % 2 ^ 32 = 0x40400000 := by decide +kernel

/-- SHA-512 of "abc" (FIPS 180-4, example). -/
theorem test_sha : ofBytesBig (toBytes (sha512 [0x61, 0x62, 0x63]).toNat 64) =
    0xddaf35a193617abacc417349ae20413112e6fa4e89a97ea20a9eeee64b55d39a2192992a274fc1a836ba3c23a3feebbd454d4423643ce80e2a9ac94fa54ca49f := by
  decide +kernel

end Sys2Proof.Tests
end

/-! SUPPORT. The mask of FCLASS (R115), and what a lane instruction whose only effect is to write D does to a thread. -/

section

namespace Sys2Proof.Machine

/-! ### Bit fields of a number -/

theorem bit_eq_testBit (x i : Nat) : bit x i = x.testBit i := by
  simp only [bit, bits, Nat.pow_one, Nat.testBit_eq_decide_div_mod_eq]

theorem bits_zero_left (x n : Nat) : bits x 0 n = x % 2 ^ n := by
  simp only [bits, Nat.pow_zero, Nat.div_one]

/-! ### The class of a floating value -/

section
variable (F : Fmt) (x : Nat)

/-- The largest exponent: an infinity, or a NaN that is quiet where the top bit of its fraction is set (R103, R115). -/
theorem Fmt.classMask_of_exp_max (top : bits x F.fw F.ew = 2 ^ F.ew - 1) :
    F.classMask x =
      if bits x 0 F.fw = 0 then (if bit x (F.ew + F.fw) then 1 else 128)
      else if bit (bits x 0 F.fw) (F.fw - 1) then 512 else 256 := by
  unfold Fmt.classMask Fmt.decode
  simp only [top, if_true]
  by_cases fr : bits x 0 F.fw = 0
  · simp only [fr, if_true]
    cases bit x (F.ew + F.fw) <;> rfl
  · simp only [fr, if_false]
    cases bit (bits x 0 F.fw) (F.fw - 1) <;> rfl

/-- Exponent 0 below the largest: a zero or a subnormal number (R103, R115). -/
theorem Fmt.classMask_of_exp_zero (top : bits x F.fw F.ew ≠ 2 ^ F.ew - 1) (low : bits x F.fw F.ew = 0) :
    F.classMask x =
      if bits x 0 F.fw = 0 then (if bit x (F.ew + F.fw) then 8 else 16)
      else if bit x (F.ew + F.fw) then 4 else 32 := by
  unfold Fmt.classMask Fmt.decode
  rw [if_neg top, if_pos low]
  by_cases fr : bits x 0 F.fw = 0
  · simp only [fr, if_true]
    cases bit x (F.ew + F.fw) <;> rfl
  · have sub : F.subnormal x = true := by simp [Fmt.subnormal, low, fr]
    simp only [fr, if_false, sub, if_true]
    cases bit x (F.ew + F.fw) <;> rfl

/-- An exponent between: a normal number (R103, R115). -/
theorem Fmt.classMask_of_exp_between (top : bits x F.fw F.ew ≠ 2 ^ F.ew - 1) (low : bits x F.fw F.ew ≠ 0) :
    F.classMask x = if bit x (F.ew + F.fw) then 2 else 64 := by
  have sub : F.subnormal x = false := by simp [Fmt.subnormal, low]
  unfold Fmt.classMask Fmt.decode
  simp only [top, low, if_false, sub]
  cases bit x (F.ew + F.fw) <;> rfl

end

/-- The table of R115, by sign, exponent and fraction in independent arithmetic, for every format. -/
theorem Fmt.classMask_eq (F : Fmt) (x : Nat) :
    F.classMask x =
      (let fr := x % 2 ^ F.fw
       let ex := x / 2 ^ F.fw % 2 ^ F.ew
       let neg := x.testBit (F.ew + F.fw)
       if ex = 2 ^ F.ew - 1 then
         (if fr = 0 then (if neg then 1 else 128) else if fr.testBit (F.fw - 1) then 512 else 256)
       else if ex = 0 then (if fr = 0 then (if neg then 8 else 16) else if neg then 4 else 32)
       else if neg then 2 else 64) := by
  simp only [← bit_eq_testBit, ← bits_zero_left x F.fw]
  change _ = if bits x F.fw F.ew = _ then _ else if bits x F.fw F.ew = 0 then _ else _
  split
  case isTrue top => exact F.classMask_of_exp_max x top
  case isFalse top =>
    split
    case isTrue low => exact F.classMask_of_exp_zero x top low
    case isFalse low => exact F.classMask_of_exp_between x top low

/-- The exponent and fraction widths in which the statement speaks of each fixed floating type are those of the model's
format of that type (R103). -/
theorem fmtOf_fixed :
    ∀ e ∈ ([(.f16, 5, 10), (.b16, 8, 7), (.f32, 8, 23), (.f64, 11, 52)] : List (Ty × Nat × Nat)),
      fmtOf e.1 = ⟨e.2.1, e.2.2⟩ := by decide

/-! ### A lane instruction that writes D -/

/-- A thread that runs a lane instruction whose only effect is a value in D ends with that value written and goes on at the
next word (R41), where the value depends only on what the thread reads. -/
theorem State.forLanes_writeDest_thread (s : State) (t : TRef) (i : Instr) (c : Common) (d : Dst) (ty : Ty)
    (v : State → TRef → Nat) (hv : ∀ a b, State.Apart a b t → v b t = v a t) (hp : s.Passes t i c) :
    (s.forLanes i c fun u s => s.writeDest u d ty (v s u)).thread t = ((s.thread t).withDest d ty (v s t)).past c :=
  s.forLanes_thread t i c _ (fun u s => s.touch_writeDest u d ty _) (fun s => (s.thread t).withDest d ty (v s t))
    (fun s row => s.thread_writeDest t d ty _ row) (fun a b h => by simp only [h.thread, hv a b h]) hp.clear rfl hp

/-- FCLASS puts the mask of its operand in D and does nothing else to a thread that runs it (R115). -/
theorem exec_fclass_thread (f : LaneF) (s : State) (t : TRef) (hp : s.Passes t (.fclass f) f.toCommon) :
    ∃ s', exec (.fclass f) s = .next s' ∧ s'.thread t =
      ((s.thread t).withDest f.d f.ty ((fmtOf f.ty).classMask (s.operand t f.a f.ty))).past f.toCommon :=
  ⟨_, rfl, s.forLanes_writeDest_thread t _ _ f.d f.ty
    (fun s u => (fmtOf f.ty).classMask (s.operand u f.a f.ty)) (fun _ _ h => by simp only [h.operand]) hp⟩

/-- Settles O53: the effect of FCLASS on a thread, with the mask of its format written out by the table of R115. -/
theorem classMasks : Obligations.ClassMasks := by
  unfold Obligations.ClassMasks
  intro e he f s t hty hp
  have fmt : fmtOf f.ty = ⟨e.2.1, e.2.2⟩ := hty ▸ fmtOf_fixed e he
  have effect := exec_fclass_thread f s t hp
  rw [Fmt.classMask_eq, fmt] at effect
  exact effect

end Sys2Proof.Machine
end

/-! SUPPORT. The waymarks that WMCLR clears (R193), what an issue does to a thread whose guard is 0 (R40), and when the end of
a prefetch has no effect (R164). -/

section

namespace Sys2Proof.Machine

/-! ### A thread whose guard is 0 -/

/-- Setting the pc changes no waymark, also where a trap follows (R163). -/
theorem State.wm_setPc (s : State) (t : TRef) (pc : W64) (row : s.hasThread t) :
    ((s.setPc t pc).thread t).wm = (s.thread t).wm := by
  rw [State.setPc, State.thread_setThread]
  · exact fun _ => rfl
  · exact row

/-- Going on at the next word changes no waymark. -/
theorem State.wm_advance (s : State) (t : TRef) (c : Ctl) (row : s.hasThread t) :
    ((s.advance t c).thread t).wm = (s.thread t).wm := by
  have row' : (s.setThread t (·.counted c)).hasThread t :=
    (s.hasThread_setThread t t (·.counted c) fun _ => rfl).2 row
  calc ((s.advance t c).thread t).wm
      = ((s.setThread t (·.counted c)).thread t).wm := State.wm_setPc _ t _ row'
    _ = ((s.thread t).counted c).wm := congrArg Thread.wm (s.thread_setThread t (·.counted c) (fun _ => rfl) row)
    _ = (s.thread t).wm := rfl

/-- A thread of the issue whose guard is 0 passes a lane instruction: of its effect nothing is seen (R40). -/
theorem State.forLanes_thread_of_guard_false (s : State) (t : TRef) (i : Instr) (c : Common) (f : TRef → State → State)
    (hf : ∀ u s, State.Touch u s (f u s)) (issued : t ∈ s.issue.threads) (once : s.issue.threads.Nodup)
    (hg : s.guard t c.ctl = false) :
    ∃ s₁, State.Apart s s₁ t ∧ (s.forLanes i c f).thread t = (s₁.advance t c.ctl).thread t := by
  obtain ⟨s₁, apart, step⟩ := State.thread_foldl _
    (fun s u => State.touch_issueStep i c _ (State.touch_laneStep c f hf) s u) _ s once issued
  have passed : s₁.guard t c.ctl = false := (apart.guard c.ctl).trans hg
  exact ⟨s₁, apart, step.trans (by simp only [passed, Bool.not_false, if_true])⟩

/-! ### Clearing waymarks -/

/-- A thread whose waymarks in a mask are no longer valid and have pstate 0 (R193). -/
def Thread.clearWaymarks (x : Thread) (mask : BitVec 24) : Thread :=
  { x with wm := (List.range 8).zipWith (fun n w =>
      if mask.getLsbD n then { w with valid := false, pstate := 0 } else w) x.wm }

/-- WMCLR is the lane instruction with this effect. -/
theorem exec_wmclr (f : CtlF) (s : State) :
    exec (.wmclr f) s = .next (s.forLanes (.wmclr f) f.toCommon fun t s => s.setThread t (·.clearWaymarks f.arg24)) := rfl

theorem State.touch_clearWaymarks (s : State) (t : TRef) (mask : BitVec 24) :
    State.Touch t s (s.setThread t (·.clearWaymarks mask)) := s.touch_setThread t _ fun _ => rfl

theorem Thread.getElem?_clearWaymarks (x : Thread) (mask : BitVec 24) {n : Nat} (hn : n < 8) :
    (x.clearWaymarks mask).wm[n]? =
      (x.wm[n]?).map fun w => if mask.getLsbD n then { w with valid := false, pstate := 0 } else w := by
  simp only [Thread.clearWaymarks, List.getElem?_zipWith, List.getElem?_range hn]
  cases x.wm[n]? <;> rfl

/-- What WMCLR does to a thread that runs it. -/
theorem exec_wmclr_thread (f : CtlF) (s : State) (t : TRef) (hp : s.Passes t (.wmclr f) f.toCommon) :
    ∃ s', exec (.wmclr f) s = .next s' ∧ s'.thread t = ((s.thread t).clearWaymarks f.arg24).past f.toCommon :=
  ⟨_, exec_wmclr f s, s.forLanes_thread t _ _ _ (fun u s => s.touch_clearWaymarks u f.arg24)
    (fun s => (s.thread t).clearWaymarks f.arg24) (fun s row => s.thread_setThread t _ (fun _ => rfl) row)
    (fun _ _ apart => by rw [apart.thread]) hp.clear rfl hp⟩

/-- WMCLR leaves the waymarks of a thread whose guard is 0. -/
theorem exec_wmclr_wm_of_guard_false (f : CtlF) (s : State) (t : TRef) (issued : t ∈ s.issue.threads)
    (once : s.issue.threads.Nodup) (row : s.hasThread t) (hg : s.guard t f.ctl = false) :
    ∃ s', exec (.wmclr f) s = .next s' ∧ (s'.thread t).wm = (s.thread t).wm := by
  obtain ⟨s₁, apart, step⟩ := s.forLanes_thread_of_guard_false t (.wmclr f) f.toCommon _
    (fun u s => s.touch_clearWaymarks u f.arg24) issued once hg
  refine ⟨_, exec_wmclr f s, ?_⟩
  rw [step, s₁.wm_advance t f.ctl (apart.row.2 row), apart.thread]

/-! ### The end of a prefetch -/

/-- A waymark that is not valid has no prefetch running (R164). -/
theorem State.prefetching_of_invalid (s : State) (t : TRef) (n : Nat)
    (invalid : ((s.thread t).waymark (BitVec.ofNat 3 n)).valid = false) : s.prefetching t n = false := by
  simp [State.prefetching, Thread.prefetches, invalid]

/-- The end of a prefetch that is not running has no effect. -/
theorem exec_waymarkPrefetchDone_of_not_prefetching (s : State) (t : TRef) (n : Nat) (idle : s.prefetching t n = false) :
    exec (.waymarkPrefetchDone t n) s = .next s := by
  change execWaymarkPrefetchDone t n s = .next s
  simp [execWaymarkPrefetchDone, idle]

/-- A waymark in the mask is not valid afterwards, also one that the thread's table does not hold. -/
theorem Thread.waymark_clearWaymarks_valid (x : Thread) (mask : BitVec 24) {n : Nat} (hn : n < 8)
    (inMask : mask.getLsbD n = true) : ((x.clearWaymarks mask).waymark (BitVec.ofNat 3 n)).valid = false := by
  have index : (BitVec.ofNat 3 n).toNat = n := Nat.mod_eq_of_lt hn
  rw [Thread.waymark, index, List.getD_eq_getElem?_getD, x.getElem?_clearWaymarks mask hn]
  cases x.wm[n]? with
  | none => rfl
  | some w => simp [inMask]

/-- Settles O54: what WMCLR does to a thread that runs it; a waymark that it made invalid has no prefetch left to end. -/
theorem waymarkClear : Obligations.WaymarkClear := by
  unfold Obligations.WaymarkClear
  refine fun f s t => ⟨fun hp => ?_, fun issued once row hg => exec_wmclr_wm_of_guard_false f s t issued once row hg⟩
  obtain ⟨s', next, effect⟩ := exec_wmclr_thread f s t hp
  refine ⟨s', next, by rw [effect]; rfl, fun n hn => ⟨?_, fun inMask => ?_⟩⟩
  · rw [effect]
    exact (s.thread t).getElem?_clearWaymarks f.arg24 hn
  · have invalid : ((s'.thread t).waymark (BitVec.ofNat 3 n)).valid = false := by
      rw [effect]
      exact (s.thread t).waymark_clearWaymarks_valid f.arg24 hn inMask
    exact exec_waymarkPrefetchDone_of_not_prefetching s' t n (s'.prefetching_of_invalid t n invalid)

end Sys2Proof.Machine
end

/-! SUPPORT. The word that TINFO reads in each state of a handle (R200), and what the issue of a tile instruction and its
completion with a value do to its thread (R20, R201). -/

section

namespace Sys2Proof.Machine

/-! ### The fields of the word -/

/-- The channel binding of a handle in its word: bit 37, and the channel in bits 36:33 (R200). -/
def Handle.chanWord (h : Handle) : Nat := match h.chan with | some c => 2 ^ 37 + c.toNat * 2 ^ 33 | none => 0

/-- The shape of a tile in the word of its handle: rows, columns and element width less 1, and level (R200). -/
def shapeWord (rows cols ew : Nat) (level : Bool) : Nat :=
  (rows - 1) % 4096 + (cols - 1) % 4096 * 2 ^ 12 + (ew - 1) % 32 * 2 ^ 24 + (if level then 2 ^ 29 else 0)

/-- The word of a handle with a shape, without granules: the sum of fields in which the model makes it (R200). -/
def Handle.fieldSum (h : Handle) (st rows cols ew : Nat) (level : Bool) : Nat :=
  (match h.chan with | some c => fieldAt 1 37 1 + fieldAt c.toNat 33 4 | none => 0) +
    fieldAt st 30 3 + bitAt level 29 + fieldAt (ew - 1) 24 5 + fieldAt (cols - 1) 12 12 + fieldAt (rows - 1) 0 12

/-- A state's number fits 3 bits and a channel's fits 4, so that their fields hold them whole. -/
theorem Handle.fieldSum_eq (h : Handle) (st rows cols ew : Nat) (level : Bool) (hst : st < 8) :
    h.fieldSum st rows cols ew level = st * 2 ^ 30 + (h.chanWord + shapeWord rows cols ew level) := by
  unfold Handle.fieldSum Handle.chanWord shapeWord fieldAt bitAt
  cases h.chan with
  | none =>
    dsimp only
    omega
  | some c =>
    have chan : c.toNat < 2 ^ 4 := c.isLt
    dsimp only
    omega

/-! ### The word in each state -/

theorem State.infoWord_free (s : State) (team : Nat) (hN : BitVec 8) (free : s.handle? team hN = none) :
    s.infoWord team hN = 0 := by
  simp only [State.infoWord, free]

section
variable (s : State) (team : Nat) (hN : BitVec 8) {h : Handle} (found : s.handle? team hN = some h)
include found

theorem State.infoWord_waiting {n : Nat} (state : h.state = .waiting n) : s.infoWord team hN = 2 ^ 30 := by
  simp only [State.infoWord, found, state]
  rfl

theorem State.infoWord_stale {rows cols ew : Nat} {level : Bool} (state : h.state = .stale rows cols ew level) :
    s.infoWord team hN = 4 * 2 ^ 30 + h.chanWord + shapeWord rows cols ew level := by
  have word : s.infoWord team hN = h.fieldSum 4 rows cols ew level := by
    simp only [State.infoWord, found, state]
    rfl
  rw [word, h.fieldSum_eq _ _ _ _ _ (by decide), Nat.add_assoc]

/-- A View that is being freed keeps the shape of its source in the handle, which may outlive the source. -/
theorem State.infoWord_releasing_view {n rows cols ew : Nat} {level : Bool}
    (state : h.state = .releasing n true rows cols ew level) :
    s.infoWord team hN = 5 * 2 ^ 30 + h.chanWord + shapeWord rows cols ew level := by
  have word : s.infoWord team hN = h.fieldSum 5 rows cols ew level := by
    simp only [State.infoWord, found, state]
    rfl
  rw [word, h.fieldSum_eq _ _ _ _ _ (by decide), Nat.add_assoc]

section
variable {n : Nat} {y : Tile} (tile : s.tile? n = some y)
include tile

theorem State.infoWord_allocated (state : h.state = .allocated n) :
    s.infoWord team hN =
      2 * 2 ^ 30 + (h.chanWord + shapeWord y.rows y.cols y.ew y.level) + y.granules % 1024 * 2 ^ 38 := by
  have word : s.infoWord team hN = h.fieldSum 2 y.rows y.cols y.ew y.level + fieldAt y.granules 38 10 := by
    simp only [State.infoWord, found, state, tile]
    rfl
  rw [word, h.fieldSum_eq _ _ _ _ _ (by decide)]
  rfl

/-- The word of a View counts no granules. -/
theorem State.infoWord_view (state : h.state = .view n) :
    s.infoWord team hN = 3 * 2 ^ 30 + (h.chanWord + shapeWord y.rows y.cols y.ew y.level) := by
  have word : s.infoWord team hN = h.fieldSum 3 y.rows y.cols y.ew y.level := by
    simp only [State.infoWord, found, state, tile]
    rfl
  rw [word, h.fieldSum_eq _ _ _ _ _ (by decide)]

theorem State.infoWord_releasing {rows cols ew : Nat} {level : Bool}
    (state : h.state = .releasing n false rows cols ew level) :
    s.infoWord team hN =
      5 * 2 ^ 30 + (h.chanWord + shapeWord y.rows y.cols y.ew y.level) + y.granules % 1024 * 2 ^ 38 := by
  have word : s.infoWord team hN = h.fieldSum 5 y.rows y.cols y.ew y.level + fieldAt y.granules 38 10 := by
    simp only [State.infoWord, found, state, tile]
    rfl
  rw [word, h.fieldSum_eq _ _ _ _ _ (by decide)]
  rfl

end
end

/-! ### The issue -/

/-- A start samples the operands it is given and leaves the instruction open. -/
theorem State.startedIn_start (s : State) (t : TRef) (i : Instr) (c : Common) (a b cc x : Nat) :
    (s.start t i c a b cc x).1.StartedIn s t i c a b cc x :=
  ⟨rfl, rfl, rfl, rfl, rfl, rfl, rfl, rfl, rfl, ⟨rfl, rfl, rfl, rfl⟩, rfl, rfl⟩

theorem State.phase_start (s : State) (t : TRef) (i : Instr) (c : Common) (a b cc x : Nat) :
    (s.start t i c a b cc x).1.phase = .pending := rfl

theorem State.mem_ops_start (s : State) (t : TRef) (i : Instr) (c : Common) (a b cc x : Nat) :
    (s.start t i c a b cc x).1 ∈ (s.start t i c a b cc x).2.ops := by
  rw [State.ops_start]
  exact List.mem_append_right _ (List.mem_singleton_self _)

/-- After a start that passes, the thread is the one in which statements speak of a started instruction. -/
theorem State.thread_start_started (s : State) (t : TRef) (i : Instr) (c : Common) (a b cc x : Nat) (hp : s.Passes t i c) :
    (s.start t i c a b cc x).2.thread t = (s.thread t).started c :=
  s.thread_start t i c a b cc x hp.row hp.next

/-- Where the issue has one thread, TINFO starts there and does nothing else, whatever the handle's state (R211). -/
theorem exec_tinfo_of_alone (f : TileF) (s : State) (t : TRef) (h : s.Alone t (.tinfo f) f.toCommon) :
    exec (.tinfo f) s = .next (s.start t (.tinfo f) f.toCommon 0 0 0 0).2 :=
  congrArg Host.Outcome.next (s.forIssue_one t (.tinfo f) f.toCommon _ h.toRuns h.alone)

/-! ### The completion -/

/-- A completion with a value leaves the instruction complete. -/
theorem State.completed_completeWith (s : State) (o : Op) (v : Nat) (c : Common) (hc : o.instr.common = some c)
    (h0 : o.clobber = 0) (row : s.hasThread o.who) : s.Completed (s.completeWith o v) o := by
  refine ⟨fun p hp => ?_, fun j slot => ?_⟩
  · rw [s.ops_completeWith o v h0] at hp
    exact of_decide_eq_true (List.mem_filter.1 hp).2
  · rw [s.thread_completeWith o v c hc h0 row]
    simp only [Thread.freed, Thread.withBits, slot]

/-- A completion with a value sets the bits of D. -/
theorem State.slices_completeWith (s : State) (o : Op) (v : Nat) (c : Common) (hc : o.instr.common = some c)
    (h0 : o.clobber = 0) (row : s.hasThread o.who) :
    ((s.completeWith o v).thread o.who).slices = slicesSet (s.thread o.who).slices c.d.start.toNat c.d.w.bits v := by
  rw [s.thread_completeWith o v c hc h0 row]
  rfl

/-- An incomplete TINFO completes with the word that its handle has then (R203, R211). -/
theorem exec_tileOpComplete_tinfo (s : State) (o : Op) (f : TileF) (found : s.op? o.id = some o) (instr : o.instr = .tinfo f)
    (phase : o.phase = .pending) :
    exec (.tileOpComplete o.id) s = .next (s.completeWith o (s.infoWord o.who.team f.h)) := by
  change execTileOpComplete o.id s = _
  have due : s.tileOpDue o = true := by simp only [State.tileOpDue, phase, instr]
  simp only [execTileOpComplete, found, due, phase, instr]
  rfl

/-- The step that completes a TINFO puts the handle's word in D. -/
theorem tinfo_completes_with_infoWord (s : State) (o : Op) (f : TileF) (known : s.HasOp o) (h0 : o.clobber = 0)
    (instr : o.instr = .tinfo f) (phase : o.phase = .pending) :
    ∃ s', exec (.tileOpComplete o.id) s = .next s' ∧ s.Completed s' o ∧
      (s'.thread o.who).slices =
        slicesSet (s.thread o.who).slices f.d.start.toNat f.d.w.bits (s.infoWord o.who.team f.h) := by
  obtain ⟨found, row⟩ := known
  have common : o.instr.common = some f.toCommon := by rw [instr]; rfl
  exact ⟨_, exec_tileOpComplete_tinfo s o f found instr phase, s.completed_completeWith o _ _ common h0 row,
    s.slices_completeWith o _ _ common h0 row⟩

/-- Settles O55: TINFO starts without a look at the handle, and completes with the word of the state in which it finds it. -/
theorem tileInformation : Obligations.TileInformation := by
  unfold Obligations.TileInformation
  refine ⟨fun f s t alone => ?_, fun s o f known h0 instr phase => ?_⟩
  · exact ⟨_, _, exec_tinfo_of_alone f s t alone, s.thread_start_started t _ _ _ _ _ _ alone.toPasses,
      s.mem_ops_start t _ _ _ _ _ _, s.startedIn_start t _ _ _ _ _ _, s.phase_start t _ _ _ _ _ _⟩
  · have done := tinfo_completes_with_infoWord s o f known h0 instr phase
    intro ends shape
    have word : ∀ v, s.infoWord o.who.team f.h = v → ends v := fun v e => e ▸ done
    refine ⟨fun free => word _ (s.infoWord_free _ _ free), fun h found => ⟨fun n state => ?_, fun rows cols ew level state => ?_,
      fun y tile => ⟨fun state => ?_, fun state => ?_, fun rows cols ew level state => ?_⟩, fun n rows cols ew level state => ?_⟩⟩
    · exact word _ (s.infoWord_waiting _ _ found state)
    · exact word _ (s.infoWord_stale _ _ found state)
    · exact word _ (s.infoWord_allocated _ _ found tile state)
    · exact word _ (s.infoWord_view _ _ found tile state)
    · exact word _ (s.infoWord_releasing _ _ found tile state)
    · exact word _ (s.infoWord_releasing_view _ _ found state)

end Sys2Proof.Machine
end

/-! SUPPORT. When the decoder gives an instruction, and the words that the specification works out field by field. -/

section

namespace Sys2Proof

/-- What a word has to pass to decode to an instruction: its opcode has a row (R58), its common fields read as those of the
instruction (R35 to R39), its class field then reads as the instruction (R48 to R57), and the instruction passes checks 2 to 4
of R47. -/
structure Instr.ReadFrom (i : Instr) (w : Word) : Prop where
  listed : opcodeListed (w.extractLsb' 0 10).toNat = true
  common : decodeCommon w = i.common
  fields : i.common.bind (decodeFields (w.extractLsb' 0 10).toNat w) = some i
  wellFormed : i.WellFormed

/-- An instruction that a word gives in all stages of the decoder is what the word decodes to. -/
theorem decode_of_readFrom {i : Instr} {w : Word} (h : i.ReadFrom w) : decode w = .ok i := by
  obtain ⟨listed, common, fields, wellFormed⟩ := h
  have read : (decodeCommon w).bind (decodeFields (w.extractLsb' 0 10).toNat w) = some i := by rw [common, fields]
  have legal : i.illegal = none := wellFormed
  simp only [decode, listed, read, legal, Bool.not_true, Bool.false_eq_true, if_false]

/-- The same of a word whose bits are a number. -/
theorem decodeTableWord_of_readFrom {n w : Nat} {i : Instr} (h : i.ReadFrom (BitVec.ofNat 128 w)) :
    decodeTableWord n w = some i := by
  rw [decodeTableWord, decode_of_readFrom h]
  rfl

/-- Settles O56: each word, the three of R414 and those worked out by the lane, memory, control, tile, copy, matrix, format,
spawn, translation, gate, order and scheduling chapters, is read in the decoder's four stages, each a table over its bits. -/
theorem decodeWords : Obligations.DecodeWords := by
  unfold Obligations.DecodeWords
  intro z dz p q1
  refine ⟨?rput, ?fevt, ?fbwait, ?cmp, ?gred, ?ld, ?xcall, ?tbind, ?cpy, ?mma, ?fstat, ?spawn, ?tlbiVa, ?gate, ?ordmark,
    ?psaved⟩
  all_goals
    exact decodeTableWord_of_readFrom
      { listed := by decide
        common := by decide
        fields := by decide
        wellFormed := by decide }

end Sys2Proof
end
